-- ==== Sys2Proof/Word.lean ====
section
/-! DEFINITION. The word types of the TQE, and the group of four values its 4x4 transforms are written over. -/

namespace Sys2Proof

/-- A control and status register, or a command word (00_scope.md R7, 30_encoding.md R110). -/
abbrev Word := BitVec 32

/-- A 16-bit element of local memory (00_scope.md R7). -/
abbrev Half := BitVec 16

/-- A byte of local memory or of the arena (00_scope.md R7). -/
abbrev Byte := BitVec 8

/-- Four values in order: one row, or one column, of a 4x4 block (00_scope.md R15). -/
structure Quad (α : Type) where
  q0 : α
  q1 : α
  q2 : α
  q3 : α
  deriving DecidableEq, Repr

/-- A 4x4 block, row by row: `(m.qr).qc` is `m[r][c]` (00_scope.md R15). -/
abbrev Mat (α : Type) := Quad (Quad α)

end Sys2Proof
end

