-- ==== Sys2Proof/Syntax.lean ====
section
/-! DEFINITION. The commands of TQE-CMD version 1, one constructor per row of spec/opcode_table.json
(30_encoding.md R114). -/

namespace Sys2Proof

/-- The three planes: 0 is Y (luma), 1 is Cb, 2 is Cr (00_scope.md R12). -/
inductive Plane where
  | y
  | cb
  | cr
  deriving DecidableEq, Repr

/-- A command with its operands. A sub-block number is in raster order within its plane
(00_scope.md R12); a flag is named as the command's rule names it. -/
inductive Instr where
  | nop
  | ftq4 (p : Plane) (n : Fin 16) (dcx : Bool)
  | fhq4
  | fhq2 (p : Plane)
  | ihs4
  | ihs2 (p : Plane)
  | iqtr4 (p : Plane) (n : Fin 16) (dcsrc : Bool)
  | iqtr4dc (p : Plane) (n : Fin 16) (dcsrc : Bool)
  | copy4 (p : Plane) (n : Fin 16)
  | pack4 (p : Plane) (n : Fin 16) (ac : Bool)
  | packdc (p : Plane)
  | mbBegin
  | codeI16 (recon : Bool) (border : Bool)
  | codeI4 (n : Fin 16) (recon : Bool)
  | codeL16 (elim : Bool) (recon : Bool) (border : Bool)
  | codeC8 (elim : Bool) (recon : Bool) (border : Bool)
  | reconY16 (dc : Bool) (border : Bool)
  | reconC8 (border : Bool)
  deriving DecidableEq, Repr

end Sys2Proof
end

