-- ==== Sys2Proof/WellFormed.lean ====
section
/-! DEFINITION. Which commands have legal operands: the parts of 30_encoding.md R116 that a term of `Instr`
can still break, (c), (d) and (e). -/

namespace Sys2Proof

/-- `NB(PL)`, the number of sub-blocks of a plane (30_encoding.md R113). -/
def Plane.nb : Plane → Nat
  | .y => 16
  | .cb => 4
  | .cr => 4

/-- The plane is one of the two chroma planes, the only ones FHQ2 and IHS2 take (30_encoding.md R114). -/
def Plane.isChroma : Plane → Bool
  | .y => false
  | .cb => true
  | .cr => true

/-- The operands are legal for the command (30_encoding.md R114, R116 (c) to (e)). -/
def Instr.wf : Instr → Bool
  | .nop => true
  | .ftq4 p n _ => decide (n.val < p.nb)
  | .fhq4 => true
  | .fhq2 p => p.isChroma
  | .ihs4 => true
  | .ihs2 p => p.isChroma
  | .iqtr4 p n _ => decide (n.val < p.nb)
  | .iqtr4dc p n _ => decide (n.val < p.nb)
  | .copy4 p n => decide (n.val < p.nb)
  | .pack4 p n _ => decide (n.val < p.nb)
  | .packdc _ => true
  | .mbBegin => true
  | .codeI16 recon border => !border || recon
  | .codeI4 _ _ => true
  | .codeL16 _ recon border => !border || recon
  | .codeC8 _ recon border => !border || recon
  | .reconY16 _ _ => true
  | .reconC8 _ => true

end Sys2Proof
end

