-- ==== Sys2Proof/Decode.lean ====
section
/-! DEFINITION. Decoding a command word and, after it, encoding a command (30_encoding.md R110 to R118).
`decode` is total on 32-bit words: it gives one command, or the reason of R115 or R116 the word is refused for.
BAD_QPARAM (R117) depends on the state and is checked at issue (`issueCheck`, Machine/Operands.lean). -/

namespace Sys2Proof

/-- Why a word is no command (30_encoding.md R115, R116). -/
inductive Reject where
  | illegalOpcode
  | illegalField
  deriving DecidableEq, Repr

/-- The answer of the decoder: a command, or the reason there is none. -/
inductive Decoded where
  | ok (i : Instr)
  | reject (r : Reject)
  deriving DecidableEq, Repr

/-! ### Fields (30_encoding.md R111, R112) -/

/-- Bits `hi` down to `lo` of a word, zero-extended (00_scope.md R10). -/
def bits (w : Word) (hi lo : Nat) : Nat := (w.toNat >>> lo) % 2 ^ (hi - lo + 1)

/-- OP, bits 31:24. -/
def opOf (w : Word) : Byte := BitVec.ofNat 8 (bits w 31 24)

/-- PL, bits 23:22; 3 is reserved. -/
def planeOf (w : Word) : Option Plane :=
  match bits w 23 22 with
  | 0 => some .y
  | 1 => some .cb
  | 2 => some .cr
  | _ => none

/-- BLK, bits 21:18. -/
def blkOf (w : Word) : Fin 16 := Fin.ofNat 16 (bits w 21 18)

/-- FDC, bit 17. -/
def fdcOf (w : Word) : Bool := w.getLsbD 17
/-- FEL, bit 16. -/
def felOf (w : Word) : Bool := w.getLsbD 16
/-- FRC, bit 15. -/
def frcOf (w : Word) : Bool := w.getLsbD 15
/-- FBD, bit 14. -/
def fbdOf (w : Word) : Bool := w.getLsbD 14

/-! ### The opcode map (30_encoding.md R114) -/

/-- One row of the map: the opcode, and for each field whether the command uses it. -/
structure OpRow where
  op : Byte
  pl : Bool
  blk : Bool
  fdc : Bool
  fel : Bool
  frc : Bool
  fbd : Bool
  deriving DecidableEq, Repr

/-- The 18 rows of 30_encoding.md R114, in its order. -/
def opRows : List OpRow :=
  [ ⟨0x00, false, false, false, false, false, false⟩,   -- NOP
    ⟨0x01, true,  true,  true,  false, false, false⟩,   -- FTQ4
    ⟨0x02, false, false, false, false, false, false⟩,   -- FHQ4
    ⟨0x03, true,  false, false, false, false, false⟩,   -- FHQ2
    ⟨0x08, false, false, false, false, false, false⟩,   -- IHS4
    ⟨0x09, true,  false, false, false, false, false⟩,   -- IHS2
    ⟨0x0A, true,  true,  true,  false, false, false⟩,   -- IQTR4
    ⟨0x0B, true,  true,  true,  false, false, false⟩,   -- IQTR4DC
    ⟨0x0C, true,  true,  false, false, false, false⟩,   -- COPY4
    ⟨0x10, true,  true,  true,  false, false, false⟩,   -- PACK4
    ⟨0x11, true,  false, false, false, false, false⟩,   -- PACKDC
    ⟨0x20, false, false, false, false, false, false⟩,   -- MB_BEGIN
    ⟨0x21, false, false, false, false, true,  true⟩,    -- CODE_I16
    ⟨0x22, false, true,  false, false, true,  false⟩,   -- CODE_I4
    ⟨0x23, false, false, false, true,  true,  true⟩,    -- CODE_L16
    ⟨0x24, false, false, false, true,  true,  true⟩,    -- CODE_C8
    ⟨0x25, false, false, true,  false, false, true⟩,    -- RECON_Y16
    ⟨0x26, false, false, false, false, false, true⟩ ]   -- RECON_C8

/-- The row of an opcode; none for the reserved opcodes of 30_encoding.md R115. -/
def opRow (op : Byte) : Option OpRow := opRows.find? fun row => row.op == op

/-- Bits 13:0 and every field the row marks "-" are 0 (30_encoding.md R116 (a), (b)). -/
def unusedClear (row : OpRow) (w : Word) : Bool :=
  bits w 13 0 == 0
    && (row.pl || bits w 23 22 == 0)
    && (row.blk || bits w 21 18 == 0)
    && (row.fdc || !fdcOf w)
    && (row.fel || !felOf w)
    && (row.frc || !frcOf w)
    && (row.fbd || !fbdOf w)

/-- The command of a defined opcode with the word's operands; none where the word names plane 3. -/
def assemble (w : Word) : Option Instr :=
  match (opOf w).toNat with
  | 0x00 => some .nop
  | 0x01 => (planeOf w).map fun p => .ftq4 p (blkOf w) (fdcOf w)
  | 0x02 => some .fhq4
  | 0x03 => (planeOf w).map fun p => .fhq2 p
  | 0x08 => some .ihs4
  | 0x09 => (planeOf w).map fun p => .ihs2 p
  | 0x0A => (planeOf w).map fun p => .iqtr4 p (blkOf w) (fdcOf w)
  | 0x0B => (planeOf w).map fun p => .iqtr4dc p (blkOf w) (fdcOf w)
  | 0x0C => (planeOf w).map fun p => .copy4 p (blkOf w)
  | 0x10 => (planeOf w).map fun p => .pack4 p (blkOf w) (fdcOf w)
  | 0x11 => (planeOf w).map fun p => .packdc p
  | 0x20 => some .mbBegin
  | 0x21 => some (.codeI16 (frcOf w) (fbdOf w))
  | 0x22 => some (.codeI4 (blkOf w) (frcOf w))
  | 0x23 => some (.codeL16 (felOf w) (frcOf w) (fbdOf w))
  | 0x24 => some (.codeC8 (felOf w) (frcOf w) (fbdOf w))
  | 0x25 => some (.reconY16 (fdcOf w) (fbdOf w))
  | 0x26 => some (.reconC8 (fbdOf w))
  | _ => none

/-- Decoding (30_encoding.md R118): ILLEGAL_OPCODE is checked before ILLEGAL_FIELD (60_exceptions.md R285). -/
def decode (w : Word) : Decoded :=
  match opRow (opOf w) with
  | none => .reject .illegalOpcode
  | some row =>
    if unusedClear row w then
      match assemble w with
      | some i => if i.wf then .ok i else .reject .illegalField
      | none => .reject .illegalField
    else .reject .illegalField

/-- The command the decoder reads from a word given as a number, bit 0 least significant. A command word is one
32-bit word (30_encoding.md R110), so a number of more bits is none. -/
def decodeTableWord (nbits w : Nat) : Option Instr :=
  let v := w % 2 ^ nbits
  if v < 2 ^ 32 then
    match decode (BitVec.ofNat 32 v) with
    | .ok i => some i
    | .reject _ => none
  else none

/-! ### Encoding (30_encoding.md R118) -/

/-- The PL field of a plane. -/
def Plane.idx : Plane → Nat
  | .y => 0
  | .cb => 1
  | .cr => 2

/-- `(OP << 24) | (PL << 22) | (BLK << 18) | (FDC << 17) | (FEL << 16) | (FRC << 15) | (FBD << 14)`
(30_encoding.md R118); the fields do not overlap, so the sum is the same number. -/
def pack (op pl blk : Nat) (fdc fel frc fbd : Bool) : Word :=
  BitVec.ofNat 32
    (op * 2 ^ 24 + pl * 2 ^ 22 + blk * 2 ^ 18 + fdc.toNat * 2 ^ 17 + fel.toNat * 2 ^ 16
      + frc.toNat * 2 ^ 15 + fbd.toNat * 2 ^ 14)

/-- The word of a command (30_encoding.md R114, R118). -/
def encode : Instr → Word
  | .nop => pack 0x00 0 0 false false false false
  | .ftq4 p n dcx => pack 0x01 p.idx n.val dcx false false false
  | .fhq4 => pack 0x02 0 0 false false false false
  | .fhq2 p => pack 0x03 p.idx 0 false false false false
  | .ihs4 => pack 0x08 0 0 false false false false
  | .ihs2 p => pack 0x09 p.idx 0 false false false false
  | .iqtr4 p n dcsrc => pack 0x0A p.idx n.val dcsrc false false false
  | .iqtr4dc p n dcsrc => pack 0x0B p.idx n.val dcsrc false false false
  | .copy4 p n => pack 0x0C p.idx n.val false false false false
  | .pack4 p n ac => pack 0x10 p.idx n.val ac false false false
  | .packdc p => pack 0x11 p.idx 0 false false false false
  | .mbBegin => pack 0x20 0 0 false false false false
  | .codeI16 recon border => pack 0x21 0 0 false false recon border
  | .codeI4 n recon => pack 0x22 0 n.val false false recon false
  | .codeL16 elim recon border => pack 0x23 0 0 false elim recon border
  | .codeC8 elim recon border => pack 0x24 0 0 false elim recon border
  | .reconY16 dc border => pack 0x25 0 0 dc false false border
  | .reconC8 border => pack 0x26 0 0 false false false border

end Sys2Proof
end

