-- ==== Sys2Proof/Config.lean ====
section
/-! DEFINITION. What the spec leaves to the device: constants without a body, so that no proof can see a value.
None of them is a number the model chose. -/

namespace Sys2Proof.Config

/-- The open parameter P_INV_TMP_WRAP16 (00_scope.md R8, 10_state.md R49): whether the temporaries of the inverse
4x4 transform are cut to 16 bits. `State.reset` puts it in the CFG register's bit (log 9). -/
opaque invTmpWrap16 : Bool

/-- The word a host read returns where 20_memory.md R83 says "any value"; the argument is the counter `State.free`
at the read (log 7). -/
opaque freeWord : Nat → Word

/-- The byte a local-memory address holds where 70_reset_and_hazards.md R312 says "any value"; the arguments are
`State.free` at the soft reset and the address (log 8). -/
opaque freeByte : Nat → Nat → Byte

end Sys2Proof.Config
end

