-- ==== Sys2Proof/Machine/State.lean ====
section
/-! DEFINITION. The state of the TQE as plain data (10_state.md), the reasons a step can stop, and the state after
a hardware reset. -/

namespace Sys2Proof.Machine

/-- A byte-addressed memory: (address, byte) pairs, addresses strictly rising. An address that is not listed has
no value (20_memory.md R89 for local memory, log 5 for the arena). -/
abbrev Memory := List Host.Cell

/-- The errors STATUS.ERR_CODE can name (60_exceptions.md R281). -/
inductive ErrorCode where
  | illegalOpcode
  | illegalField
  | badQparam
  | arenaOvf
  | cmdOverrun
  | busyWrite
  deriving DecidableEq, Repr

/-- ERR_CODE and ERR_OPCODE of the first error since ERR was cleared (10_state.md R35, 60_exceptions.md R284). -/
structure ErrorRecord where
  code : ErrorCode
  opcode : Byte
  deriving DecidableEq, Repr

/-- The width of a host access in bytes: 1, 2 or 4 (20_memory.md R81). -/
inductive Width where
  | w8
  | w16
  | w32
  deriving DecidableEq, Repr

/-- One access of the host port: a 16-bit byte address, 32 data bits (20_memory.md R81). A narrow write carries its
bytes in the low data bits (log 11). -/
inductive HostAccess where
  | write (width : Width) (addr : BitVec 16) (data : Word)
  | read (width : Width) (addr : BitVec 16)
  deriving DecidableEq, Repr

/-- One move of an agent (00_scope.md R19): a host access, the engine completing the command it runs, or the reset
input asserted and released (70_reset_and_hazards.md R310). -/
inductive Event where
  | host (a : HostAccess)
  | engine
  | hardReset
  deriving DecidableEq, Repr

/-- The host port's answer to an access (20_memory.md R81, R101 (b)). -/
structure PortResponse where
  busError : Bool
  data : Word
  deriving DecidableEq, Repr

/-- Everything the spec gives the machine (10_state.md), and, last, three fields of the model's own. -/
structure State where
  /-- CMD, R34; while `busy` it is also the word under execution, R62. -/
  cmd : Word
  /-- CTRL.IRQ_DONE_EN, R33. -/
  irqDoneEn : Bool
  /-- CTRL.IRQ_ERR_EN, R33. -/
  irqErrEn : Bool
  /-- STATUS.BUSY, R35. -/
  busy : Bool
  /-- STATUS.DONE, R35. -/
  done : Bool
  /-- STATUS.ERR with ERR_CODE and ERR_OPCODE, R35: none when ERR = 0. -/
  err : Option ErrorRecord
  /-- ARENA_CUR, R36; bit 0 is 0. -/
  arenaCur : Word
  /-- ARENA_END, R37; bit 0 is 0. -/
  arenaEnd : Word
  /-- MB_START, R38. -/
  mbStart : Word
  /-- CNTRL_Y, R39. -/
  cntrlY : Word
  /-- CNTRL_C, R40; bits 23:16 and 7:0 are 0. -/
  cntrlC : Word
  /-- CBP, R42; bits 31:8 are 0. -/
  cbp : Word
  /-- ELIM, R43; bits 31:7 are 0. -/
  elim : Word
  /-- COST_Y, R44; bits 31:16 are 0. -/
  costY : Word
  /-- COST_C, R45. -/
  costC : Word
  /-- COST_ACC, R46. -/
  costAcc : Word
  /-- THR, R47. -/
  thr : Word
  /-- COST_LUT0, R48. -/
  costLut0 : Word
  /-- COST_LUT1, R48. -/
  costLut1 : Word
  /-- COST_LUT2, R48. -/
  costLut2 : Word
  /-- COST_LUT3, R48. -/
  costLut3 : Word
  /-- QPARAM_Y, R51. -/
  qparamY : Word
  /-- ROUND_Y, R52. -/
  roundY : Word
  /-- QPARAM_CB, R51. -/
  qparamCb : Word
  /-- ROUND_CB, R52. -/
  roundCb : Word
  /-- QPARAM_CR, R51. -/
  qparamCr : Word
  /-- ROUND_CR, R52. -/
  roundCr : Word
  /-- CFG bit 0, the device's P_INV_TMP_WRAP16, R49; no step changes it. -/
  invTmpWrap16 : Bool
  /-- Local memory from 0x0100 on: tables, pixel buffers, coefficient buffers, counts (20_memory.md R84). -/
  lm : Memory
  /-- The bytes of the ARENA space whose value the model knows (20_memory.md R80, R90; log 5). -/
  arena : Memory
  /-- The model's own: the moves still to come (log 1). -/
  pending : List Event
  /-- The model's own: the host port's last answer (log 10). -/
  resp : PortResponse
  /-- The model's own: the counter the free values are drawn at (log 10). -/
  free : Nat
  deriving DecidableEq, Repr

/-- Why the machine stops. -/
inductive Fault where
  /-- UNINIT_READ (20_memory.md R89): raised by a command that reads, or by the host port on a legal read of, the
  local-memory byte `addr` while it has no value. The hardware goes on with whatever bits it holds, so stopping is
  the safe side: no claim can rest on such a value. -/
  | uninitRead (addr : Nat)
  deriving DecidableEq, Repr

/-- Why an instruction has no meaning here. -/
inductive Refusal where
  /-- The instruction's meaning is not written yet; raised by no arm of `exec`. Safe: nothing is claimed of it. -/
  | notModelled (mnemonic : String)
  deriving DecidableEq, Repr

/-- The machine after a hardware reset (10_state.md R64, 70_reset_and_hazards.md R310). -/
def State.reset : State where
  cmd := 0
  irqDoneEn := false
  irqErrEn := false
  busy := false
  done := false
  err := none
  arenaCur := 0
  arenaEnd := 0
  mbStart := 0
  cntrlY := 0
  cntrlC := 0
  cbp := 0
  elim := 0
  costY := 0
  costC := 0
  costAcc := 0
  thr := 0x09040504
  costLut0 := 0x01020203
  costLut1 := 0x01010101
  costLut2 := 0x01010101
  costLut3 := 0x01010101
  qparamY := 0
  roundY := 0
  qparamCb := 0
  roundCb := 0
  qparamCr := 0
  roundCr := 0
  invTmpWrap16 := Config.invTmpWrap16
  lm := []
  arena := []
  pending := []
  resp := ⟨false, 0⟩
  free := 0

end Sys2Proof.Machine
end

