-- ==== Sys2Proof/Machine/Ops.lean ====
section
/-! DEFINITION. The named operations: memory, local-memory access of the engine, exact arithmetic and its narrowing
(00_scope.md R9, R10), steps that can end a command, and the recording of errors and completion
(60_exceptions.md R282, R284, R288). -/

namespace Sys2Proof.Machine

/-! ### Memory -/

/-- The byte at an address; none where the address has no value. -/
def Memory.read : Memory → Nat → Option Byte
  | [], _ => none
  | (a, b) :: m, x => if a = x then some b else Memory.read m x

/-- Store one byte, keeping the addresses strictly rising. -/
def Memory.write : Memory → Nat → Byte → Memory
  | [], x, v => [(x, v)]
  | (a, b) :: m, x, v =>
    if x < a then (x, v) :: (a, b) :: m
    else if a = x then (x, v) :: m
    else (a, b) :: Memory.write m x v

/-- Take away the value of every address from `lo` up to, not including, `hi`. -/
def Memory.forget (m : Memory) (lo hi : Nat) : Memory :=
  m.filter fun c => !(decide (lo ≤ c.1) && decide (c.1 < hi))

/-- The canonical form: addresses strictly rising. No listed byte equals what an unlisted address reads as, since
that is no value. -/
def Memory.wf : Memory → Bool
  | [] => true
  | [_] => true
  | c :: d :: m => decide (c.1 < d.1) && Memory.wf (d :: m)

/-- A 16-bit value, bits 7:0 at `x` and bits 15:8 at `x + 1` (20_memory.md R86, R92). -/
def Memory.writeHalf (m : Memory) (x : Nat) (v : Half) : Memory :=
  (m.write x (v.extractLsb' 0 8)).write (x + 1) (v.extractLsb' 8 8)

/-- Consecutive 16-bit values from `x` on. -/
def Memory.writeHalves : Memory → Nat → List Half → Memory
  | m, _, [] => m
  | m, x, v :: vs => Memory.writeHalves (m.writeHalf x v) (x + 2) vs

/-- Consecutive bytes from `x` on. -/
def Memory.writeBytes : Memory → Nat → List Byte → Memory
  | m, _, [] => m
  | m, x, v :: vs => Memory.writeBytes (m.write x v) (x + 1) vs

/-! ### Steps that can end a command -/

/-- How a command's steps can end early. -/
inductive Stop where
  /-- The engine read a local-memory byte that has no value (20_memory.md R89). -/
  | uninit (addr : Nat)
  /-- `raise Error(code)` with the state as the steps before it left it (00_scope.md R11, 60_exceptions.md R286). -/
  | raised (code : ErrorCode) (s : State)
  deriving DecidableEq, Repr

/-- `f` on each element in order, the results in order; the first stop ends it. -/
def readAll (f : α → Except Stop β) : List α → Except Stop (List β)
  | [] => .ok []
  | a :: as =>
    match f a with
    | .error e => .error e
    | .ok b =>
      match readAll f as with
      | .error e => .error e
      | .ok bs => .ok (b :: bs)

/-- The steps `f a` one after another on the state; the first stop ends it. -/
def runAll (f : α → State → Except Stop State) : List α → State → Except Stop State
  | [], s => .ok s
  | a :: as, s =>
    match f a s with
    | .error e => .error e
    | .ok s' => runAll f as s'

/-! ### Local memory, as the engine reads and writes it -/

/-- One byte of local memory (20_memory.md R89). -/
def lmByte (a : Nat) (s : State) : Except Stop Byte :=
  match s.lm.read a with
  | some b => .ok b
  | none => .error (.uninit a)

/-- A 16-bit element of local memory, little-endian (20_memory.md R86). -/
def lmHalf (a : Nat) (s : State) : Except Stop Half :=
  match lmByte a s with
  | .error e => .error e
  | .ok lo =>
    match lmByte (a + 1) s with
    | .error e => .error e
    | .ok hi => .ok (hi ++ lo)

/-- A signed element, `sext_16` (20_memory.md R88). -/
def lmSigned (a : Nat) (s : State) : Except Stop Int :=
  match lmHalf a s with
  | .error e => .error e
  | .ok h => .ok h.toInt

/-- An unsigned 16-bit element, `zext` (20_memory.md R88). -/
def lmUnsigned (a : Nat) (s : State) : Except Stop Nat :=
  match lmHalf a s with
  | .error e => .error e
  | .ok h => .ok h.toNat

/-- An unsigned 8-bit element: a sample or a count (20_memory.md R88). -/
def lmSample (a : Nat) (s : State) : Except Stop Nat :=
  match lmByte a s with
  | .error e => .error e
  | .ok b => .ok b.toNat

/-- Store a byte. -/
def State.putByte (s : State) (a : Nat) (b : Byte) : State := { s with lm := s.lm.write a b }

/-- Store consecutive bytes. -/
def State.putBytes (s : State) (a : Nat) (bs : List Byte) : State := { s with lm := s.lm.writeBytes a bs }

/-- Store consecutive 16-bit values, each the low 16 bits of an integer: the narrowing of 40_forward.md R165. -/
def State.putSigned (s : State) (a : Nat) (vs : List Int) : State :=
  { s with lm := s.lm.writeHalves a (vs.map (BitVec.ofInt 16)) }

/-! ### Exact arithmetic and its narrowing -/

/-- `sign(a)`: -1 if `a < 0`, else +1 (00_scope.md R9). -/
def sign (a : Int) : Int := if a < 0 then -1 else 1

/-- `a >> s`, floor division by `2^s` (00_scope.md R9). -/
def shr (a : Int) (s : Nat) : Int := a >>> s

/-- `a << s`, multiplication by `2^s` (00_scope.md R9). -/
def shl (a : Int) (s : Nat) : Int := a * 2 ^ s

/-- `trunc16(v)`, the signed 16-bit value with the same low 16 bits (00_scope.md R10). -/
def trunc16 (v : Int) : Int := (v + 32768) % 65536 - 32768

/-- `clip8(v)` (00_scope.md R10). -/
def clip8 (v : Int) : Int := if v < 0 then 0 else if v > 255 then 255 else v

/-- `popcount(m)`, counted over the low `fuel` bits (00_scope.md R9). -/
def popcountTo : Nat → Nat → Nat
  | 0, _ => 0
  | fuel + 1, m => m % 2 + popcountTo fuel (m / 2)

/-- `set(X, b)`: `X | 2^b` (43_macroblock.md R230). -/
def setBit (x : Word) (b : Nat) : Word := x ||| BitVec.ofNat 32 (2 ^ b)

/-- `clr(X, b)`: `X & ~2^b` (43_macroblock.md R230). -/
def clrBit (x : Word) (b : Nat) : Word := x &&& ~~~ BitVec.ofNat 32 (2 ^ b)

/-! ### Four values and 4x4 blocks -/

/-- `f` on each of four values. -/
def quadMap (f : α → β) (v : Quad α) : Quad β := ⟨f v.q0, f v.q1, f v.q2, f v.q3⟩

/-- Rows become columns. -/
def transpose (m : Mat α) : Mat α :=
  ⟨⟨m.q0.q0, m.q1.q0, m.q2.q0, m.q3.q0⟩, ⟨m.q0.q1, m.q1.q1, m.q2.q1, m.q3.q1⟩,
   ⟨m.q0.q2, m.q1.q2, m.q2.q2, m.q3.q2⟩, ⟨m.q0.q3, m.q1.q3, m.q2.q3, m.q3.q3⟩⟩

/-- Element `i` of four, 0 to 3. -/
def quadAt (v : Quad α) (i : Nat) : α :=
  match i with
  | 0 => v.q0
  | 1 => v.q1
  | 2 => v.q2
  | _ => v.q3

/-- The element at raster index `k = 4*r + c` (00_scope.md R15). -/
def matAt (m : Mat α) (k : Nat) : α := quadAt (quadAt m (k / 4)) (k % 4)

/-- The 16 elements of `f` by row and column. -/
def matOf (f : Nat → Nat → α) : Mat α :=
  quadMap (fun r => quadMap (fun c => f r c) ⟨0, 1, 2, 3⟩) ⟨0, 1, 2, 3⟩

/-- The 4x4 block whose raster order is the list; 0 where the list is short. -/
def matOfList (l : List Int) : Mat Int := matOf fun r c => l.getD (4 * r + c) 0

/-- The raster indexes 0 to 15 (00_scope.md R15). -/
def raster : List Nat := [0, 1, 2, 3, 4, 5, 6, 7, 8, 9, 10, 11, 12, 13, 14, 15]

/-! ### Errors and completion: what the TQE has in place of exceptions (60_exceptions.md R280) -/

/-- `RECORD(code, op)`: the first error since ERR was cleared is kept (60_exceptions.md R284). -/
def record (code : ErrorCode) (op : Byte) (s : State) : State :=
  match s.err with
  | none => { s with err := some ⟨code, op⟩ }
  | some _ => s

/-- Completion: BUSY falls, then DONE rises (60_exceptions.md R288). -/
def complete (s : State) : State := { s with busy := false, done := true }

/-- `REFUSE(w, code)`: the word is accepted into CMD, the error recorded, the command complete at once
(60_exceptions.md R282). -/
def refuse (w : Word) (code : ErrorCode) (s : State) : State :=
  complete (record code (opOf w) { s with cmd := w })

/-- Acceptance of a word: CMD takes it and BUSY rises (60_exceptions.md R283). -/
def accept (w : Word) (s : State) : State := { s with cmd := w, busy := true }

/-- The end of a command's steps: completion, with the error recorded where a step raised one
(60_exceptions.md R284, R288), or the fault of 20_memory.md R89. -/
def finish (r : Except Stop State) : Host.Outcome State Fault Refusal :=
  match r with
  | .ok s => .next (complete s)
  | .error (.raised code s) => .next (complete (record code (opOf s.cmd) s))
  | .error (.uninit a) => .fault (.uninitRead a)

end Sys2Proof.Machine
end

