-- ==== Sys2Proof/Machine/Operands.lean ====
section
/-! DEFINITION. The operands of the commands: the local-memory map (20_memory.md R84), sub-block geometry
(00_scope.md R12, 10_state.md R56), scan orders (00_scope.md R13, R14), parameter sets (10_state.md R50),
and the issue-time checks every command goes through (30_encoding.md R116, R117). -/

namespace Sys2Proof.Machine

/-! ### Addresses of the elements (20_memory.md R84) -/

/-- The four parameter tables, in the order of 20_memory.md R84. -/
def tableScale : Nat := 0
def tableThresh : Nat := 1
def tableIscale : Nat := 2
def tableWeight : Nat := 3

/-- Entry `k` of table `t` of plane `p`. -/
def tableAddr (p : Plane) (t k : Nat) : Nat := 0x0100 + 0x80 * p.idx + 0x20 * t + 2 * k

/-- Offset of plane `p` within a pixel buffer: 0x000, 0x100, 0x140. -/
def planeOffset : Plane → Nat
  | .y => 0x000
  | .cb => 0x100
  | .cr => 0x140

/-- `W_p`, samples in a row (10_state.md R55). -/
def planeWidth : Plane → Nat
  | .y => 16
  | .cb => 8
  | .cr => 8

/-- The three pixel buffers. -/
def srcBase : Nat := 0x0400
def predBase : Nat := 0x0600
def recBase : Nat := 0x0800

/-- `R0(p, n)`, first row of sub-block `n` (10_state.md R56). -/
def row0 (p : Plane) (n : Nat) : Nat :=
  match p with
  | .y => 4 * (n / 4)
  | .cb => 4 * (n / 2)
  | .cr => 4 * (n / 2)

/-- `C0(p, n)`, first column of sub-block `n` (10_state.md R56). -/
def col0 (p : Plane) (n : Nat) : Nat :=
  match p with
  | .y => 4 * (n % 4)
  | .cb => 4 * (n % 2)
  | .cr => 4 * (n % 2)

/-- Sample `(r, c)` of sub-block `n` of plane `p` in the buffer at `base` (10_state.md R55, R56). -/
def sampleAddr (base : Nat) (p : Plane) (n r c : Nat) : Nat :=
  base + planeOffset p + (row0 p n + r) * planeWidth p + (col0 p n + c)

/-- `COEF[p][n][k]`. The map's ranges hold two blocks of each chroma plane, while 10_state.md R57 gives it four, and its
formulas put blocks 2 and 3 of Cb on blocks 0 and 1 of Cr (log 18). Every block of luma and of Cr, and blocks 0 and 1 of
Cb, stand where the map's formula puts them; blocks 2 and 3 of Cb take the 64 bytes left free below DCCOEF. -/
def coefAddr (p : Plane) (n k : Nat) : Nat :=
  match p with
  | .y => 0x1000 + 32 * n + 2 * k
  | .cb => (if n < 2 then 0x1200 else 0x1280) + 32 * n + 2 * k
  | .cr => 0x1240 + 32 * n + 2 * k

/-- Offset of plane `p` within the 16-bit per-sub-block arrays. -/
def dcOffset : Plane → Nat
  | .y => 0x00
  | .cb => 0x20
  | .cr => 0x28

/-- `DCCOEF[p][k]`. -/
def dccoefAddr (p : Plane) (k : Nat) : Nat := 0x1300 + dcOffset p + 2 * k
/-- `DCSAVE[p][n]`. -/
def dcsaveAddr (p : Plane) (n : Nat) : Nat := 0x1340 + dcOffset p + 2 * n
/-- `DCREC[p][n]`. -/
def dcrecAddr (p : Plane) (n : Nat) : Nat := 0x1380 + dcOffset p + 2 * n

/-- `NNZ[p][n]`. -/
def nnzAddr (p : Plane) (n : Nat) : Nat :=
  match p with
  | .y => 0x1400 + n
  | .cb => 0x1410 + n
  | .cr => 0x1414 + n

/-- `NNZDC[p]`. -/
def nnzdcAddr (p : Plane) : Nat := 0x1418 + p.idx

/-! ### Orders -/

/-- `ZZ`, the zigzag scan (00_scope.md R13). -/
def zigzag : List Nat := [0, 1, 4, 8, 5, 2, 3, 6, 9, 12, 13, 10, 7, 11, 14, 15]

/-- `BLK`, luma sub-blocks in H.264 block index order (00_scope.md R14). -/
def blkOrder : List Nat := [0, 1, 4, 5, 2, 3, 6, 7, 8, 9, 12, 13, 10, 11, 14, 15]

/-- `BLK[4*g] .. BLK[4*g + 3]`, the sub-blocks of luma 8x8 group `g` (00_scope.md R14). -/
def groupBlocks (g : Nat) : List Nat := (blkOrder.drop (4 * g)).take 4

/-- `G(n)`, the 8x8 group of luma sub-block `n` (00_scope.md R14). -/
def groupOf (n : Nat) : Nat := (n / 8) * 2 + (n / 2) % 2

/-- The sub-blocks of a plane, 0 to NB(p) - 1. -/
def planeBlocks : Plane → List Nat
  | .y => raster
  | .cb => [0, 1, 2, 3]
  | .cr => [0, 1, 2, 3]

/-! ### The engine's reads of its buffers -/

/-- `SRC[p]` at sub-block `n`. -/
def srcSample (p : Plane) (n r c : Nat) (s : State) : Except Stop Nat := lmSample (sampleAddr srcBase p n r c) s
/-- `PRED[p]` at sub-block `n`. -/
def predSample (p : Plane) (n r c : Nat) (s : State) : Except Stop Nat := lmSample (sampleAddr predBase p n r c) s
/-- `COEF[p][n][k]`. -/
def coef (p : Plane) (n k : Nat) (s : State) : Except Stop Int := lmSigned (coefAddr p n k) s
/-- `DCCOEF[p][k]`. -/
def dccoef (p : Plane) (k : Nat) (s : State) : Except Stop Int := lmSigned (dccoefAddr p k) s
/-- `DCSAVE[p][n]`. -/
def dcsave (p : Plane) (n : Nat) (s : State) : Except Stop Int := lmSigned (dcsaveAddr p n) s
/-- `DCREC[p][n]`. -/
def dcrec (p : Plane) (n : Nat) (s : State) : Except Stop Int := lmSigned (dcrecAddr p n) s
/-- `NNZ[p][n]`. -/
def nnz (p : Plane) (n : Nat) (s : State) : Except Stop Nat := lmSample (nnzAddr p n) s
/-- `NNZDC[p]`. -/
def nnzdc (p : Plane) (s : State) : Except Stop Nat := lmSample (nnzdcAddr p) s
/-- Entry `k` of a parameter table. -/
def table (t : Nat) (p : Plane) (k : Nat) (s : State) : Except Stop Nat := lmUnsigned (tableAddr p t k) s

/-- The prediction samples of a sub-block in raster order. -/
def predBlock (p : Plane) (n : Nat) (s : State) : Except Stop (List Nat) :=
  readAll (fun k => predSample p n (k / 4) (k % 4) s) raster

/-! ### The engine's writes -/

/-- `NNZ[p][n] <- v`. -/
def State.putNnz (s : State) (p : Plane) (n v : Nat) : State := s.putByte (nnzAddr p n) (BitVec.ofNat 8 v)
/-- `NNZDC[p] <- v`. -/
def State.putNnzdc (s : State) (p : Plane) (v : Nat) : State := s.putByte (nnzdcAddr p) (BitVec.ofNat 8 v)

/-- Row `r` of `REC` at sub-block `n` takes four samples, the `4*r`-th on of a raster list. -/
def recRow (p : Plane) (n r : Nat) (vs : List Int) (m : Memory) : Memory :=
  m.writeBytes (sampleAddr recBase p n r 0) (((vs.drop (4 * r)).take 4).map (BitVec.ofInt 8))

/-- `REC` at sub-block `n` takes sixteen samples in raster order. -/
def State.putRec (s : State) (p : Plane) (n : Nat) (vs : List Int) : State :=
  { s with lm := recRow p n 3 vs (recRow p n 2 vs (recRow p n 1 vs (recRow p n 0 vs s.lm))) }

/-! ### CSR fields the commands read -/

/-- QPARAM of a plane (10_state.md R51). -/
def qparam (p : Plane) (s : State) : Word :=
  match p with
  | .y => s.qparamY
  | .cb => s.qparamCb
  | .cr => s.qparamCr

/-- ROUND register of a plane (10_state.md R52). -/
def roundReg (p : Plane) (s : State) : Word :=
  match p with
  | .y => s.roundY
  | .cb => s.roundCb
  | .cr => s.roundCr

/-- `QBITS[p]`, QPARAM bits 4:0 (10_state.md R50). -/
def qbits (p : Plane) (s : State) : Nat := bits (qparam p s) 4 0
/-- `QP_DIV[p]`, QPARAM bits 11:8 (10_state.md R50). -/
def qpDiv (p : Plane) (s : State) : Nat := bits (qparam p s) 11 8
/-- `ROUND[p]`, ROUND bits 23:0 (10_state.md R50). -/
def roundOff (p : Plane) (s : State) : Nat := bits (roundReg p s) 23 0

/-- THR fields (10_state.md R47). -/
def thrB8 (s : State) : Nat := bits s.thr 7 0
def thrMb (s : State) : Nat := bits s.thr 15 8
def thrC (s : State) : Nat := bits s.thr 23 16
def largeCost (s : State) : Nat := bits s.thr 31 24

/-- `LUT[r]`: byte `r & 3` of COST_LUT(`r >> 2`) (10_state.md R48). -/
def costLut (s : State) (r : Nat) : Nat :=
  let w := match r / 4 with
    | 0 => s.costLut0
    | 1 => s.costLut1
    | 2 => s.costLut2
    | _ => s.costLut3
  (w.toNat >>> (8 * (r % 4))) % 256

/-! ### Issue-time checks -/

/-- The planes whose QP_DIV the command reads (30_encoding.md R114, last column). -/
def qpDivRead : Instr → List Plane
  | .nop => []
  | .ftq4 _ _ _ => []
  | .fhq4 => []
  | .fhq2 _ => []
  | .ihs4 => [.y]
  | .ihs2 p => [p]
  | .iqtr4 p _ _ => [p]
  | .iqtr4dc p _ _ => [p]
  | .copy4 _ _ => []
  | .pack4 _ _ _ => []
  | .packdc _ => []
  | .mbBegin => []
  | .codeI16 recon _ => if recon then [.y] else []
  | .codeI4 _ recon => if recon then [.y] else []
  | .codeL16 _ recon _ => if recon then [.y] else []
  | .codeC8 _ recon _ => if recon then [.cb, .cr] else []
  | .reconY16 _ _ => [.y]
  | .reconC8 _ => [.cb, .cr]

/-- Every QP_DIV the command reads is at most 8 (30_encoding.md R117). -/
def qparamOk (i : Instr) (s : State) : Bool := (qpDivRead i).all fun p => decide (qpDiv p s ≤ 8)

/-- The issue-time error of a command with a defined opcode: ILLEGAL_FIELD before BAD_QPARAM
(30_encoding.md R116, R117, 60_exceptions.md R285). -/
def issueCheck (i : Instr) (s : State) : Option ErrorCode :=
  if !i.wf then some .illegalField
  else if !qparamOk i s then some .badQparam
  else none

/-- A command from acceptance to completion: its word is accepted, checked, and refused or run
(60_exceptions.md R282, R283, R288). `steps` is the pseudocode of the command's rule. -/
def command (i : Instr) (steps : State → Except Stop State) (s : State) : Host.Outcome State Fault Refusal :=
  match issueCheck i s with
  | some code => .next (refuse (encode i) code s)
  | none => finish (steps (accept (encode i) s))

end Sys2Proof.Machine
end

