-- ==== Sys2Proof/Machine/Control.lean ====
section
/-! DEFINITION. The control command NOP (44_control.md R270). -/

namespace Sys2Proof.Machine

/-- The steps of NOP: nothing. -/
def nop (s : State) : Except Stop State := .ok s

/-- NOP: nothing besides acceptance and completion (44_control.md R270). -/
def execNop (s : State) : Host.Outcome State Fault Refusal := command .nop nop s

end Sys2Proof.Machine
end

