-- ==== Sys2Proof/Machine/Flags.lean ====
section
/-! DEFINITION. Every flag computation: STATUS and the interrupt (10_state.md R35, 60_exceptions.md R281, R290),
the control bits (10_state.md R39 to R41, 43_macroblock.md R246, R257, R258), CBP (10_state.md R42,
43_macroblock.md R254), ELIM (10_state.md R43), and the significance bitmap and cost of a scan
(42_pack.md R202, R203). -/

namespace Sys2Proof.Machine

/-! ### STATUS -/

/-- The value of ERR_CODE (60_exceptions.md R281). -/
def ErrorCode.value : ErrorCode → Nat
  | .illegalOpcode => 1
  | .illegalField => 2
  | .badQparam => 3
  | .arenaOvf => 4
  | .cmdOverrun => 5
  | .busyWrite => 6

/-- The level of the interrupt output (60_exceptions.md R290). -/
def State.irq (s : State) : Bool := (s.done && s.irqDoneEn) || (s.err.isSome && s.irqErrEn)

/-- What STATUS reads (10_state.md R35). -/
def statusWord (s : State) : Word :=
  BitVec.ofNat 32
    (s.busy.toNat + 2 * s.done.toNat + 4 * s.err.isSome.toNat + 8 * s.irq.toNat
      + match s.err with
        | none => 0
        | some e => 2 ^ 8 * e.code.value + 2 ^ 16 * e.opcode.toNat)

/-! ### Control bits -/

/-- `ACBIT(p, n)` (10_state.md R40, R41). -/
def acBit (p : Plane) (n : Nat) : Nat :=
  match p with
  | .y => 31 - n
  | .cb => 31 - n
  | .cr => 27 - n

/-- `DCBIT(p, n)` (10_state.md R40, R41). -/
def dcBit (p : Plane) (n : Nat) : Nat :=
  match p with
  | .y => 15 - n
  | .cb => 15 - n
  | .cr => 11 - n

/-- CNTRL_Y for luma, CNTRL_C for chroma. -/
def cntrl (p : Plane) (s : State) : Word :=
  match p with
  | .y => s.cntrlY
  | .cb => s.cntrlC
  | .cr => s.cntrlC

/-- Store the control word of a plane. -/
def State.putCntrl (s : State) (p : Plane) (w : Word) : State :=
  match p with
  | .y => { s with cntrlY := w }
  | .cb => { s with cntrlC := w }
  | .cr => { s with cntrlC := w }

/-- `set(CNTRL, DCBIT(p, k))` for each `k` from `k0` on whose value is not 0 (43_macroblock.md R235, R250, R257). -/
def setDcBits (p : Plane) : Nat → List Int → Word → Word
  | _, [], w => w
  | k, v :: vs, w => setDcBits p (k + 1) vs (if v ≠ 0 then setBit w (dcBit p k) else w)

/-- Both control bits of each sub-block cleared (43_macroblock.md R243). -/
def clrBothBits (p : Plane) : List Nat → Word → Word
  | [], w => w
  | n :: ns, w => clrBothBits p ns (clrBit (clrBit w (acBit p n)) (dcBit p n))

/-- The AC bit of each sub-block cleared (43_macroblock.md R253). -/
def clrAcBits (p : Plane) : List Nat → Word → Word
  | [], w => w
  | n :: ns, w => clrAcBits p ns (clrBit w (acBit p n))

/-- `SETBITS(n)` on a control word, from the block's sixteen levels (43_macroblock.md R246). -/
def levelBits (n : Nat) (levels : List Int) (w : Word) : Word :=
  let w := clrBit (clrBit w (acBit .y n)) (dcBit .y n)
  let w := if (levels.drop 1).any (· ≠ 0) then setBit w (acBit .y n) else w
  if levels.getD 0 0 ≠ 0 then setBit w (dcBit .y n) else w

/-- The border mask (43_macroblock.md R258). -/
def borderMask : Plane → Word
  | .y => 0x111F111F
  | .cb => 0x77007700
  | .cr => 0x77007700

/-- The word the paths are chosen from (43_macroblock.md R258). -/
def masked (p : Plane) (border : Bool) (w : Word) : Word := if border then w &&& borderMask p else w

/-! ### CBP and ELIM -/

/-- `CBP.CBP_L <- v` (10_state.md R42). -/
def withCbpL (cbp : Word) (v : Nat) : Word := (cbp &&& 0xFFFFFFF0) ||| BitVec.ofNat 32 (v % 16)

/-- CBP_C, NZ_CB and NZ_CR from the chroma counts, bits 3:0 kept (43_macroblock.md R254). `dcb` and `dcr` are the
NNZDC entries, `acb` and `acr` the NNZ entries of Cb and Cr. -/
def withChromaCbp (cbp : Word) (dcb dcr : Nat) (acb acr : List Nat) : Word :=
  let ac := acb.any (· > 0) || acr.any (· > 0)
  let dc := decide (dcb + dcr > 0)
  let cbpC := if ac then 2 else if dc then 1 else 0
  let nzCb := decide (dcb > 0) || acb.any (· > 0)
  let nzCr := decide (dcr > 0) || acr.any (· > 0)
  (cbp &&& 0xFFFFFF0F) ||| BitVec.ofNat 32 (16 * cbpC + 64 * nzCb.toNat + 128 * nzCr.toNat)

/-- `ELIM & ~0x1F`, the luma part cleared (43_macroblock.md R235, R242). -/
def clrLumaElim (elim : Word) : Word := elim &&& 0xFFFFFFE0

/-- `ELIM & ~0x60`, the chroma part cleared (43_macroblock.md R250). -/
def clrChromaElim (elim : Word) : Word := elim &&& 0xFFFFFF9F

/-! ### A scan: counts, significance, cost -/

/-- How many values are not 0. -/
def countNonzero (vs : List Int) : Nat := vs.countP (· ≠ 0)

/-- The significance bitmap of the values at scan positions `j`, `j + 1`, ... (42_pack.md R202). -/
def sigFrom : Nat → List Int → Nat
  | _, [] => 0
  | j, v :: vs => (if v ≠ 0 then 2 ^ j else 0) + sigFrom (j + 1) vs

/-- `COST` from a run of `run` zeros on (42_pack.md R203). -/
def costFrom (lut : Nat → Nat) (large : Nat) : Nat → List Int → Nat
  | _, [] => 0
  | run, v :: vs =>
    if v = 0 then costFrom lut large (run + 1) vs
    else (if v.natAbs = 1 then lut run else large) + costFrom lut large 0 vs

end Sys2Proof.Machine
end

