-- ==== Sys2Proof/Machine/Forward.lean ====
section
/-! DEFINITION. Forward transform and quantization (40_forward.md): the kernels and FTQ4, FHQ4, FHQ2. -/

namespace Sys2Proof.Machine

/-- The dead-zone quantizer `Q(x, sc, th, qb, rd)` (40_forward.md R140). -/
def quant (x : Int) (sc th qb rd : Nat) : Int :=
  if x.natAbs < th then 0 else sign x * (((x.natAbs * sc + rd) >>> qb : Nat) : Int)

/-- The forward butterfly on a row or a column (40_forward.md R143). -/
def ftButterfly (v : Quad Int) : Quad Int :=
  let x0 := v.q0 + v.q3
  let x1 := v.q1 + v.q2
  let x2 := v.q1 - v.q2
  let x3 := v.q0 - v.q3
  ⟨x0 + x1, 2 * x3 + x2, x0 - x1, x3 - 2 * x2⟩

/-- `FT4(X)`: rows, then columns (40_forward.md R143). -/
def ft4 (x : Mat Int) : Mat Int := transpose (quadMap ftButterfly (transpose (quadMap ftButterfly x)))

/-- The Hadamard butterfly on a row or a column (40_forward.md R145). -/
def hdButterfly (v : Quad Int) : Quad Int :=
  let x0 := v.q0 + v.q3
  let x1 := v.q1 + v.q2
  let x2 := v.q1 - v.q2
  let x3 := v.q0 - v.q3
  ⟨x0 + x1, x3 + x2, x0 - x1, x3 - x2⟩

/-- `H4(C)`: rows, then columns (40_forward.md R145). -/
def h4 (c : Mat Int) : Mat Int := transpose (quadMap hdButterfly (transpose (quadMap hdButterfly c)))

/-- `H2(c0, c1, c2, c3)` in raster order (40_forward.md R146). -/
def h2 (c : Quad Int) : Quad Int :=
  ⟨c.q0 + c.q1 + c.q2 + c.q3, c.q0 - c.q1 + c.q2 - c.q3, c.q0 + c.q1 - c.q2 - c.q3, c.q0 - c.q1 - c.q2 + c.q3⟩

/-- One residual, source minus prediction (40_forward.md R142). -/
def residualAt (p : Plane) (n : Nat) (s : State) (k : Nat) : Except Stop Int :=
  match srcSample p n (k / 4) (k % 4) s with
  | .error e => .error e
  | .ok a =>
    match predSample p n (k / 4) (k % 4) s with
    | .error e => .error e
    | .ok b => .ok ((a : Int) - (b : Int))

/-- The residual of a sub-block in raster order (40_forward.md R142). -/
def residual (p : Plane) (n : Nat) (s : State) : Except Stop (List Int) := readAll (residualAt p n s) raster

/-- A coefficient quantized with entry `k` of the plane's tables and cut to 16 bits (40_forward.md R150, R155). -/
def quantAt (p : Plane) (k qb rd : Nat) (x : Int) (s : State) : Except Stop Int :=
  match table tableScale p k s with
  | .error e => .error e
  | .ok sc =>
    match table tableThresh p k s with
    | .error e => .error e
    | .ok th => .ok (trunc16 (quant x sc th qb rd))

/-- Level `k` of FTQ4 from the transformed block; with DCX the level at position 0 is 0 (40_forward.md R150). -/
def ftLevel (p : Plane) (dcx : Bool) (w : Mat Int) (s : State) (k : Nat) : Except Stop Int :=
  if dcx && k == 0 then .ok 0 else quantAt p k (qbits p s) (roundOff p s) (matAt w k) s

/-- The steps of FTQ4 (40_forward.md R150). -/
def ftq4 (p : Plane) (n : Nat) (dcx : Bool) (s : State) : Except Stop State :=
  match residual p n s with
  | .error e => .error e
  | .ok res =>
    let w := ft4 (matOfList res)
    match readAll (ftLevel p dcx w s) raster with
    | .error e => .error e
    | .ok levels =>
      let s := if dcx then s.putSigned (dcsaveAddr p n) [trunc16 (matAt w 0)] else s
      .ok ((s.putSigned (coefAddr p n 0) levels).putNnz p n (countNonzero levels))

/-- Level `k` of FHQ4: the Hadamard sum halved with floor, then quantized with one extra bit and entry 0 of the
tables (40_forward.md R155). -/
def fhq4Level (o : Mat Int) (s : State) (k : Nat) : Except Stop Int :=
  quantAt .y 0 (qbits .y s + 1) (2 * roundOff .y s) (shr (matAt o k) 1) s

/-- The steps of FHQ4 (40_forward.md R155). -/
def fhq4 (s : State) : Except Stop State :=
  match readAll (fun n => dcsave .y n s) raster with
  | .error e => .error e
  | .ok dcs =>
    match readAll (fhq4Level (h4 (matOfList dcs)) s) raster with
    | .error e => .error e
    | .ok levels => .ok ((s.putSigned (dccoefAddr .y 0) levels).putNnzdc .y (countNonzero levels))

/-- Four consecutive values as a group of four; 0 where the list is short. -/
def quadOfList (l : List Int) : Quad Int := ⟨l.getD 0 0, l.getD 1 0, l.getD 2 0, l.getD 3 0⟩

/-- Level `k` of FHQ2: no halving (40_forward.md R160). -/
def fhq2Level (p : Plane) (f : Quad Int) (s : State) (k : Nat) : Except Stop Int :=
  quantAt p 0 (qbits p s + 1) (2 * roundOff p s) (quadAt f k) s

/-- The steps of FHQ2 (40_forward.md R160). -/
def fhq2 (p : Plane) (s : State) : Except Stop State :=
  match readAll (fun n => dcsave p n s) [0, 1, 2, 3] with
  | .error e => .error e
  | .ok dcs =>
    match readAll (fhq2Level p (h2 (quadOfList dcs)) s) [0, 1, 2, 3] with
    | .error e => .error e
    | .ok levels => .ok ((s.putSigned (dccoefAddr p 0) levels).putNnzdc p (countNonzero levels))

/-- FTQ4 (40_forward.md R150). -/
def execFtq4 (p : Plane) (n : Fin 16) (dcx : Bool) (s : State) : Host.Outcome State Fault Refusal :=
  command (.ftq4 p n dcx) (ftq4 p n.val dcx) s

/-- FHQ4 (40_forward.md R155). -/
def execFhq4 (s : State) : Host.Outcome State Fault Refusal := command .fhq4 fhq4 s

/-- FHQ2 (40_forward.md R160). -/
def execFhq2 (p : Plane) (s : State) : Host.Outcome State Fault Refusal := command (.fhq2 p) (fhq2 p) s

end Sys2Proof.Machine
end

