-- ==== Sys2Proof/Machine/Inverse.lean ====
section
/-! DEFINITION. Inverse quantization, inverse transform and reconstruction (41_inverse.md): the kernels and
IHS4, IHS2, IQTR4, IQTR4DC, COPY4. -/

namespace Sys2Proof.Machine

/-- `DQ` with the table entries and QP_DIV given: level `c`, ISCALE `isc`, WEIGHT `wt` (41_inverse.md R170). -/
def dequant (qd isc wt : Nat) (c : Int) : Int :=
  shr (shl (c * isc * wt + (if qd < 4 then 2 ^ (3 - qd) else 0)) qd) 4

/-- `DS4` (41_inverse.md R172). -/
def dcScale4 (qd isc wt : Nat) (f : Int) : Int :=
  shr (shl (f * isc * wt + (if qd < 6 then 2 ^ (5 - qd) else 0)) qd) 6

/-- `DS2` (41_inverse.md R173). -/
def dcScale2 (qd isc wt : Nat) (f : Int) : Int := shr (shl (f * isc * wt) qd) 5

/-- `w(x)`: the open parameter decides whether temporaries are cut to 16 bits (41_inverse.md R176). -/
def wrapTmp (wrap16 : Bool) (x : Int) : Int := if wrap16 then trunc16 x else x

/-- `IB` with each of e0 to e3 and each result passed through `w` (41_inverse.md R174, R176). -/
def invButterfly (wrap16 : Bool) (d : Quad Int) : Quad Int :=
  let w := wrapTmp wrap16
  let e0 := w (d.q0 + d.q2)
  let e1 := w (d.q0 - d.q2)
  let e2 := w (shr d.q1 1 - d.q3)
  let e3 := w (d.q1 + shr d.q3 1)
  ⟨w (e0 + e3), w (e1 + e2), w (e1 - e2), w (e0 - e3)⟩

/-- Both passes of the inverse transform: rows, then columns (41_inverse.md R176). -/
def invTransform (wrap16 : Bool) (d : Mat Int) : Mat Int :=
  transpose (quadMap (invButterfly wrap16) (transpose (quadMap (invButterfly wrap16) d)))

/-- One reconstructed sample from a transform output and a prediction sample (41_inverse.md R175). -/
def reconSample (v : Int) (pr : Nat) : Int := clip8 (shr (v + 32) 6 + pr)

/-- `IT4(D, PR)`: sixteen samples in raster order (41_inverse.md R176). -/
def it4 (wrap16 : Bool) (d : List Int) (pr : List Nat) : List Int :=
  let y := invTransform wrap16 (matOfList d)
  raster.map fun k => reconSample (matAt y k) (pr.getD k 0)

/-- `f(ISCALE[p][k], WEIGHT[p][k])`. -/
def withScales (p : Plane) (k : Nat) (s : State) (f : Nat → Nat → Int) : Except Stop Int :=
  match table tableIscale p k s with
  | .error e => .error e
  | .ok isc =>
    match table tableWeight p k s with
    | .error e => .error e
    | .ok wt => .ok (f isc wt)

/-- `w(DQ(p, k, COEF[p][n][k]))` (41_inverse.md R186, R189). -/
def dequantAt (p : Plane) (n k : Nat) (s : State) : Except Stop Int :=
  match coef p n k s with
  | .error e => .error e
  | .ok c => withScales p k s fun isc wt => wrapTmp s.invTmpWrap16 (dequant (qpDiv p s) isc wt c)

/-- `D[k]`: with DCSRC, position 0 is DCREC and its level is not read (41_inverse.md R186). -/
def iqInput (p : Plane) (n : Nat) (dcsrc : Bool) (s : State) (k : Nat) : Except Stop Int :=
  if dcsrc && k == 0 then dcrec p n s else dequantAt p n k s

/-- The steps of IHS4 (41_inverse.md R180). -/
def ihs4 (s : State) : Except Stop State :=
  match readAll (fun k => dccoef .y k s) raster with
  | .error e => .error e
  | .ok dcs =>
    let o := h4 (matOfList dcs)
    match readAll (fun n => withScales .y 0 s fun isc wt => trunc16 (dcScale4 (qpDiv .y s) isc wt (matAt o n)))
        raster with
    | .error e => .error e
    | .ok recs => .ok (s.putSigned (dcrecAddr .y 0) recs)

/-- The steps of IHS2 (41_inverse.md R183). -/
def ihs2 (p : Plane) (s : State) : Except Stop State :=
  match readAll (fun k => dccoef p k s) [0, 1, 2, 3] with
  | .error e => .error e
  | .ok dcs =>
    let f := h2 (quadOfList dcs)
    match readAll (fun n => withScales p 0 s fun isc wt => trunc16 (dcScale2 (qpDiv p s) isc wt (quadAt f n)))
        [0, 1, 2, 3] with
    | .error e => .error e
    | .ok recs => .ok (s.putSigned (dcrecAddr p 0) recs)

/-- The steps of IQTR4, the full path (41_inverse.md R186). -/
def iqtr4 (p : Plane) (n : Nat) (dcsrc : Bool) (s : State) : Except Stop State :=
  match readAll (iqInput p n dcsrc s) raster with
  | .error e => .error e
  | .ok d =>
    match predBlock p n s with
    | .error e => .error e
    | .ok pr => .ok (s.putRec p n (it4 s.invTmpWrap16 d pr))

/-- The steps of IQTR4DC, the DC-only path (41_inverse.md R189). -/
def iqtr4dc (p : Plane) (n : Nat) (dcsrc : Bool) (s : State) : Except Stop State :=
  match iqInput p n dcsrc s 0 with
  | .error e => .error e
  | .ok q0 =>
    match predBlock p n s with
    | .error e => .error e
    | .ok pr => .ok (s.putRec p n (pr.map fun v => clip8 (shr (q0 + 32) 6 + v)))

/-- The steps of COPY4, the copy path (41_inverse.md R192). -/
def copy4 (p : Plane) (n : Nat) (s : State) : Except Stop State :=
  match predBlock p n s with
  | .error e => .error e
  | .ok pr => .ok (s.putRec p n (pr.map fun v => (v : Int)))

/-- IHS4 (41_inverse.md R180). -/
def execIhs4 (s : State) : Host.Outcome State Fault Refusal := command .ihs4 ihs4 s

/-- IHS2 (41_inverse.md R183). -/
def execIhs2 (p : Plane) (s : State) : Host.Outcome State Fault Refusal := command (.ihs2 p) (ihs2 p) s

/-- IQTR4 (41_inverse.md R186). -/
def execIqtr4 (p : Plane) (n : Fin 16) (dcsrc : Bool) (s : State) : Host.Outcome State Fault Refusal :=
  command (.iqtr4 p n dcsrc) (iqtr4 p n.val dcsrc) s

/-- IQTR4DC (41_inverse.md R189). -/
def execIqtr4dc (p : Plane) (n : Fin 16) (dcsrc : Bool) (s : State) : Host.Outcome State Fault Refusal :=
  command (.iqtr4dc p n dcsrc) (iqtr4dc p n.val dcsrc) s

/-- COPY4 (41_inverse.md R192). -/
def execCopy4 (p : Plane) (n : Fin 16) (s : State) : Host.Outcome State Fault Refusal :=
  command (.copy4 p n) (copy4 p n.val) s

end Sys2Proof.Machine
end

