-- ==== Sys2Proof/Machine/Pack.lean ====
section
/-! DEFINITION. The coefficient significance encoder (42_pack.md): the scan, the record, EMIT, and PACK4, PACKDC. -/

namespace Sys2Proof.Machine

/-- What EMIT answers: the count, the bitmap and the cost of the record it wrote (42_pack.md R205). -/
structure Emitted where
  nnz : Nat
  sig : Nat
  cost : Nat
  deriving DecidableEq, Repr

/-- `popcount(sig)`, 0 to 16 (42_pack.md R202). -/
def nnzOf (sig : Nat) : Nat := popcountTo 16 sig

/-- The 16-bit values of a record: count (its high byte 0), bitmap, then the non-zero values in scan order
(42_pack.md R204). -/
def recordHalves (start : Nat) (vs : List Int) : List Half :=
  let sig := sigFrom start vs
  BitVec.ofNat 16 (nnzOf sig) :: BitVec.ofNat 16 sig :: (vs.filter (· ≠ 0)).map (BitVec.ofInt 16)

/-- The length of a record in bytes, `4 + 2*nnz` (42_pack.md R204). -/
def recordLen (start : Nat) (vs : List Int) : Nat := 4 + 2 * nnzOf (sigFrom start vs)

/-- `EMIT` of the scan values from position `start` on (42_pack.md R205, 20_memory.md R90 to R92). -/
def emit (start : Nat) (vs : List Int) (s : State) : Except Stop (Emitted × State) :=
  let sig := sigFrom start vs
  let len := recordLen start vs
  if s.arenaCur.toNat + len > s.arenaEnd.toNat then .error (.raised .arenaOvf s)
  else
    .ok (⟨nnzOf sig, sig, costFrom (costLut s) (largeCost s) 0 vs⟩,
      { s with
        arena := s.arena.writeHalves s.arenaCur.toNat (recordHalves start vs)
        arenaCur := BitVec.ofNat 32 (s.arenaCur.toNat + len) })

/-- Where an AC record starts: scan position 1, else 0 (42_pack.md R200). -/
def scanStart (ac : Bool) : Nat := if ac then 1 else 0

/-- The scan values of `COEF[p][n]` from position `start` on, in zigzag order (42_pack.md R200, R201). -/
def coefScan (p : Plane) (n start : Nat) (s : State) : Except Stop (List Int) :=
  readAll (fun k => coef p n k s) (zigzag.drop start)

/-- The scan of a DC layer: zigzag for the 4x4 luma layer, raster for a 2x2 chroma layer (42_pack.md R200, R215). -/
def dcScan : Plane → List Nat
  | .y => zigzag
  | .cb => [0, 1, 2, 3]
  | .cr => [0, 1, 2, 3]

/-- `(nnz, sig, cost) = EMIT(COEF[p][n], s, 16); NNZ[p][n] <- nnz`. -/
def emitCoef (p : Plane) (n : Nat) (ac : Bool) (s : State) : Except Stop (Emitted × State) :=
  match coefScan p n (scanStart ac) s with
  | .error e => .error e
  | .ok vs =>
    match emit (scanStart ac) vs s with
    | .error e => .error e
    | .ok (r, s) => .ok (r, s.putNnz p n r.nnz)

/-- `(nnz, sig, cost) = EMIT(DCCOEF[p], 0, L); NNZDC[p] <- nnz`. -/
def emitDc (p : Plane) (s : State) : Except Stop (Emitted × State) :=
  match readAll (fun k => dccoef p k s) (dcScan p) with
  | .error e => .error e
  | .ok vs =>
    match emit 0 vs s with
    | .error e => .error e
    | .ok (r, s) => .ok (r, s.putNnzdc p r.nnz)

/-- `COST_ACC <- (COST_ACC + cost) mod 2^32` (42_pack.md R210, R215). -/
def State.addCost (s : State) (cost : Nat) : State := { s with costAcc := s.costAcc + BitVec.ofNat 32 cost }

/-- The steps of PACK4 (42_pack.md R210). -/
def pack4 (p : Plane) (n : Nat) (ac : Bool) (s : State) : Except Stop State :=
  match emitCoef p n ac s with
  | .error e => .error e
  | .ok (r, s) => .ok (s.addCost r.cost)

/-- The steps of PACKDC (42_pack.md R215). -/
def packdc (p : Plane) (s : State) : Except Stop State :=
  match emitDc p s with
  | .error e => .error e
  | .ok (r, s) => .ok (s.addCost r.cost)

/-- PACK4 (42_pack.md R210). -/
def execPack4 (p : Plane) (n : Fin 16) (ac : Bool) (s : State) : Host.Outcome State Fault Refusal :=
  command (.pack4 p n ac) (pack4 p n.val ac) s

/-- PACKDC (42_pack.md R215). -/
def execPackdc (p : Plane) (s : State) : Host.Outcome State Fault Refusal := command (.packdc p) (packdc p) s

end Sys2Proof.Machine
end

