-- ==== Sys2Proof/Machine/Macroblock.lean ====
section
/-! DEFINITION. The macroblock commands, the control bitmask, CBP and elimination (43_macroblock.md):
MB_BEGIN, CODE_I16, CODE_I4, CODE_L16, CODE_C8, RECON_Y16, RECON_C8. -/

namespace Sys2Proof.Machine

/-! ### MB_BEGIN -/

/-- The steps of MB_BEGIN (43_macroblock.md R231): NNZ of the three planes and NNZDC are 27 consecutive bytes. -/
def mbBegin (s : State) : Except Stop State :=
  .ok ({ s with
    mbStart := s.arenaCur
    cntrlY := 0
    cntrlC := 0
    cbp := 0
    elim := 0
    costY := 0
    costC := 0
    costAcc := 0 }.putBytes (nnzAddr .y 0) (List.replicate 27 0))

/-! ### Reconstruction (43_macroblock.md R247, R256 to R260) -/

/-- `RECON1(p, n, m, f)`: exactly one of the three paths (43_macroblock.md R247). -/
def recon1 (p : Plane) (m : Word) (f : Bool) (n : Nat) (s : State) : Except Stop State :=
  if m.getLsbD (acBit p n) then iqtr4 p n f s
  else if m.getLsbD (dcBit p n) then iqtr4dc p n f s
  else copy4 p n s

/-- Promotion of one plane: the DC bit of each sub-block whose DCREC is not 0 is set in CNTRL
(43_macroblock.md R256, R257, R260). -/
def promote (p : Plane) (s : State) : Except Stop State :=
  match readAll (fun n => dcrec p n s) (planeBlocks p) with
  | .error e => .error e
  | .ok recs => .ok (s.putCntrl p (setDcBits p 0 recs (cntrl p s)))

/-- Every sub-block of a plane reconstructed from the word `m`. -/
def reconPlane (p : Plane) (m : Word) (f : Bool) (s : State) : Except Stop State :=
  runAll (recon1 p m f) (planeBlocks p) s

/-- The inverse Hadamard and promotion that RECON_Y16 does when a DC layer is present. -/
def reconYDc (dc : Bool) (s : State) : Except Stop State :=
  if dc then
    match ihs4 s with
    | .error e => .error e
    | .ok s => promote .y s
  else .ok s

/-- The steps of RECON_Y16 (43_macroblock.md R256). -/
def reconY16 (dc border : Bool) (s : State) : Except Stop State :=
  match reconYDc dc s with
  | .error e => .error e
  | .ok s => reconPlane .y (masked .y border s.cntrlY) dc s

/-- IHS2 and promotion of one chroma plane. -/
def reconCDc (p : Plane) (s : State) : Except Stop State :=
  match ihs2 p s with
  | .error e => .error e
  | .ok s => promote p s

/-- The steps of RECON_C8 (43_macroblock.md R260). -/
def reconC8 (border : Bool) (s : State) : Except Stop State :=
  match runAll reconCDc [.cb, .cr] s with
  | .error e => .error e
  | .ok s =>
    let m := masked .cb border s.cntrlC
    match reconPlane .cb m true s with
    | .error e => .error e
    | .ok s => reconPlane .cr m true s

/-! ### Elimination (43_macroblock.md R243, R244, R253) -/

/-- NNZ and every level of sub-block `n` become 0. -/
def zeroBlock (p : Plane) (n : Nat) (s : State) : State :=
  (s.putNnz p n 0).putSigned (coefAddr p n 0) (List.replicate 16 0)

/-- `zeroBlock` on each sub-block. -/
def zeroBlocks (p : Plane) : List Nat → State → State
  | [], s => s
  | n :: ns, s => zeroBlocks p ns (zeroBlock p n s)

/-- `ELIMINATE_GROUP(g, g_start)` (43_macroblock.md R243). -/
def eliminateGroup (g : Nat) (gStart : Word) (s : State) : State :=
  zeroBlocks .y (groupBlocks g)
    { s with
      arenaCur := gStart
      cntrlY := clrBothBits .y (groupBlocks g) s.cntrlY
      elim := setBit s.elim g }

/-- `ELIMINATE_MB(mb_start)` (43_macroblock.md R244). -/
def eliminateMb (mbStart : Word) (s : State) : State :=
  zeroBlocks .y raster
    { s with arenaCur := mbStart, cntrlY := 0, cbp := withCbpL s.cbp 0, elim := setBit s.elim 4 }

/-- `ELIMINATE_PLANE(p, p_start)` (43_macroblock.md R253). -/
def eliminatePlane (p : Plane) (pStart : Word) (s : State) : State :=
  zeroBlocks p [0, 1, 2, 3]
    { s with
      arenaCur := pStart
      cntrlC := clrAcBits p [0, 1, 2, 3] s.cntrlC
      elim := setBit s.elim (4 + p.idx) }

/-! ### AC records of a block whose DC is in the DC layer -/

/-- The AC record of sub-block `n`, its NNZ entry, and its AC bit when the record is not empty
(43_macroblock.md R235, R250). -/
def emitAc (p : Plane) (n : Nat) (s : State) : Except Stop (Emitted × State) :=
  match emitCoef p n true s with
  | .error e => .error e
  | .ok (r, s) => .ok (r, if r.nnz > 0 then s.putCntrl p (setBit (cntrl p s) (acBit p n)) else s)

/-- The AC records of sub-blocks in order; answers whether some record is not empty, and the sum of the costs. -/
def emitAcs (p : Plane) : List Nat → State → Except Stop ((Bool × Nat) × State)
  | [], s => .ok ((false, 0), s)
  | n :: ns, s =>
    match emitAc p n s with
    | .error e => .error e
    | .ok (r, s) =>
      match emitAcs p ns s with
      | .error e => .error e
      | .ok ((any, cost), s) => .ok ((decide (r.nnz > 0) || any, r.cost + cost), s)

/-- `set(CNTRL, DCBIT(p, k))` for each DC-layer level that is not 0 (43_macroblock.md R235, R250). -/
def setLayerBits (p : Plane) (s : State) : Except Stop State :=
  match readAll (fun k => dccoef p k s) (planeBlocks p) with
  | .error e => .error e
  | .ok dcs => .ok (s.putCntrl p (setDcBits p 0 dcs (cntrl p s)))

/-! ### CODE_I16 (43_macroblock.md R235) -/

/-- Forward transform of the sixteen blocks, the DC layer, its control bits and its record. -/
def i16Dc (s : State) : Except Stop State :=
  match runAll (fun n => ftq4 .y n true) raster s with
  | .error e => .error e
  | .ok s =>
    match fhq4 s with
    | .error e => .error e
    | .ok s =>
      match setLayerBits .y { s with cntrlY := 0 } with
      | .error e => .error e
      | .ok s =>
        match emitDc .y s with
        | .error e => .error e
        | .ok (_, s) => .ok s

/-- The coding part of CODE_I16: everything before reconstruction. -/
def i16Code (s : State) : Except Stop State :=
  match i16Dc s with
  | .error e => .error e
  | .ok s =>
    match emitAcs .y blkOrder s with
    | .error e => .error e
    | .ok ((any, _), s) =>
      .ok { s with
        cbp := withCbpL s.cbp (if any then 0xF else 0)
        elim := clrLumaElim s.elim
        costY := 0 }

/-- The steps of CODE_I16. -/
def codeI16 (recon border : Bool) (s : State) : Except Stop State :=
  match i16Code s with
  | .error e => .error e
  | .ok s => if recon then reconY16 true border s else .ok s

/-! ### CODE_I4 (43_macroblock.md R240) -/

/-- `SETBITS(n)` (43_macroblock.md R246). -/
def setBits (n : Nat) (s : State) : Except Stop State :=
  match readAll (fun k => coef .y n k s) raster with
  | .error e => .error e
  | .ok levels => .ok { s with cntrlY := levelBits n levels s.cntrlY }

/-- The coding part of CODE_I4. -/
def i4Code (n : Nat) (s : State) : Except Stop State :=
  match ftq4 .y n false s with
  | .error e => .error e
  | .ok s =>
    match setBits n s with
    | .error e => .error e
    | .ok s =>
      match emitCoef .y n false s with
      | .error e => .error e
      | .ok (r, s) => .ok (if r.nnz > 0 then { s with cbp := setBit s.cbp (groupOf n) } else s)

/-- The steps of CODE_I4. -/
def codeI4 (n : Nat) (recon : Bool) (s : State) : Except Stop State :=
  match i4Code n s with
  | .error e => .error e
  | .ok s => if recon then recon1 .y s.cntrlY false n s else .ok s

/-! ### CODE_L16 (43_macroblock.md R242) -/

/-- One sub-block: transform, record, NNZ, control bits; answers the record's cost. -/
def l16Block (n : Nat) (s : State) : Except Stop (Nat × State) :=
  match ftq4 .y n false s with
  | .error e => .error e
  | .ok s =>
    match emitCoef .y n false s with
    | .error e => .error e
    | .ok (r, s) =>
      match setBits n s with
      | .error e => .error e
      | .ok s => .ok (r.cost, s)

/-- Sub-blocks in order; answers the sum of their costs, `g_cost`. -/
def l16Blocks : List Nat → State → Except Stop (Nat × State)
  | [], s => .ok (0, s)
  | n :: ns, s =>
    match l16Block n s with
    | .error e => .error e
    | .ok (c, s) =>
      match l16Blocks ns s with
      | .error e => .error e
      | .ok (cs, s) => .ok (c + cs, s)

/-- One 8x8 group: its records, then its elimination or its CBP bit; answers what it adds to `mb_cost`. -/
def l16Group (elim : Bool) (g : Nat) (s0 : State) : Except Stop (Nat × State) :=
  match l16Blocks (groupBlocks g) s0 with
  | .error e => .error e
  | .ok (gCost, s) =>
    if elim && decide (gCost < thrB8 s) then .ok (0, eliminateGroup g s0.arenaCur s)
    else
      match readAll (fun n => nnz .y n s) (groupBlocks g) with
      | .error e => .error e
      | .ok counts => .ok (gCost, if counts.any (· > 0) then { s with cbp := setBit s.cbp g } else s)

/-- Groups in order; answers `mb_cost`. -/
def l16Groups (elim : Bool) : List Nat → State → Except Stop (Nat × State)
  | [], s => .ok (0, s)
  | g :: gs, s =>
    match l16Group elim g s with
    | .error e => .error e
    | .ok (c, s) =>
      match l16Groups elim gs s with
      | .error e => .error e
      | .ok (cs, s) => .ok (c + cs, s)

/-- The coding part of CODE_L16. -/
def l16Code (elim : Bool) (s0 : State) : Except Stop State :=
  match l16Groups elim [0, 1, 2, 3]
      { s0 with cntrlY := 0, cbp := withCbpL s0.cbp 0, elim := clrLumaElim s0.elim } with
  | .error e => .error e
  | .ok (mbCost, s) =>
    let s := if elim && decide (mbCost < thrMb s) then eliminateMb s0.arenaCur s else s
    .ok { s with costY := BitVec.ofNat 32 mbCost }

/-- The steps of CODE_L16. -/
def codeL16 (elim recon border : Bool) (s : State) : Except Stop State :=
  match l16Code elim s with
  | .error e => .error e
  | .ok s => if recon then reconY16 false border s else .ok s

/-! ### CODE_C8 (43_macroblock.md R250) -/

/-- The four blocks of a chroma plane transformed. -/
def c8Forward (p : Plane) (s : State) : Except Stop State := runAll (fun n => ftq4 p n true) [0, 1, 2, 3] s

/-- The DC record of a chroma plane. -/
def c8DcRecord (p : Plane) (s : State) : Except Stop State :=
  match emitDc p s with
  | .error e => .error e
  | .ok (_, s) => .ok s

/-- Everything of CODE_C8 up to and including the DC records. -/
def c8Dc (s : State) : Except Stop State :=
  match runAll c8Forward [.cb, .cr] s with
  | .error e => .error e
  | .ok s =>
    match runAll fhq2 [.cb, .cr] s with
    | .error e => .error e
    | .ok s =>
      match runAll setLayerBits [.cb, .cr] { s with cntrlC := 0, elim := clrChromaElim s.elim } with
      | .error e => .error e
      | .ok s => runAll c8DcRecord [.cb, .cr] s

/-- The AC records of a chroma plane and their elimination; answers the plane's cost, eliminated or not. -/
def c8Ac (elim : Bool) (p : Plane) (s0 : State) : Except Stop (Nat × State) :=
  match emitAcs p [0, 1, 2, 3] s0 with
  | .error e => .error e
  | .ok ((_, cost), s) =>
    .ok (cost, if elim && decide (cost < thrC s) then eliminatePlane p s0.arenaCur s else s)

/-- `CHROMA_CBP()` (43_macroblock.md R254). -/
def chromaCbp (s : State) : Except Stop State :=
  match nnzdc .cb s with
  | .error e => .error e
  | .ok dcb =>
    match nnzdc .cr s with
    | .error e => .error e
    | .ok dcr =>
      match readAll (fun n => nnz .cb n s) [0, 1, 2, 3] with
      | .error e => .error e
      | .ok acb =>
        match readAll (fun n => nnz .cr n s) [0, 1, 2, 3] with
        | .error e => .error e
        | .ok acr => .ok { s with cbp := withChromaCbp s.cbp dcb dcr acb acr }

/-- The coding part of CODE_C8. -/
def c8Code (elim : Bool) (s : State) : Except Stop State :=
  match c8Dc s with
  | .error e => .error e
  | .ok s =>
    match c8Ac elim .cb s with
    | .error e => .error e
    | .ok (costCb, s) =>
      match c8Ac elim .cr s with
      | .error e => .error e
      | .ok (costCr, s) => chromaCbp { s with costC := BitVec.ofNat 32 (costCb + 2 ^ 16 * costCr) }

/-- The steps of CODE_C8. -/
def codeC8 (elim recon border : Bool) (s : State) : Except Stop State :=
  match c8Code elim s with
  | .error e => .error e
  | .ok s => if recon then reconC8 border s else .ok s

/-! ### The commands -/

/-- MB_BEGIN (43_macroblock.md R231). -/
def execMbBegin (s : State) : Host.Outcome State Fault Refusal := command .mbBegin mbBegin s

/-- CODE_I16 (43_macroblock.md R235). -/
def execCodeI16 (recon border : Bool) (s : State) : Host.Outcome State Fault Refusal :=
  command (.codeI16 recon border) (codeI16 recon border) s

/-- CODE_I4 (43_macroblock.md R240). -/
def execCodeI4 (n : Fin 16) (recon : Bool) (s : State) : Host.Outcome State Fault Refusal :=
  command (.codeI4 n recon) (codeI4 n.val recon) s

/-- CODE_L16 (43_macroblock.md R242). -/
def execCodeL16 (elim recon border : Bool) (s : State) : Host.Outcome State Fault Refusal :=
  command (.codeL16 elim recon border) (codeL16 elim recon border) s

/-- CODE_C8 (43_macroblock.md R250). -/
def execCodeC8 (elim recon border : Bool) (s : State) : Host.Outcome State Fault Refusal :=
  command (.codeC8 elim recon border) (codeC8 elim recon border) s

/-- RECON_Y16 (43_macroblock.md R256). -/
def execReconY16 (dc border : Bool) (s : State) : Host.Outcome State Fault Refusal :=
  command (.reconY16 dc border) (reconY16 dc border) s

/-- RECON_C8 (43_macroblock.md R260). -/
def execReconC8 (border : Bool) (s : State) : Host.Outcome State Fault Refusal :=
  command (.reconC8 border) (reconC8 border) s

end Sys2Proof.Machine
end

