-- ==== Sys2Proof/Machine/Dispatch.lean ====
section
/-! DEFINITION. One arm per command; each meaning runs its command from acceptance to completion. -/

namespace Sys2Proof.Machine

def exec (i : Instr) (s : State) : Host.Outcome State Fault Refusal :=
  match i with
  | .nop => Sys2Proof.Machine.execNop s
  | .ftq4 p n dcx => Sys2Proof.Machine.execFtq4 p n dcx s
  | .fhq4 => Sys2Proof.Machine.execFhq4 s
  | .fhq2 p => Sys2Proof.Machine.execFhq2 p s
  | .ihs4 => Sys2Proof.Machine.execIhs4 s
  | .ihs2 p => Sys2Proof.Machine.execIhs2 p s
  | .iqtr4 p n dcsrc => Sys2Proof.Machine.execIqtr4 p n dcsrc s
  | .iqtr4dc p n dcsrc => Sys2Proof.Machine.execIqtr4dc p n dcsrc s
  | .copy4 p n => Sys2Proof.Machine.execCopy4 p n s
  | .pack4 p n ac => Sys2Proof.Machine.execPack4 p n ac s
  | .packdc p => Sys2Proof.Machine.execPackdc p s
  | .mbBegin => Sys2Proof.Machine.execMbBegin s
  | .codeI16 recon border => Sys2Proof.Machine.execCodeI16 recon border s
  | .codeI4 n recon => Sys2Proof.Machine.execCodeI4 n recon s
  | .codeL16 elim recon border => Sys2Proof.Machine.execCodeL16 elim recon border s
  | .codeC8 elim recon border => Sys2Proof.Machine.execCodeC8 elim recon border s
  | .reconY16 dc border => Sys2Proof.Machine.execReconY16 dc border s
  | .reconC8 border => Sys2Proof.Machine.execReconC8 border s

end Sys2Proof.Machine
end

