-- ==== Sys2Proof/Machine/Port.lean ====
section
/-! DEFINITION. The host port (20_memory.md R80 to R88), the CSRs as it reads and writes them (10_state.md R31 to
R52), command issue (60_exceptions.md R282, R283, R287) and both resets (70_reset_and_hazards.md R310 to R312). -/

namespace Sys2Proof.Machine

/-! ### The local-memory map (20_memory.md R84) -/

/-- What an address range of the map holds. -/
inductive RegionKind where
  | csr
  | data
  | reserved
  deriving DecidableEq, Repr

/-- One row of the map: first and last address, and what it holds. -/
structure Region where
  first : Nat
  last : Nat
  kind : RegionKind
  deriving DecidableEq, Repr

/-- The rows of 20_memory.md R84, in its order, and after its rows of COEF the two rows for the chroma blocks its ranges
have no room for: COEF[2] blocks 2 and 3, then COEF[1] blocks 2 and 3 (log 18). -/
def lmMap : List Region :=
  [ ⟨0x0000, 0x007F, .csr⟩,
    ⟨0x0100, 0x017F, .data⟩, ⟨0x0180, 0x01FF, .data⟩, ⟨0x0200, 0x027F, .data⟩,       -- parameter tables
    ⟨0x0400, 0x04FF, .data⟩, ⟨0x0500, 0x053F, .data⟩, ⟨0x0540, 0x057F, .data⟩,       -- SRC
    ⟨0x0600, 0x06FF, .data⟩, ⟨0x0700, 0x073F, .data⟩, ⟨0x0740, 0x077F, .data⟩ ]      -- PRED
  ++
  [ ⟨0x0800, 0x08FF, .data⟩, ⟨0x0900, 0x093F, .data⟩, ⟨0x0940, 0x097F, .data⟩,       -- REC
    ⟨0x1000, 0x11FF, .data⟩, ⟨0x1200, 0x123F, .data⟩, ⟨0x1240, 0x127F, .data⟩,       -- COEF
    ⟨0x1280, 0x12BF, .data⟩, ⟨0x12C0, 0x12FF, .data⟩,                                -- COEF, chroma blocks 2 and 3
    ⟨0x1300, 0x131F, .data⟩, ⟨0x1320, 0x1327, .data⟩, ⟨0x1328, 0x132F, .data⟩,       -- DCCOEF
    ⟨0x1340, 0x135F, .data⟩, ⟨0x1360, 0x1367, .data⟩, ⟨0x1368, 0x136F, .data⟩ ]      -- DCSAVE
  ++
  [ ⟨0x1380, 0x139F, .data⟩, ⟨0x13A0, 0x13A7, .data⟩, ⟨0x13A8, 0x13AF, .data⟩,       -- DCREC
    ⟨0x1400, 0x140F, .data⟩, ⟨0x1410, 0x1413, .data⟩, ⟨0x1414, 0x1417, .data⟩,       -- NNZ
    ⟨0x1418, 0x141A, .data⟩,                                                         -- NNZDC
    ⟨0x141B, 0x141F, .reserved⟩ ]

/-- The bytes of an access width. -/
def Width.bytes : Width → Nat
  | .w8 => 1
  | .w16 => 2
  | .w32 => 4

/-- The kind of the one region a legal access lies in; none for an access the port refuses (20_memory.md R81). -/
def legalRegion (w : Width) (a : Nat) : Option RegionKind :=
  if a % w.bytes ≠ 0 then none
  else
    match lmMap.find? fun r => decide (r.first ≤ a) && decide (a + w.bytes - 1 ≤ r.last) with
    | none => none
    | some r => if r.kind = .csr ∧ w ≠ .w32 then none else some r.kind

/-! ### The CSRs -/

/-- The control and status registers (10_state.md R31 to R52). -/
inductive Csr where
  | id | version | ctrl | status | cmd | arenaCur | arenaEnd | mbStart | cntrlY | cntrlC | cbp | elim | costY | costC
  | costAcc | thr | qparamY | roundY | qparamCb | roundCb | qparamCr | roundCr
  | costLut0 | costLut1 | costLut2 | costLut3 | cfg
  deriving DecidableEq, Repr

/-- The register at a word-aligned offset; none for 0x6C to 0x7C, which hold nothing (20_memory.md R84). -/
def csrAt (a : Nat) : Option Csr :=
  [Csr.id, .version, .ctrl, .status, .cmd, .arenaCur, .arenaEnd, .mbStart, .cntrlY, .cntrlC, .cbp, .elim, .costY,
    .costC, .costAcc, .thr, .qparamY, .roundY, .qparamCb, .roundCb, .qparamCr, .roundCr, .costLut0, .costLut1,
    .costLut2, .costLut3, .cfg][a / 4]?

/-- What a register reads (10_state.md R31 to R52). -/
def csrValue (c : Csr) (s : State) : Word :=
  match c with
  | .id => 0x54514531
  | .version => 0x00010007
  | .ctrl => BitVec.ofNat 32 (s.irqDoneEn.toNat + 2 * s.irqErrEn.toNat)
  | .status => statusWord s
  | .cmd => s.cmd
  | .arenaCur => s.arenaCur
  | .arenaEnd => s.arenaEnd
  | .mbStart => s.mbStart
  | .cntrlY => s.cntrlY
  | .cntrlC => s.cntrlC
  | .cbp => s.cbp
  | .elim => s.elim
  | .costY => s.costY
  | .costC => s.costC
  | .costAcc => s.costAcc
  | .thr => s.thr
  | .qparamY => s.qparamY
  | .roundY => s.roundY
  | .qparamCb => s.qparamCb
  | .roundCb => s.roundCb
  | .qparamCr => s.qparamCr
  | .roundCr => s.roundCr
  | .costLut0 => s.costLut0
  | .costLut1 => s.costLut1
  | .costLut2 => s.costLut2
  | .costLut3 => s.costLut3
  | .cfg => BitVec.ofNat 32 s.invTmpWrap16.toNat

/-- What a write stores in a register that only stores (10_state.md R36 to R52); read-only registers ignore it. CTRL,
STATUS and CMD are written by `writeCtrl`, `writeStatus` and `issue`. -/
def csrStore (c : Csr) (v : Word) (s : State) : State :=
  match c with
  | .id => s
  | .version => s
  | .ctrl => s
  | .status => s
  | .cmd => s
  | .arenaCur => { s with arenaCur := v &&& 0xFFFFFFFE }
  | .arenaEnd => { s with arenaEnd := v &&& 0xFFFFFFFE }
  | .mbStart => s
  | .cntrlY => { s with cntrlY := v }
  | .cntrlC => { s with cntrlC := v &&& 0xFF00FF00 }
  | .cbp => { s with cbp := v &&& 0x000000FF }
  | .elim => s
  | .costY => s
  | .costC => s
  | .costAcc => { s with costAcc := v }
  | .thr => { s with thr := v }
  | .qparamY => { s with qparamY := v &&& 0x00000F1F }
  | .roundY => { s with roundY := v &&& 0x00FFFFFF }
  | .qparamCb => { s with qparamCb := v &&& 0x00000F1F }
  | .roundCb => { s with roundCb := v &&& 0x00FFFFFF }
  | .qparamCr => { s with qparamCr := v &&& 0x00000F1F }
  | .roundCr => { s with roundCr := v &&& 0x00FFFFFF }
  | .costLut0 => { s with costLut0 := v }
  | .costLut1 => { s with costLut1 := v }
  | .costLut2 => { s with costLut2 := v }
  | .costLut3 => { s with costLut3 := v }
  | .cfg => s

/-! ### What a command writes: the "Writes" of its rule -/

/-- The CSRs of 20_memory.md R83's list that the command writes. -/
def csrsWritten : Instr → List Csr
  | .nop => []
  | .ftq4 _ _ _ => []
  | .fhq4 => []
  | .fhq2 _ => []
  | .ihs4 => []
  | .ihs2 _ => []
  | .iqtr4 _ _ _ => []
  | .iqtr4dc _ _ _ => []
  | .copy4 _ _ => []
  | .pack4 _ _ _ => [.arenaCur, .costAcc]
  | .packdc _ => [.arenaCur, .costAcc]
  | .mbBegin => [.mbStart, .cntrlY, .cntrlC, .cbp, .elim, .costY, .costC, .costAcc]
  | .codeI16 _ _ => [.arenaCur, .cntrlY, .cbp, .elim, .costY]
  | .codeI4 _ _ => [.arenaCur, .cntrlY, .cbp]
  | .codeL16 _ _ _ => [.arenaCur, .cntrlY, .cbp, .elim, .costY]
  | .codeC8 _ _ _ => [.arenaCur, .cntrlC, .cbp, .elim, .costC]
  | .reconY16 dc _ => if dc then [.cntrlY] else []
  | .reconC8 _ => [.cntrlC]

/-- `n` consecutive addresses from `a` on. -/
def addrs (a n : Nat) : List Nat := (List.range n).map (a + ·)

/-- The addresses of the sixteen samples of `REC` at a sub-block. -/
def recAddrs (p : Plane) (n : Nat) : List Nat := raster.map fun k => sampleAddr recBase p n (k / 4) (k % 4)

/-- The bytes of a whole plane of `REC`. -/
def recPlaneAddrs (p : Plane) : List Nat := addrs (sampleAddr recBase p 0 0 0) (16 * p.nb)
/-- The bytes of a whole plane of `COEF`. -/
def coefPlaneAddrs (p : Plane) : List Nat := (planeBlocks p).flatMap fun n => addrs (coefAddr p n 0) 32
/-- The bytes of a whole plane of `NNZ`. -/
def nnzPlaneAddrs (p : Plane) : List Nat := addrs (nnzAddr p 0) p.nb
/-- The bytes of a plane's `DCCOEF` and `NNZDC`. -/
def dcLayerAddrs (p : Plane) : List Nat := addrs (dccoefAddr p 0) (2 * p.nb) ++ [nnzdcAddr p]
/-- The bytes of a plane's `DCREC`. -/
def dcrecAddrs (p : Plane) : List Nat := addrs (dcrecAddr p 0) (2 * p.nb)
/-- The bytes of a plane's `DCSAVE`. -/
def dcsaveAddrs (p : Plane) : List Nat := addrs (dcsaveAddr p 0) (2 * p.nb)

/-- The local-memory bytes the command's rule lists under "Writes" (70_reset_and_hazards.md R312). -/
def lmWritten : Instr → List Nat
  | .nop => []
  | .ftq4 p n dcx =>
    addrs (coefAddr p n.val 0) 32 ++ [nnzAddr p n.val] ++ (if dcx then addrs (dcsaveAddr p n.val) 2 else [])
  | .fhq4 => dcLayerAddrs .y
  | .fhq2 p => dcLayerAddrs p
  | .ihs4 => dcrecAddrs .y
  | .ihs2 p => dcrecAddrs p
  | .iqtr4 p n _ => recAddrs p n.val
  | .iqtr4dc p n _ => recAddrs p n.val
  | .copy4 p n => recAddrs p n.val
  | .pack4 p n _ => [nnzAddr p n.val]
  | .packdc p => [nnzdcAddr p]
  | .mbBegin => addrs (nnzAddr .y 0) 27
  | .codeI16 recon _ =>
    dcsaveAddrs .y ++ coefPlaneAddrs .y ++ nnzPlaneAddrs .y ++ dcLayerAddrs .y
      ++ (if recon then dcrecAddrs .y ++ recPlaneAddrs .y else [])
  | .codeI4 n recon =>
    addrs (coefAddr .y n.val 0) 32 ++ [nnzAddr .y n.val] ++ (if recon then recAddrs .y n.val else [])
  | .codeL16 _ recon _ =>
    coefPlaneAddrs .y ++ nnzPlaneAddrs .y ++ (if recon then recPlaneAddrs .y else [])
  | .codeC8 _ recon _ =>
    [Plane.cb, Plane.cr].flatMap fun p =>
      dcsaveAddrs p ++ coefPlaneAddrs p ++ nnzPlaneAddrs p ++ dcLayerAddrs p
        ++ (if recon then dcrecAddrs p ++ recPlaneAddrs p else [])
  | .reconY16 dc _ => recPlaneAddrs .y ++ (if dc then dcrecAddrs .y else [])
  | .reconC8 _ => [Plane.cb, Plane.cr].flatMap fun p => dcrecAddrs p ++ recPlaneAddrs p

/-- The command under execution (10_state.md R62). -/
def running (s : State) : Option Instr :=
  if s.busy then
    match decode s.cmd with
    | .ok i => some i
    | .reject _ => none
  else none

/-! ### Resets -/

/-- Every CSR at its reset value, nothing else changed (10_state.md R64). CFG is the device's own constant. -/
def csrReset (s : State) : State :=
  { State.reset with
    invTmpWrap16 := s.invTmpWrap16
    lm := s.lm
    arena := s.arena
    pending := s.pending
    resp := s.resp
    free := s.free }

/-- The arena bytes an abandoned command may have written, from the cursor at its acceptance up to ARENA_END, lose
their value (70_reset_and_hazards.md R311, R312; log 6). -/
def loseArena (s : State) : State :=
  if s.busy then { s with arena := s.arena.forget s.arenaCur.toNat s.arenaEnd.toNat } else s

/-- Each listed address takes a free byte (log 8). -/
def scrambleFrom (k : Nat) : List Nat → Memory → Memory
  | [], m => m
  | a :: as, m => scrambleFrom k as (m.write a (Config.freeByte k a))

/-- The local-memory bytes an abandoned command writes hold any value (70_reset_and_hazards.md R312; log 8). -/
def scrambleLm (s : State) : State :=
  match running s with
  | none => s
  | some i => { s with lm := scrambleFrom s.free (lmWritten i) s.lm, free := s.free + 1 }

/-- The soft reset of CTRL.SRST (70_reset_and_hazards.md R312). -/
def softReset (s : State) : State := csrReset (loseArena (scrambleLm s))

/-- The hardware reset: local memory loses its contents, the arena is not affected but for an abandoned command's
range (70_reset_and_hazards.md R310, R311). -/
def hardReset (s : State) : State := { csrReset (loseArena s) with lm := [], resp := ⟨false, 0⟩ }

/-! ### Writes with side effects (20_memory.md R82) -/

/-- A write to CTRL, legal at any time (10_state.md R33): with bit 31 set it resets and the other bits are ignored
(70_reset_and_hazards.md R312). -/
def writeCtrl (v : Word) (s : State) : State :=
  if v.getLsbD 31 then softReset s else { s with irqDoneEn := v.getLsbD 0, irqErrEn := v.getLsbD 1 }

/-- A write to STATUS, legal at any time (10_state.md R35): 1 clears DONE; 1 clears ERR, ERR_CODE and ERR_OPCODE. -/
def writeStatus (v : Word) (s : State) : State :=
  { s with
    done := s.done && !v.getLsbD 1
    err := if v.getLsbD 2 then none else s.err }

/-- The error code of a word the decoder rejects. -/
def Reject.code : Reject → ErrorCode
  | .illegalOpcode => .illegalOpcode
  | .illegalField => .illegalField

/-- A write of `w` to CMD: CMD_OVERRUN while busy (60_exceptions.md R287); else refused (R282) or accepted (R283). -/
def issue (w : Word) (s : State) : State :=
  if s.busy then record .cmdOverrun (opOf w) s
  else
    match decode w with
    | .reject r => refuse w (Reject.code r) s
    | .ok i =>
      match issueCheck i s with
      | some code => refuse w code s
      | none => accept w s

/-! ### Host accesses -/

/-- The port's answer (20_memory.md R81). -/
def answer (busError : Bool) (data : Word) (s : State) : State := { s with resp := ⟨busError, data⟩ }

/-- The low bytes of a host's data, first byte lowest (20_memory.md R86). -/
def dataBytes : Width → Word → List Byte
  | .w8, v => [v.extractLsb' 0 8]
  | .w16, v => [v.extractLsb' 0 8, v.extractLsb' 8 8]
  | .w32, v => [v.extractLsb' 0 8, v.extractLsb' 8 8, v.extractLsb' 16 8, v.extractLsb' 24 8]

/-- Bytes as data, the first in bits 7:0 (20_memory.md R86). -/
def bytesData : List Byte → Nat
  | [] => 0
  | b :: bs => b.toNat + 256 * bytesData bs

/-- A legal write to a register (20_memory.md R82, 60_exceptions.md R287). -/
def writeCsr (a : Nat) (v : Word) (s : State) : State :=
  match csrAt a with
  | some .ctrl => writeCtrl v s
  | some .status => writeStatus v s
  | some .cmd => issue v s
  | some c => if s.busy then record .busyWrite (opOf s.cmd) s else csrStore c v s
  | none => if s.busy then record .busyWrite (opOf s.cmd) s else s

/-- A legal write to local memory outside the CSRs (20_memory.md R85, 60_exceptions.md R287). -/
def writeLm (w : Width) (a : Nat) (v : Word) (s : State) : State :=
  if s.busy then record .busyWrite (opOf s.cmd) s else s.putBytes a (dataBytes w v)

/-- A write to a reserved location, ignored (20_memory.md R84, 60_exceptions.md R287). -/
def writeReserved (s : State) : State := if s.busy then record .busyWrite (opOf s.cmd) s else s

/-- A host write. An illegal one is answered with a bus error and changes nothing (20_memory.md R81). -/
def hostWrite (w : Width) (a : Nat) (v : Word) (s : State) : State :=
  match legalRegion w a with
  | none => answer true 0 s
  | some .csr => writeCsr a v (answer false 0 s)
  | some .data => writeLm w a v (answer false 0 s)
  | some .reserved => writeReserved (answer false 0 s)

/-- A read the spec gives any value (20_memory.md R83; log 7). -/
def answerFree (w : Width) (s : State) : State :=
  { answer false (BitVec.ofNat 32 ((Config.freeWord s.free).toNat % 2 ^ (8 * w.bytes))) s with free := s.free + 1 }

/-- A register read: any value for a register the running command writes (20_memory.md R83), else its value. -/
def readCsr (a : Nat) (s : State) : State :=
  match csrAt a with
  | none => answer false 0 s
  | some c =>
    match running s with
    | none => answer false (csrValue c s) s
    | some i => if c ∈ csrsWritten i then answerFree .w32 s else answer false (csrValue c s) s

/-- A read of local memory while no command runs (20_memory.md R85, R86, R89). -/
def readLm (w : Width) (a : Nat) (s : State) : Host.Outcome State Fault Refusal :=
  match readAll (fun x => lmByte x s) (addrs a w.bytes) with
  | .ok bs => .next (answer false (BitVec.ofNat 32 (bytesData bs)) s)
  | .error (.uninit x) => .fault (.uninitRead x)
  | .error (.raised _ s) => .next s

/-- A host read. It has no side effect; an illegal one is answered with a bus error and 0
(20_memory.md R81 to R83, R89). -/
def hostRead (w : Width) (a : Nat) (s : State) : Host.Outcome State Fault Refusal :=
  match legalRegion w a with
  | none => .next (answer true 0 s)
  | some .csr => .next (readCsr a s)
  | some .data => if s.busy then .next (answerFree w s) else readLm w a s
  | some .reserved => .next (if s.busy then answerFree w s else answer false 0 s)

/-- One host access (20_memory.md R94). -/
def hostAccess (a : HostAccess) (s : State) : Host.Outcome State Fault Refusal :=
  match a with
  | .write w addr v => .next (hostWrite w addr.toNat v s)
  | .read w addr => hostRead w addr.toNat s

end Sys2Proof.Machine
end

