-- ==== Sys2Proof/Machine/Step.lean ====
section
/-! DEFINITION. One step: the next move of the host, of the engine or of the reset input (00_scope.md R19,
70_reset_and_hazards.md R331; logs 1 to 3). -/

namespace Sys2Proof.Machine

/-- The engine completes the command under execution. A word that is no command is refused (log 16); acceptance
never leaves one. -/
def engineMove (s : State) : Host.Outcome State Fault Refusal :=
  match decode s.cmd with
  | .ok i => exec i s
  | .reject r => .next (refuse s.cmd (Reject.code r) s)

/-- The engine's turn: it completes the command it runs, and does nothing when idle. -/
def engineTurn (s : State) : Host.Outcome State Fault Refusal := if s.busy then engineMove s else .next s

/-- One move. With no move listed the engine takes its turn, so every command completes; an idle machine waits for
the host (70_reset_and_hazards.md R310). -/
def step (s : State) : Host.Outcome State Fault Refusal :=
  match s.pending with
  | [] => engineTurn s
  | .engine :: rest => engineTurn { s with pending := rest }
  | .host a :: rest => hostAccess a { s with pending := rest }
  | .hardReset :: rest => .next (hardReset { s with pending := rest })

/-- The state in which the word has been accepted into CMD and the engine moves next, so that `step` runs it
(log 3). A command word is 32 bits (30_encoding.md R110). -/
def State.withFetchWord (s : State) (nbits w : Nat) : State :=
  { s with cmd := BitVec.ofNat 32 (w % 2 ^ nbits), busy := true, pending := .engine :: s.pending }

end Sys2Proof.Machine
end

