-- ==== Sys2Proof/Safety.lean ====
section
/-! DEFINITION. What counts as a safe run, in the terms the statements use: which local-memory bytes a command needs
to have a value, how much arena room it needs at most, and the invariant of the machine. -/

namespace Sys2Proof.Machine

/-- Every listed local-memory byte has a value, so reading it is no UNINIT_READ (20_memory.md R89). -/
def Readable (l : List Nat) (s : State) : Prop := ∀ a ∈ l, (s.lm.read a).isSome = true

/-- The bytes of a sub-block in a pixel buffer. -/
def sampleAddrs (base : Nat) (p : Plane) (n : Nat) : List Nat := raster.map fun k => sampleAddr base p n (k / 4) (k % 4)

/-- The bytes of one parameter table of a plane. -/
def tableAddrs (p : Plane) (t : Nat) : List Nat := addrs (tableAddr p t 0) 32

/-- SCALE and THRESH of a plane: what the forward commands need (70_reset_and_hazards.md R315). -/
def forwardTables (p : Plane) : List Nat := tableAddrs p tableScale ++ tableAddrs p tableThresh
/-- ISCALE and WEIGHT of a plane: what the inverse commands need (70_reset_and_hazards.md R315). -/
def inverseTables (p : Plane) : List Nat := tableAddrs p tableIscale ++ tableAddrs p tableWeight

/-- SRC and PRED of a sub-block. -/
def pixelAddrs (p : Plane) (n : Nat) : List Nat := sampleAddrs srcBase p n ++ sampleAddrs predBase p n

/-- The levels of a DC layer. -/
def dccoefAddrs (p : Plane) : List Nat := addrs (dccoefAddr p 0) (2 * p.nb)

/-- What coding a whole plane needs: pixels and forward tables, and inverse tables when it reconstructs. -/
def codeInputs (p : Plane) (recon : Bool) : List Nat :=
  (planeBlocks p).flatMap (pixelAddrs p) ++ forwardTables p ++ (if recon then inverseTables p else [])

/-- What reconstructing a whole plane needs. -/
def reconInputs (p : Plane) : List Nat :=
  coefPlaneAddrs p ++ (planeBlocks p).flatMap (sampleAddrs predBase p) ++ inverseTables p

/-- The local-memory bytes that must have a value before the command: the "Reads" of its rule, less what the command
itself writes before it reads it (70_reset_and_hazards.md R315). -/
def lmInputs : Instr → List Nat
  | .nop => []
  | .ftq4 p n _ => pixelAddrs p n.val ++ forwardTables p
  | .fhq4 => dcsaveAddrs .y ++ forwardTables .y
  | .fhq2 p => dcsaveAddrs p ++ forwardTables p
  | .ihs4 => dccoefAddrs .y ++ inverseTables .y
  | .ihs2 p => dccoefAddrs p ++ inverseTables p
  | .iqtr4 p n dcsrc =>
    addrs (coefAddr p n.val 0) 32 ++ (if dcsrc then addrs (dcrecAddr p n.val) 2 else [])
      ++ sampleAddrs predBase p n.val ++ inverseTables p
  | .iqtr4dc p n dcsrc =>
    (if dcsrc then addrs (dcrecAddr p n.val) 2 else addrs (coefAddr p n.val 0) 2 ++ inverseTables p)
      ++ sampleAddrs predBase p n.val
  | .copy4 p n => sampleAddrs predBase p n.val
  | .pack4 p n _ => addrs (coefAddr p n.val 0) 32
  | .packdc p => dccoefAddrs p
  | .mbBegin => []
  | .codeI16 recon _ => codeInputs .y recon
  | .codeI4 n recon => pixelAddrs .y n.val ++ forwardTables .y ++ (if recon then inverseTables .y else [])
  | .codeL16 _ recon _ => codeInputs .y recon
  | .codeC8 _ recon _ => codeInputs .cb recon ++ codeInputs .cr recon
  | .reconY16 dc _ => reconInputs .y ++ (if dc then dccoefAddrs .y else [])
  | .reconC8 _ => reconInputs .cb ++ dccoefAddrs .cb ++ reconInputs .cr ++ dccoefAddrs .cr

/-- The most arena bytes the command's records can take: 36 for a 4x4 record, 34 for an AC record, 12 for a chroma
DC record (42_pack.md R204). -/
def recordRoom : Instr → Nat
  | .nop => 0
  | .ftq4 _ _ _ => 0
  | .fhq4 => 0
  | .fhq2 _ => 0
  | .ihs4 => 0
  | .ihs2 _ => 0
  | .iqtr4 _ _ _ => 0
  | .iqtr4dc _ _ _ => 0
  | .copy4 _ _ => 0
  | .pack4 _ _ ac => if ac then 34 else 36
  | .packdc p => 4 + 2 * p.nb
  | .mbBegin => 0
  | .codeI16 _ _ => 36 + 16 * 34
  | .codeI4 _ _ => 36
  | .codeL16 _ _ _ => 16 * 36
  | .codeC8 _ _ _ => 2 * 12 + 8 * 34
  | .reconY16 _ _ => 0
  | .reconC8 _ => 0

/-! ### What a command may change in the registers -/

/-- Bits PACK4 and PACKDC may change (42_pack.md R210, R215). -/
def packChanged : Csr → Word
  | .arenaCur => 0xFFFFFFFF
  | .costAcc => 0xFFFFFFFF
  | _ => 0

/-- Bits MB_BEGIN may change (43_macroblock.md R231). -/
def beginChanged : Csr → Word
  | .mbStart => 0xFFFFFFFF
  | .cntrlY => 0xFFFFFFFF
  | .cntrlC => 0xFFFFFFFF
  | .cbp => 0xFFFFFFFF
  | .elim => 0xFFFFFFFF
  | .costY => 0xFFFFFFFF
  | .costC => 0xFFFFFFFF
  | .costAcc => 0xFFFFFFFF
  | _ => 0

/-- Bits CODE_I16 and CODE_L16 may change (43_macroblock.md R235, R242). -/
def lumaChanged : Csr → Word
  | .arenaCur => 0xFFFFFFFF
  | .cntrlY => 0xFFFFFFFF
  | .cbp => 0x0000000F
  | .elim => 0x0000001F
  | .costY => 0xFFFFFFFF
  | _ => 0

/-- Bits CODE_I4 may change: the two control bits of its sub-block and the CBP bit of its group
(43_macroblock.md R240). -/
def i4Changed (n : Nat) : Csr → Word
  | .arenaCur => 0xFFFFFFFF
  | .cntrlY => BitVec.ofNat 32 (2 ^ acBit .y n + 2 ^ dcBit .y n)
  | .cbp => BitVec.ofNat 32 (2 ^ groupOf n)
  | _ => 0

/-- Bits CODE_C8 may change (43_macroblock.md R250). -/
def chromaChanged : Csr → Word
  | .arenaCur => 0xFFFFFFFF
  | .cntrlC => 0xFFFFFFFF
  | .cbp => 0x000000F0
  | .elim => 0x00000060
  | .costC => 0xFFFFFFFF
  | _ => 0

/-- DC bits of the control words, which promotion may set (43_macroblock.md R257). -/
def promoteYChanged : Csr → Word
  | .cntrlY => 0x0000FFFF
  | _ => 0

/-- As `promoteYChanged`, of the chroma word. -/
def promoteCChanged : Csr → Word
  | .cntrlC => 0x0000FF00
  | _ => 0

/-- For each register but CMD and STATUS, the bits a command may change. -/
def csrChanged : Instr → Csr → Word
  | .nop, _ => 0
  | .ftq4 _ _ _, _ => 0
  | .fhq4, _ => 0
  | .fhq2 _, _ => 0
  | .ihs4, _ => 0
  | .ihs2 _, _ => 0
  | .iqtr4 _ _ _, _ => 0
  | .iqtr4dc _ _ _, _ => 0
  | .copy4 _ _, _ => 0
  | .pack4 _ _ _, c => packChanged c
  | .packdc _, c => packChanged c
  | .mbBegin, c => beginChanged c
  | .codeI16 _ _, c => lumaChanged c
  | .codeI4 n _, c => i4Changed n.val c
  | .codeL16 _ _ _, c => lumaChanged c
  | .codeC8 _ _ _, c => chromaChanged c
  | .reconY16 dc _, c => if dc then promoteYChanged c else 0
  | .reconC8 _, c => promoteCChanged c

/-- The bits of a register a command leaves as they are. -/
def csrKept (i : Instr) (c : Csr) : Word := ~~~ csrChanged i c

/-- The command ends with no error: run with ERR clear it records none (60_exceptions.md R285, R288). ERR is sticky
(R284), so after an earlier error the end state alone does not tell. -/
def EndsNormally (i : Instr) (s : State) : Prop := ∃ t, exec i { s with err := none } = .next t ∧ t.err = none

/-- A key local memory may list: an address of a data region of the map (20_memory.md R84). -/
def dataAddr (a : Nat) : Bool := lmMap.any fun r => r.kind == .data && decide (r.first ≤ a) && decide (a ≤ r.last)

/-- What holds after reset and after every step: memories in their canonical form and inside their address spaces,
hard-wired bits as the spec says they read, and, while BUSY, an accepted command that passed its issue checks. -/
structure State.Inv (s : State) : Prop where
  /-- Canonical form of local memory. -/
  lmWf : s.lm.wf = true
  /-- Local memory lists only keys of its buffers and tables (20_memory.md R84). -/
  lmData : ∀ c ∈ s.lm, dataAddr c.1 = true
  /-- Canonical form of the arena. -/
  arenaWf : s.arena.wf = true
  /-- Arena addresses are 32-bit (20_memory.md R80). -/
  arena32 : ∀ c ∈ s.arena, c.1 < 2 ^ 32
  /-- ARENA_CUR bit 0 (10_state.md R36). -/
  curEven : s.arenaCur.getLsbD 0 = false
  /-- ARENA_END bit 0 (10_state.md R37). -/
  endEven : s.arenaEnd.getLsbD 0 = false
  /-- MB_START is a value ARENA_CUR had (10_state.md R38). -/
  startEven : s.mbStart.getLsbD 0 = false
  /-- CNTRL_C bits 23:16 and 7:0 (10_state.md R40). -/
  cntrlC : s.cntrlC &&& 0x00FF00FF = 0
  /-- CBP bits 31:8 (10_state.md R42). -/
  cbp : s.cbp &&& 0xFFFFFF00 = 0
  /-- ELIM bits 31:7 (10_state.md R43). -/
  elim : s.elim &&& 0xFFFFFF80 = 0
  /-- COST_Y bits 31:16 (10_state.md R44). -/
  costY : s.costY &&& 0xFFFF0000 = 0
  /-- QPARAM bits outside 11:8 and 4:0 (10_state.md R51). -/
  qparam : ∀ p, qparam p s &&& 0xFFFFF0E0 = 0
  /-- ROUND bits 31:24 (10_state.md R52). -/
  round : ∀ p, roundReg p s &&& 0xFF000000 = 0
  /-- An accepted word is a command that passed its issue checks (60_exceptions.md R282, R283). -/
  running : s.busy = true → ∃ i, decode s.cmd = .ok i ∧ issueCheck i s = none

end Sys2Proof.Machine
end

