-- ==== Sys2Proof/Certificates/Slice0/Obligations.lean ====
section
/-! DEFINITION. The statements for the provers, each a `def Obligations.<Name> : Prop`, and before them the tables and
formulas of the spec they are written with, restated from the spec's own words rather than from the model. -/

namespace Sys2Proof.Claims

open Sys2Proof.Machine

/-! ### Arithmetic of the spec, in its second forms -/

/-- The sum over an index 0 to 3. -/
def sum4 (f : Nat → Int) : Int := f 0 + f 1 + f 2 + f 3

/-- `Cf` (40_forward.md R143). -/
def cfMatrix (i j : Nat) : Int :=
  ([[1, 1, 1, 1], [2, 1, -1, -2], [1, -1, -1, 1], [1, -2, 2, -1]].getD i []).getD j 0

/-- `Hm` (40_forward.md R145). -/
def hmMatrix (i j : Nat) : Int :=
  ([[1, 1, 1, 1], [1, 1, -1, -1], [1, -1, -1, 1], [1, -1, 1, -1]].getD i []).getD j 0

/-- Element `(r, c)` of `M · X · M^T` (40_forward.md R143, R145). -/
def sandwich (m x : Nat → Nat → Int) (r c : Nat) : Int := sum4 fun i => sum4 fun j => m r i * x i j * m c j

/-- Output `k` of the 2x2 Hadamard transform of four values (40_forward.md R146). -/
def hadamard2 (x : Nat → Int) (k : Nat) : Int :=
  match k with
  | 0 => x 0 + x 1 + x 2 + x 3
  | 1 => x 0 - x 1 + x 2 - x 3
  | 2 => x 0 + x 1 - x 2 - x 3
  | _ => x 0 - x 1 - x 2 + x 3

/-- The dead-zone quantizer with division in place of the shift (40_forward.md R140). -/
def deadZone (x : Int) (sc th qb rd : Nat) : Int :=
  if x.natAbs < th then 0 else (if x < 0 then -1 else 1) * (((x.natAbs * sc + rd) / 2 ^ qb : Nat) : Int)

/-- The inverse quantizer, second form (41_inverse.md R170). -/
def dequantFloor (qd isc wt : Nat) (c : Int) : Int :=
  if qd < 4 then (c * isc * wt + 2 ^ (3 - qd)) / 2 ^ (4 - qd) else c * isc * wt * 2 ^ (qd - 4)

/-- The scaling of the luma DC layer, second form (41_inverse.md R172). -/
def lumaDcFloor (qd isc wt : Nat) (f : Int) : Int :=
  if qd < 6 then (f * isc * wt + 2 ^ (5 - qd)) / 2 ^ (6 - qd) else f * isc * wt * 2 ^ (qd - 6)

/-- The scaling of a chroma DC layer (41_inverse.md R173). -/
def chromaDcFloor (qd isc wt : Nat) (f : Int) : Int := f * isc * wt * 2 ^ qd / 32

/-- A value that fits in signed 16 bits. -/
def fits16 (x : Int) : Prop := -32768 ≤ x ∧ x ≤ 32767

/-- Output `j` of the inverse butterfly on four values, every sum passed through `w` (41_inverse.md R174, R176). -/
def ibOut (w : Int → Int) (d : Nat → Int) (j : Nat) : Int :=
  let e0 := w (d 0 + d 2)
  let e1 := w (d 0 - d 2)
  let e2 := w (d 1 / 2 - d 3)
  let e3 := w (d 1 + d 3 / 2)
  match j with
  | 0 => w (e0 + e3)
  | 1 => w (e1 + e2)
  | 2 => w (e1 - e2)
  | _ => w (e0 - e3)

/-- The eight values of the exact butterfly: the four inner sums and the four results (41_inverse.md R174). -/
def ibSums (d : Nat → Int) : List Int :=
  [d 0 + d 2, d 0 - d 2, d 1 / 2 - d 3, d 1 + d 3 / 2, ibOut id d 0, ibOut id d 1, ibOut id d 2, ibOut id d 3]

/-- Row `r`, column `c` of the inverse transform of sixteen values in raster order (41_inverse.md R176). -/
def inverse4 (w : Int → Int) (d : Nat → Int) (r c : Nat) : Int :=
  ibOut w (fun i => ibOut w (fun j => d (4 * i + j)) c) r

/-- One reconstructed sample (41_inverse.md R175). -/
def sampleOf (v : Int) (pr : Nat) : Nat := (max 0 (min 255 ((v + 32) / 64 + pr))).toNat

/-- The level FTQ4 computes at raster position `k` (40_forward.md R142, R143, R150). -/
def levelOf (qb rd : Nat) (src pr sc th : Nat → Nat) (k : Nat) : Int :=
  trunc16 (deadZone (sandwich cfMatrix (fun r c => (src (4 * r + c) : Int) - pr (4 * r + c)) (k / 4) (k % 4))
    (sc k) (th k) qb rd)

/-! ### The registers -/

/-- The offset of each register (10_state.md R31 to R52). -/
def csrOffset : Csr → Nat
  | .id => 0x00
  | .version => 0x04
  | .ctrl => 0x08
  | .status => 0x0C
  | .cmd => 0x10
  | .arenaCur => 0x14
  | .arenaEnd => 0x18
  | .mbStart => 0x1C
  | .cntrlY => 0x20
  | .cntrlC => 0x24
  | .cbp => 0x28
  | .elim => 0x2C
  | .costY => 0x30
  | .costC => 0x34
  | .costAcc => 0x38
  | .thr => 0x3C
  | .qparamY => 0x40
  | .roundY => 0x44
  | .qparamCb => 0x48
  | .roundCb => 0x4C
  | .qparamCr => 0x50
  | .roundCr => 0x54
  | .costLut0 => 0x58
  | .costLut1 => 0x5C
  | .costLut2 => 0x60
  | .costLut3 => 0x64
  | .cfg => 0x68

/-- The bits a plain register stores on a write; none for a read-only register and for CTRL, STATUS and CMD, whose
writes have statements of their own. -/
def storedBits : Csr → Option Word
  | .id => none
  | .version => none
  | .ctrl => none
  | .status => none
  | .cmd => none
  | .arenaCur => some 0xFFFFFFFE
  | .arenaEnd => some 0xFFFFFFFE
  | .mbStart => none
  | .cntrlY => some 0xFFFFFFFF
  | .cntrlC => some 0xFF00FF00
  | .cbp => some 0x000000FF
  | .elim => none
  | .costY => none
  | .costC => none
  | .costAcc => some 0xFFFFFFFF
  | .thr => some 0xFFFFFFFF
  | .qparamY => some 0x00000F1F
  | .roundY => some 0x00FFFFFF
  | .qparamCb => some 0x00000F1F
  | .roundCb => some 0x00FFFFFF
  | .qparamCr => some 0x00000F1F
  | .roundCr => some 0x00FFFFFF
  | .costLut0 => some 0xFFFFFFFF
  | .costLut1 => some 0xFFFFFFFF
  | .costLut2 => some 0xFFFFFFFF
  | .costLut3 => some 0xFFFFFFFF
  | .cfg => none

/-- The value of each register after a reset; CFG reads the device's constant and has none here (10_state.md R64). -/
def resetValue : Csr → Option Word
  | .id => some 0x54514531
  | .version => some 0x00010007
  | .ctrl => some 0
  | .status => some 0
  | .cmd => some 0
  | .arenaCur => some 0
  | .arenaEnd => some 0
  | .mbStart => some 0
  | .cntrlY => some 0
  | .cntrlC => some 0
  | .cbp => some 0
  | .elim => some 0
  | .costY => some 0
  | .costC => some 0
  | .costAcc => some 0
  | .thr => some 0x09040504
  | .qparamY => some 0
  | .roundY => some 0
  | .qparamCb => some 0
  | .roundCb => some 0
  | .qparamCr => some 0
  | .roundCr => some 0
  | .costLut0 => some 0x01020203
  | .costLut1 => some 0x01010101
  | .costLut2 => some 0x01010101
  | .costLut3 => some 0x01010101
  | .cfg => none

/-- ERR_CODE of each error, the table of 60_exceptions.md R281. -/
def errorNumber : ErrorCode → Nat
  | .illegalOpcode => 1
  | .illegalField => 2
  | .badQparam => 3
  | .arenaOvf => 4
  | .cmdOverrun => 5
  | .busyWrite => 6

/-- The registers 20_memory.md R83 lists as written by running commands. -/
def busyList : List Csr := [.arenaCur, .cntrlY, .cntrlC, .cbp, .elim, .costY, .costC, .costAcc, .mbStart]

/-! ### Ends of a command -/

/-- ERR with its record after an error: the first one is kept (60_exceptions.md R284). -/
def firstError (e : Option ErrorRecord) (code : ErrorCode) (op : Byte) : Option ErrorRecord := some (e.getD ⟨code, op⟩)

/-- What every accepted command leaves in CMD, BUSY and DONE (60_exceptions.md R283, R288). -/
def completed (i : Instr) (s : State) : State := { s with cmd := encode i, busy := false, done := true }

/-- From `s` to `t` the command changed local memory alone, and there only the bytes its rule lists under "Writes". -/
def LmOnly (i : Instr) (s t : State) : Prop :=
  t = { completed i s with lm := t.lm } ∧ ∀ a, a ∉ lmWritten i → t.lm.read a = s.lm.read a

/-- The bytes of a record (42_pack.md R204): count, 0x00, bitmap low byte first, then the non-zero values in scan
order, each low byte first. -/
def recordBytes (nnz sig : Nat) (values : List Int) : List Byte :=
  [BitVec.ofNat 8 nnz, 0, BitVec.ofNat 8 sig, BitVec.ofNat 8 (sig / 256)]
    ++ values.flatMap fun v => [BitVec.ofInt 8 v, BitVec.ofInt 8 (v / 256)]

/-- The scan values rebuilt from a record: each position of `positions` takes the next value when its bit of the
bitmap is set, else 0 (42_pack.md R206). -/
def rebuild (sig : Nat) : List Nat → List Int → List Int
  | [], _ => []
  | j :: js, values =>
    if sig.testBit j then values.headD 0 :: rebuild sig js values.tail else 0 :: rebuild sig js values

/-- `COST` as its loop: the pair of the cost so far and the run (42_pack.md R203). -/
def costLoop (lut : Nat → Nat) (large : Nat) (vs : List Int) : Nat × Nat :=
  vs.foldl
    (fun (acc : Nat × Nat) (v : Int) =>
      if v = 0 then (acc.1, acc.2 + 1)
      else if v.natAbs = 1 then (acc.1 + lut acc.2, 0)
      else (acc.1 + large, 0))
    (0, 0)

/-- The length of the record of the scan values `vs` (42_pack.md R204). -/
def recLen (vs : List Int) : Nat := 4 + 2 * countNonzero vs

/-- The record of the scan values `vs` from position `start` on (42_pack.md R202, R204). -/
def recordOf (start : Nat) (vs : List Int) : List Byte :=
  recordBytes (countNonzero vs) (sigFrom start vs) (vs.filter (· ≠ 0))

/-- The cost of a scan with the tables of `s` (42_pack.md R203). -/
def scanCost (s : State) (vs : List Int) : Nat := (costLoop (costLut s) (largeCost s) vs).1

/-- The sum of `f` over a list. -/
def sumOver (f : Nat → Nat) (l : List Nat) : Nat := (l.map f).sum

/-- From `s` to `t` a record of the scan values `vs` was appended to the arena and nothing of the arena beside it
changed (42_pack.md R205). -/
def Appended (start : Nat) (vs : List Int) (s t : State) : Prop :=
  (∀ j, j < recLen vs →
      t.arena.read (s.arenaCur.toNat + j) = (recordBytes (countNonzero vs) (sigFrom start vs) (vs.filter (· ≠ 0)))[j]?)
    ∧ (∀ a, a < s.arenaCur.toNat ∨ s.arenaCur.toNat + recLen vs ≤ a → t.arena.read a = s.arena.read a)
    ∧ t.arenaCur.toNat = s.arenaCur.toNat + recLen vs

/-- From `s` to `t` the records `bs` were appended: they stand from the cursor of `s` up to the cursor of `t`, and no byte
below the cursor of `s` changed. Above the cursor of `t` rewound records may have left bytes (20_memory.md R93). -/
def AppendedAll (bs : List Byte) (s t : State) : Prop :=
  t.arenaCur.toNat = s.arenaCur.toNat + bs.length ∧
    (∀ j, j < bs.length → t.arena.read (s.arenaCur.toNat + j) = bs[j]?) ∧
    ∀ a, a < s.arenaCur.toNat → t.arena.read a = s.arena.read a

/-! ### What a macroblock command codes and reconstructs, in terms of the primitive commands -/

/-- `lv` are the levels FTQ4 stores for sub-block `n` of plane `p` from the state `s` (40_forward.md R150). -/
def Ftq4Gives (p : Plane) (n : Fin 16) (dcx : Bool) (s : State) (lv : Nat → Int) : Prop :=
  ∃ u, exec (.ftq4 p n dcx) s = .next u ∧ ∀ k, k < 16 → coef p n k u = .ok (lv k)

/-- The sixteen samples of REC at sub-block `n` of plane `p` in `t` are those in `u`. -/
def SameRec (p : Plane) (n : Nat) (t u : State) : Prop :=
  ∀ k, k < 16 → lmSample (sampleAddr recBase p n (k / 4) (k % 4)) t = lmSample (sampleAddr recBase p n (k / 4) (k % 4)) u

/-- The sixteen samples of REC at sub-block `n` of plane `p` in `t` are `f`. -/
def RecIs (p : Plane) (n : Nat) (t : State) (f : Nat → Nat) : Prop :=
  ∀ k, k < 16 → lmSample (sampleAddr recBase p n (k / 4) (k % 4)) t = .ok (f k)

/-- The command whose path sub-block `n` takes by the control word `m` (43_macroblock.md R247); the bits are those of
10_state.md R40 and R41. -/
def pathCommand (p : Plane) (m : Word) (dcsrc : Bool) (n : Fin 16) : Instr :=
  if m.getLsbD (31 - 4 * (p.idx - 1) - n) = true then .iqtr4 p n dcsrc
  else if m.getLsbD (15 - 4 * (p.idx - 1) - n) = true then .iqtr4dc p n dcsrc
  else .copy4 p n

/-- REC of every sub-block of plane `p` in `t` is what the command of its path leaves there from the state `v`. -/
def Reconstructed (p : Plane) (m : Word) (dcsrc : Bool) (v t : State) : Prop :=
  ∀ n : Fin 16, n.val < p.nb → ∃ u, exec (pathCommand p m dcsrc n) v = .next u ∧ SameRec p n t u

/-- An outcome with `w` in CMD of its next state. -/
def withCmd (w : Word) : Host.Outcome State Fault Refusal → Host.Outcome State Fault Refusal
  | .next t => .next { t with cmd := w }
  | .fault f => .fault f
  | .refused r => .refused r

/-! ### Legal words -/

/-- The opcodes of the map (30_encoding.md R114). -/
def definedOps : List Nat :=
  [0x00, 0x01, 0x02, 0x03, 0x08, 0x09, 0x0A, 0x0B, 0x0C, 0x10, 0x11, 0x20, 0x21, 0x22, 0x23, 0x24, 0x25, 0x26]

/-- A field the command does not use is 0. -/
def absent (w : Word) (hi lo : Nat) : Prop := bits w hi lo = 0

/-- `NB(PL)` for a plane number (30_encoding.md R113). -/
def nbOf (pl : Nat) : Nat := if pl = 0 then 16 else 4

/-- What 30_encoding.md R116 asks of a word with a defined opcode, opcode by opcode. -/
def legalFields (w : Word) : Prop :=
  absent w 13 0 ∧
    match bits w 31 24 with
    | 0x01 => bits w 23 22 < 3 ∧ bits w 21 18 < nbOf (bits w 23 22) ∧ absent w 16 14
    | 0x03 => (bits w 23 22 = 1 ∨ bits w 23 22 = 2) ∧ absent w 21 14
    | 0x09 => (bits w 23 22 = 1 ∨ bits w 23 22 = 2) ∧ absent w 21 14
    | 0x0A => bits w 23 22 < 3 ∧ bits w 21 18 < nbOf (bits w 23 22) ∧ absent w 16 14
    | 0x0B => bits w 23 22 < 3 ∧ bits w 21 18 < nbOf (bits w 23 22) ∧ absent w 16 14
    | 0x0C => bits w 23 22 < 3 ∧ bits w 21 18 < nbOf (bits w 23 22) ∧ absent w 17 14
    | 0x10 => bits w 23 22 < 3 ∧ bits w 21 18 < nbOf (bits w 23 22) ∧ absent w 16 14
    | 0x11 => bits w 23 22 < 3 ∧ absent w 21 14
    | 0x21 => absent w 23 16 ∧ (bits w 14 14 = 1 → bits w 15 15 = 1)
    | 0x22 => absent w 23 22 ∧ absent w 17 16 ∧ absent w 14 14
    | 0x23 => absent w 23 17 ∧ (bits w 14 14 = 1 → bits w 15 15 = 1)
    | 0x24 => absent w 23 17 ∧ (bits w 14 14 = 1 → bits w 15 15 = 1)
    | 0x25 => absent w 23 18 ∧ absent w 16 15
    | 0x26 => absent w 23 15
    | _ => absent w 23 14

/-- The planes whose QP_DIV a word's command reads: the last column of 30_encoding.md R114. -/
def planesRead (w : Word) : List Plane :=
  match bits w 31 24 with
  | 0x08 => [.y]
  | 0x09 | 0x0A | 0x0B => match bits w 23 22 with
    | 0 => [.y]
    | 1 => [.cb]
    | _ => [.cr]
  | 0x21 | 0x22 | 0x23 => if bits w 15 15 = 1 then [.y] else []
  | 0x24 => if bits w 15 15 = 1 then [.cb, .cr] else []
  | 0x25 => [.y]
  | 0x26 => [.cb, .cr]
  | _ => []

/-- An access the port performs: aligned, inside one region of the map, and of width 4 in the CSR region
(20_memory.md R81). -/
def legalAccess (w : Width) (a : Nat) : Prop :=
  a % w.bytes = 0 ∧ ∃ r ∈ lmMap, r.first ≤ a ∧ a + w.bytes - 1 ≤ r.last ∧ (r.kind = .csr → w = .w32)

/-- An access inside a region of buffers or tables. -/
def dataAccess (w : Width) (a : Nat) : Prop :=
  a % w.bytes = 0 ∧ ∃ r ∈ lmMap, r.kind = .data ∧ r.first ≤ a ∧ a + w.bytes - 1 ≤ r.last

end Sys2Proof.Claims

open Sys2Proof Sys2Proof.Machine Sys2Proof.Claims

/-! ### Encoding -/

/-- Decoding the word of a legal command gives the command back, every operand at every value (R118). -/
def Obligations.DecodeOfEncode : Prop := ∀ i : Instr, i.wf = true → decode (encode i) = .ok i

/-- A word the decoder takes is legal, and is the word of the command it was taken for: no bit is dropped (R118). -/
def Obligations.EncodeOfDecode : Prop := ∀ (w : Word) (i : Instr), decode w = .ok i → i.wf = true ∧ encode i = w

/-- Words written out bit by bit from 30_encoding.md R111 and R114, one of each family. -/
def Obligations.WordsDecodeAsTheSpecSays : Prop :=
  decode 0b00000000000000000000000000000000#32 = .ok .nop ∧
    decode 0b00000001010010100000000000000000#32 = .ok (.ftq4 .cb 2 true) ∧
    decode 0b00001001100000000000000000000000#32 = .ok (.ihs2 .cr) ∧
    decode 0b00010000000001100000000000000000#32 = .ok (.pack4 .y 1 true) ∧
    decode 0b00100011000000011000000000000000#32 = .ok (.codeL16 true true false) ∧
    decode 0b00100101000000100100000000000000#32 = .ok (.reconY16 true true)

/-! ### Issue: refusal and acceptance -/

/-- A reserved opcode, and no other, is refused as ILLEGAL_OPCODE: CMD, ERR and DONE change, nothing else (R115). -/
def Obligations.ReservedOpcodeRefused : Prop :=
  ∀ (w : Word) (s : State), s.busy = false →
    (decode w = .reject .illegalOpcode ↔ bits w 31 24 ∉ definedOps) ∧
      (bits w 31 24 ∉ definedOps →
        issue w s = { s with cmd := w, done := true, err := firstError s.err .illegalOpcode (opOf w) })

/-- A defined opcode with an illegal field, and no other defined one, is refused as ILLEGAL_FIELD (R116). -/
def Obligations.IllegalFieldRefused : Prop :=
  ∀ (w : Word) (s : State), s.busy = false → bits w 31 24 ∈ definedOps →
    (decode w = .reject .illegalField ↔ ¬ legalFields w) ∧
      (¬ legalFields w →
        issue w s = { s with cmd := w, done := true, err := firstError s.err .illegalField (opOf w) })

/-- A legal word whose command reads a QP_DIV above 8 is refused as BAD_QPARAM, with nothing else changed than CMD, ERR
and DONE; any other legal word is accepted: CMD and BUSY change, DONE, ERR and all else stay (R117, R283). -/
def Obligations.LegalWordAcceptedOrBadQparam : Prop :=
  ∀ (w : Word) (s : State), s.busy = false → bits w 31 24 ∈ definedOps → legalFields w →
    ((∃ p ∈ planesRead w, qpDiv p s > 8) →
      issue w s = { s with cmd := w, done := true, err := firstError s.err .badQparam (opOf w) }) ∧
    ((∀ p ∈ planesRead w, qpDiv p s ≤ 8) → issue w s = { s with cmd := w, busy := true })

/-- A command whose word `exec` is given although an issue check refuses it ends at once with that check's error and no
other effect, as R282 has it of a word written to CMD. That `exec` itself makes the issue checks, and makes them also when
BUSY is set, where R287 rules a word written to CMD, is the model's choice (logs 14, 15). -/
def Obligations.RefusedCommandHasNoEffect : Prop :=
  ∀ (i : Instr) (s : State),
    (i.wf = false → exec i s =
      .next { completed i s with err := firstError s.err .illegalField (opOf (encode i)) }) ∧
    (i.wf = true → (∃ p ∈ qpDivRead i, qpDiv p s > 8) → exec i s =
      .next { completed i s with err := firstError s.err .badQparam (opOf (encode i)) })

/-! ### The step -/

/-- A step runs the decoded command: when the engine moves next, or no move is listed, and the accepted word decodes
to `i`, the step is `exec i`; storing a word where the next command is taken from makes the step run that word. An idle
engine's turn changes nothing; a host access or the reset input is performed as it stands. The list of moves, and that an
empty list lets the engine move, are the model's own choice (logs 1 to 3). -/
def Obligations.StepRunsTheDecodedCommand : Prop :=
  (∀ (s : State) (i : Instr), s.pending = [] → s.busy = true → decode s.cmd = .ok i → step s = exec i s) ∧
    (∀ (s : State) (w : Nat) (i : Instr), w < 2 ^ 32 → decode (BitVec.ofNat 32 w) = .ok i →
      step (s.withFetchWord 32 w) = exec i { s with cmd := BitVec.ofNat 32 w, busy := true }) ∧
    (∀ s : State, s.pending = [] → s.busy = false → step s = .next s) ∧
    ∀ (s : State) (rest : List Event),
      (∀ i, s.pending = .engine :: rest → s.busy = true → decode s.cmd = .ok i →
        step s = exec i { s with pending := rest }) ∧
      (s.pending = .engine :: rest → s.busy = false → step s = .next { s with pending := rest }) ∧
      (∀ a, s.pending = .host a :: rest → step s = hostAccess a { s with pending := rest }) ∧
      (s.pending = .hardReset :: rest → step s = .next (hardReset { s with pending := rest }))

/-- A write of a command's word to CMD, followed by the engine's move, is `exec` of the command on the state the write
found: the command reads the state as it stands at its acceptance (R95). The list of moves and the port's answer are the
model's own (logs 1, 21). -/
def Obligations.IssueThenEngineIsExec : Prop :=
  ∀ (s : State) (w : Word) (i : Instr) (rest : List Event), s.busy = false →
    s.pending = .host (.write .w32 0x0010 w) :: .engine :: rest → decode w = .ok i →
    (∀ p ∈ qpDivRead i, qpDiv p s ≤ 8) →
      ∃ s1, step s = .next s1 ∧ s1.busy = true ∧
        step s1 = exec i { s with pending := rest, resp := ⟨false, 0⟩ }

/-! ### Every command -/

/-- Every command completes, with no error, when its operands are legal, the QP_DIV it reads are at most 8, the bytes it
reads have a value and the arena has room; it changes local memory only where its rule says "Writes", registers only in
the bits its rule names, and the arena only between the cursor and `recordRoom` bytes further. -/
def Obligations.EveryCommandCompletes : Prop :=
  ∀ (i : Instr) (s : State), i.wf = true → (∀ p ∈ qpDivRead i, qpDiv p s ≤ 8) → Readable (lmInputs i) s →
    s.arenaCur.toNat + recordRoom i ≤ s.arenaEnd.toNat →
      ∃ t, exec i s = .next t ∧ t.cmd = encode i ∧ t.busy = false ∧ t.done = true ∧ t.err = s.err ∧
        (∀ a, a ∉ lmWritten i → t.lm.read a = s.lm.read a) ∧
        (∀ c, c ≠ .cmd → c ≠ .status → csrValue c t &&& csrKept i c = csrValue c s &&& csrKept i c) ∧
        (∀ a, a < s.arenaCur.toNat ∨ s.arenaCur.toNat + recordRoom i ≤ a → t.arena.read a = s.arena.read a) ∧
        s.arenaCur.toNat ≤ t.arenaCur.toNat ∧ t.arenaCur.toNat ≤ s.arenaCur.toNat + recordRoom i ∧
        t.pending = s.pending ∧ t.resp = s.resp ∧ t.free = s.free

/-- No command is refused, and one stops only at a byte of local memory that has no value (R89). -/
def Obligations.CommandsStopOnlyAtUnwrittenBytes : Prop :=
  ∀ (i : Instr) (s : State),
    (∃ t, exec i s = .next t) ∨ ∃ a, exec i s = .fault (.uninitRead a) ∧ s.lm.read a = none

/-- Every command that ends has BUSY = 0, DONE = 1 and its word in CMD; once past its issue checks it can record no error
but ARENA_OVF, only when none is recorded, and only a command that writes records can (R285, R288). ERR is sticky and no
command reads it: run with an error already recorded, a command answers what it answers with ERR clear, the recorded error
kept in place of its own (R283, R284). -/
def Obligations.CommandEnds : Prop :=
  (∀ (i : Instr) (s t : State), exec i s = .next t →
    t.busy = false ∧ t.done = true ∧ t.cmd = encode i ∧
      (i.wf = true → (∀ p ∈ qpDivRead i, qpDiv p s ≤ 8) →
        t.err = s.err ∨ (s.err = none ∧ t.err = some ⟨.arenaOvf, opOf (encode i)⟩ ∧ recordRoom i ≠ 0))) ∧
    ∀ (i : Instr) (s : State) (e : ErrorRecord),
      (∀ t, exec i { s with err := none } = .next t → exec i { s with err := some e } = .next { t with err := some e }) ∧
        ∀ a, exec i { s with err := none } = .fault (.uninitRead a) →
          exec i { s with err := some e } = .fault (.uninitRead a)

/-- Whatever a command does, also when it overflows: local memory outside the "Writes" of its rule, every register bit
its rule does not name, and everything that is no register, local memory or arena, are unchanged. -/
def Obligations.CommandFrame : Prop :=
  ∀ (i : Instr) (s t : State), exec i s = .next t →
    (∀ a, a ∉ lmWritten i → t.lm.read a = s.lm.read a) ∧
      (∀ c, c ≠ .cmd → c ≠ .status → csrValue c t &&& csrKept i c = csrValue c s &&& csrKept i c) ∧
      t.pending = s.pending ∧ t.resp = s.resp ∧ t.free = s.free

/-- A command writes the arena only at addresses from the cursor at its acceptance up to, not including, ARENA_END, and
never ends with the cursor below where it began (R90). -/
def Obligations.ArenaDiscipline : Prop :=
  ∀ (i : Instr) (s t : State), exec i s = .next t →
    (∀ a, a < s.arenaCur.toNat ∨ s.arenaEnd.toNat ≤ a → t.arena.read a = s.arena.read a) ∧
      s.arenaCur.toNat ≤ t.arenaCur.toNat ∧
      (s.arenaCur.toNat ≤ s.arenaEnd.toNat → t.arenaCur.toNat ≤ s.arenaEnd.toNat)

/-- No command writes the parameter tables, SRC, PRED, the parameter registers, thresholds, costs, ARENA_END, CTRL or
CFG: what the host loads, only the host changes (R19, R53). -/
def Obligations.CommandsKeepTheHostsInputs : Prop :=
  ∀ (i : Instr) (s t : State), exec i s = .next t →
    (∀ a, a < 0x0800 → t.lm.read a = s.lm.read a) ∧
      ∀ c ∈ [Csr.ctrl, .arenaEnd, .thr, .costLut0, .costLut1, .costLut2, .costLut3, .qparamY, .roundY, .qparamCb,
          .roundCb, .qparamCr, .roundCr, .cfg, .id, .version], csrValue c t = csrValue c s

/-! ### The invariant -/

/-- The invariant holds after reset. -/
def Obligations.ResetMeetsInvariant : Prop := State.reset.Inv

/-- Every step keeps the invariant: canonical memories inside their spaces, hard-wired bits, a decoded legal command
whenever BUSY is set. Where the chroma COEF blocks stand is in part the model's choice (log 18). -/
def Obligations.StepKeepsInvariant : Prop := ∀ s t : State, s.Inv → step s = .next t → t.Inv

/-! ### Reset -/

/-- After a reset of either kind every register has its reset value, CFG the device's constant, and the interrupt output
is low; a hardware reset leaves no local-memory byte a value, a soft reset that interrupts no command leaves local memory
as it is (R64). That an unspecified byte has no value is the model's reading of R89 (log 4). -/
def Obligations.ResetValues : Prop :=
  (∀ c v, resetValue c = some v → csrValue c State.reset = v) ∧ State.reset.irq = false ∧
    (∀ a, State.reset.lm.read a = none) ∧
    ∀ s : State,
      (∀ c v, resetValue c = some v → csrValue c (hardReset s) = v ∧ csrValue c (softReset s) = v) ∧
      csrValue .cfg (hardReset s) = csrValue .cfg s ∧ csrValue .cfg (softReset s) = csrValue .cfg s ∧
      (hardReset s).irq = false ∧ (softReset s).irq = false ∧
      (∀ a, (hardReset s).lm.read a = none) ∧ (s.busy = false → (softReset s).lm = s.lm)

/-- A soft reset, at any time and whatever bits 30:0 of the word: it resets the registers, keeps local memory and the
arena when no command runs, and else keeps every byte the abandoned command does not write (R312). That bits 30:0 are
ignored also while a command runs, and the data of the port's answer, are the model's choice (logs 12, 21). -/
def Obligations.SoftResetEffect : Prop :=
  ∀ (v : Word) (s : State), v.getLsbD 31 = true →
    let t := hostWrite .w32 0x0008 v s
    (∀ c x, resetValue c = some x → csrValue c t = x) ∧ csrValue .cfg t = csrValue .cfg s ∧ t.irq = false ∧
      (s.busy = false → t.lm = s.lm ∧ t.arena = s.arena) ∧
      (∀ i, s.busy = true → decode s.cmd = .ok i → ∀ a, a ∉ lmWritten i → t.lm.read a = s.lm.read a) ∧
      (∀ a, a < s.arenaCur.toNat ∨ s.arenaEnd.toNat ≤ a → t.arena.read a = s.arena.read a) ∧
      t.pending = s.pending ∧ t.resp = ⟨false, 0⟩

/-- A hardware reset leaves the arena as it is, but for the range a running command may have written: there no byte has a
value the model knows (R310, R311; logs 5, 6, the model's reading of "any value"). -/
def Obligations.HardResetKeepsTheArena : Prop :=
  ∀ s : State,
    (s.busy = false → (hardReset s).arena = s.arena) ∧
      (∀ a, a < s.arenaCur.toNat ∨ s.arenaEnd.toNat ≤ a → (hardReset s).arena.read a = s.arena.read a) ∧
      (s.busy = true → ∀ a, s.arenaCur.toNat ≤ a → a < s.arenaEnd.toNat → (hardReset s).arena.read a = none) ∧
      (hardReset s).pending = s.pending

/-! ### STATUS, errors, interrupt -/

/-- STATUS reads BUSY, DONE, ERR, IRQ, ERR_CODE and ERR_OPCODE at their places, ERR_CODE the number 1 to 6 the table of
R281 gives the recorded error, ERR_CODE and ERR_OPCODE 0 when ERR = 0, and 0 elsewhere; the interrupt output is `(DONE and IRQ_DONE_EN) or (ERR and IRQ_ERR_EN)` (R35, R290). -/
def Obligations.StatusLayoutAndInterrupt : Prop :=
  ∀ s : State,
    (csrValue .status s).getLsbD 0 = s.busy ∧ (csrValue .status s).getLsbD 1 = s.done ∧
      (csrValue .status s).getLsbD 2 = s.err.isSome ∧ (csrValue .status s).getLsbD 3 = s.irq ∧
      (s.err = none → bits (csrValue .status s) 11 8 = 0 ∧ bits (csrValue .status s) 23 16 = 0) ∧
      (∀ e, s.err = some e →
        bits (csrValue .status s) 11 8 = errorNumber e.code ∧ bits (csrValue .status s) 23 16 = e.opcode.toNat) ∧
      csrValue .status s &&& 0xFF00F0F0 = 0 ∧
      (s.irq = true ↔ (s.done = true ∧ s.irqDoneEn = true) ∨ (s.err.isSome = true ∧ s.irqErrEn = true))

/-- Writes to STATUS and CTRL, also while BUSY: 1 clears DONE, 1 clears ERR with its code and opcode, CTRL takes its two
enables, and nothing else changes; either way of clearing brings the interrupt output down (R33, R35, R290). The data 0 of
a write's answer is the model's choice (log 21), here and below. -/
def Obligations.StatusAndCtrlWrites : Prop :=
  ∀ (v : Word) (s : State),
    hostWrite .w32 0x000C v s =
        { s with
          done := s.done && !v.getLsbD 1
          err := if v.getLsbD 2 then none else s.err
          resp := ⟨false, 0⟩ } ∧
      (v.getLsbD 31 = false → hostWrite .w32 0x0008 v s =
        { s with irqDoneEn := v.getLsbD 0, irqErrEn := v.getLsbD 1, resp := ⟨false, 0⟩ }) ∧
      (v.getLsbD 1 = true → v.getLsbD 2 = true → (hostWrite .w32 0x000C v s).irq = false) ∧
      (v.getLsbD 31 = false → v.getLsbD 0 = false → v.getLsbD 1 = false → (hostWrite .w32 0x0008 v s).irq = false)

/-! ### The host port -/

/-- An access that is not naturally aligned, not inside one region, or narrow in the CSR region is refused with a bus
error: it changes no state, a read returns 0, and ERR is not set (R81). The regions are the rows of R84 and the two rows
0x1280 to 0x12BF and 0x12C0 to 0x12FF for chroma COEF blocks 2 and 3, which are the model's choice (log 18). -/
def Obligations.IllegalAccessRefused : Prop :=
  ∀ (w : Width) (a : Nat) (v : Word) (s : State),
    (¬ legalAccess w a →
      (hostWrite w a v s).resp.busError = true ∧ hostWrite w a v s = { s with resp := (hostWrite w a v s).resp } ∧
        hostRead w a s = .next { s with resp := ⟨true, 0⟩ }) ∧
    (legalAccess w a →
      (hostWrite w a v s).resp.busError = false ∧ ∀ t, hostRead w a s = .next t → t.resp.busError = false)

/-- A host read has no side effect: it changes only the port's answer and the model's own counter of free values; it
stops only at a byte that has no value, read while idle (R82, R89; the counter is the model's own, logs 7, 10; that 0x1280
to 0x12FF, which the ranges of R84 do not list, are data, is the model's choice, log 18). -/
def Obligations.HostReadsHaveNoSideEffect : Prop :=
  ∀ (w : Width) (a : Nat) (s : State),
    (∀ t, hostRead w a s = .next t → t = { s with resp := t.resp, free := t.free }) ∧
      ((∃ t, hostRead w a s = .next t) ∨
        (s.busy = false ∧ dataAccess w a ∧
          ∃ b, hostRead w a s = .fault (.uninitRead b) ∧ a ≤ b ∧ b < a + w.bytes ∧ s.lm.read b = none))

/-- What the host writes to a buffer or table it reads back, in the low bytes of its width, and no other byte changes;
a read carries the byte at `a + j` in data bits `8*j + 7` down to `8*j` (R85, R86, R88). The lanes of a narrow access and
the zeros above them are the model's choice (log 11); so is it that 0x1280 to 0x12FF, which the ranges of R84 do not list,
hold chroma COEF blocks the host reads and writes (log 18). -/
def Obligations.LocalMemoryReadsBack : Prop :=
  ∀ (w : Width) (a : Nat) (v : Word) (s : State), s.busy = false → dataAccess w a →
    (∃ t, hostRead w a (hostWrite w a v s) = .next t ∧
      t.resp = ⟨false, BitVec.ofNat 32 (v.toNat % 2 ^ (8 * w.bytes))⟩) ∧
    (∀ b, b < a ∨ a + w.bytes ≤ b → (hostWrite w a v s).lm.read b = s.lm.read b) ∧
    hostWrite w a v s = { s with lm := (hostWrite w a v s).lm, resp := ⟨false, 0⟩ } ∧
    ∀ b : Nat → Byte, (∀ j, j < w.bytes → s.lm.read (a + j) = some (b j)) →
      ∃ t, hostRead w a s = .next t ∧ t.resp.busError = false ∧
        (∀ j, j < w.bytes → t.resp.data.extractLsb' (8 * j) 8 = b j) ∧ t.resp.data.toNat < 2 ^ (8 * w.bytes)

/-- Host writes while BUSY: to CMD, CMD_OVERRUN with the refused word's opcode; to CTRL and STATUS, performed; any other
legal one, BUSY_WRITE with the running command's opcode; an illegal one, a bus error that records nothing (R287; log 21;
which addresses are mapped, log 18). -/
def Obligations.WritesWhileBusy : Prop :=
  ∀ (w : Width) (a : Nat) (v : Word) (s : State), s.busy = true →
    hostWrite .w32 0x0010 v s = { s with err := firstError s.err .cmdOverrun (opOf v), resp := ⟨false, 0⟩ } ∧
      hostWrite .w32 0x0008 v s = writeCtrl v { s with resp := ⟨false, 0⟩ } ∧
      hostWrite .w32 0x000C v s = writeStatus v { s with resp := ⟨false, 0⟩ } ∧
      (legalAccess w a → a ≠ 0x0008 → a ≠ 0x000C → a ≠ 0x0010 → hostWrite w a v s =
        { s with err := firstError s.err .busyWrite (opOf s.cmd), resp := ⟨false, 0⟩ }) ∧
      (¬ legalAccess w a → hostWrite w a v s = { s with resp := ⟨true, 0⟩ })

/-- A register stores the written bits it has, reads 0 in the others, and no other register changes; a read-only one
ignores the write (R36 to R52; log 21). -/
def Obligations.RegisterWrites : Prop :=
  ∀ (c : Csr) (v : Word) (s : State), s.busy = false → c ≠ .ctrl → c ≠ .status → c ≠ .cmd →
    let t := hostWrite .w32 (csrOffset c) v s
    (∀ m, storedBits c = some m → csrValue c t = v &&& m) ∧
      (storedBits c = none → csrValue c t = csrValue c s) ∧
      (∀ d, d ≠ c → csrValue d t = csrValue d s) ∧ t.lm = s.lm ∧ t.arena = s.arena ∧
      t.pending = s.pending ∧ t.free = s.free ∧ t.resp = ⟨false, 0⟩

/-- A read of a register, while idle, gives its value; while a command runs, so does a read of a register R83 does not
list, and of a listed one the running command does not write (which ones it writes, log 20); the offsets 0x6C to 0x7C read
0 and ignore writes; the fields of THR, COST_LUT, QPARAM and ROUND (R31 to R52, R83, R84). -/
def Obligations.RegisterReadsAndFields : Prop :=
  ∀ s : State,
    (s.busy = false → ∀ c, hostRead .w32 (csrOffset c) s = .next { s with resp := ⟨false, csrValue c s⟩ }) ∧
      (∀ c, c ∉ busyList → hostRead .w32 (csrOffset c) s = .next { s with resp := ⟨false, csrValue c s⟩ }) ∧
      (∀ i c, s.busy = true → decode s.cmd = .ok i → csrChanged i c = 0 →
        hostRead .w32 (csrOffset c) s = .next { s with resp := ⟨false, csrValue c s⟩ }) ∧
      (s.busy = false → ∀ a v, a ∈ [0x6C, 0x70, 0x74, 0x78, 0x7C] →
        hostRead .w32 a s = .next { s with resp := ⟨false, 0⟩ } ∧
          hostWrite .w32 a v s = { s with resp := ⟨false, 0⟩ }) ∧
      thrB8 s = s.thr.toNat % 256 ∧ thrMb s = s.thr.toNat / 256 % 256 ∧ thrC s = s.thr.toNat / 65536 % 256 ∧
      largeCost s = s.thr.toNat / 16777216 % 256 ∧
      (∀ e, e < 16 → costLut s e =
        (([s.costLut0, s.costLut1, s.costLut2, s.costLut3].getD (e / 4) 0).toNat / 256 ^ (e % 4)) % 256) ∧
      ∀ p, qbits p s = (qparam p s).toNat % 32 ∧ qpDiv p s = (qparam p s).toNat / 256 % 16 ∧
        roundOff p s = (roundReg p s).toNat % 16777216

/-! ### Forward kernels -/

/-- The dead-zone quantizer's corner cases (R141). -/
def Obligations.QuantizerCorners : Prop :=
  (∀ x sc th qb rd, quant x sc th qb rd = deadZone x sc th qb rd) ∧
    (∀ x sc th qb rd, x ≠ 0 → quant (-x) sc th qb rd = -quant x sc th qb rd) ∧
    (∀ (x : Int) (sc th qb rd : Nat), x.natAbs < th → quant x sc th qb rd = 0) ∧
    (∀ sc qb rd : Nat, quant 0 sc 0 qb rd = ((rd / 2 ^ qb : Nat) : Int) ∧ (2 ^ qb ≤ rd → quant 0 sc 0 qb rd ≠ 0)) ∧
    (∀ (x : Int) (sc qb rd : Nat), rd < 2 ^ qb → (quant x sc 0 qb rd = 0 ↔ x.natAbs * sc + rd < 2 ^ qb))

/-- The forward transform is `Cf · X · Cf^T`; on a residual every output is within 255 times the row and column gains
and fits in 16 bits, and output 0 is the sum of the residuals (R143, R144). -/
def Obligations.ForwardTransform : Prop :=
  ∀ x : Nat → Nat → Int,
    (∀ r c, r < 4 → c < 4 → matAt (ft4 (matOf x)) (4 * r + c) = sandwich cfMatrix x r c) ∧
      (matAt (ft4 (matOf x)) 0 = sum4 fun r => sum4 fun c => x r c) ∧
      ((∀ r c, r < 4 → c < 4 → -255 ≤ x r c ∧ x r c ≤ 255) → ∀ r c, r < 4 → c < 4 →
        (matAt (ft4 (matOf x)) (4 * r + c)).natAbs ≤ 255 * (if r % 2 = 0 then 4 else 6) * (if c % 2 = 0 then 4 else 6) ∧
          fits16 (matAt (ft4 (matOf x)) (4 * r + c)))

/-- The 4x4 Hadamard transform is `Hm · C · Hm`, and applying it twice multiplies by 16; the 2x2 transform's four sums,
and applying it twice multiplies by 4 (R145, R146). -/
def Obligations.HadamardTransforms : Prop :=
  (∀ (x : Nat → Nat → Int) (r c : Nat), r < 4 → c < 4 → matAt (h4 (matOf x)) (4 * r + c) = sandwich hmMatrix x r c) ∧
    (∀ (m : Mat Int) (k : Nat), k < 16 → matAt (h4 (h4 m)) k = 16 * matAt m k) ∧
    ∀ (c : Quad Int) (k : Nat), k < 4 →
      quadAt (h2 c) k = hadamard2 (fun j => quadAt c j) k ∧ quadAt (h2 (h2 c)) k = 4 * quadAt c k

/-! ### Inverse kernels -/

/-- The inverse quantizer in its second form, and its corner cases; the scalings of the DC layers in their second forms
(R170 to R173). -/
def Obligations.InverseQuantizers : Prop :=
  (∀ (qd isc wt : Nat) (c : Int), dequant qd isc wt c = dequantFloor qd isc wt c ∧
      dcScale4 qd isc wt c = lumaDcFloor qd isc wt c ∧ dcScale2 qd isc wt c = chromaDcFloor qd isc wt c) ∧
    (∀ qd isc wt : Nat, dequant qd isc wt 0 = 0) ∧
    (∀ (qd isc wt : Nat) (c : Int), 4 ≤ qd → dequant qd isc wt (-c) = -dequant qd isc wt c) ∧
    (∀ (isc wt : Nat) (c : Int), dequant 8 isc wt c = c * isc * wt * 16) ∧
    dequant 0 21 8 1 = 11 ∧ dequant 0 21 8 (-1) = -10 ∧ dequant 0 20 8 1 = 10 ∧ dequant 0 20 8 (-1) = -10

/-- The full inverse reconstruction: rows, then columns, every sum through `w`, then rounding, prediction and clip; when
no value passed through `w` leaves signed 16 bits, both values of P_INV_TMP_WRAP16 give one result (R174 to R176). -/
def Obligations.InverseTransform : Prop :=
  ∀ (d : Nat → Int) (pr : Nat → Nat),
    (∀ (wrap16 : Bool) (r c : Nat), r < 4 → c < 4 →
      (it4 wrap16 (raster.map d) (raster.map pr)).getD (4 * r + c) 0 =
        sampleOf (inverse4 (if wrap16 then trunc16 else id) d r c) (pr (4 * r + c))) ∧
      ((∀ i, i < 4 → ∀ x ∈ ibSums fun j => d (4 * i + j), fits16 x) →
        (∀ c, c < 4 → ∀ x ∈ ibSums fun i => ibOut id (fun j => d (4 * i + j)) c, fits16 x) →
          it4 true (raster.map d) (raster.map pr) = it4 false (raster.map d) (raster.map pr))

/-! ### The commands: forward and control -/

/-- NOP changes CMD, BUSY and DONE alone; any other word with opcode 0 is refused (R270). -/
def Obligations.NopResult : Prop :=
  (∀ s : State, exec .nop s = .next { s with cmd := 0, busy := false, done := true }) ∧
    ∀ w : Word, bits w 31 24 = 0 → w ≠ 0 → decode w = .reject .illegalField

/-- FTQ4 completes with the levels of R150, their count and, with DCX, the unquantized DC; nothing else changes. -/
def Obligations.Ftq4Result : Prop :=
  ∀ (p : Plane) (n : Fin 16) (dcx : Bool) (s : State) (src pr sc th : Nat → Nat), n.val < p.nb →
    (∀ k, k < 16 → srcSample p n (k / 4) (k % 4) s = .ok (src k)) →
    (∀ k, k < 16 → predSample p n (k / 4) (k % 4) s = .ok (pr k)) →
    (∀ k, k < 16 → (dcx = true → k ≠ 0) → table tableScale p k s = .ok (sc k)) →
    (∀ k, k < 16 → (dcx = true → k ≠ 0) → table tableThresh p k s = .ok (th k)) →
      let level := fun k => if dcx = true ∧ k = 0 then 0 else levelOf (qbits p s) (roundOff p s) src pr sc th k
      ∃ t, exec (.ftq4 p n dcx) s = .next t ∧ (∀ k, k < 16 → coef p n k t = .ok (level k)) ∧
        nnz p n t = .ok (countNonzero (raster.map level)) ∧
        (dcx = true → dcsave p n t = .ok (sum4 fun r => sum4 fun c => (src (4 * r + c) : Int) - pr (4 * r + c))) ∧
        LmOnly (.ftq4 p n dcx) s t

/-- FHQ4 and FHQ2 complete with the levels of R155 and R160 and their counts; nothing else changes. -/
def Obligations.FhqResults : Prop :=
  (∀ (s : State) (dc : Nat → Int) (sc th : Nat), (∀ n, n < 16 → dcsave .y n s = .ok (dc n)) →
    table tableScale .y 0 s = .ok sc → table tableThresh .y 0 s = .ok th →
      let level := fun k => trunc16 (deadZone (sandwich hmMatrix (fun r c => dc (4 * r + c)) (k / 4) (k % 4) / 2) sc th
        (qbits .y s + 1) (2 * roundOff .y s))
      ∃ t, exec .fhq4 s = .next t ∧ (∀ k, k < 16 → dccoef .y k t = .ok (level k)) ∧
        nnzdc .y t = .ok (countNonzero (raster.map level)) ∧ LmOnly .fhq4 s t) ∧
    ∀ (p : Plane) (s : State) (dc : Nat → Int) (sc th : Nat), p.isChroma = true →
      (∀ n, n < 4 → dcsave p n s = .ok (dc n)) →
      table tableScale p 0 s = .ok sc → table tableThresh p 0 s = .ok th →
        let level := fun k => trunc16 (deadZone (hadamard2 dc k) sc th (qbits p s + 1) (2 * roundOff p s))
        ∃ t, exec (.fhq2 p) s = .next t ∧ (∀ k, k < 4 → dccoef p k t = .ok (level k)) ∧
          nnzdc p t = .ok (countNonzero ([0, 1, 2, 3].map level)) ∧ LmOnly (.fhq2 p) s t

/-! ### The commands: inverse -/

/-- IHS4 and IHS2 complete with the scaled inverse Hadamard values of R180 and R183; nothing else changes. -/
def Obligations.IhsResults : Prop :=
  (∀ (s : State) (dc : Nat → Int) (isc wt : Nat), qpDiv .y s ≤ 8 → (∀ k, k < 16 → dccoef .y k s = .ok (dc k)) →
    table tableIscale .y 0 s = .ok isc → table tableWeight .y 0 s = .ok wt →
      ∃ t, exec .ihs4 s = .next t ∧
        (∀ n, n < 16 → dcrec .y n t = .ok (trunc16 (lumaDcFloor (qpDiv .y s) isc wt
          (sandwich hmMatrix (fun r c => dc (4 * r + c)) (n / 4) (n % 4))))) ∧ LmOnly .ihs4 s t) ∧
    ∀ (p : Plane) (s : State) (dc : Nat → Int) (isc wt : Nat), p.isChroma = true → qpDiv p s ≤ 8 →
      (∀ k, k < 4 → dccoef p k s = .ok (dc k)) →
      table tableIscale p 0 s = .ok isc → table tableWeight p 0 s = .ok wt →
        ∃ t, exec (.ihs2 p) s = .next t ∧
          (∀ n, n < 4 → dcrec p n t = .ok (trunc16 (chromaDcFloor (qpDiv p s) isc wt (hadamard2 dc n)))) ∧
          LmOnly (.ihs2 p) s t

/-- IQTR4 completes with the reconstruction of R186: dequantized levels, the DC from DCREC with DCSRC, the inverse
transform, prediction and clip; nothing else changes. That with DCSRC it completes also when COEF, ISCALE and WEIGHT at
position 0 have no value, although R186's loop names position 0, is the model's deduction (log 13). -/
def Obligations.Iqtr4Result : Prop :=
  ∀ (p : Plane) (n : Fin 16) (dcsrc : Bool) (s : State) (c : Nat → Int) (q0 : Int) (isc wt pr : Nat → Nat),
    n.val < p.nb → qpDiv p s ≤ 8 →
    (∀ k, k < 16 → (dcsrc = true → k ≠ 0) → coef p n k s = .ok (c k)) →
    (∀ k, k < 16 → (dcsrc = true → k ≠ 0) → table tableIscale p k s = .ok (isc k)) →
    (∀ k, k < 16 → (dcsrc = true → k ≠ 0) → table tableWeight p k s = .ok (wt k)) →
    (dcsrc = true → dcrec p n s = .ok q0) →
    (∀ k, k < 16 → predSample p n (k / 4) (k % 4) s = .ok (pr k)) →
      let w := if s.invTmpWrap16 then trunc16 else id
      let d := fun k => if dcsrc = true ∧ k = 0 then q0 else w (dequantFloor (qpDiv p s) (isc k) (wt k) (c k))
      ∃ t, exec (.iqtr4 p n dcsrc) s = .next t ∧
        (∀ k, k < 16 → lmSample (sampleAddr recBase p n (k / 4) (k % 4)) t =
          .ok (sampleOf (inverse4 w d (k / 4) (k % 4)) (pr k))) ∧ LmOnly (.iqtr4 p n dcsrc) s t

/-- IQTR4DC completes with the prediction plus one offset, clipped (R189); nothing else changes. With DCSRC it reads no
level and no table (log 13). -/
def Obligations.Iqtr4dcResult : Prop :=
  ∀ (p : Plane) (n : Fin 16) (dcsrc : Bool) (s : State) (q0 c : Int) (isc wt : Nat) (pr : Nat → Nat),
    n.val < p.nb → qpDiv p s ≤ 8 → (dcsrc = true → dcrec p n s = .ok q0) →
    (dcsrc = false → coef p n 0 s = .ok c ∧ table tableIscale p 0 s = .ok isc ∧ table tableWeight p 0 s = .ok wt ∧
      q0 = if s.invTmpWrap16 then trunc16 (dequantFloor (qpDiv p s) isc wt c) else dequantFloor (qpDiv p s) isc wt c) →
    (∀ k, k < 16 → predSample p n (k / 4) (k % 4) s = .ok (pr k)) →
      ∃ t, exec (.iqtr4dc p n dcsrc) s = .next t ∧
        (∀ k, k < 16 → lmSample (sampleAddr recBase p n (k / 4) (k % 4)) t = .ok (sampleOf q0 (pr k))) ∧
        LmOnly (.iqtr4dc p n dcsrc) s t

/-- COPY4 completes with the prediction (R192); nothing else changes. -/
def Obligations.Copy4Result : Prop :=
  ∀ (p : Plane) (n : Fin 16) (s : State) (pr : Nat → Nat), n.val < p.nb →
    (∀ k, k < 16 → predSample p n (k / 4) (k % 4) s = .ok (pr k)) →
      ∃ t, exec (.copy4 p n) s = .next t ∧
        (∀ k, k < 16 → lmSample (sampleAddr recBase p n (k / 4) (k % 4)) t = .ok (pr k)) ∧ LmOnly (.copy4 p n) s t

/-- Where positions 1 to 15 hold level 0, the full path gives the same machine as the DC-only path, for both values of
P_INV_TMP_WRAP16; the DC-only path gives the same machine as the copy path when its offset rounds to 0 (R189, R192). -/
def Obligations.ReconstructionPathsAgree : Prop :=
  ∀ (p : Plane) (n : Nat) (dcsrc : Bool) (s t : State),
    ((∀ k, 1 ≤ k → k < 16 → coef p n k s = .ok 0) → iqtr4 p n dcsrc s = .ok t → iqtr4dc p n dcsrc s = .ok t) ∧
      ∀ q0, iqInput p n dcsrc s 0 = .ok q0 → -32 ≤ q0 → q0 ≤ 31 →
        (iqtr4dc p n dcsrc s = .ok t ↔ copy4 p n s = .ok t)

/-- The order of reconstruction of two sub-blocks of a plane is unobservable in the end state (R195). -/
def Obligations.ReconstructionOrderUnobservable : Prop :=
  ∀ (p : Plane) (m : Word) (f : Bool) (n k : Nat) (s t u : State), s.lm.wf = true → n < p.nb → k < p.nb →
    recon1 p m f n s = .ok t → recon1 p m f k t = .ok u →
      ∃ v, recon1 p m f k s = .ok v ∧ recon1 p m f n v = .ok u

/-! ### Records and the pack commands -/

/-- The significance bitmap: bit `j` is set exactly when the value at scan position `j` is not 0, and the count is its
popcount; the cost of a scan is its loop, trailing zeros cost nothing, and of the table only entries below the scan's
length are read (R202, R203). -/
def Obligations.BitmapCountAndCost : Prop :=
  (∀ (start : Nat) (vs : List Int), start + vs.length ≤ 16 →
    (∀ j, (sigFrom start vs).testBit j = true ↔ start ≤ j ∧ j < start + vs.length ∧ vs.getD (j - start) 0 ≠ 0) ∧
      sigFrom start vs < 2 ^ 16 ∧ nnzOf (sigFrom start vs) = countNonzero vs ∧ countNonzero vs ≤ 16) ∧
    ∀ (lut : Nat → Nat) (large : Nat) (vs : List Int),
      costFrom lut large 0 vs = (costLoop lut large vs).1 ∧
        (∀ m, costFrom lut large 0 (vs ++ List.replicate m 0) = costFrom lut large 0 vs) ∧
        ∀ lut' : Nat → Nat, (∀ r, r < vs.length → lut' r = lut r) →
          costFrom lut' large 0 vs = costFrom lut large 0 vs

/-- A consumer can rebuild the scan from its record: from the bitmap and the non-zero values in scan order (R206). -/
def Obligations.ScanRebuiltFromItsRecord : Prop :=
  ∀ (start : Nat) (vs : List Int), start + vs.length ≤ 16 →
    rebuild (sigFrom start vs) ((List.range vs.length).map (start + ·)) (vs.filter (· ≠ 0)) = vs

/-- PACK4 completes when the record fits: it appends the record of R204, stores its count in NNZ and adds its cost to
COST_ACC; nothing else changes (R210). -/
def Obligations.Pack4Result : Prop :=
  ∀ (p : Plane) (n : Fin 16) (ac : Bool) (s : State) (c : Nat → Int), n.val < p.nb →
    (∀ k, k < 16 → (ac = true → k ≠ 0) → coef p n k s = .ok (c k)) →
      let start := if ac then 1 else 0
      let vs := (zigzag.drop start).map c
      s.arenaCur.toNat + recLen vs ≤ s.arenaEnd.toNat →
        ∃ t, exec (.pack4 p n ac) s = .next t ∧ Appended start vs s t ∧ nnz p n t = .ok (countNonzero vs) ∧
          t.costAcc = s.costAcc + BitVec.ofNat 32 (costLoop (costLut s) (largeCost s) vs).1 ∧
          (∀ a, a ≠ nnzAddr p n → t.lm.read a = s.lm.read a) ∧
          t = { completed (.pack4 p n ac) s with
            arena := t.arena, arenaCur := t.arenaCur, costAcc := t.costAcc, lm := t.lm }

/-- PACKDC completes when the record fits: the luma layer in zigzag order, a chroma layer in raster order; nothing else
changes than the record, NNZDC, the cursor and COST_ACC (R215). -/
def Obligations.PackdcResult : Prop :=
  ∀ (p : Plane) (s : State) (c : Nat → Int), (∀ k, k < p.nb → dccoef p k s = .ok (c k)) →
    let vs := (if p = .y then zigzag else [0, 1, 2, 3]).map c
    s.arenaCur.toNat + recLen vs ≤ s.arenaEnd.toNat →
      ∃ t, exec (.packdc p) s = .next t ∧ Appended 0 vs s t ∧ nnzdc p t = .ok (countNonzero vs) ∧
        t.costAcc = s.costAcc + BitVec.ofNat 32 (costLoop (costLut s) (largeCost s) vs).1 ∧
        (∀ a, a ≠ nnzdcAddr p → t.lm.read a = s.lm.read a) ∧
        t = { completed (.packdc p) s with
          arena := t.arena, arenaCur := t.arenaCur, costAcc := t.costAcc, lm := t.lm }

/-- A record that does not fit ends PACK4 and PACKDC with ARENA_OVF and no other effect; the check does not wrap, so a
record that would pass 0xFFFFFFFF does not fit whatever ARENA_END holds (R286, R91). -/
def Obligations.PackOverflow : Prop :=
  (∀ (p : Plane) (n : Fin 16) (ac : Bool) (s : State) (c : Nat → Int), n.val < p.nb →
    (∀ k, k < 16 → (ac = true → k ≠ 0) → coef p n k s = .ok (c k)) →
    s.arenaEnd.toNat < s.arenaCur.toNat + recLen ((zigzag.drop (if ac then 1 else 0)).map c) →
      exec (.pack4 p n ac) s = .next { completed (.pack4 p n ac) s with err := firstError s.err .arenaOvf 0x10 }) ∧
    (∀ (p : Plane) (s : State) (c : Nat → Int), (∀ k, k < p.nb → dccoef p k s = .ok (c k)) →
      s.arenaEnd.toNat < s.arenaCur.toNat + recLen ((if p = .y then zigzag else [0, 1, 2, 3]).map c) →
        exec (.packdc p) s = .next { completed (.packdc p) s with err := firstError s.err .arenaOvf 0x11 }) ∧
    ∀ (start : Nat) (vs : List Int) (s : State), start + vs.length ≤ 16 → 2 ^ 32 ≤ s.arenaCur.toNat + recLen vs →
      emit start vs s = .error (.raised .arenaOvf s)

/-! ### Macroblock commands -/

/-- MB_BEGIN saves the cursor in MB_START, clears the macroblock's registers and counts, and changes nothing else; a word
with its opcode and another field set is refused (R231). -/
def Obligations.MbBeginResult : Prop :=
  (∀ s : State, ∃ t, exec .mbBegin s = .next t ∧
      (∀ p n, n < p.nb → nnz p n t = .ok 0) ∧ (∀ p, nnzdc p t = .ok 0) ∧
      (∀ a, (∀ p n, n < p.nb → a ≠ nnzAddr p n) → (∀ p, a ≠ nnzdcAddr p) → t.lm.read a = s.lm.read a) ∧
      t = { completed .mbBegin s with
        mbStart := s.arenaCur, cntrlY := 0, cntrlC := 0, cbp := 0, elim := 0, costY := 0, costC := 0, costAcc := 0
        lm := t.lm }) ∧
    ∀ w : Word, bits w 31 24 = 0x20 → w ≠ 0x20000000 → decode w = .reject .illegalField

/-- The control bits of a block coded without a DC layer (R246). -/
def Obligations.ControlBitsOfABlock : Prop :=
  ∀ (n : Nat) (lv : Nat → Int) (w : Word), n < 16 →
    ((levelBits n (raster.map lv) w).getLsbD (31 - n) = true ↔ ∃ k, 1 ≤ k ∧ k < 16 ∧ lv k ≠ 0) ∧
      ((levelBits n (raster.map lv) w).getLsbD (15 - n) = true ↔ lv 0 ≠ 0) ∧
      ∀ b, b ≠ 31 - n → b ≠ 15 - n → (levelBits n (raster.map lv) w).getLsbD b = w.getLsbD b

/-- Exactly one of the three paths is taken: full when the AC bit is set, else DC-only when the DC bit is, else copy; the
border mask keeps the AC and DC bits of the right column and the bottom row and clears the others (R247, R258). -/
def Obligations.PathSelectionAndBorderMask : Prop :=
  (∀ (p : Plane) (m : Word) (f : Bool) (n : Nat) (s : State), n < p.nb →
    (m.getLsbD (31 - 4 * (p.idx - 1) - n) = true → recon1 p m f n s = iqtr4 p n f s) ∧
      (m.getLsbD (31 - 4 * (p.idx - 1) - n) = false → m.getLsbD (15 - 4 * (p.idx - 1) - n) = true →
        recon1 p m f n s = iqtr4dc p n f s) ∧
      (m.getLsbD (31 - 4 * (p.idx - 1) - n) = false → m.getLsbD (15 - 4 * (p.idx - 1) - n) = false →
        recon1 p m f n s = copy4 p n s)) ∧
    ∀ w : Word,
      (∀ n, n < 16 → ∀ b, b = 31 - n ∨ b = 15 - n →
        (masked .y true w).getLsbD b = (w.getLsbD b && decide (n ∈ [3, 7, 11, 12, 13, 14, 15]))) ∧
      (∀ p n, p ≠ .y → n < 4 → ∀ b, b = acBit p n ∨ b = dcBit p n →
        (masked p true w).getLsbD b = (w.getLsbD b && decide (n ∈ [1, 2, 3]))) ∧
      ∀ p, masked p false w = w

/-- Promotion sets the DC bit of each sub-block whose DCREC is not 0, clears none, leaves the AC bits and the other
plane's bits, and changes nothing but the control register; reconstruction then takes the promoted word, masked, while
the register keeps it unmasked (R257). -/
def Obligations.Promotion : Prop :=
  (∀ (p : Plane) (s : State) (r : Nat → Int), (∀ n, n < p.nb → dcrec p n s = .ok (r n)) →
    ∃ w, promote p s = .ok (s.putCntrl p w) ∧
      (∀ n, n < p.nb → (w.getLsbD (dcBit p n) = true ↔ (cntrl p s).getLsbD (dcBit p n) = true ∨ r n ≠ 0)) ∧
      ∀ b, (∀ n, n < p.nb → b ≠ dcBit p n) → w.getLsbD b = (cntrl p s).getLsbD b) ∧
    (∀ (border : Bool) (s t : State), reconY16 true border s = .ok t →
      ∃ u v, ihs4 s = .ok u ∧ promote .y u = .ok v ∧ t.cntrlY = v.cntrlY ∧
        reconPlane .y (if border then v.cntrlY &&& 0x111F111F else v.cntrlY) true v = .ok t) ∧
    ∀ (border : Bool) (s t : State), reconC8 border s = .ok t →
      ∃ v u, runAll reconCDc [.cb, .cr] s = .ok v ∧ t.cntrlC = v.cntrlC ∧
        reconPlane .cb (if border then v.cntrlC &&& 0x77007700 else v.cntrlC) true v = .ok u ∧
        reconPlane .cr (if border then v.cntrlC &&& 0x77007700 else v.cntrlC) true u = .ok t

/-- RECON_Y16, with a DC layer or without: without one (DC = 0) DCREC and CNTRL_Y stay; with one DCREC is what IHS4 leaves
there and CNTRL_Y takes the promoted DC bits. REC of every sub-block is then what the command of its path leaves there, the
path chosen from CNTRL_Y, masked with BORDER, the DC from DCREC exactly when there is a DC layer; nothing else changes
(R256, R257, R258). -/
def Sys2Proof.Claims.ReconY16Result : Prop :=
  ∀ (dc border : Bool) (s t : State), exec (.reconY16 dc border) s = .next t → qpDiv .y s ≤ 8 →
    ∃ v, (dc = false → v = s) ∧ (dc = true → exec .ihs4 s = .next v) ∧
      (∀ n, n < 16 → dcrec .y n t = dcrec .y n v) ∧
      (∀ b, t.cntrlY.getLsbD b = true ↔
        s.cntrlY.getLsbD b = true ∨ (dc = true ∧ ∃ n q, n < 16 ∧ b = 15 - n ∧ dcrec .y n v = .ok q ∧ q ≠ 0)) ∧
      Reconstructed .y (if border then t.cntrlY &&& 0x111F111F else t.cntrlY) dc { v with cntrlY := t.cntrlY } t ∧
      (∀ a, a ∉ lmWritten (.reconY16 dc border) → t.lm.read a = s.lm.read a) ∧
      t = { completed (.reconY16 dc border) s with cntrlY := t.cntrlY, lm := t.lm }

/-- RECON_C8: DCREC of both planes is what IHS2 leaves there, CNTRL_C takes the promoted DC bits, and REC of every sub-block
is what the command of its path leaves there, the path chosen from CNTRL_C, masked with BORDER, the DC from DCREC; nothing
else changes (R260, R257, R258). -/
def Sys2Proof.Claims.ReconC8Result : Prop :=
  ∀ (border : Bool) (s t : State), exec (.reconC8 border) s = .next t → qpDiv .cb s ≤ 8 → qpDiv .cr s ≤ 8 →
    ∃ u v, exec (.ihs2 .cb) s = .next u ∧ exec (.ihs2 .cr) u = .next v ∧
      (∀ p n, p ≠ .y → n < 4 → dcrec p n t = dcrec p n v) ∧
      (∀ b, t.cntrlC.getLsbD b = true ↔
        s.cntrlC.getLsbD b = true ∨ ∃ p n q, p ≠ .y ∧ n < 4 ∧ b = dcBit p n ∧ dcrec p n v = .ok q ∧ q ≠ 0) ∧
      (∀ p, p ≠ .y → Reconstructed p (if border then t.cntrlC &&& 0x77007700 else t.cntrlC) true
        { v with cntrlC := t.cntrlC } t) ∧
      (∀ a, a ∉ lmWritten (.reconC8 border) → t.lm.read a = s.lm.read a) ∧
      t = { completed (.reconC8 border) s with cntrlC := t.cntrlC, lm := t.lm }

/-- A coding command with RECON does what it does without RECON and then the RECON steps: RECON_Y16 with DC for CODE_I16,
RECON_Y16 without DC for CODE_L16, RECON_C8 for CODE_C8, and the path of its sub-block for CODE_I4, with BORDER handed on.
Without RECON it reconstructs nothing (`CommandFrame`), and neither does one that overflows before reconstruction
(`AbnormalEndReconstructsNothing`) (R235, R240, R242, R250, R264). -/
def Sys2Proof.Claims.ReconFlagRunsTheReconSteps : Prop :=
  ∀ (elim border : Bool) (n : Fin 16) (s u : State),
    (qpDiv .y s ≤ 8 → EndsNormally (.codeI16 false false) s → exec (.codeI16 false false) s = .next u →
      exec (.codeI16 true border) s =
        withCmd (encode (.codeI16 true border)) (exec (.reconY16 true border) u)) ∧
    (qpDiv .y s ≤ 8 → EndsNormally (.codeL16 elim false false) s → exec (.codeL16 elim false false) s = .next u →
      exec (.codeL16 elim true border) s =
        withCmd (encode (.codeL16 elim true border)) (exec (.reconY16 false border) u)) ∧
    (qpDiv .cb s ≤ 8 → qpDiv .cr s ≤ 8 → EndsNormally (.codeC8 elim false false) s →
      exec (.codeC8 elim false false) s = .next u →
      exec (.codeC8 elim true border) s = withCmd (encode (.codeC8 elim true border)) (exec (.reconC8 border) u)) ∧
    (qpDiv .y s ≤ 8 → EndsNormally (.codeI4 n false) s → exec (.codeI4 n false) s = .next u →
      exec (.codeI4 n true) s =
        withCmd (encode (.codeI4 n true)) (exec (pathCommand .y u.cntrlY false n) u))

/-- A command that does not end normally, because it is refused or because a record does not fit, reconstructs nothing and
reports no cost: REC, DCREC, COST_Y, COST_C, COST_ACC and MB_START stay (R282, R286). -/
def Sys2Proof.Claims.AbnormalEndReconstructsNothing : Prop :=
  ∀ (i : Instr) (s t : State), exec i s = .next t → ¬ EndsNormally i s →
    (∀ p, ∀ a ∈ recPlaneAddrs p ++ dcrecAddrs p, t.lm.read a = s.lm.read a) ∧
      t.costY = s.costY ∧ t.costC = s.costC ∧ t.costAcc = s.costAcc ∧ t.mbStart = s.mbStart

/-- The reconstruction commands, what the RECON flag adds to a coding command, and that a command that ends abnormally
reconstructs nothing: the four claims above (R235, R240, R242, R247, R250, R256 to R258, R260, R282, R286). -/
def Obligations.Reconstruction : Prop :=
  ReconY16Result ∧ ReconC8Result ∧ ReconFlagRunsTheReconSteps ∧ AbnormalEndReconstructsNothing

/-- Group elimination rewinds the cursor, zeroes the group's levels and counts, clears its control bits and sets its
ELIM bit; macroblock elimination does the same for all of luma, with CNTRL_Y and CBP_L 0 and MB_ELIM set; the arena keeps
its bytes and nothing else changes (R243, R244, R93). -/
def Obligations.LumaElimination : Prop :=
  (∀ (g : Nat) (start : Word) (s : State), g < 4 →
    let t := eliminateGroup g start s
    t = { s with arenaCur := start, cntrlY := t.cntrlY, elim := t.elim, lm := t.lm } ∧
      (∀ n, n < 16 → groupOf n = g → nnz .y n t = .ok 0 ∧ (∀ k, k < 16 → coef .y n k t = .ok 0) ∧
        t.cntrlY.getLsbD (31 - n) = false ∧ t.cntrlY.getLsbD (15 - n) = false) ∧
      (∀ n, n < 16 → groupOf n ≠ g → t.cntrlY.getLsbD (31 - n) = s.cntrlY.getLsbD (31 - n) ∧
        t.cntrlY.getLsbD (15 - n) = s.cntrlY.getLsbD (15 - n)) ∧
      (∀ b, t.elim.getLsbD b = (decide (b = g) || s.elim.getLsbD b)) ∧
      ∀ a, (∀ n, n < 16 → groupOf n = g → a ≠ nnzAddr .y n ∧ (a < coefAddr .y n 0 ∨ coefAddr .y n 0 + 32 ≤ a)) →
        t.lm.read a = s.lm.read a) ∧
    ∀ (start : Word) (s : State),
      let t := eliminateMb start s
      t = { s with
          arenaCur := start, cntrlY := 0, cbp := s.cbp &&& 0xFFFFFFF0, elim := s.elim ||| 0x10, lm := t.lm } ∧
        (∀ n, n < 16 → nnz .y n t = .ok 0 ∧ ∀ k, k < 16 → coef .y n k t = .ok 0) ∧
        ∀ a, (∀ n, n < 16 → a ≠ nnzAddr .y n ∧ (a < coefAddr .y n 0 ∨ coefAddr .y n 0 + 32 ≤ a)) →
          t.lm.read a = s.lm.read a

/-- Plane elimination zeroes a chroma plane's AC levels and counts, clears its AC bits, keeps every other control bit and
sets its ELIM bit (R253, R93). -/
def Obligations.PlaneElimination : Prop :=
  ∀ (p : Plane) (start : Word) (s : State), p ≠ .y →
    let t := eliminatePlane p start s
    t = { s with arenaCur := start, cntrlC := t.cntrlC, elim := t.elim, lm := t.lm } ∧
      (∀ n, n < 4 → nnz p n t = .ok 0 ∧ (∀ k, k < 16 → coef p n k t = .ok 0) ∧ t.cntrlC.getLsbD (acBit p n) = false) ∧
      (∀ b, (∀ n, n < 4 → b ≠ acBit p n) → t.cntrlC.getLsbD b = s.cntrlC.getLsbD b) ∧
      (∀ b, t.elim.getLsbD b = (decide (b = 4 + p.idx) || s.elim.getLsbD b)) ∧
      ∀ a, (∀ n, n < 4 → a ≠ nnzAddr p n ∧ (a < coefAddr p n 0 ∨ coefAddr p n 0 + 32 ≤ a)) →
        t.lm.read a = s.lm.read a

/-- The chroma part of CBP from the counts (R254). -/
def Obligations.ChromaCbp : Prop :=
  ∀ (s : State) (dcb dcr : Nat) (acb acr : Nat → Nat), nnzdc .cb s = .ok dcb → nnzdc .cr s = .ok dcr →
    (∀ n, n < 4 → nnz .cb n s = .ok (acb n)) → (∀ n, n < 4 → nnz .cr n s = .ok (acr n)) →
      ∃ w, chromaCbp s = .ok { s with cbp := w } ∧ w &&& 0xFFFFFF0F = s.cbp &&& 0xFFFFFF0F ∧
        ((∃ n, n < 4 ∧ (acb n > 0 ∨ acr n > 0)) → bits w 5 4 = 2) ∧
        ((∀ n, n < 4 → acb n = 0 ∧ acr n = 0) → bits w 5 4 = if dcb + dcr > 0 then 1 else 0) ∧
        (w.getLsbD 6 = true ↔ dcb > 0 ∨ ∃ n, n < 4 ∧ acb n > 0) ∧
        (w.getLsbD 7 = true ↔ dcr > 0 ∨ ∃ n, n < 4 ∧ acr n > 0)

/-- CODE_I4 when its record fits: levels, count, record, the block's two control bits and its group's CBP bit; with RECON
REC at the block is the full reconstruction of its levels when one at positions 1 to 15 is not 0, else the DC-only one when
level 0 is not 0, else the prediction (R247, R186, R189, R192); nothing else changes (R240). -/
def Obligations.CodeI4Result : Prop :=
  ∀ (n : Fin 16) (recon : Bool) (s : State) (src pr sc th isc wt : Nat → Nat),
    (∀ k, k < 16 → srcSample .y n (k / 4) (k % 4) s = .ok (src k)) →
    (∀ k, k < 16 → predSample .y n (k / 4) (k % 4) s = .ok (pr k)) →
    (∀ k, k < 16 → table tableScale .y k s = .ok (sc k)) → (∀ k, k < 16 → table tableThresh .y k s = .ok (th k)) →
    (recon = true → qpDiv .y s ≤ 8 ∧ (∀ k, k < 16 → table tableIscale .y k s = .ok (isc k)) ∧
      ∀ k, k < 16 → table tableWeight .y k s = .ok (wt k)) →
      let lv := levelOf (qbits .y s) (roundOff .y s) src pr sc th
      let vs := zigzag.map lv
      let w := if s.invTmpWrap16 then trunc16 else id
      let d := fun k => w (dequantFloor (qpDiv .y s) (isc k) (wt k) (lv k))
      s.arenaCur.toNat + recLen vs ≤ s.arenaEnd.toNat →
        ∃ t, exec (.codeI4 n recon) s = .next t ∧ (∀ k, k < 16 → coef .y n k t = .ok (lv k)) ∧
          nnz .y n t = .ok (countNonzero vs) ∧ Appended 0 vs s t ∧
          t.cntrlY = levelBits n (raster.map lv) s.cntrlY ∧
          ((∃ k, k < 16 ∧ lv k ≠ 0) → t.cbp = s.cbp ||| BitVec.ofNat 32 (2 ^ groupOf n)) ∧
          ((∀ k, k < 16 → lv k = 0) → t.cbp = s.cbp) ∧
          (recon = true →
            ((∃ k, 1 ≤ k ∧ k < 16 ∧ lv k ≠ 0) →
              RecIs .y n t fun k => sampleOf (inverse4 w d (k / 4) (k % 4)) (pr k)) ∧
            ((∀ k, 1 ≤ k → k < 16 → lv k = 0) → lv 0 ≠ 0 → RecIs .y n t fun k => sampleOf (d 0) (pr k)) ∧
            ((∀ k, k < 16 → lv k = 0) → RecIs .y n t pr)) ∧
          (∀ a, a ∉ lmWritten (.codeI4 n recon) → t.lm.read a = s.lm.read a) ∧
          t = { completed (.codeI4 n recon) s with
            arena := t.arena, arenaCur := t.arenaCur, cntrlY := t.cntrlY, cbp := t.cbp, lm := t.lm }

/-- CODE_I4 whose record does not fit: its levels, their count and its control bits are written, and nothing after them:
no record, no CBP bit, no reconstruction (R286). -/
def Obligations.CodeI4Overflow : Prop :=
  ∀ (n : Fin 16) (recon : Bool) (s : State) (src pr sc th : Nat → Nat),
    (∀ k, k < 16 → srcSample .y n (k / 4) (k % 4) s = .ok (src k)) →
    (∀ k, k < 16 → predSample .y n (k / 4) (k % 4) s = .ok (pr k)) →
    (∀ k, k < 16 → table tableScale .y k s = .ok (sc k)) → (∀ k, k < 16 → table tableThresh .y k s = .ok (th k)) →
    (recon = true → qpDiv .y s ≤ 8) →
      let lv := levelOf (qbits .y s) (roundOff .y s) src pr sc th
      s.arenaEnd.toNat < s.arenaCur.toNat + recLen (zigzag.map lv) →
        ∃ t, exec (.codeI4 n recon) s = .next t ∧ (∀ k, k < 16 → coef .y n k t = .ok (lv k)) ∧
          nnz .y n t = .ok (countNonzero (raster.map lv)) ∧
          (∀ a, a ∉ lmWritten (.codeI4 n false) → t.lm.read a = s.lm.read a) ∧
          t = { completed (.codeI4 n recon) s with
            err := firstError s.err .arenaOvf 0x22, cntrlY := levelBits n (raster.map lv) s.cntrlY, lm := t.lm }

/-- CODE_L16 that ended normally, with the levels FTQ4 gives each block: with ELIM a group is eliminated exactly when its
cost is below THR_B8, and the macroblock exactly when the surviving groups' costs sum to less than THR_MB, both strictly
(R242, R243, R244). An eliminated block has no level, no count and no control bit; every other block has its levels, their
count and its two bits; COST_Y is the sum (R44); CBP_L tells the groups with a surviving level; the arena holds the records
of the surviving blocks in BLK order; nothing else changes. -/
def Sys2Proof.Claims.CodeL16Result : Prop :=
  ∀ (elim recon border : Bool) (s t : State) (lv : Nat → Nat → Int), exec (.codeL16 elim recon border) s = .next t →
    EndsNormally (.codeL16 elim recon border) s → (∀ n : Fin 16, Ftq4Gives .y n false s (lv n)) →
      let scan := fun n => zigzag.map (lv n)
      let cost := fun g => sumOver (fun n => scanCost s (scan n)) (groupBlocks g)
      let lost := fun g => elim && decide (cost g < s.thr.toNat % 256)
      let mbCost := sumOver (fun g => if lost g then 0 else cost g) [0, 1, 2, 3]
      let mbLost := elim && decide (mbCost < s.thr.toNat / 256 % 256)
      let kept := fun n => !lost (groupOf n) && !mbLost
      (∀ n, n < 16 → (∀ k, k < 16 → coef .y n k t = .ok (if kept n then lv n k else 0)) ∧
        nnz .y n t = .ok (if kept n then countNonzero (scan n) else 0) ∧
        (t.cntrlY.getLsbD (31 - n) = true ↔ kept n = true ∧ ∃ k, 1 ≤ k ∧ k < 16 ∧ lv n k ≠ 0) ∧
        (t.cntrlY.getLsbD (15 - n) = true ↔ kept n = true ∧ lv n 0 ≠ 0)) ∧
      (∀ g, g < 4 → t.elim.getLsbD g = lost g ∧
        (t.cbp.getLsbD g = true ↔ ∃ n k, n < 16 ∧ k < 16 ∧ groupOf n = g ∧ kept n = true ∧ lv n k ≠ 0)) ∧
      t.elim.getLsbD 4 = mbLost ∧ t.costY.toNat = mbCost ∧
      AppendedAll ((blkOrder.filter kept).flatMap fun n => recordOf 0 (scan n)) s t ∧
      t.cbp &&& 0xFFFFFFF0 = s.cbp &&& 0xFFFFFFF0 ∧ t.elim &&& 0xFFFFFFE0 = s.elim &&& 0xFFFFFFE0 ∧
      (∀ a, a ∉ lmWritten (.codeL16 elim recon border) → t.lm.read a = s.lm.read a) ∧
      t = { completed (.codeL16 elim recon border) s with
        arena := t.arena, arenaCur := t.arenaCur, cntrlY := t.cntrlY, cbp := t.cbp, elim := t.elim, costY := t.costY
        lm := t.lm }

/-- After a CODE_L16 that ended normally, whatever error an earlier command left recorded: each block's AC bit is set exactly
when it has a level at positions 1 to 15, its DC bit when it has one at position 0, its count is the number of its levels,
each CBP_L bit tells whether its group has one, and an eliminated group has none (R265, R42, R61). And what it codes and
what it eliminates: `CodeL16Result`. -/
def Obligations.InterLumaSoundness : Prop :=
  (∀ (elim recon border : Bool) (s t : State), exec (.codeL16 elim recon border) s = .next t →
    EndsNormally (.codeL16 elim recon border) s →
    (∀ n, n < 16 → ∃ lv : Nat → Int, (∀ k, k < 16 → coef .y n k t = .ok (lv k)) ∧
      (t.cntrlY.getLsbD (31 - n) = true ↔ ∃ k, 1 ≤ k ∧ k < 16 ∧ lv k ≠ 0) ∧
      (t.cntrlY.getLsbD (15 - n) = true ↔ lv 0 ≠ 0) ∧ nnz .y n t = .ok (countNonzero (raster.map lv))) ∧
      (∀ g, g < 4 → (t.cbp.getLsbD g = true ↔ ∃ n v, n < 16 ∧ groupOf n = g ∧ nnz .y n t = .ok v ∧ v > 0) ∧
        (t.elim.getLsbD g = true → t.cbp.getLsbD g = false)) ∧
      (elim = false → t.elim &&& 0x0000001F = 0)) ∧
    CodeL16Result

/-- CODE_I16 that ended normally, with the levels and the DC FTQ4 gives each block: the levels and their counts, the DC
layer FHQ4 computes from the saved DCs, and in the arena the record of the DC layer and then the sixteen AC records in BLK
order; CBP_L 15 or 0, no elimination, COST_Y 0, nothing else changed (R235). -/
def Sys2Proof.Claims.CodeI16Result : Prop :=
  ∀ (recon border : Bool) (s t : State) (lv : Nat → Nat → Int), exec (.codeI16 recon border) s = .next t →
    EndsNormally (.codeI16 recon border) s → (∀ n : Fin 16, Ftq4Gives .y n true s (lv n)) →
      let scan := fun n => (zigzag.drop 1).map (lv n)
      (∀ n : Fin 16, (∀ k, k < 16 → coef .y n k t = .ok (lv n k)) ∧ nnz .y n t = .ok (countNonzero (scan n)) ∧
        ∃ u, exec (.ftq4 .y n true) s = .next u ∧ dcsave .y n t = dcsave .y n u) ∧
      (∃ u dl, exec .fhq4 t = .next u ∧ (∀ k, k < 16 → dccoef .y k u = .ok (dl k) ∧ dccoef .y k t = .ok (dl k)) ∧
        nnzdc .y t = nnzdc .y u ∧
        AppendedAll (recordOf 0 (zigzag.map dl) ++ blkOrder.flatMap fun n => recordOf 1 (scan n)) s t) ∧
      ((∃ n k, n < 16 ∧ k < 16 ∧ lv n k ≠ 0) → t.cbp = s.cbp ||| 0xF) ∧
      ((∀ n k, n < 16 → k < 16 → lv n k = 0) → t.cbp = s.cbp &&& 0xFFFFFFF0) ∧
      t.elim = s.elim &&& 0xFFFFFFE0 ∧ t.costY = 0 ∧
      (∀ a, a ∉ lmWritten (.codeI16 recon border) → t.lm.read a = s.lm.read a) ∧
      t = { completed (.codeI16 recon border) s with
        arena := t.arena, arenaCur := t.arenaCur, cntrlY := t.cntrlY, cbp := t.cbp, elim := t.elim, costY := t.costY
        lm := t.lm }

/-- After a CODE_I16 that ended normally, whatever error an earlier command left recorded: each AC bit is set exactly when
the block's count is not 0, the count is the number of its levels at positions 1 to 15, each DC bit is set exactly when the
block's DC-layer level, or after promotion its DCREC, is not 0, and CBP_L is 15 or 0 (R265, R235). And what it codes:
`CodeI16Result`. -/
def Obligations.IntraLumaSoundness : Prop :=
  (∀ (recon border : Bool) (s t : State), exec (.codeI16 recon border) s = .next t →
    EndsNormally (.codeI16 recon border) s →
    (∀ n, n < 16 → ∃ (lv : Nat → Int) (dc : Int), (∀ k, k < 16 → coef .y n k t = .ok (lv k)) ∧
      dccoef .y n t = .ok dc ∧ lv 0 = 0 ∧ nnz .y n t = .ok (countNonzero (raster.map lv)) ∧
      (t.cntrlY.getLsbD (31 - n) = true ↔ ∃ k, k < 16 ∧ lv k ≠ 0) ∧
      (t.cntrlY.getLsbD (15 - n) = true ↔ dc ≠ 0 ∨ (recon = true ∧ ∃ q, dcrec .y n t = .ok q ∧ q ≠ 0))) ∧
      ((∃ n v, n < 16 ∧ nnz .y n t = .ok v ∧ v > 0) → t.cbp &&& 0x0000000F = 0xF) ∧
      ((∀ n, n < 16 → nnz .y n t = .ok 0) → t.cbp &&& 0x0000000F = 0) ∧
      t.elim &&& 0x0000001F = 0 ∧ t.costY = 0) ∧
    CodeI16Result

/-- CODE_C8 that ended normally, with the levels FTQ4 gives each block: with ELIM a plane's AC is eliminated exactly when its
cost is below THR_C, strictly (R250, R253); COST_C holds both costs, eliminated or not (R45); an eliminated plane has no AC
level and count and no AC bit, the other has its levels, counts and bits; the DC layers are what FHQ2 computes from the saved
DCs; the arena holds both DC records and then the AC records of the surviving planes; nothing else changes. It rests on the
model keeping the COEF blocks of Cb and Cr apart (log 18). -/
def Sys2Proof.Claims.CodeC8Result : Prop :=
  ∀ (elim recon border : Bool) (s t : State) (lv : Plane → Nat → Nat → Int),
    exec (.codeC8 elim recon border) s = .next t → EndsNormally (.codeC8 elim recon border) s →
    (∀ p (n : Fin 16), p ≠ .y → n.val < 4 → Ftq4Gives p n true s (lv p n)) →
      let scan := fun p n => (zigzag.drop 1).map (lv p n)
      let cost := fun p => sumOver (fun n => scanCost s (scan p n)) [0, 1, 2, 3]
      let lost := fun p => elim && decide (cost p < s.thr.toNat / 65536 % 256)
      let acRecords := fun p => if lost p then [] else [0, 1, 2, 3].flatMap fun n => recordOf 1 (scan p n)
      (∀ p (n : Fin 16), p ≠ .y → n.val < 4 →
        (∀ k, k < 16 → coef p n k t = .ok (if lost p then 0 else lv p n k)) ∧
        nnz p n t = .ok (if lost p then 0 else countNonzero (scan p n)) ∧
        (t.cntrlC.getLsbD (acBit p n) = true ↔ lost p = false ∧ ∃ k, k < 16 ∧ lv p n k ≠ 0) ∧
        ∃ u, exec (.ftq4 p n true) s = .next u ∧ dcsave p n t = dcsave p n u) ∧
      (∀ p, p ≠ .y → t.elim.getLsbD (4 + p.idx) = lost p) ∧
      t.costC.toNat = cost .cb + 65536 * cost .cr ∧
      (∃ dl : Plane → Nat → Int,
        (∀ p, p ≠ .y → ∃ u, exec (.fhq2 p) t = .next u ∧ nnzdc p t = nnzdc p u ∧
          ∀ k, k < 4 → dccoef p k u = .ok (dl p k) ∧ dccoef p k t = .ok (dl p k)) ∧
        AppendedAll (recordOf 0 ([0, 1, 2, 3].map (dl .cb)) ++ recordOf 0 ([0, 1, 2, 3].map (dl .cr))
          ++ acRecords .cb ++ acRecords .cr) s t) ∧
      t.cbp &&& 0xFFFFFF0F = s.cbp &&& 0xFFFFFF0F ∧ t.elim &&& 0xFFFFFF9F = s.elim &&& 0xFFFFFF9F ∧
      (∀ a, a ∉ lmWritten (.codeC8 elim recon border) → t.lm.read a = s.lm.read a) ∧
      t = { completed (.codeC8 elim recon border) s with
        arena := t.arena, arenaCur := t.arenaCur, cntrlC := t.cntrlC, cbp := t.cbp, elim := t.elim, costC := t.costC
        lm := t.lm }

/-- After a CODE_C8 that ended normally, whatever error an earlier command left recorded, for both chroma planes: AC bits,
counts and DC bits as for `IntraLumaSoundness`, an eliminated plane has no AC level, and CBP[7:4] is as R254 computes it
from the final counts (R265). It rests on the model keeping the COEF blocks of Cb and Cr apart, where R84's formulas
overlap them (log 18). And what it codes and what it eliminates: `CodeC8Result`. -/
def Obligations.ChromaSoundness : Prop :=
  (∀ (elim recon border : Bool) (s t : State), exec (.codeC8 elim recon border) s = .next t →
    EndsNormally (.codeC8 elim recon border) s →
    (∀ p n, p ≠ .y → n < 4 → ∃ (lv : Nat → Int) (dc : Int), (∀ k, k < 16 → coef p n k t = .ok (lv k)) ∧
      dccoef p n t = .ok dc ∧ lv 0 = 0 ∧ nnz p n t = .ok (countNonzero (raster.map lv)) ∧
      (t.cntrlC.getLsbD (acBit p n) = true ↔ ∃ k, k < 16 ∧ lv k ≠ 0) ∧
      (t.cntrlC.getLsbD (dcBit p n) = true ↔ dc ≠ 0 ∨ (recon = true ∧ ∃ q, dcrec p n t = .ok q ∧ q ≠ 0)) ∧
      (t.elim.getLsbD (4 + p.idx) = true → ∀ k, k < 16 → lv k = 0)) ∧
      (elim = false → t.elim &&& 0x00000060 = 0) ∧
      ∃ dcb dcr acb acr, nnzdc .cb t = .ok dcb ∧ nnzdc .cr t = .ok dcr ∧
        readAll (fun n => nnz .cb n t) [0, 1, 2, 3] = .ok acb ∧ readAll (fun n => nnz .cr n t) [0, 1, 2, 3] = .ok acr ∧
        t.cbp = withChromaCbp s.cbp dcb dcr acb acr) ∧
    CodeC8Result
end

