-- ==== Sys2Proof/Laws/Memory.lean ====
section
/-! SUPPORT. Memory: read after write, every operation keeps the canonical form, and a write never takes a value
away. -/

namespace Sys2Proof.Machine

namespace MemoryLaws

/-- A read after a write to the same address gives the value written. -/
@[simp] theorem read_write_same (m : Memory) (x : Nat) (v : Byte) : (m.write x v).read x = some v := by
  induction m with
  | nil => simp [Memory.write, Memory.read]
  | cons c m ih =>
    obtain ⟨a, b⟩ := c
    simp only [Memory.write]
    split
    · simp [Memory.read]
    · split
      · simp [Memory.read]
      · rename_i h; simp [Memory.read, h, ih]

/-- A write leaves every other address alone. -/
theorem read_write_ne (m : Memory) {x y : Nat} (v : Byte) (h : y ≠ x) : (m.write x v).read y = m.read y := by
  induction m with
  | nil => simp [Memory.write, Memory.read, Ne.symm h]
  | cons c m ih =>
    obtain ⟨a, b⟩ := c
    simp only [Memory.write]
    split
    · simp [Memory.read, Ne.symm h]
    · split
      · rename_i hax; subst hax; simp [Memory.read, Ne.symm h]
      · simp [Memory.read, ih]

theorem read_write (m : Memory) (x y : Nat) (v : Byte) :
    (m.write x v).read y = if y = x then some v else m.read y := by
  split
  · rename_i h; subst h; simp
  · rename_i h; exact read_write_ne m v h

/-! ### The canonical form -/

/-- The canonical form as a chain: every address is below the ones after it. -/
theorem wf_cons (c : Host.Cell) (m : Memory) :
    Memory.wf (c :: m) = true ↔ (∀ d ∈ m.head?, c.1 < d.1) ∧ Memory.wf m = true := by
  cases m with
  | nil => simp [Memory.wf]
  | cons d m => simp [Memory.wf]

theorem wf_nil : Memory.wf [] = true := rfl

/-- The first address of a memory after a write is the written one or the old first one. -/
theorem head_write (m : Memory) (x : Nat) (v : Byte) (d : Host.Cell) (h : d ∈ (m.write x v).head?) :
    d.1 = x ∨ ∃ c ∈ m.head?, d.1 = c.1 := by
  cases m with
  | nil => simp [Memory.write] at h; subst h; exact .inl rfl
  | cons c m =>
    obtain ⟨a, b⟩ := c
    simp only [Memory.write] at h
    split at h
    · simp at h; subst h; exact .inl rfl
    · split at h
      · simp at h; subst h; exact .inl rfl
      · simp at h; subst h; exact .inr ⟨(a, b), by simp, rfl⟩

/-- A write keeps the canonical form. -/
theorem write_wf (m : Memory) (x : Nat) (v : Byte) (h : m.wf = true) : (m.write x v).wf = true := by
  induction m with
  | nil => rfl
  | cons c m ih =>
    obtain ⟨a, b⟩ := c
    rw [wf_cons] at h
    simp only [Memory.write]
    split
    · rename_i hx
      rw [wf_cons, wf_cons]
      exact ⟨by simpa using hx, h⟩
    · rename_i hx
      split
      · rename_i hax; subst hax
        rw [wf_cons]; exact h
      · rename_i hax
        rw [wf_cons]
        refine ⟨?_, ih h.2⟩
        intro d hd
        rcases head_write m x v d hd with hd | ⟨c, hc, hd⟩
        · simp only [hd]; omega
        · rw [hd]; exact h.1 c hc

/-- In the canonical form every later address is greater. -/
theorem wf_lt_all (c : Host.Cell) (m : Memory) (h : Memory.wf (c :: m) = true) : ∀ d ∈ m, c.1 < d.1 := by
  induction m generalizing c with
  | nil => simp
  | cons e m ih =>
    rw [wf_cons] at h
    have hce := h.1 e (by simp)
    intro d hd
    rcases List.mem_cons.mp hd with hd | hd
    · subst hd; exact hce
    · exact Nat.lt_trans hce (ih e h.2 d hd)

/-- Keeping only some cells keeps the canonical form. -/
theorem filter_wf (m : Memory) (p : Host.Cell → Bool) (h : m.wf = true) : Memory.wf (m.filter p) = true := by
  induction m with
  | nil => rfl
  | cons c m ih =>
    have hlt := wf_lt_all c m h
    rw [wf_cons] at h
    rw [List.filter_cons]
    split
    · rw [wf_cons]
      refine ⟨?_, ih h.2⟩
      intro d hd
      exact hlt d (List.mem_of_mem_filter (List.mem_of_mem_head? hd))
    · exact ih h.2

theorem forget_wf (m : Memory) (lo hi : Nat) (h : m.wf = true) : (m.forget lo hi).wf = true := filter_wf m _ h

/-- Forgetting a range takes away exactly the values in it. -/
theorem read_forget (m : Memory) (lo hi y : Nat) :
    (m.forget lo hi).read y = if lo ≤ y ∧ y < hi then none else m.read y := by
  induction m with
  | nil => simp [Memory.forget, Memory.read]
  | cons c m ih =>
    obtain ⟨a, b⟩ := c
    simp only [Memory.forget] at ih
    simp only [Memory.forget, List.filter_cons, Memory.read]
    by_cases hay : a = y
    · subst hay
      by_cases hr : lo ≤ a ∧ a < hi
      · simp only [hr, and_self, decide_true, Bool.and_self, Bool.not_true]
        rw [if_pos hr] at ih; simpa using ih
      · rw [if_neg hr]
        simp only [not_and, Nat.not_lt] at hr
        by_cases h1 : lo ≤ a
        · simp [h1, hr h1, Memory.read]
        · simp [h1, Memory.read]
    · rw [if_neg hay]
      split
      · rw [Memory.read, if_neg hay]; exact ih
      · exact ih

theorem writeHalf_wf (m : Memory) (x : Nat) (v : Half) (h : m.wf = true) : (m.writeHalf x v).wf = true :=
  write_wf _ _ _ (write_wf _ _ _ h)

theorem writeHalves_wf (m : Memory) (x : Nat) (vs : List Half) (h : m.wf = true) : (m.writeHalves x vs).wf = true := by
  induction vs generalizing m x with
  | nil => exact h
  | cons v vs ih => exact ih _ _ (writeHalf_wf m x v h)

theorem writeBytes_wf (m : Memory) (x : Nat) (vs : List Byte) (h : m.wf = true) : (m.writeBytes x vs).wf = true := by
  induction vs generalizing m x with
  | nil => exact h
  | cons v vs ih => exact ih _ _ (write_wf m x v h)

/-! ### Reads after wide and repeated writes -/

theorem read_writeHalf_out (m : Memory) (x y : Nat) (v : Half) (h : y < x ∨ x + 2 ≤ y) :
    (m.writeHalf x v).read y = m.read y := by
  rw [Memory.writeHalf, read_write_ne _ _ (by omega), read_write_ne _ _ (by omega)]

theorem read_writeHalf_lo (m : Memory) (x : Nat) (v : Half) :
    (m.writeHalf x v).read x = some (v.extractLsb' 0 8) := by
  rw [Memory.writeHalf, read_write_ne _ _ (by omega), read_write_same]

theorem read_writeHalf_hi (m : Memory) (x : Nat) (v : Half) :
    (m.writeHalf x v).read (x + 1) = some (v.extractLsb' 8 8) := by
  rw [Memory.writeHalf, read_write_same]

/-- Consecutive 16-bit stores leave every byte outside them alone. -/
theorem read_writeHalves_out (m : Memory) (x y : Nat) (vs : List Half) (h : y < x ∨ x + 2 * vs.length ≤ y) :
    (m.writeHalves x vs).read y = m.read y := by
  induction vs generalizing m x with
  | nil => rfl
  | cons v vs ih =>
    simp only [List.length_cons] at h
    rw [Memory.writeHalves, ih _ _ (by omega), read_writeHalf_out _ _ _ _ (by omega)]

/-- The low byte of the `i`-th of consecutive 16-bit stores. -/
theorem read_writeHalves_lo (m : Memory) (x i : Nat) (vs : List Half) (h : i < vs.length) :
    (m.writeHalves x vs).read (x + 2 * i) = some ((vs[i]).extractLsb' 0 8) := by
  induction vs generalizing m x i with
  | nil => simp at h
  | cons v vs ih =>
    rw [Memory.writeHalves]
    cases i with
    | zero => rw [read_writeHalves_out _ _ _ _ (by omega)]; simpa using read_writeHalf_lo m x v
    | succ i =>
      have := ih (m.writeHalf x v) (x + 2) i (by simpa using h)
      rw [show x + 2 * (i + 1) = x + 2 + 2 * i by omega, this]; simp

/-- The high byte of the `i`-th of consecutive 16-bit stores. -/
theorem read_writeHalves_hi (m : Memory) (x i : Nat) (vs : List Half) (h : i < vs.length) :
    (m.writeHalves x vs).read (x + 2 * i + 1) = some ((vs[i]).extractLsb' 8 8) := by
  induction vs generalizing m x i with
  | nil => simp at h
  | cons v vs ih =>
    rw [Memory.writeHalves]
    cases i with
    | zero => rw [read_writeHalves_out _ _ _ _ (by omega)]; simpa using read_writeHalf_hi m x v
    | succ i =>
      have := ih (m.writeHalf x v) (x + 2) i (by simpa using h)
      rw [show x + 2 * (i + 1) + 1 = x + 2 + 2 * i + 1 by omega, this]; simp

theorem read_writeBytes_out (m : Memory) (x y : Nat) (vs : List Byte) (h : y < x ∨ x + vs.length ≤ y) :
    (m.writeBytes x vs).read y = m.read y := by
  induction vs generalizing m x with
  | nil => rfl
  | cons v vs ih =>
    simp only [List.length_cons] at h
    rw [Memory.writeBytes, ih _ _ (by omega), read_write_ne _ _ (by omega)]

theorem read_writeBytes_at (m : Memory) (x i : Nat) (vs : List Byte) (h : i < vs.length) :
    (m.writeBytes x vs).read (x + i) = some vs[i] := by
  induction vs generalizing m x i with
  | nil => simp at h
  | cons v vs ih =>
    rw [Memory.writeBytes]
    cases i with
    | zero => rw [read_writeBytes_out _ _ _ _ (by omega)]; simp
    | succ i =>
      have := ih (m.write x v) (x + 1) i (by simpa using h)
      rw [show x + (i + 1) = x + 1 + i by omega, this]; simp

/-! ### A write never takes a value away -/

theorem write_grows (m : Memory) (x y : Nat) (v : Byte) (h : (m.read y).isSome = true) :
    ((m.write x v).read y).isSome = true := by
  rw [read_write]; split <;> simp [h]

theorem writeHalves_grows (m : Memory) (x y : Nat) (vs : List Half) (h : (m.read y).isSome = true) :
    ((m.writeHalves x vs).read y).isSome = true := by
  induction vs generalizing m x with
  | nil => exact h
  | cons v vs ih => exact ih _ _ (write_grows _ _ _ _ (write_grows _ _ _ _ h))

theorem writeBytes_grows (m : Memory) (x y : Nat) (vs : List Byte) (h : (m.read y).isSome = true) :
    ((m.writeBytes x vs).read y).isSome = true := by
  induction vs generalizing m x with
  | nil => exact h
  | cons v vs ih => exact ih _ _ (write_grows _ _ _ _ h)

/-! ### Which addresses a memory lists -/

theorem write_addrs (m : Memory) (x : Nat) (v : Byte) (c : Host.Cell) (h : c ∈ m.write x v) :
    c.1 = x ∨ c ∈ m := by
  induction m with
  | nil => simp [Memory.write] at h; exact .inl (by rw [h])
  | cons d m ih =>
    obtain ⟨a, b⟩ := d
    simp only [Memory.write] at h
    split at h
    · rcases List.mem_cons.mp h with h | h
      · exact .inl (by rw [h])
      · exact .inr h
    · split at h
      · rcases List.mem_cons.mp h with h | h
        · exact .inl (by rw [h])
        · exact .inr (List.mem_cons_of_mem _ h)
      · rcases List.mem_cons.mp h with h | h
        · exact .inr (by rw [h]; simp)
        · rcases ih h with h | h
          · exact .inl h
          · exact .inr (List.mem_cons_of_mem _ h)

theorem writeHalves_addrs (m : Memory) (x : Nat) (vs : List Half) (c : Host.Cell) (h : c ∈ m.writeHalves x vs) :
    (x ≤ c.1 ∧ c.1 < x + 2 * vs.length) ∨ c ∈ m := by
  induction vs generalizing m x with
  | nil => exact .inr h
  | cons v vs ih =>
    simp only [List.length_cons]
    rcases ih _ _ h with h | h
    · exact .inl (by omega)
    · rcases write_addrs _ _ _ _ h with h | h
      · exact .inl (by omega)
      · rcases write_addrs _ _ _ _ h with h | h
        · exact .inl (by omega)
        · exact .inr h

theorem writeBytes_addrs (m : Memory) (x : Nat) (vs : List Byte) (c : Host.Cell) (h : c ∈ m.writeBytes x vs) :
    (x ≤ c.1 ∧ c.1 < x + vs.length) ∨ c ∈ m := by
  induction vs generalizing m x with
  | nil => exact .inr h
  | cons v vs ih =>
    simp only [List.length_cons]
    rcases ih _ _ h with h | h
    · exact .inl (by omega)
    · rcases write_addrs _ _ _ _ h with h | h
      · exact .inl (by omega)
      · exact .inr h

end MemoryLaws

end Sys2Proof.Machine
end

