-- ==== Sys2Proof/Laws/State.lean ====
section
/-! SUPPORT. One lemma per field per state update, true by rfl, so that no proof unfolds a record update. -/

namespace Sys2Proof.Machine

namespace StateLaws

@[simp] theorem accept_cmd (w : Word) (s : State) : (accept w s).cmd = w := rfl
@[simp] theorem accept_irqDoneEn (w : Word) (s : State) : (accept w s).irqDoneEn = s.irqDoneEn := rfl
@[simp] theorem accept_irqErrEn (w : Word) (s : State) : (accept w s).irqErrEn = s.irqErrEn := rfl
@[simp] theorem accept_busy (w : Word) (s : State) : (accept w s).busy = true := rfl
@[simp] theorem accept_done (w : Word) (s : State) : (accept w s).done = s.done := rfl
@[simp] theorem accept_err (w : Word) (s : State) : (accept w s).err = s.err := rfl
@[simp] theorem accept_arenaCur (w : Word) (s : State) : (accept w s).arenaCur = s.arenaCur := rfl
@[simp] theorem accept_arenaEnd (w : Word) (s : State) : (accept w s).arenaEnd = s.arenaEnd := rfl
@[simp] theorem accept_mbStart (w : Word) (s : State) : (accept w s).mbStart = s.mbStart := rfl
@[simp] theorem accept_cntrlY (w : Word) (s : State) : (accept w s).cntrlY = s.cntrlY := rfl
@[simp] theorem accept_cntrlC (w : Word) (s : State) : (accept w s).cntrlC = s.cntrlC := rfl
@[simp] theorem accept_cbp (w : Word) (s : State) : (accept w s).cbp = s.cbp := rfl
@[simp] theorem accept_elim (w : Word) (s : State) : (accept w s).elim = s.elim := rfl
@[simp] theorem accept_costY (w : Word) (s : State) : (accept w s).costY = s.costY := rfl
@[simp] theorem accept_costC (w : Word) (s : State) : (accept w s).costC = s.costC := rfl
@[simp] theorem accept_costAcc (w : Word) (s : State) : (accept w s).costAcc = s.costAcc := rfl
@[simp] theorem accept_thr (w : Word) (s : State) : (accept w s).thr = s.thr := rfl
@[simp] theorem accept_costLut0 (w : Word) (s : State) : (accept w s).costLut0 = s.costLut0 := rfl
@[simp] theorem accept_costLut1 (w : Word) (s : State) : (accept w s).costLut1 = s.costLut1 := rfl
@[simp] theorem accept_costLut2 (w : Word) (s : State) : (accept w s).costLut2 = s.costLut2 := rfl
@[simp] theorem accept_costLut3 (w : Word) (s : State) : (accept w s).costLut3 = s.costLut3 := rfl
@[simp] theorem accept_qparamY (w : Word) (s : State) : (accept w s).qparamY = s.qparamY := rfl
@[simp] theorem accept_roundY (w : Word) (s : State) : (accept w s).roundY = s.roundY := rfl
@[simp] theorem accept_qparamCb (w : Word) (s : State) : (accept w s).qparamCb = s.qparamCb := rfl
@[simp] theorem accept_roundCb (w : Word) (s : State) : (accept w s).roundCb = s.roundCb := rfl
@[simp] theorem accept_qparamCr (w : Word) (s : State) : (accept w s).qparamCr = s.qparamCr := rfl
@[simp] theorem accept_roundCr (w : Word) (s : State) : (accept w s).roundCr = s.roundCr := rfl
@[simp] theorem accept_invTmpWrap16 (w : Word) (s : State) : (accept w s).invTmpWrap16 = s.invTmpWrap16 := rfl
@[simp] theorem accept_lm (w : Word) (s : State) : (accept w s).lm = s.lm := rfl
@[simp] theorem accept_arena (w : Word) (s : State) : (accept w s).arena = s.arena := rfl
@[simp] theorem accept_pending (w : Word) (s : State) : (accept w s).pending = s.pending := rfl
@[simp] theorem accept_resp (w : Word) (s : State) : (accept w s).resp = s.resp := rfl
@[simp] theorem accept_free (w : Word) (s : State) : (accept w s).free = s.free := rfl

@[simp] theorem complete_cmd (s : State) : (complete s).cmd = s.cmd := rfl
@[simp] theorem complete_irqDoneEn (s : State) : (complete s).irqDoneEn = s.irqDoneEn := rfl
@[simp] theorem complete_irqErrEn (s : State) : (complete s).irqErrEn = s.irqErrEn := rfl
@[simp] theorem complete_busy (s : State) : (complete s).busy = false := rfl
@[simp] theorem complete_done (s : State) : (complete s).done = true := rfl
@[simp] theorem complete_err (s : State) : (complete s).err = s.err := rfl
@[simp] theorem complete_arenaCur (s : State) : (complete s).arenaCur = s.arenaCur := rfl
@[simp] theorem complete_arenaEnd (s : State) : (complete s).arenaEnd = s.arenaEnd := rfl
@[simp] theorem complete_mbStart (s : State) : (complete s).mbStart = s.mbStart := rfl
@[simp] theorem complete_cntrlY (s : State) : (complete s).cntrlY = s.cntrlY := rfl
@[simp] theorem complete_cntrlC (s : State) : (complete s).cntrlC = s.cntrlC := rfl
@[simp] theorem complete_cbp (s : State) : (complete s).cbp = s.cbp := rfl
@[simp] theorem complete_elim (s : State) : (complete s).elim = s.elim := rfl
@[simp] theorem complete_costY (s : State) : (complete s).costY = s.costY := rfl
@[simp] theorem complete_costC (s : State) : (complete s).costC = s.costC := rfl
@[simp] theorem complete_costAcc (s : State) : (complete s).costAcc = s.costAcc := rfl
@[simp] theorem complete_thr (s : State) : (complete s).thr = s.thr := rfl
@[simp] theorem complete_costLut0 (s : State) : (complete s).costLut0 = s.costLut0 := rfl
@[simp] theorem complete_costLut1 (s : State) : (complete s).costLut1 = s.costLut1 := rfl
@[simp] theorem complete_costLut2 (s : State) : (complete s).costLut2 = s.costLut2 := rfl
@[simp] theorem complete_costLut3 (s : State) : (complete s).costLut3 = s.costLut3 := rfl
@[simp] theorem complete_qparamY (s : State) : (complete s).qparamY = s.qparamY := rfl
@[simp] theorem complete_roundY (s : State) : (complete s).roundY = s.roundY := rfl
@[simp] theorem complete_qparamCb (s : State) : (complete s).qparamCb = s.qparamCb := rfl
@[simp] theorem complete_roundCb (s : State) : (complete s).roundCb = s.roundCb := rfl
@[simp] theorem complete_qparamCr (s : State) : (complete s).qparamCr = s.qparamCr := rfl
@[simp] theorem complete_roundCr (s : State) : (complete s).roundCr = s.roundCr := rfl
@[simp] theorem complete_invTmpWrap16 (s : State) : (complete s).invTmpWrap16 = s.invTmpWrap16 := rfl
@[simp] theorem complete_lm (s : State) : (complete s).lm = s.lm := rfl
@[simp] theorem complete_arena (s : State) : (complete s).arena = s.arena := rfl
@[simp] theorem complete_pending (s : State) : (complete s).pending = s.pending := rfl
@[simp] theorem complete_resp (s : State) : (complete s).resp = s.resp := rfl
@[simp] theorem complete_free (s : State) : (complete s).free = s.free := rfl

@[simp] theorem answer_cmd (e : Bool) (d : Word) (s : State) : (answer e d s).cmd = s.cmd := rfl
@[simp] theorem answer_irqDoneEn (e : Bool) (d : Word) (s : State) : (answer e d s).irqDoneEn = s.irqDoneEn := rfl
@[simp] theorem answer_irqErrEn (e : Bool) (d : Word) (s : State) : (answer e d s).irqErrEn = s.irqErrEn := rfl
@[simp] theorem answer_busy (e : Bool) (d : Word) (s : State) : (answer e d s).busy = s.busy := rfl
@[simp] theorem answer_done (e : Bool) (d : Word) (s : State) : (answer e d s).done = s.done := rfl
@[simp] theorem answer_err (e : Bool) (d : Word) (s : State) : (answer e d s).err = s.err := rfl
@[simp] theorem answer_arenaCur (e : Bool) (d : Word) (s : State) : (answer e d s).arenaCur = s.arenaCur := rfl
@[simp] theorem answer_arenaEnd (e : Bool) (d : Word) (s : State) : (answer e d s).arenaEnd = s.arenaEnd := rfl
@[simp] theorem answer_mbStart (e : Bool) (d : Word) (s : State) : (answer e d s).mbStart = s.mbStart := rfl
@[simp] theorem answer_cntrlY (e : Bool) (d : Word) (s : State) : (answer e d s).cntrlY = s.cntrlY := rfl
@[simp] theorem answer_cntrlC (e : Bool) (d : Word) (s : State) : (answer e d s).cntrlC = s.cntrlC := rfl
@[simp] theorem answer_cbp (e : Bool) (d : Word) (s : State) : (answer e d s).cbp = s.cbp := rfl
@[simp] theorem answer_elim (e : Bool) (d : Word) (s : State) : (answer e d s).elim = s.elim := rfl
@[simp] theorem answer_costY (e : Bool) (d : Word) (s : State) : (answer e d s).costY = s.costY := rfl
@[simp] theorem answer_costC (e : Bool) (d : Word) (s : State) : (answer e d s).costC = s.costC := rfl
@[simp] theorem answer_costAcc (e : Bool) (d : Word) (s : State) : (answer e d s).costAcc = s.costAcc := rfl
@[simp] theorem answer_thr (e : Bool) (d : Word) (s : State) : (answer e d s).thr = s.thr := rfl
@[simp] theorem answer_costLut0 (e : Bool) (d : Word) (s : State) : (answer e d s).costLut0 = s.costLut0 := rfl
@[simp] theorem answer_costLut1 (e : Bool) (d : Word) (s : State) : (answer e d s).costLut1 = s.costLut1 := rfl
@[simp] theorem answer_costLut2 (e : Bool) (d : Word) (s : State) : (answer e d s).costLut2 = s.costLut2 := rfl
@[simp] theorem answer_costLut3 (e : Bool) (d : Word) (s : State) : (answer e d s).costLut3 = s.costLut3 := rfl
@[simp] theorem answer_qparamY (e : Bool) (d : Word) (s : State) : (answer e d s).qparamY = s.qparamY := rfl
@[simp] theorem answer_roundY (e : Bool) (d : Word) (s : State) : (answer e d s).roundY = s.roundY := rfl
@[simp] theorem answer_qparamCb (e : Bool) (d : Word) (s : State) : (answer e d s).qparamCb = s.qparamCb := rfl
@[simp] theorem answer_roundCb (e : Bool) (d : Word) (s : State) : (answer e d s).roundCb = s.roundCb := rfl
@[simp] theorem answer_qparamCr (e : Bool) (d : Word) (s : State) : (answer e d s).qparamCr = s.qparamCr := rfl
@[simp] theorem answer_roundCr (e : Bool) (d : Word) (s : State) : (answer e d s).roundCr = s.roundCr := rfl
@[simp] theorem answer_invTmpWrap16 (e : Bool) (d : Word) (s : State) : (answer e d s).invTmpWrap16 = s.invTmpWrap16 := rfl
@[simp] theorem answer_lm (e : Bool) (d : Word) (s : State) : (answer e d s).lm = s.lm := rfl
@[simp] theorem answer_arena (e : Bool) (d : Word) (s : State) : (answer e d s).arena = s.arena := rfl
@[simp] theorem answer_pending (e : Bool) (d : Word) (s : State) : (answer e d s).pending = s.pending := rfl
@[simp] theorem answer_resp (e : Bool) (d : Word) (s : State) : (answer e d s).resp = ⟨e, d⟩ := rfl
@[simp] theorem answer_free (e : Bool) (d : Word) (s : State) : (answer e d s).free = s.free := rfl

@[simp] theorem putByte_cmd (s : State) (a : Nat) (b : Byte) : (s.putByte a b).cmd = s.cmd := rfl
@[simp] theorem putByte_irqDoneEn (s : State) (a : Nat) (b : Byte) : (s.putByte a b).irqDoneEn = s.irqDoneEn := rfl
@[simp] theorem putByte_irqErrEn (s : State) (a : Nat) (b : Byte) : (s.putByte a b).irqErrEn = s.irqErrEn := rfl
@[simp] theorem putByte_busy (s : State) (a : Nat) (b : Byte) : (s.putByte a b).busy = s.busy := rfl
@[simp] theorem putByte_done (s : State) (a : Nat) (b : Byte) : (s.putByte a b).done = s.done := rfl
@[simp] theorem putByte_err (s : State) (a : Nat) (b : Byte) : (s.putByte a b).err = s.err := rfl
@[simp] theorem putByte_arenaCur (s : State) (a : Nat) (b : Byte) : (s.putByte a b).arenaCur = s.arenaCur := rfl
@[simp] theorem putByte_arenaEnd (s : State) (a : Nat) (b : Byte) : (s.putByte a b).arenaEnd = s.arenaEnd := rfl
@[simp] theorem putByte_mbStart (s : State) (a : Nat) (b : Byte) : (s.putByte a b).mbStart = s.mbStart := rfl
@[simp] theorem putByte_cntrlY (s : State) (a : Nat) (b : Byte) : (s.putByte a b).cntrlY = s.cntrlY := rfl
@[simp] theorem putByte_cntrlC (s : State) (a : Nat) (b : Byte) : (s.putByte a b).cntrlC = s.cntrlC := rfl
@[simp] theorem putByte_cbp (s : State) (a : Nat) (b : Byte) : (s.putByte a b).cbp = s.cbp := rfl
@[simp] theorem putByte_elim (s : State) (a : Nat) (b : Byte) : (s.putByte a b).elim = s.elim := rfl
@[simp] theorem putByte_costY (s : State) (a : Nat) (b : Byte) : (s.putByte a b).costY = s.costY := rfl
@[simp] theorem putByte_costC (s : State) (a : Nat) (b : Byte) : (s.putByte a b).costC = s.costC := rfl
@[simp] theorem putByte_costAcc (s : State) (a : Nat) (b : Byte) : (s.putByte a b).costAcc = s.costAcc := rfl
@[simp] theorem putByte_thr (s : State) (a : Nat) (b : Byte) : (s.putByte a b).thr = s.thr := rfl
@[simp] theorem putByte_costLut0 (s : State) (a : Nat) (b : Byte) : (s.putByte a b).costLut0 = s.costLut0 := rfl
@[simp] theorem putByte_costLut1 (s : State) (a : Nat) (b : Byte) : (s.putByte a b).costLut1 = s.costLut1 := rfl
@[simp] theorem putByte_costLut2 (s : State) (a : Nat) (b : Byte) : (s.putByte a b).costLut2 = s.costLut2 := rfl
@[simp] theorem putByte_costLut3 (s : State) (a : Nat) (b : Byte) : (s.putByte a b).costLut3 = s.costLut3 := rfl
@[simp] theorem putByte_qparamY (s : State) (a : Nat) (b : Byte) : (s.putByte a b).qparamY = s.qparamY := rfl
@[simp] theorem putByte_roundY (s : State) (a : Nat) (b : Byte) : (s.putByte a b).roundY = s.roundY := rfl
@[simp] theorem putByte_qparamCb (s : State) (a : Nat) (b : Byte) : (s.putByte a b).qparamCb = s.qparamCb := rfl
@[simp] theorem putByte_roundCb (s : State) (a : Nat) (b : Byte) : (s.putByte a b).roundCb = s.roundCb := rfl
@[simp] theorem putByte_qparamCr (s : State) (a : Nat) (b : Byte) : (s.putByte a b).qparamCr = s.qparamCr := rfl
@[simp] theorem putByte_roundCr (s : State) (a : Nat) (b : Byte) : (s.putByte a b).roundCr = s.roundCr := rfl
@[simp] theorem putByte_invTmpWrap16 (s : State) (a : Nat) (b : Byte) : (s.putByte a b).invTmpWrap16 = s.invTmpWrap16 := rfl
@[simp] theorem putByte_lm (s : State) (a : Nat) (b : Byte) : (s.putByte a b).lm = s.lm.write a b := rfl
@[simp] theorem putByte_arena (s : State) (a : Nat) (b : Byte) : (s.putByte a b).arena = s.arena := rfl
@[simp] theorem putByte_pending (s : State) (a : Nat) (b : Byte) : (s.putByte a b).pending = s.pending := rfl
@[simp] theorem putByte_resp (s : State) (a : Nat) (b : Byte) : (s.putByte a b).resp = s.resp := rfl
@[simp] theorem putByte_free (s : State) (a : Nat) (b : Byte) : (s.putByte a b).free = s.free := rfl

@[simp] theorem putBytes_cmd (s : State) (a : Nat) (bs : List Byte) : (s.putBytes a bs).cmd = s.cmd := rfl
@[simp] theorem putBytes_irqDoneEn (s : State) (a : Nat) (bs : List Byte) : (s.putBytes a bs).irqDoneEn = s.irqDoneEn := rfl
@[simp] theorem putBytes_irqErrEn (s : State) (a : Nat) (bs : List Byte) : (s.putBytes a bs).irqErrEn = s.irqErrEn := rfl
@[simp] theorem putBytes_busy (s : State) (a : Nat) (bs : List Byte) : (s.putBytes a bs).busy = s.busy := rfl
@[simp] theorem putBytes_done (s : State) (a : Nat) (bs : List Byte) : (s.putBytes a bs).done = s.done := rfl
@[simp] theorem putBytes_err (s : State) (a : Nat) (bs : List Byte) : (s.putBytes a bs).err = s.err := rfl
@[simp] theorem putBytes_arenaCur (s : State) (a : Nat) (bs : List Byte) : (s.putBytes a bs).arenaCur = s.arenaCur := rfl
@[simp] theorem putBytes_arenaEnd (s : State) (a : Nat) (bs : List Byte) : (s.putBytes a bs).arenaEnd = s.arenaEnd := rfl
@[simp] theorem putBytes_mbStart (s : State) (a : Nat) (bs : List Byte) : (s.putBytes a bs).mbStart = s.mbStart := rfl
@[simp] theorem putBytes_cntrlY (s : State) (a : Nat) (bs : List Byte) : (s.putBytes a bs).cntrlY = s.cntrlY := rfl
@[simp] theorem putBytes_cntrlC (s : State) (a : Nat) (bs : List Byte) : (s.putBytes a bs).cntrlC = s.cntrlC := rfl
@[simp] theorem putBytes_cbp (s : State) (a : Nat) (bs : List Byte) : (s.putBytes a bs).cbp = s.cbp := rfl
@[simp] theorem putBytes_elim (s : State) (a : Nat) (bs : List Byte) : (s.putBytes a bs).elim = s.elim := rfl
@[simp] theorem putBytes_costY (s : State) (a : Nat) (bs : List Byte) : (s.putBytes a bs).costY = s.costY := rfl
@[simp] theorem putBytes_costC (s : State) (a : Nat) (bs : List Byte) : (s.putBytes a bs).costC = s.costC := rfl
@[simp] theorem putBytes_costAcc (s : State) (a : Nat) (bs : List Byte) : (s.putBytes a bs).costAcc = s.costAcc := rfl
@[simp] theorem putBytes_thr (s : State) (a : Nat) (bs : List Byte) : (s.putBytes a bs).thr = s.thr := rfl
@[simp] theorem putBytes_costLut0 (s : State) (a : Nat) (bs : List Byte) : (s.putBytes a bs).costLut0 = s.costLut0 := rfl
@[simp] theorem putBytes_costLut1 (s : State) (a : Nat) (bs : List Byte) : (s.putBytes a bs).costLut1 = s.costLut1 := rfl
@[simp] theorem putBytes_costLut2 (s : State) (a : Nat) (bs : List Byte) : (s.putBytes a bs).costLut2 = s.costLut2 := rfl
@[simp] theorem putBytes_costLut3 (s : State) (a : Nat) (bs : List Byte) : (s.putBytes a bs).costLut3 = s.costLut3 := rfl
@[simp] theorem putBytes_qparamY (s : State) (a : Nat) (bs : List Byte) : (s.putBytes a bs).qparamY = s.qparamY := rfl
@[simp] theorem putBytes_roundY (s : State) (a : Nat) (bs : List Byte) : (s.putBytes a bs).roundY = s.roundY := rfl
@[simp] theorem putBytes_qparamCb (s : State) (a : Nat) (bs : List Byte) : (s.putBytes a bs).qparamCb = s.qparamCb := rfl
@[simp] theorem putBytes_roundCb (s : State) (a : Nat) (bs : List Byte) : (s.putBytes a bs).roundCb = s.roundCb := rfl
@[simp] theorem putBytes_qparamCr (s : State) (a : Nat) (bs : List Byte) : (s.putBytes a bs).qparamCr = s.qparamCr := rfl
@[simp] theorem putBytes_roundCr (s : State) (a : Nat) (bs : List Byte) : (s.putBytes a bs).roundCr = s.roundCr := rfl
@[simp] theorem putBytes_invTmpWrap16 (s : State) (a : Nat) (bs : List Byte) : (s.putBytes a bs).invTmpWrap16 = s.invTmpWrap16 := rfl
@[simp] theorem putBytes_lm (s : State) (a : Nat) (bs : List Byte) : (s.putBytes a bs).lm = s.lm.writeBytes a bs := rfl
@[simp] theorem putBytes_arena (s : State) (a : Nat) (bs : List Byte) : (s.putBytes a bs).arena = s.arena := rfl
@[simp] theorem putBytes_pending (s : State) (a : Nat) (bs : List Byte) : (s.putBytes a bs).pending = s.pending := rfl
@[simp] theorem putBytes_resp (s : State) (a : Nat) (bs : List Byte) : (s.putBytes a bs).resp = s.resp := rfl
@[simp] theorem putBytes_free (s : State) (a : Nat) (bs : List Byte) : (s.putBytes a bs).free = s.free := rfl

@[simp] theorem putSigned_cmd (s : State) (a : Nat) (vs : List Int) : (s.putSigned a vs).cmd = s.cmd := rfl
@[simp] theorem putSigned_irqDoneEn (s : State) (a : Nat) (vs : List Int) : (s.putSigned a vs).irqDoneEn = s.irqDoneEn := rfl
@[simp] theorem putSigned_irqErrEn (s : State) (a : Nat) (vs : List Int) : (s.putSigned a vs).irqErrEn = s.irqErrEn := rfl
@[simp] theorem putSigned_busy (s : State) (a : Nat) (vs : List Int) : (s.putSigned a vs).busy = s.busy := rfl
@[simp] theorem putSigned_done (s : State) (a : Nat) (vs : List Int) : (s.putSigned a vs).done = s.done := rfl
@[simp] theorem putSigned_err (s : State) (a : Nat) (vs : List Int) : (s.putSigned a vs).err = s.err := rfl
@[simp] theorem putSigned_arenaCur (s : State) (a : Nat) (vs : List Int) : (s.putSigned a vs).arenaCur = s.arenaCur := rfl
@[simp] theorem putSigned_arenaEnd (s : State) (a : Nat) (vs : List Int) : (s.putSigned a vs).arenaEnd = s.arenaEnd := rfl
@[simp] theorem putSigned_mbStart (s : State) (a : Nat) (vs : List Int) : (s.putSigned a vs).mbStart = s.mbStart := rfl
@[simp] theorem putSigned_cntrlY (s : State) (a : Nat) (vs : List Int) : (s.putSigned a vs).cntrlY = s.cntrlY := rfl
@[simp] theorem putSigned_cntrlC (s : State) (a : Nat) (vs : List Int) : (s.putSigned a vs).cntrlC = s.cntrlC := rfl
@[simp] theorem putSigned_cbp (s : State) (a : Nat) (vs : List Int) : (s.putSigned a vs).cbp = s.cbp := rfl
@[simp] theorem putSigned_elim (s : State) (a : Nat) (vs : List Int) : (s.putSigned a vs).elim = s.elim := rfl
@[simp] theorem putSigned_costY (s : State) (a : Nat) (vs : List Int) : (s.putSigned a vs).costY = s.costY := rfl
@[simp] theorem putSigned_costC (s : State) (a : Nat) (vs : List Int) : (s.putSigned a vs).costC = s.costC := rfl
@[simp] theorem putSigned_costAcc (s : State) (a : Nat) (vs : List Int) : (s.putSigned a vs).costAcc = s.costAcc := rfl
@[simp] theorem putSigned_thr (s : State) (a : Nat) (vs : List Int) : (s.putSigned a vs).thr = s.thr := rfl
@[simp] theorem putSigned_costLut0 (s : State) (a : Nat) (vs : List Int) : (s.putSigned a vs).costLut0 = s.costLut0 := rfl
@[simp] theorem putSigned_costLut1 (s : State) (a : Nat) (vs : List Int) : (s.putSigned a vs).costLut1 = s.costLut1 := rfl
@[simp] theorem putSigned_costLut2 (s : State) (a : Nat) (vs : List Int) : (s.putSigned a vs).costLut2 = s.costLut2 := rfl
@[simp] theorem putSigned_costLut3 (s : State) (a : Nat) (vs : List Int) : (s.putSigned a vs).costLut3 = s.costLut3 := rfl
@[simp] theorem putSigned_qparamY (s : State) (a : Nat) (vs : List Int) : (s.putSigned a vs).qparamY = s.qparamY := rfl
@[simp] theorem putSigned_roundY (s : State) (a : Nat) (vs : List Int) : (s.putSigned a vs).roundY = s.roundY := rfl
@[simp] theorem putSigned_qparamCb (s : State) (a : Nat) (vs : List Int) : (s.putSigned a vs).qparamCb = s.qparamCb := rfl
@[simp] theorem putSigned_roundCb (s : State) (a : Nat) (vs : List Int) : (s.putSigned a vs).roundCb = s.roundCb := rfl
@[simp] theorem putSigned_qparamCr (s : State) (a : Nat) (vs : List Int) : (s.putSigned a vs).qparamCr = s.qparamCr := rfl
@[simp] theorem putSigned_roundCr (s : State) (a : Nat) (vs : List Int) : (s.putSigned a vs).roundCr = s.roundCr := rfl
@[simp] theorem putSigned_invTmpWrap16 (s : State) (a : Nat) (vs : List Int) : (s.putSigned a vs).invTmpWrap16 = s.invTmpWrap16 := rfl
@[simp] theorem putSigned_lm (s : State) (a : Nat) (vs : List Int) : (s.putSigned a vs).lm = s.lm.writeHalves a (vs.map (BitVec.ofInt 16)) := rfl
@[simp] theorem putSigned_arena (s : State) (a : Nat) (vs : List Int) : (s.putSigned a vs).arena = s.arena := rfl
@[simp] theorem putSigned_pending (s : State) (a : Nat) (vs : List Int) : (s.putSigned a vs).pending = s.pending := rfl
@[simp] theorem putSigned_resp (s : State) (a : Nat) (vs : List Int) : (s.putSigned a vs).resp = s.resp := rfl
@[simp] theorem putSigned_free (s : State) (a : Nat) (vs : List Int) : (s.putSigned a vs).free = s.free := rfl

@[simp] theorem putNnz_cmd (s : State) (p : Plane) (n v : Nat) : (s.putNnz p n v).cmd = s.cmd := rfl
@[simp] theorem putNnz_irqDoneEn (s : State) (p : Plane) (n v : Nat) : (s.putNnz p n v).irqDoneEn = s.irqDoneEn := rfl
@[simp] theorem putNnz_irqErrEn (s : State) (p : Plane) (n v : Nat) : (s.putNnz p n v).irqErrEn = s.irqErrEn := rfl
@[simp] theorem putNnz_busy (s : State) (p : Plane) (n v : Nat) : (s.putNnz p n v).busy = s.busy := rfl
@[simp] theorem putNnz_done (s : State) (p : Plane) (n v : Nat) : (s.putNnz p n v).done = s.done := rfl
@[simp] theorem putNnz_err (s : State) (p : Plane) (n v : Nat) : (s.putNnz p n v).err = s.err := rfl
@[simp] theorem putNnz_arenaCur (s : State) (p : Plane) (n v : Nat) : (s.putNnz p n v).arenaCur = s.arenaCur := rfl
@[simp] theorem putNnz_arenaEnd (s : State) (p : Plane) (n v : Nat) : (s.putNnz p n v).arenaEnd = s.arenaEnd := rfl
@[simp] theorem putNnz_mbStart (s : State) (p : Plane) (n v : Nat) : (s.putNnz p n v).mbStart = s.mbStart := rfl
@[simp] theorem putNnz_cntrlY (s : State) (p : Plane) (n v : Nat) : (s.putNnz p n v).cntrlY = s.cntrlY := rfl
@[simp] theorem putNnz_cntrlC (s : State) (p : Plane) (n v : Nat) : (s.putNnz p n v).cntrlC = s.cntrlC := rfl
@[simp] theorem putNnz_cbp (s : State) (p : Plane) (n v : Nat) : (s.putNnz p n v).cbp = s.cbp := rfl
@[simp] theorem putNnz_elim (s : State) (p : Plane) (n v : Nat) : (s.putNnz p n v).elim = s.elim := rfl
@[simp] theorem putNnz_costY (s : State) (p : Plane) (n v : Nat) : (s.putNnz p n v).costY = s.costY := rfl
@[simp] theorem putNnz_costC (s : State) (p : Plane) (n v : Nat) : (s.putNnz p n v).costC = s.costC := rfl
@[simp] theorem putNnz_costAcc (s : State) (p : Plane) (n v : Nat) : (s.putNnz p n v).costAcc = s.costAcc := rfl
@[simp] theorem putNnz_thr (s : State) (p : Plane) (n v : Nat) : (s.putNnz p n v).thr = s.thr := rfl
@[simp] theorem putNnz_costLut0 (s : State) (p : Plane) (n v : Nat) : (s.putNnz p n v).costLut0 = s.costLut0 := rfl
@[simp] theorem putNnz_costLut1 (s : State) (p : Plane) (n v : Nat) : (s.putNnz p n v).costLut1 = s.costLut1 := rfl
@[simp] theorem putNnz_costLut2 (s : State) (p : Plane) (n v : Nat) : (s.putNnz p n v).costLut2 = s.costLut2 := rfl
@[simp] theorem putNnz_costLut3 (s : State) (p : Plane) (n v : Nat) : (s.putNnz p n v).costLut3 = s.costLut3 := rfl
@[simp] theorem putNnz_qparamY (s : State) (p : Plane) (n v : Nat) : (s.putNnz p n v).qparamY = s.qparamY := rfl
@[simp] theorem putNnz_roundY (s : State) (p : Plane) (n v : Nat) : (s.putNnz p n v).roundY = s.roundY := rfl
@[simp] theorem putNnz_qparamCb (s : State) (p : Plane) (n v : Nat) : (s.putNnz p n v).qparamCb = s.qparamCb := rfl
@[simp] theorem putNnz_roundCb (s : State) (p : Plane) (n v : Nat) : (s.putNnz p n v).roundCb = s.roundCb := rfl
@[simp] theorem putNnz_qparamCr (s : State) (p : Plane) (n v : Nat) : (s.putNnz p n v).qparamCr = s.qparamCr := rfl
@[simp] theorem putNnz_roundCr (s : State) (p : Plane) (n v : Nat) : (s.putNnz p n v).roundCr = s.roundCr := rfl
@[simp] theorem putNnz_invTmpWrap16 (s : State) (p : Plane) (n v : Nat) : (s.putNnz p n v).invTmpWrap16 = s.invTmpWrap16 := rfl
@[simp] theorem putNnz_lm (s : State) (p : Plane) (n v : Nat) : (s.putNnz p n v).lm = s.lm.write (nnzAddr p n) (BitVec.ofNat 8 v) := rfl
@[simp] theorem putNnz_arena (s : State) (p : Plane) (n v : Nat) : (s.putNnz p n v).arena = s.arena := rfl
@[simp] theorem putNnz_pending (s : State) (p : Plane) (n v : Nat) : (s.putNnz p n v).pending = s.pending := rfl
@[simp] theorem putNnz_resp (s : State) (p : Plane) (n v : Nat) : (s.putNnz p n v).resp = s.resp := rfl
@[simp] theorem putNnz_free (s : State) (p : Plane) (n v : Nat) : (s.putNnz p n v).free = s.free := rfl

@[simp] theorem putNnzdc_cmd (s : State) (p : Plane) (v : Nat) : (s.putNnzdc p v).cmd = s.cmd := rfl
@[simp] theorem putNnzdc_irqDoneEn (s : State) (p : Plane) (v : Nat) : (s.putNnzdc p v).irqDoneEn = s.irqDoneEn := rfl
@[simp] theorem putNnzdc_irqErrEn (s : State) (p : Plane) (v : Nat) : (s.putNnzdc p v).irqErrEn = s.irqErrEn := rfl
@[simp] theorem putNnzdc_busy (s : State) (p : Plane) (v : Nat) : (s.putNnzdc p v).busy = s.busy := rfl
@[simp] theorem putNnzdc_done (s : State) (p : Plane) (v : Nat) : (s.putNnzdc p v).done = s.done := rfl
@[simp] theorem putNnzdc_err (s : State) (p : Plane) (v : Nat) : (s.putNnzdc p v).err = s.err := rfl
@[simp] theorem putNnzdc_arenaCur (s : State) (p : Plane) (v : Nat) : (s.putNnzdc p v).arenaCur = s.arenaCur := rfl
@[simp] theorem putNnzdc_arenaEnd (s : State) (p : Plane) (v : Nat) : (s.putNnzdc p v).arenaEnd = s.arenaEnd := rfl
@[simp] theorem putNnzdc_mbStart (s : State) (p : Plane) (v : Nat) : (s.putNnzdc p v).mbStart = s.mbStart := rfl
@[simp] theorem putNnzdc_cntrlY (s : State) (p : Plane) (v : Nat) : (s.putNnzdc p v).cntrlY = s.cntrlY := rfl
@[simp] theorem putNnzdc_cntrlC (s : State) (p : Plane) (v : Nat) : (s.putNnzdc p v).cntrlC = s.cntrlC := rfl
@[simp] theorem putNnzdc_cbp (s : State) (p : Plane) (v : Nat) : (s.putNnzdc p v).cbp = s.cbp := rfl
@[simp] theorem putNnzdc_elim (s : State) (p : Plane) (v : Nat) : (s.putNnzdc p v).elim = s.elim := rfl
@[simp] theorem putNnzdc_costY (s : State) (p : Plane) (v : Nat) : (s.putNnzdc p v).costY = s.costY := rfl
@[simp] theorem putNnzdc_costC (s : State) (p : Plane) (v : Nat) : (s.putNnzdc p v).costC = s.costC := rfl
@[simp] theorem putNnzdc_costAcc (s : State) (p : Plane) (v : Nat) : (s.putNnzdc p v).costAcc = s.costAcc := rfl
@[simp] theorem putNnzdc_thr (s : State) (p : Plane) (v : Nat) : (s.putNnzdc p v).thr = s.thr := rfl
@[simp] theorem putNnzdc_costLut0 (s : State) (p : Plane) (v : Nat) : (s.putNnzdc p v).costLut0 = s.costLut0 := rfl
@[simp] theorem putNnzdc_costLut1 (s : State) (p : Plane) (v : Nat) : (s.putNnzdc p v).costLut1 = s.costLut1 := rfl
@[simp] theorem putNnzdc_costLut2 (s : State) (p : Plane) (v : Nat) : (s.putNnzdc p v).costLut2 = s.costLut2 := rfl
@[simp] theorem putNnzdc_costLut3 (s : State) (p : Plane) (v : Nat) : (s.putNnzdc p v).costLut3 = s.costLut3 := rfl
@[simp] theorem putNnzdc_qparamY (s : State) (p : Plane) (v : Nat) : (s.putNnzdc p v).qparamY = s.qparamY := rfl
@[simp] theorem putNnzdc_roundY (s : State) (p : Plane) (v : Nat) : (s.putNnzdc p v).roundY = s.roundY := rfl
@[simp] theorem putNnzdc_qparamCb (s : State) (p : Plane) (v : Nat) : (s.putNnzdc p v).qparamCb = s.qparamCb := rfl
@[simp] theorem putNnzdc_roundCb (s : State) (p : Plane) (v : Nat) : (s.putNnzdc p v).roundCb = s.roundCb := rfl
@[simp] theorem putNnzdc_qparamCr (s : State) (p : Plane) (v : Nat) : (s.putNnzdc p v).qparamCr = s.qparamCr := rfl
@[simp] theorem putNnzdc_roundCr (s : State) (p : Plane) (v : Nat) : (s.putNnzdc p v).roundCr = s.roundCr := rfl
@[simp] theorem putNnzdc_invTmpWrap16 (s : State) (p : Plane) (v : Nat) : (s.putNnzdc p v).invTmpWrap16 = s.invTmpWrap16 := rfl
@[simp] theorem putNnzdc_lm (s : State) (p : Plane) (v : Nat) : (s.putNnzdc p v).lm = s.lm.write (nnzdcAddr p) (BitVec.ofNat 8 v) := rfl
@[simp] theorem putNnzdc_arena (s : State) (p : Plane) (v : Nat) : (s.putNnzdc p v).arena = s.arena := rfl
@[simp] theorem putNnzdc_pending (s : State) (p : Plane) (v : Nat) : (s.putNnzdc p v).pending = s.pending := rfl
@[simp] theorem putNnzdc_resp (s : State) (p : Plane) (v : Nat) : (s.putNnzdc p v).resp = s.resp := rfl
@[simp] theorem putNnzdc_free (s : State) (p : Plane) (v : Nat) : (s.putNnzdc p v).free = s.free := rfl

@[simp] theorem addCost_cmd (s : State) (c : Nat) : (s.addCost c).cmd = s.cmd := rfl
@[simp] theorem addCost_irqDoneEn (s : State) (c : Nat) : (s.addCost c).irqDoneEn = s.irqDoneEn := rfl
@[simp] theorem addCost_irqErrEn (s : State) (c : Nat) : (s.addCost c).irqErrEn = s.irqErrEn := rfl
@[simp] theorem addCost_busy (s : State) (c : Nat) : (s.addCost c).busy = s.busy := rfl
@[simp] theorem addCost_done (s : State) (c : Nat) : (s.addCost c).done = s.done := rfl
@[simp] theorem addCost_err (s : State) (c : Nat) : (s.addCost c).err = s.err := rfl
@[simp] theorem addCost_arenaCur (s : State) (c : Nat) : (s.addCost c).arenaCur = s.arenaCur := rfl
@[simp] theorem addCost_arenaEnd (s : State) (c : Nat) : (s.addCost c).arenaEnd = s.arenaEnd := rfl
@[simp] theorem addCost_mbStart (s : State) (c : Nat) : (s.addCost c).mbStart = s.mbStart := rfl
@[simp] theorem addCost_cntrlY (s : State) (c : Nat) : (s.addCost c).cntrlY = s.cntrlY := rfl
@[simp] theorem addCost_cntrlC (s : State) (c : Nat) : (s.addCost c).cntrlC = s.cntrlC := rfl
@[simp] theorem addCost_cbp (s : State) (c : Nat) : (s.addCost c).cbp = s.cbp := rfl
@[simp] theorem addCost_elim (s : State) (c : Nat) : (s.addCost c).elim = s.elim := rfl
@[simp] theorem addCost_costY (s : State) (c : Nat) : (s.addCost c).costY = s.costY := rfl
@[simp] theorem addCost_costC (s : State) (c : Nat) : (s.addCost c).costC = s.costC := rfl
@[simp] theorem addCost_costAcc (s : State) (c : Nat) : (s.addCost c).costAcc = s.costAcc + BitVec.ofNat 32 c := rfl
@[simp] theorem addCost_thr (s : State) (c : Nat) : (s.addCost c).thr = s.thr := rfl
@[simp] theorem addCost_costLut0 (s : State) (c : Nat) : (s.addCost c).costLut0 = s.costLut0 := rfl
@[simp] theorem addCost_costLut1 (s : State) (c : Nat) : (s.addCost c).costLut1 = s.costLut1 := rfl
@[simp] theorem addCost_costLut2 (s : State) (c : Nat) : (s.addCost c).costLut2 = s.costLut2 := rfl
@[simp] theorem addCost_costLut3 (s : State) (c : Nat) : (s.addCost c).costLut3 = s.costLut3 := rfl
@[simp] theorem addCost_qparamY (s : State) (c : Nat) : (s.addCost c).qparamY = s.qparamY := rfl
@[simp] theorem addCost_roundY (s : State) (c : Nat) : (s.addCost c).roundY = s.roundY := rfl
@[simp] theorem addCost_qparamCb (s : State) (c : Nat) : (s.addCost c).qparamCb = s.qparamCb := rfl
@[simp] theorem addCost_roundCb (s : State) (c : Nat) : (s.addCost c).roundCb = s.roundCb := rfl
@[simp] theorem addCost_qparamCr (s : State) (c : Nat) : (s.addCost c).qparamCr = s.qparamCr := rfl
@[simp] theorem addCost_roundCr (s : State) (c : Nat) : (s.addCost c).roundCr = s.roundCr := rfl
@[simp] theorem addCost_invTmpWrap16 (s : State) (c : Nat) : (s.addCost c).invTmpWrap16 = s.invTmpWrap16 := rfl
@[simp] theorem addCost_lm (s : State) (c : Nat) : (s.addCost c).lm = s.lm := rfl
@[simp] theorem addCost_arena (s : State) (c : Nat) : (s.addCost c).arena = s.arena := rfl
@[simp] theorem addCost_pending (s : State) (c : Nat) : (s.addCost c).pending = s.pending := rfl
@[simp] theorem addCost_resp (s : State) (c : Nat) : (s.addCost c).resp = s.resp := rfl
@[simp] theorem addCost_free (s : State) (c : Nat) : (s.addCost c).free = s.free := rfl

@[simp] theorem putRec_cmd (s : State) (p : Plane) (n : Nat) (vs : List Int) : (s.putRec p n vs).cmd = s.cmd := rfl
@[simp] theorem putRec_irqDoneEn (s : State) (p : Plane) (n : Nat) (vs : List Int) : (s.putRec p n vs).irqDoneEn = s.irqDoneEn := rfl
@[simp] theorem putRec_irqErrEn (s : State) (p : Plane) (n : Nat) (vs : List Int) : (s.putRec p n vs).irqErrEn = s.irqErrEn := rfl
@[simp] theorem putRec_busy (s : State) (p : Plane) (n : Nat) (vs : List Int) : (s.putRec p n vs).busy = s.busy := rfl
@[simp] theorem putRec_done (s : State) (p : Plane) (n : Nat) (vs : List Int) : (s.putRec p n vs).done = s.done := rfl
@[simp] theorem putRec_err (s : State) (p : Plane) (n : Nat) (vs : List Int) : (s.putRec p n vs).err = s.err := rfl
@[simp] theorem putRec_arenaCur (s : State) (p : Plane) (n : Nat) (vs : List Int) : (s.putRec p n vs).arenaCur = s.arenaCur := rfl
@[simp] theorem putRec_arenaEnd (s : State) (p : Plane) (n : Nat) (vs : List Int) : (s.putRec p n vs).arenaEnd = s.arenaEnd := rfl
@[simp] theorem putRec_mbStart (s : State) (p : Plane) (n : Nat) (vs : List Int) : (s.putRec p n vs).mbStart = s.mbStart := rfl
@[simp] theorem putRec_cntrlY (s : State) (p : Plane) (n : Nat) (vs : List Int) : (s.putRec p n vs).cntrlY = s.cntrlY := rfl
@[simp] theorem putRec_cntrlC (s : State) (p : Plane) (n : Nat) (vs : List Int) : (s.putRec p n vs).cntrlC = s.cntrlC := rfl
@[simp] theorem putRec_cbp (s : State) (p : Plane) (n : Nat) (vs : List Int) : (s.putRec p n vs).cbp = s.cbp := rfl
@[simp] theorem putRec_elim (s : State) (p : Plane) (n : Nat) (vs : List Int) : (s.putRec p n vs).elim = s.elim := rfl
@[simp] theorem putRec_costY (s : State) (p : Plane) (n : Nat) (vs : List Int) : (s.putRec p n vs).costY = s.costY := rfl
@[simp] theorem putRec_costC (s : State) (p : Plane) (n : Nat) (vs : List Int) : (s.putRec p n vs).costC = s.costC := rfl
@[simp] theorem putRec_costAcc (s : State) (p : Plane) (n : Nat) (vs : List Int) : (s.putRec p n vs).costAcc = s.costAcc := rfl
@[simp] theorem putRec_thr (s : State) (p : Plane) (n : Nat) (vs : List Int) : (s.putRec p n vs).thr = s.thr := rfl
@[simp] theorem putRec_costLut0 (s : State) (p : Plane) (n : Nat) (vs : List Int) : (s.putRec p n vs).costLut0 = s.costLut0 := rfl
@[simp] theorem putRec_costLut1 (s : State) (p : Plane) (n : Nat) (vs : List Int) : (s.putRec p n vs).costLut1 = s.costLut1 := rfl
@[simp] theorem putRec_costLut2 (s : State) (p : Plane) (n : Nat) (vs : List Int) : (s.putRec p n vs).costLut2 = s.costLut2 := rfl
@[simp] theorem putRec_costLut3 (s : State) (p : Plane) (n : Nat) (vs : List Int) : (s.putRec p n vs).costLut3 = s.costLut3 := rfl
@[simp] theorem putRec_qparamY (s : State) (p : Plane) (n : Nat) (vs : List Int) : (s.putRec p n vs).qparamY = s.qparamY := rfl
@[simp] theorem putRec_roundY (s : State) (p : Plane) (n : Nat) (vs : List Int) : (s.putRec p n vs).roundY = s.roundY := rfl
@[simp] theorem putRec_qparamCb (s : State) (p : Plane) (n : Nat) (vs : List Int) : (s.putRec p n vs).qparamCb = s.qparamCb := rfl
@[simp] theorem putRec_roundCb (s : State) (p : Plane) (n : Nat) (vs : List Int) : (s.putRec p n vs).roundCb = s.roundCb := rfl
@[simp] theorem putRec_qparamCr (s : State) (p : Plane) (n : Nat) (vs : List Int) : (s.putRec p n vs).qparamCr = s.qparamCr := rfl
@[simp] theorem putRec_roundCr (s : State) (p : Plane) (n : Nat) (vs : List Int) : (s.putRec p n vs).roundCr = s.roundCr := rfl
@[simp] theorem putRec_invTmpWrap16 (s : State) (p : Plane) (n : Nat) (vs : List Int) : (s.putRec p n vs).invTmpWrap16 = s.invTmpWrap16 := rfl
@[simp] theorem putRec_arena (s : State) (p : Plane) (n : Nat) (vs : List Int) : (s.putRec p n vs).arena = s.arena := rfl
@[simp] theorem putRec_pending (s : State) (p : Plane) (n : Nat) (vs : List Int) : (s.putRec p n vs).pending = s.pending := rfl
@[simp] theorem putRec_resp (s : State) (p : Plane) (n : Nat) (vs : List Int) : (s.putRec p n vs).resp = s.resp := rfl
@[simp] theorem putRec_free (s : State) (p : Plane) (n : Nat) (vs : List Int) : (s.putRec p n vs).free = s.free := rfl

@[simp] theorem putCntrl_cmd (s : State) (p : Plane) (w : Word) : (s.putCntrl p w).cmd = s.cmd := by cases p <;> rfl
@[simp] theorem putCntrl_irqDoneEn (s : State) (p : Plane) (w : Word) : (s.putCntrl p w).irqDoneEn = s.irqDoneEn := by cases p <;> rfl
@[simp] theorem putCntrl_irqErrEn (s : State) (p : Plane) (w : Word) : (s.putCntrl p w).irqErrEn = s.irqErrEn := by cases p <;> rfl
@[simp] theorem putCntrl_busy (s : State) (p : Plane) (w : Word) : (s.putCntrl p w).busy = s.busy := by cases p <;> rfl
@[simp] theorem putCntrl_done (s : State) (p : Plane) (w : Word) : (s.putCntrl p w).done = s.done := by cases p <;> rfl
@[simp] theorem putCntrl_err (s : State) (p : Plane) (w : Word) : (s.putCntrl p w).err = s.err := by cases p <;> rfl
@[simp] theorem putCntrl_arenaCur (s : State) (p : Plane) (w : Word) : (s.putCntrl p w).arenaCur = s.arenaCur := by cases p <;> rfl
@[simp] theorem putCntrl_arenaEnd (s : State) (p : Plane) (w : Word) : (s.putCntrl p w).arenaEnd = s.arenaEnd := by cases p <;> rfl
@[simp] theorem putCntrl_mbStart (s : State) (p : Plane) (w : Word) : (s.putCntrl p w).mbStart = s.mbStart := by cases p <;> rfl
@[simp] theorem putCntrl_cbp (s : State) (p : Plane) (w : Word) : (s.putCntrl p w).cbp = s.cbp := by cases p <;> rfl
@[simp] theorem putCntrl_elim (s : State) (p : Plane) (w : Word) : (s.putCntrl p w).elim = s.elim := by cases p <;> rfl
@[simp] theorem putCntrl_costY (s : State) (p : Plane) (w : Word) : (s.putCntrl p w).costY = s.costY := by cases p <;> rfl
@[simp] theorem putCntrl_costC (s : State) (p : Plane) (w : Word) : (s.putCntrl p w).costC = s.costC := by cases p <;> rfl
@[simp] theorem putCntrl_costAcc (s : State) (p : Plane) (w : Word) : (s.putCntrl p w).costAcc = s.costAcc := by cases p <;> rfl
@[simp] theorem putCntrl_thr (s : State) (p : Plane) (w : Word) : (s.putCntrl p w).thr = s.thr := by cases p <;> rfl
@[simp] theorem putCntrl_costLut0 (s : State) (p : Plane) (w : Word) : (s.putCntrl p w).costLut0 = s.costLut0 := by cases p <;> rfl
@[simp] theorem putCntrl_costLut1 (s : State) (p : Plane) (w : Word) : (s.putCntrl p w).costLut1 = s.costLut1 := by cases p <;> rfl
@[simp] theorem putCntrl_costLut2 (s : State) (p : Plane) (w : Word) : (s.putCntrl p w).costLut2 = s.costLut2 := by cases p <;> rfl
@[simp] theorem putCntrl_costLut3 (s : State) (p : Plane) (w : Word) : (s.putCntrl p w).costLut3 = s.costLut3 := by cases p <;> rfl
@[simp] theorem putCntrl_qparamY (s : State) (p : Plane) (w : Word) : (s.putCntrl p w).qparamY = s.qparamY := by cases p <;> rfl
@[simp] theorem putCntrl_roundY (s : State) (p : Plane) (w : Word) : (s.putCntrl p w).roundY = s.roundY := by cases p <;> rfl
@[simp] theorem putCntrl_qparamCb (s : State) (p : Plane) (w : Word) : (s.putCntrl p w).qparamCb = s.qparamCb := by cases p <;> rfl
@[simp] theorem putCntrl_roundCb (s : State) (p : Plane) (w : Word) : (s.putCntrl p w).roundCb = s.roundCb := by cases p <;> rfl
@[simp] theorem putCntrl_qparamCr (s : State) (p : Plane) (w : Word) : (s.putCntrl p w).qparamCr = s.qparamCr := by cases p <;> rfl
@[simp] theorem putCntrl_roundCr (s : State) (p : Plane) (w : Word) : (s.putCntrl p w).roundCr = s.roundCr := by cases p <;> rfl
@[simp] theorem putCntrl_invTmpWrap16 (s : State) (p : Plane) (w : Word) : (s.putCntrl p w).invTmpWrap16 = s.invTmpWrap16 := by cases p <;> rfl
@[simp] theorem putCntrl_lm (s : State) (p : Plane) (w : Word) : (s.putCntrl p w).lm = s.lm := by cases p <;> rfl
@[simp] theorem putCntrl_arena (s : State) (p : Plane) (w : Word) : (s.putCntrl p w).arena = s.arena := by cases p <;> rfl
@[simp] theorem putCntrl_pending (s : State) (p : Plane) (w : Word) : (s.putCntrl p w).pending = s.pending := by cases p <;> rfl
@[simp] theorem putCntrl_resp (s : State) (p : Plane) (w : Word) : (s.putCntrl p w).resp = s.resp := by cases p <;> rfl
@[simp] theorem putCntrl_free (s : State) (p : Plane) (w : Word) : (s.putCntrl p w).free = s.free := by cases p <;> rfl
@[simp] theorem putCntrl_y_cntrlY (s : State) (w : Word) : (s.putCntrl .y w).cntrlY = w := rfl
@[simp] theorem putCntrl_y_cntrlC (s : State) (w : Word) : (s.putCntrl .y w).cntrlC = s.cntrlC := rfl
@[simp] theorem putCntrl_cb_cntrlY (s : State) (w : Word) : (s.putCntrl .cb w).cntrlY = s.cntrlY := rfl
@[simp] theorem putCntrl_cb_cntrlC (s : State) (w : Word) : (s.putCntrl .cb w).cntrlC = w := rfl
@[simp] theorem putCntrl_cr_cntrlY (s : State) (w : Word) : (s.putCntrl .cr w).cntrlY = s.cntrlY := rfl
@[simp] theorem putCntrl_cr_cntrlC (s : State) (w : Word) : (s.putCntrl .cr w).cntrlC = w := rfl
@[simp] theorem cntrl_putCntrl (s : State) (p : Plane) (w : Word) : cntrl p (s.putCntrl p w) = w := by cases p <;> rfl

@[simp] theorem record_cmd (c : ErrorCode) (op : Byte) (s : State) : (record c op s).cmd = s.cmd := by simp only [record]; split <;> rfl
@[simp] theorem record_irqDoneEn (c : ErrorCode) (op : Byte) (s : State) : (record c op s).irqDoneEn = s.irqDoneEn := by simp only [record]; split <;> rfl
@[simp] theorem record_irqErrEn (c : ErrorCode) (op : Byte) (s : State) : (record c op s).irqErrEn = s.irqErrEn := by simp only [record]; split <;> rfl
@[simp] theorem record_busy (c : ErrorCode) (op : Byte) (s : State) : (record c op s).busy = s.busy := by simp only [record]; split <;> rfl
@[simp] theorem record_done (c : ErrorCode) (op : Byte) (s : State) : (record c op s).done = s.done := by simp only [record]; split <;> rfl
@[simp] theorem record_arenaCur (c : ErrorCode) (op : Byte) (s : State) : (record c op s).arenaCur = s.arenaCur := by simp only [record]; split <;> rfl
@[simp] theorem record_arenaEnd (c : ErrorCode) (op : Byte) (s : State) : (record c op s).arenaEnd = s.arenaEnd := by simp only [record]; split <;> rfl
@[simp] theorem record_mbStart (c : ErrorCode) (op : Byte) (s : State) : (record c op s).mbStart = s.mbStart := by simp only [record]; split <;> rfl
@[simp] theorem record_cntrlY (c : ErrorCode) (op : Byte) (s : State) : (record c op s).cntrlY = s.cntrlY := by simp only [record]; split <;> rfl
@[simp] theorem record_cntrlC (c : ErrorCode) (op : Byte) (s : State) : (record c op s).cntrlC = s.cntrlC := by simp only [record]; split <;> rfl
@[simp] theorem record_cbp (c : ErrorCode) (op : Byte) (s : State) : (record c op s).cbp = s.cbp := by simp only [record]; split <;> rfl
@[simp] theorem record_elim (c : ErrorCode) (op : Byte) (s : State) : (record c op s).elim = s.elim := by simp only [record]; split <;> rfl
@[simp] theorem record_costY (c : ErrorCode) (op : Byte) (s : State) : (record c op s).costY = s.costY := by simp only [record]; split <;> rfl
@[simp] theorem record_costC (c : ErrorCode) (op : Byte) (s : State) : (record c op s).costC = s.costC := by simp only [record]; split <;> rfl
@[simp] theorem record_costAcc (c : ErrorCode) (op : Byte) (s : State) : (record c op s).costAcc = s.costAcc := by simp only [record]; split <;> rfl
@[simp] theorem record_thr (c : ErrorCode) (op : Byte) (s : State) : (record c op s).thr = s.thr := by simp only [record]; split <;> rfl
@[simp] theorem record_costLut0 (c : ErrorCode) (op : Byte) (s : State) : (record c op s).costLut0 = s.costLut0 := by simp only [record]; split <;> rfl
@[simp] theorem record_costLut1 (c : ErrorCode) (op : Byte) (s : State) : (record c op s).costLut1 = s.costLut1 := by simp only [record]; split <;> rfl
@[simp] theorem record_costLut2 (c : ErrorCode) (op : Byte) (s : State) : (record c op s).costLut2 = s.costLut2 := by simp only [record]; split <;> rfl
@[simp] theorem record_costLut3 (c : ErrorCode) (op : Byte) (s : State) : (record c op s).costLut3 = s.costLut3 := by simp only [record]; split <;> rfl
@[simp] theorem record_qparamY (c : ErrorCode) (op : Byte) (s : State) : (record c op s).qparamY = s.qparamY := by simp only [record]; split <;> rfl
@[simp] theorem record_roundY (c : ErrorCode) (op : Byte) (s : State) : (record c op s).roundY = s.roundY := by simp only [record]; split <;> rfl
@[simp] theorem record_qparamCb (c : ErrorCode) (op : Byte) (s : State) : (record c op s).qparamCb = s.qparamCb := by simp only [record]; split <;> rfl
@[simp] theorem record_roundCb (c : ErrorCode) (op : Byte) (s : State) : (record c op s).roundCb = s.roundCb := by simp only [record]; split <;> rfl
@[simp] theorem record_qparamCr (c : ErrorCode) (op : Byte) (s : State) : (record c op s).qparamCr = s.qparamCr := by simp only [record]; split <;> rfl
@[simp] theorem record_roundCr (c : ErrorCode) (op : Byte) (s : State) : (record c op s).roundCr = s.roundCr := by simp only [record]; split <;> rfl
@[simp] theorem record_invTmpWrap16 (c : ErrorCode) (op : Byte) (s : State) : (record c op s).invTmpWrap16 = s.invTmpWrap16 := by simp only [record]; split <;> rfl
@[simp] theorem record_lm (c : ErrorCode) (op : Byte) (s : State) : (record c op s).lm = s.lm := by simp only [record]; split <;> rfl
@[simp] theorem record_arena (c : ErrorCode) (op : Byte) (s : State) : (record c op s).arena = s.arena := by simp only [record]; split <;> rfl
@[simp] theorem record_pending (c : ErrorCode) (op : Byte) (s : State) : (record c op s).pending = s.pending := by simp only [record]; split <;> rfl
@[simp] theorem record_resp (c : ErrorCode) (op : Byte) (s : State) : (record c op s).resp = s.resp := by simp only [record]; split <;> rfl
@[simp] theorem record_free (c : ErrorCode) (op : Byte) (s : State) : (record c op s).free = s.free := by simp only [record]; split <;> rfl
/-- The first error is kept (60_exceptions.md R284). -/
@[simp] theorem record_err (c : ErrorCode) (op : Byte) (s : State) : (record c op s).err = some (s.err.getD ⟨c, op⟩) := by simp only [record]; split <;> simp_all

end StateLaws

end Sys2Proof.Machine
end

