-- ==== Sys2Proof/Laws/Steps.lean ====
section
/-! SUPPORT. What the reads of the engine and the two ways of doing several steps can answer: one lemma per shared
operation, for later proofs to cite. -/

namespace Sys2Proof.Machine

namespace Laws

/-! ### `readAll` and `runAll` -/

/-- If every read answers, `readAll` answers with all the values in order. -/
theorem readAll_ok {f : α → Except Stop β} {g : α → β} {l : List α} (h : ∀ a ∈ l, f a = .ok (g a)) :
    readAll f l = .ok (l.map g) := by
  induction l with
  | nil => rfl
  | cons a l ih =>
    have ha := h a (by simp)
    have hl := ih fun b hb => h b (by simp [hb])
    simp [readAll, ha, hl]

/-- If every read answers something, so does `readAll`. -/
theorem readAll_defined {f : α → Except Stop β} {l : List α} (h : ∀ a ∈ l, ∃ b, f a = .ok b) :
    ∃ bs, readAll f l = .ok bs := by
  induction l with
  | nil => exact ⟨[], rfl⟩
  | cons a l ih =>
    obtain ⟨b, hb⟩ := h a (by simp)
    obtain ⟨bs, hbs⟩ := ih fun c hc => h c (by simp [hc])
    exact ⟨b :: bs, by simp [readAll, hb, hbs]⟩

/-- A stop of `readAll` is a stop of one of the reads. -/
theorem readAll_error {f : α → Except Stop β} {l : List α} {e : Stop} (h : readAll f l = .error e) :
    ∃ a ∈ l, f a = .error e := by
  induction l with
  | nil => simp [readAll] at h
  | cons a l ih =>
    simp only [readAll] at h
    split at h
    · rename_i e' he; cases h; exact ⟨a, by simp, he⟩
    · split at h
      · rename_i e' he; cases h
        obtain ⟨c, hc, hce⟩ := ih he
        exact ⟨c, by simp [hc], hce⟩
      · cases h

/-- `readAll` answers one value per element. -/
theorem readAll_length {f : α → Except Stop β} {l : List α} {bs : List β} (h : readAll f l = .ok bs) :
    bs.length = l.length := by
  induction l generalizing bs with
  | nil => simp [readAll] at h; subst h; rfl
  | cons a l ih =>
    simp only [readAll] at h
    split at h
    · cases h
    · split at h
      · cases h
      · rename_i hbs; cases h; simp [ih hbs]

/-- The `i`-th value `readAll` answers is that of the `i`-th read. -/
theorem readAll_get {f : α → Except Stop β} {l : List α} {bs : List β} (h : readAll f l = .ok bs) (i : Nat)
    (hi : i < l.length) : f l[i] = .ok (bs[i]'(by rw [readAll_length h]; exact hi)) := by
  induction l generalizing bs i with
  | nil => simp at hi
  | cons a l ih =>
    simp only [readAll] at h
    split at h
    · cases h
    · rename_i b hb
      split at h
      · cases h
      · rename_i bs' hbs; cases h
        cases i with
        | zero => exact hb
        | succ i => exact ih hbs i (by simpa using hi)

/-- Steps in order: the last of the list run after the rest. -/
theorem runAll_append (f : α → State → Except Stop State) (l k : List α) (s : State) :
    runAll f (l ++ k) s = (match runAll f l s with | .error e => .error e | .ok t => runAll f k t) := by
  induction l generalizing s with
  | nil => rfl
  | cons a l ih =>
    simp only [List.cons_append, runAll]
    split
    · rfl
    · exact ih _

/-! ### Reads of local memory -/

/-- A result whose only stop is a read of a byte that has no value in `s` (20_memory.md R89). -/
def OnlyUninit (s : State) (r : Except Stop α) : Prop :=
  ∀ e, r = .error e → ∃ a, e = .uninit a ∧ s.lm.read a = none

theorem lmByte_onlyUninit (a : Nat) (s : State) : OnlyUninit s (lmByte a s) := by
  intro e h
  simp only [lmByte] at h
  split at h
  · cases h
  · rename_i hn; cases h; exact ⟨a, rfl, hn⟩

theorem lmByte_defined {a : Nat} {s : State} (h : (s.lm.read a).isSome = true) :
    ∃ b, lmByte a s = .ok b ∧ s.lm.read a = some b := by
  obtain ⟨b, hb⟩ := Option.isSome_iff_exists.mp h
  exact ⟨b, by simp [lmByte, hb], hb⟩

theorem lmHalf_onlyUninit (a : Nat) (s : State) : OnlyUninit s (lmHalf a s) := by
  intro e h
  simp only [lmHalf] at h
  split at h
  · rename_i he; cases h; exact lmByte_onlyUninit _ _ _ he
  · split at h
    · rename_i he; cases h; exact lmByte_onlyUninit _ _ _ he
    · cases h

theorem lmHalf_defined {a : Nat} {s : State} (h0 : (s.lm.read a).isSome = true)
    (h1 : (s.lm.read (a + 1)).isSome = true) : ∃ v, lmHalf a s = .ok v := by
  obtain ⟨lo, hlo, -⟩ := lmByte_defined h0
  obtain ⟨hi, hhi, -⟩ := lmByte_defined h1
  exact ⟨hi ++ lo, by simp [lmHalf, hlo, hhi]⟩

theorem lmSigned_onlyUninit (a : Nat) (s : State) : OnlyUninit s (lmSigned a s) := by
  intro e h
  simp only [lmSigned] at h
  split at h
  · rename_i he; cases h; exact lmHalf_onlyUninit _ _ _ he
  · cases h

theorem lmSigned_defined {a : Nat} {s : State} (h0 : (s.lm.read a).isSome = true)
    (h1 : (s.lm.read (a + 1)).isSome = true) : ∃ v, lmSigned a s = .ok v := by
  obtain ⟨v, hv⟩ := lmHalf_defined h0 h1
  exact ⟨v.toInt, by simp [lmSigned, hv]⟩

theorem lmUnsigned_onlyUninit (a : Nat) (s : State) : OnlyUninit s (lmUnsigned a s) := by
  intro e h
  simp only [lmUnsigned] at h
  split at h
  · rename_i he; cases h; exact lmHalf_onlyUninit _ _ _ he
  · cases h

theorem lmUnsigned_defined {a : Nat} {s : State} (h0 : (s.lm.read a).isSome = true)
    (h1 : (s.lm.read (a + 1)).isSome = true) : ∃ v, lmUnsigned a s = .ok v := by
  obtain ⟨v, hv⟩ := lmHalf_defined h0 h1
  exact ⟨v.toNat, by simp [lmUnsigned, hv]⟩

theorem lmSample_onlyUninit (a : Nat) (s : State) : OnlyUninit s (lmSample a s) := by
  intro e h
  simp only [lmSample] at h
  split at h
  · rename_i he; cases h; exact lmByte_onlyUninit _ _ _ he
  · cases h

theorem lmSample_defined {a : Nat} {s : State} (h : (s.lm.read a).isSome = true) : ∃ v, lmSample a s = .ok v := by
  obtain ⟨b, hb, -⟩ := lmByte_defined h
  exact ⟨b.toNat, by simp [lmSample, hb]⟩

/-- A sample read depends on its byte alone. -/
theorem lmSample_congr {a : Nat} {s t : State} (h : t.lm.read a = s.lm.read a) : lmSample a t = lmSample a s := by
  simp [lmSample, lmByte, h]

/-- A 16-bit read depends on its two bytes alone. -/
theorem lmHalf_congr {a : Nat} {s t : State} (h0 : t.lm.read a = s.lm.read a)
    (h1 : t.lm.read (a + 1) = s.lm.read (a + 1)) : lmHalf a t = lmHalf a s := by
  simp [lmHalf, lmByte, h0, h1]

theorem lmSigned_congr {a : Nat} {s t : State} (h0 : t.lm.read a = s.lm.read a)
    (h1 : t.lm.read (a + 1) = s.lm.read (a + 1)) : lmSigned a t = lmSigned a s := by
  simp [lmSigned, lmHalf_congr h0 h1]

theorem lmUnsigned_congr {a : Nat} {s t : State} (h0 : t.lm.read a = s.lm.read a)
    (h1 : t.lm.read (a + 1) = s.lm.read (a + 1)) : lmUnsigned a t = lmUnsigned a s := by
  simp [lmUnsigned, lmHalf_congr h0 h1]

theorem readAll_onlyUninit {f : α → Except Stop β} {l : List α} {s : State} (h : ∀ a, OnlyUninit s (f a)) :
    OnlyUninit s (readAll f l) := by
  intro e he
  obtain ⟨a, -, ha⟩ := readAll_error he
  exact h a e ha

/-! ### Narrowing to 16 bits: what a store and a read of it give -/

/-- Bytes taken apart and put together again. -/
theorem half_split (v : Half) : (v.extractLsb' 8 8 ++ v.extractLsb' 0 8 : BitVec (8 + 8)) = v := by
  apply BitVec.eq_of_getLsbD_eq
  intro i hi
  simp only [BitVec.getLsbD_append, BitVec.getLsbD_extractLsb']
  by_cases h : i < 8
  · simp [h]
  · have : 8 + (i - 8) = i := by omega
    simp [h, this]; omega

/-- `trunc16` is the value of the low 16 bits (00_scope.md R10). -/
theorem toInt_ofInt16 (v : Int) : (BitVec.ofInt 16 v).toInt = trunc16 v := by
  simp only [BitVec.toInt_ofInt, trunc16, Int.bmod]
  split <;> omega

/-- `trunc16` leaves a 16-bit value alone. -/
theorem trunc16_of_range {v : Int} (h0 : -32768 ≤ v) (h1 : v ≤ 32767) : trunc16 v = v := by
  simp only [trunc16]; omega

theorem trunc16_range (v : Int) : -32768 ≤ trunc16 v ∧ trunc16 v ≤ 32767 := by
  simp only [trunc16]; omega

theorem trunc16_idem (v : Int) : trunc16 (trunc16 v) = trunc16 v :=
  trunc16_of_range (trunc16_range v).1 (trunc16_range v).2

/-- Stored 16-bit values read back signed: the `i`-th of a run of stores. -/
theorem lmSigned_putSigned (s : State) (x i : Nat) (vs : List Int) (h : i < vs.length) :
    lmSigned (x + 2 * i) (s.putSigned x vs) = .ok (trunc16 vs[i]) := by
  have hl : i < (vs.map (BitVec.ofInt 16)).length := by simpa using h
  have h0 := MemoryLaws.read_writeHalves_lo s.lm x i _ hl
  have h1 := MemoryLaws.read_writeHalves_hi s.lm x i _ hl
  simp only [lmSigned, lmHalf, lmByte, StateLaws.putSigned_lm, h0, h1, half_split, List.getElem_map, toInt_ofInt16]

/-- `clip8` stays in 0 to 255. -/
theorem clip8_range (v : Int) : 0 ≤ clip8 v ∧ clip8 v ≤ 255 := by
  simp only [clip8]; split <;> [omega; (split <;> omega)]

end Laws

end Sys2Proof.Machine
end

