-- ==== Sys2Proof/Laws/Work.lean ====
section
/-! SUPPORT. Said once for every step of every command: what it may change (`Work`), and how it may end (`Works`).
The invariant, the frames and the arena discipline of later proofs follow from these lemmas. -/

namespace Sys2Proof.Machine

namespace Laws

/-- What some steps are allowed to change. -/
structure Scope where
  /-- An arena address the cursor does not fall below. -/
  base : Nat
  /-- The local-memory addresses that may be written. -/
  lm : Nat → Prop
  /-- For each register, the bits that stay. -/
  keep : Csr → Word

/-- The fields a command's steps never change, the others blanked out. -/
def unchangedPart (s : State) : State :=
  { s with
    arenaCur := 0
    mbStart := 0
    cntrlY := 0
    cntrlC := 0
    cbp := 0
    elim := 0
    costY := 0
    costC := 0
    costAcc := 0
    lm := []
    arena := [] }

/-- What the steps of a command may do from `s` to `t`, inside a scope. -/
structure Work (sc : Scope) (s t : State) : Prop where
  /-- CMD, CTRL, STATUS, ARENA_END, THR, the tables in CSRs, CFG and the model's own fields stay. -/
  kept : unchangedPart t = unchangedPart s
  /-- Local memory outside the scope stays. -/
  frame : ∀ a, ¬ sc.lm a → t.lm.read a = s.lm.read a
  /-- The kept bits of every register stay. -/
  regs : ∀ c, csrValue c t &&& sc.keep c = csrValue c s &&& sc.keep c
  /-- With the cursor kept, the arena stays. -/
  still : sc.keep .arenaCur ≠ 0 → t.arena = s.arena
  /-- No local-memory byte loses its value. -/
  grows : ∀ a, (s.lm.read a).isSome = true → (t.lm.read a).isSome = true
  lmWf : s.lm.wf = true → t.lm.wf = true
  lmData : (∀ c ∈ s.lm, dataAddr c.1 = true) → ∀ c ∈ t.lm, dataAddr c.1 = true
  arenaWf : s.arena.wf = true → t.arena.wf = true
  arena32 : (∀ c ∈ s.arena, c.1 < 2 ^ 32) → ∀ c ∈ t.arena, c.1 < 2 ^ 32
  /-- The cursor does not fall below `base`, and no byte below `base` or from ARENA_END on is written
  (20_memory.md R90). -/
  arena : sc.base ≤ s.arenaCur.toNat → sc.base ≤ t.arenaCur.toNat ∧
    ∀ a, a < sc.base ∨ s.arenaEnd.toNat ≤ a → t.arena.read a = s.arena.read a
  /-- The cursor does not pass ARENA_END (20_memory.md R90). -/
  curEnd : s.arenaCur.toNat ≤ s.arenaEnd.toNat → t.arenaCur.toNat ≤ s.arenaEnd.toNat
  even : s.arenaCur.getLsbD 0 = false → t.arenaCur.getLsbD 0 = false
  startEven : s.arenaCur.getLsbD 0 = false → s.mbStart.getLsbD 0 = false → t.mbStart.getLsbD 0 = false
  cntrlC : s.cntrlC &&& 0x00FF00FF = 0 → t.cntrlC &&& 0x00FF00FF = 0
  cbp : s.cbp &&& 0xFFFFFF00 = 0 → t.cbp &&& 0xFFFFFF00 = 0
  elim : s.elim &&& 0xFFFFFF80 = 0 → t.elim &&& 0xFFFFFF80 = 0
  costY : s.costY &&& 0xFFFF0000 = 0 → t.costY &&& 0xFFFF0000 = 0

namespace Work

theorem refl (sc : Scope) (s : State) : Work sc s s where
  kept := rfl
  frame _ _ := rfl
  regs _ := rfl
  still _ := rfl
  grows _ h := h
  lmWf := id
  lmData := id
  arenaWf := id
  arena32 := id
  arena h := ⟨h, fun _ _ => rfl⟩
  curEnd := id
  even := id
  startEven _ h := h
  cntrlC := id
  cbp := id
  elim := id
  costY := id

theorem arenaEnd {sc : Scope} {s t : State} (h : Work sc s t) : t.arenaEnd = s.arenaEnd := by
  simpa [unchangedPart] using congrArg State.arenaEnd h.kept
theorem cmd {sc : Scope} {s t : State} (h : Work sc s t) : t.cmd = s.cmd := by
  simpa [unchangedPart] using congrArg State.cmd h.kept
theorem err {sc : Scope} {s t : State} (h : Work sc s t) : t.err = s.err := by
  simpa [unchangedPart] using congrArg State.err h.kept
theorem busy {sc : Scope} {s t : State} (h : Work sc s t) : t.busy = s.busy := by
  simpa [unchangedPart] using congrArg State.busy h.kept
theorem thr {sc : Scope} {s t : State} (h : Work sc s t) : t.thr = s.thr := by
  simpa [unchangedPart] using congrArg State.thr h.kept

theorem trans {sc : Scope} {s t u : State} (h : Work sc s t) (k : Work sc t u) : Work sc s u where
  kept := k.kept.trans h.kept
  frame a ha := (k.frame a ha).trans (h.frame a ha)
  regs c := (k.regs c).trans (h.regs c)
  still hk := (k.still hk).trans (h.still hk)
  grows a ha := k.grows a (h.grows a ha)
  lmWf x := k.lmWf (h.lmWf x)
  lmData x := k.lmData (h.lmData x)
  arenaWf x := k.arenaWf (h.arenaWf x)
  arena32 x := k.arena32 (h.arena32 x)
  arena hb := by
    obtain ⟨h1, h2⟩ := h.arena hb
    obtain ⟨k1, k2⟩ := k.arena h1
    rw [h.arenaEnd] at k2
    exact ⟨k1, fun a ha => (k2 a ha).trans (h2 a ha)⟩
  curEnd x := by
    have := k.curEnd (by rw [h.arenaEnd]; exact h.curEnd x)
    rwa [h.arenaEnd] at this
  even x := k.even (h.even x)
  startEven x y := k.startEven (h.even x) (h.startEven x y)
  cntrlC x := k.cntrlC (h.cntrlC x)
  cbp x := k.cbp (h.cbp x)
  elim x := k.elim (h.elim x)
  costY x := k.costY (h.costY x)

end Work

/-! ### How the steps of a command may end -/

/-- The steps from `s` end in a state `Work` allows, in ARENA_OVF with such a state, or at a byte that has no value
in `s` (60_exceptions.md R285, R286, 20_memory.md R89). -/
structure Works (sc : Scope) (s : State) (r : Except Stop State) : Prop where
  ok : ∀ {t}, r = .ok t → Work sc s t
  raised : ∀ {c t}, r = .error (.raised c t) → (c = .arenaOvf ∧ sc.keep .arenaCur = 0) ∧ Work sc s t
  uninit : ∀ {a}, r = .error (.uninit a) → s.lm.read a = none

/-- The same of steps that answer a value beside the state. -/
structure WorksP (sc : Scope) (s : State) (r : Except Stop (α × State)) : Prop where
  ok : ∀ {a t}, r = .ok (a, t) → Work sc s t
  raised : ∀ {c t}, r = .error (.raised c t) → (c = .arenaOvf ∧ sc.keep .arenaCur = 0) ∧ Work sc s t
  uninit : ∀ {a}, r = .error (.uninit a) → s.lm.read a = none

theorem Works.done {sc : Scope} {s t : State} (h : Work sc s t) : Works sc s (.ok t) where
  ok e := by cases e; exact h
  raised e := by cases e
  uninit e := by cases e

theorem WorksP.done {sc : Scope} {s t : State} {a : α} (h : Work sc s t) : WorksP sc s (.ok (a, t)) where
  ok e := by cases e; exact h
  raised e := by cases e
  uninit e := by cases e

/-- A stop of the whole is the stop of a part. -/
theorem Works.error {sc : Scope} {s : State} {r : Except Stop State} {e : Stop} (h : Works sc s r)
    (he : r = .error e) : Works sc s (.error e) := he ▸ h

theorem Works.errorP {sc : Scope} {s : State} {r : Except Stop State} {e : Stop} (h : Works sc s r)
    (he : r = .error e) : WorksP sc s (.error e : Except Stop (α × State)) where
  ok k := by cases k
  raised k := by cases k; exact h.raised he
  uninit k := by cases k; exact h.uninit he

theorem WorksP.error {sc : Scope} {s : State} {r : Except Stop (α × State)} {e : Stop} (h : WorksP sc s r)
    (he : r = .error e) : Works sc s (.error e) where
  ok k := by cases k
  raised k := by cases k; exact h.raised he
  uninit k := by cases k; exact h.uninit he

theorem WorksP.errorP {sc : Scope} {s : State} {r : Except Stop (α × State)} {e : Stop} (h : WorksP sc s r)
    (he : r = .error e) : WorksP sc s (.error e : Except Stop (β × State)) where
  ok k := by cases k
  raised k := by cases k; exact h.raised he
  uninit k := by cases k; exact h.uninit he

/-- A byte without a value after some work had none before. -/
theorem Work.uninit_back {sc : Scope} {s t : State} (h : Work sc s t) {a : Nat} (ha : t.lm.read a = none) :
    s.lm.read a = none := by
  cases hs : s.lm.read a with
  | none => rfl
  | some b => have := h.grows a (by simp [hs]); simp [ha] at this

theorem Works.trans {sc : Scope} {s t : State} {r : Except Stop State} (h : Work sc s t) (k : Works sc t r) :
    Works sc s r where
  ok e := h.trans (k.ok e)
  raised e := ⟨(k.raised e).1, h.trans (k.raised e).2⟩
  uninit e := h.uninit_back (k.uninit e)

theorem WorksP.trans {sc : Scope} {s t : State} {r : Except Stop (α × State)} (h : Work sc s t)
    (k : WorksP sc t r) : WorksP sc s r where
  ok e := h.trans (k.ok e)
  raised e := ⟨(k.raised e).1, h.trans (k.raised e).2⟩
  uninit e := h.uninit_back (k.uninit e)

/-- A read that stops, stops as `Works` says. -/
theorem OnlyUninit.works {sc : Scope} {s : State} {r : Except Stop α} (h : OnlyUninit s r) {e : Stop}
    (he : r = .error e) : Works sc s (.error e) := by
  obtain ⟨a, rfl, ha⟩ := h e he
  exact { ok := fun k => (nomatch k), raised := fun k => (nomatch k), uninit := fun k => by cases k; exact ha }

/-- Steps in order. -/
theorem works_runAll {sc : Scope} {f : α → State → Except Stop State} {l : List α} {s : State}
    (h : ∀ a ∈ l, ∀ s, Works sc s (f a s)) : Works sc s (runAll f l s) := by
  induction l generalizing s with
  | nil => exact .done (Work.refl _ _)
  | cons a l ih =>
    have ha := h a (by simp) s
    simp only [runAll]
    split
    · rename_i e he; exact ha.error he
    · rename_i t ht
      exact Works.trans (ha.ok ht) (ih fun b hb => h b (by simp [hb]))

/-! ### Updates of one kind -/

theorem csrValue_lm (s : State) (m : Memory) (c : Csr) : csrValue c { s with lm := m } = csrValue c s := by
  cases c <;> rfl

/-- A change of local memory alone. -/
theorem work_lm (sc : Scope) (s : State) (m : Memory) (hf : ∀ a, ¬ sc.lm a → m.read a = s.lm.read a)
    (hg : ∀ a, (s.lm.read a).isSome = true → (m.read a).isSome = true) (hw : s.lm.wf = true → m.wf = true)
    (hd : (∀ c ∈ s.lm, dataAddr c.1 = true) → ∀ c ∈ m, dataAddr c.1 = true) : Work sc s { s with lm := m } where
  kept := rfl
  frame := hf
  regs c := by rw [csrValue_lm]
  still _ := rfl
  grows := hg
  lmWf := hw
  lmData := hd
  arenaWf := id
  arena32 := id
  arena h := ⟨h, fun _ _ => rfl⟩
  curEnd := id
  even := id
  startEven _ h := h
  cntrlC := id
  cbp := id
  elim := id
  costY := id

/-- A run of byte stores at data addresses. -/
theorem work_putBytes (sc : Scope) (s : State) (a : Nat) (bs : List Byte)
    (hd : ∀ x, a ≤ x → x < a + bs.length → dataAddr x = true)
    (hW : ∀ x, a ≤ x → x < a + bs.length → sc.lm x) : Work sc s (s.putBytes a bs) := by
  refine work_lm sc s _ (fun x hx => ?_) (fun x hx => MemoryLaws.writeBytes_grows _ _ _ _ hx)
    (MemoryLaws.writeBytes_wf _ _ _) (fun h c hc => ?_)
  · refine MemoryLaws.read_writeBytes_out _ _ _ _ ?_
    by_cases h : a ≤ x ∧ x < a + bs.length
    · exact absurd (hW x h.1 h.2) hx
    · omega
  · rcases MemoryLaws.writeBytes_addrs _ _ _ _ hc with hc | hc
    · exact hd _ hc.1 hc.2
    · exact h c hc

/-- A run of 16-bit stores at data addresses. -/
theorem work_putSigned (sc : Scope) (s : State) (a : Nat) (vs : List Int)
    (hd : ∀ x, a ≤ x → x < a + 2 * vs.length → dataAddr x = true)
    (hW : ∀ x, a ≤ x → x < a + 2 * vs.length → sc.lm x) : Work sc s (s.putSigned a vs) := by
  have hl : (vs.map (BitVec.ofInt 16)).length = vs.length := List.length_map _
  refine work_lm sc s _ (fun x hx => ?_) (fun x hx => MemoryLaws.writeHalves_grows _ _ _ _ hx)
    (MemoryLaws.writeHalves_wf _ _ _) (fun h c hc => ?_)
  · refine MemoryLaws.read_writeHalves_out _ _ _ _ ?_
    rw [hl]
    by_cases h : a ≤ x ∧ x < a + 2 * vs.length
    · exact absurd (hW x h.1 h.2) hx
    · omega
  · rcases MemoryLaws.writeHalves_addrs _ _ _ _ hc with hc | hc
    · exact hd _ hc.1 (by rw [hl] at hc; exact hc.2)
    · exact h c hc

/-- One byte store. -/
theorem work_putByte (sc : Scope) (s : State) (a : Nat) (b : Byte) (hd : dataAddr a = true) (hW : sc.lm a) :
    Work sc s (s.putByte a b) := by
  have one : ∀ x, a ≤ x → x < a + [b].length → x = a := fun x h1 h2 => by simp at h2; omega
  exact work_putBytes sc s a [b] (fun x h1 h2 => one x h1 h2 ▸ hd) (fun x h1 h2 => one x h1 h2 ▸ hW)

theorem mem_addrs {a n x : Nat} : x ∈ addrs a n ↔ a ≤ x ∧ x < a + n := by
  simp only [addrs, List.mem_map, List.mem_range]
  constructor
  · rintro ⟨k, hk, rfl⟩; omega
  · intro h; exact ⟨x - a, by omega, by omega⟩

/-! ### Addresses the commands write are data addresses of REC or above (20_memory.md R84) -/

theorem dataAddr_of_mem {r : Region} (hr : r ∈ lmMap) (hk : r.kind = .data) {x : Nat} (h0 : r.first ≤ x)
    (h1 : x ≤ r.last) : dataAddr x = true := by
  simp only [dataAddr, List.any_eq_true]
  exact ⟨r, hr, by simp [hk, h0, h1]⟩

theorem coef_data {p : Plane} {n x : Nat} (hn : n < p.nb) (h0 : coefAddr p n 0 ≤ x) (h1 : x < coefAddr p n 0 + 32) :
    dataAddr x = true := by
  cases p <;> simp only [coefAddr, Plane.nb] at *
  · exact dataAddr_of_mem (r := ⟨0x1000, 0x11FF, .data⟩) (by decide) rfl (by simp; omega) (by simp; omega)
  · split at h0 <;> simp only [*, if_true, if_false] at h1
    · exact dataAddr_of_mem (r := ⟨0x1200, 0x123F, .data⟩) (by decide) rfl (by simp; omega) (by simp; omega)
    · exact dataAddr_of_mem (r := ⟨0x12C0, 0x12FF, .data⟩) (by decide) rfl (by simp; omega) (by simp; omega)
  · by_cases h : n < 2
    · exact dataAddr_of_mem (r := ⟨0x1240, 0x127F, .data⟩) (by decide) rfl (by simp; omega) (by simp; omega)
    · exact dataAddr_of_mem (r := ⟨0x1280, 0x12BF, .data⟩) (by decide) rfl (by simp; omega) (by simp; omega)

theorem dccoef_data {p : Plane} {k x : Nat} (hk : k < p.nb) (h0 : dccoefAddr p k ≤ x) (h1 : x < dccoefAddr p k + 2) :
    dataAddr x = true := by
  cases p <;> simp only [dccoefAddr, dcOffset, Plane.nb] at *
  · exact dataAddr_of_mem (r := ⟨0x1300, 0x131F, .data⟩) (by decide) rfl (by simp; omega) (by simp; omega)
  · exact dataAddr_of_mem (r := ⟨0x1320, 0x1327, .data⟩) (by decide) rfl (by simp; omega) (by simp; omega)
  · exact dataAddr_of_mem (r := ⟨0x1328, 0x132F, .data⟩) (by decide) rfl (by simp; omega) (by simp; omega)

theorem dcsave_data {p : Plane} {k x : Nat} (hk : k < p.nb) (h0 : dcsaveAddr p k ≤ x) (h1 : x < dcsaveAddr p k + 2) :
    dataAddr x = true := by
  cases p <;> simp only [dcsaveAddr, dcOffset, Plane.nb] at *
  · exact dataAddr_of_mem (r := ⟨0x1340, 0x135F, .data⟩) (by decide) rfl (by simp; omega) (by simp; omega)
  · exact dataAddr_of_mem (r := ⟨0x1360, 0x1367, .data⟩) (by decide) rfl (by simp; omega) (by simp; omega)
  · exact dataAddr_of_mem (r := ⟨0x1368, 0x136F, .data⟩) (by decide) rfl (by simp; omega) (by simp; omega)

theorem dcrec_data {p : Plane} {k x : Nat} (hk : k < p.nb) (h0 : dcrecAddr p k ≤ x) (h1 : x < dcrecAddr p k + 2) :
    dataAddr x = true := by
  cases p <;> simp only [dcrecAddr, dcOffset, Plane.nb] at *
  · exact dataAddr_of_mem (r := ⟨0x1380, 0x139F, .data⟩) (by decide) rfl (by simp; omega) (by simp; omega)
  · exact dataAddr_of_mem (r := ⟨0x13A0, 0x13A7, .data⟩) (by decide) rfl (by simp; omega) (by simp; omega)
  · exact dataAddr_of_mem (r := ⟨0x13A8, 0x13AF, .data⟩) (by decide) rfl (by simp; omega) (by simp; omega)

theorem nnz_data {p : Plane} {n : Nat} (hn : n < p.nb) : dataAddr (nnzAddr p n) = true := by
  cases p <;> simp only [nnzAddr, Plane.nb] at *
  · exact dataAddr_of_mem (r := ⟨0x1400, 0x140F, .data⟩) (by decide) rfl (by simp) (by simp; omega)
  · exact dataAddr_of_mem (r := ⟨0x1410, 0x1413, .data⟩) (by decide) rfl (by simp) (by simp; omega)
  · exact dataAddr_of_mem (r := ⟨0x1414, 0x1417, .data⟩) (by decide) rfl (by simp) (by simp; omega)

theorem nnzdc_data (p : Plane) : dataAddr (nnzdcAddr p) = true := by cases p <;> decide

/-- The four samples of a row of a sub-block of REC. -/
theorem rec_data {p : Plane} {n r x : Nat} (hn : n < p.nb) (hr : r < 4) (h0 : sampleAddr recBase p n r 0 ≤ x)
    (h1 : x < sampleAddr recBase p n r 0 + 4) : dataAddr x = true := by
  cases p <;> simp only [sampleAddr, recBase, planeOffset, planeWidth, row0, col0, Plane.nb] at *
  · exact dataAddr_of_mem (r := ⟨0x0800, 0x08FF, .data⟩) (by decide) rfl (by simp; omega) (by simp; omega)
  · exact dataAddr_of_mem (r := ⟨0x0900, 0x093F, .data⟩) (by decide) rfl (by simp; omega) (by simp; omega)
  · exact dataAddr_of_mem (r := ⟨0x0940, 0x097F, .data⟩) (by decide) rfl (by simp; omega) (by simp; omega)

/-! ### The named stores -/

theorem work_putNnz (sc : Scope) (s : State) {p : Plane} {n : Nat} (v : Nat) (hn : n < p.nb)
    (hW : sc.lm (nnzAddr p n)) : Work sc s (s.putNnz p n v) := work_putByte sc s _ _ (nnz_data hn) hW

theorem work_putNnzdc (sc : Scope) (s : State) (p : Plane) (v : Nat) (hW : sc.lm (nnzdcAddr p)) :
    Work sc s (s.putNnzdc p v) := work_putByte sc s _ _ (nnzdc_data p) hW

theorem work_putCoef (sc : Scope) (s : State) {p : Plane} {n : Nat} (vs : List Int) (hn : n < p.nb)
    (hl : vs.length = 16) (hW : ∀ a ∈ addrs (coefAddr p n 0) 32, sc.lm a) :
    Work sc s (s.putSigned (coefAddr p n 0) vs) :=
  work_putSigned sc s _ _ (fun _ h0 h1 => coef_data hn h0 (by omega))
    (fun x h0 h1 => hW x (mem_addrs.mpr ⟨h0, by omega⟩))

theorem work_putDccoef (sc : Scope) (s : State) {p : Plane} (vs : List Int) (hl : vs.length = p.nb)
    (hW : ∀ a ∈ addrs (dccoefAddr p 0) (2 * p.nb), sc.lm a) : Work sc s (s.putSigned (dccoefAddr p 0) vs) :=
  work_putSigned sc s _ _ (fun x h0 h1 => dccoef_data (p := p) (k := (x - dccoefAddr p 0) / 2)
    (by omega) (by simp only [dccoefAddr] at *; omega) (by simp only [dccoefAddr] at *; omega))
    (fun x h0 h1 => hW x (mem_addrs.mpr ⟨h0, by omega⟩))

theorem work_putDcrec (sc : Scope) (s : State) {p : Plane} (vs : List Int) (hl : vs.length = p.nb)
    (hW : ∀ a ∈ dcrecAddrs p, sc.lm a) : Work sc s (s.putSigned (dcrecAddr p 0) vs) :=
  work_putSigned sc s _ _ (fun x h0 h1 => dcrec_data (p := p) (k := (x - dcrecAddr p 0) / 2)
    (by omega) (by simp only [dcrecAddr] at *; omega) (by simp only [dcrecAddr] at *; omega))
    (fun x h0 h1 => hW x (mem_addrs.mpr ⟨h0, by omega⟩))

theorem work_putDcsave (sc : Scope) (s : State) {p : Plane} {n : Nat} (v : Int) (hn : n < p.nb)
    (hW : ∀ a ∈ addrs (dcsaveAddr p n) 2, sc.lm a) : Work sc s (s.putSigned (dcsaveAddr p n) [v]) :=
  work_putSigned sc s _ _ (fun _ h0 h1 => dcsave_data hn h0 (by simp at h1; omega))
    (fun x h0 h1 => hW x (mem_addrs.mpr ⟨h0, by simp at h1; omega⟩))

/-- A row of REC as a store of its own. -/
theorem recRow_eq (s : State) (p : Plane) (n r : Nat) (vs : List Int) :
    s.putBytes (sampleAddr recBase p n r 0) (((vs.drop (4 * r)).take 4).map (BitVec.ofInt 8))
      = { s with lm := recRow p n r vs s.lm } := rfl

/-- The samples of a row of a sub-block. -/
theorem mem_recAddrs {p : Plane} {n r x : Nat} (hr : r < 4) (h0 : sampleAddr recBase p n r 0 ≤ x)
    (h1 : x < sampleAddr recBase p n r 0 + 4) : x ∈ recAddrs p n := by
  have hk : 4 * r + (x - sampleAddr recBase p n r 0) ∈ raster := by
    have : ∀ k, k < 16 → k ∈ raster := by decide
    exact this _ (by omega)
  refine List.mem_map.mpr ⟨_, hk, ?_⟩
  have hq : (4 * r + (x - sampleAddr recBase p n r 0)) / 4 = r := by omega
  have hm : (4 * r + (x - sampleAddr recBase p n r 0)) % 4 = x - sampleAddr recBase p n r 0 := by omega
  simp only [hq, hm]
  simp only [sampleAddr] at *
  omega

theorem work_recRow (sc : Scope) (s : State) {p : Plane} {n r : Nat} (vs : List Int) (hn : n < p.nb) (hr : r < 4)
    (hW : ∀ a ∈ recAddrs p n, sc.lm a) : Work sc s { s with lm := recRow p n r vs s.lm } := by
  rw [← recRow_eq]
  have short : ((vs.drop (4 * r)).take 4).length ≤ 4 := by simp
  refine work_putBytes sc s _ _ (fun x h0 h1 => rec_data hn hr h0 ?_) (fun x h0 h1 => hW x (mem_recAddrs hr h0 ?_))
  · rw [List.length_map] at h1; omega
  · rw [List.length_map] at h1; omega

theorem work_putRec (sc : Scope) (s : State) {p : Plane} {n : Nat} (vs : List Int) (hn : n < p.nb)
    (hW : ∀ a ∈ recAddrs p n, sc.lm a) : Work sc s (s.putRec p n vs) := by
  have h0 := work_recRow sc s vs hn (r := 0) (by omega) hW
  have h1 := work_recRow sc { s with lm := recRow p n 0 vs s.lm } vs hn (r := 1) (by omega) hW
  have h2 := work_recRow sc { s with lm := recRow p n 1 vs (recRow p n 0 vs s.lm) } vs hn (r := 2) (by omega) hW
  have h3 := work_recRow sc { s with lm := recRow p n 2 vs (recRow p n 1 vs (recRow p n 0 vs s.lm)) } vs hn
    (r := 3) (by omega) hW
  exact ((h0.trans h1).trans h2).trans h3

/-! ### The registers, one at a time -/

/-- A change of registers alone. -/
theorem work_regs (sc : Scope) (s t : State) (hk : unchangedPart t = unchangedPart s) (hl : t.lm = s.lm)
    (ha : t.arena = s.arena) (hr : ∀ c, csrValue c t &&& sc.keep c = csrValue c s &&& sc.keep c)
    (hb : sc.base ≤ s.arenaCur.toNat → sc.base ≤ t.arenaCur.toNat)
    (he : s.arenaCur.getLsbD 0 = false → t.arenaCur.getLsbD 0 = false)
    (hm : s.arenaCur.getLsbD 0 = false → s.mbStart.getLsbD 0 = false → t.mbStart.getLsbD 0 = false)
    (hc : s.cntrlC &&& 0x00FF00FF = 0 → t.cntrlC &&& 0x00FF00FF = 0)
    (hp : s.cbp &&& 0xFFFFFF00 = 0 → t.cbp &&& 0xFFFFFF00 = 0)
    (hx : s.elim &&& 0xFFFFFF80 = 0 → t.elim &&& 0xFFFFFF80 = 0)
    (hy : s.costY &&& 0xFFFF0000 = 0 → t.costY &&& 0xFFFF0000 = 0)
    (hz : s.arenaCur.toNat ≤ s.arenaEnd.toNat → t.arenaCur.toNat ≤ s.arenaEnd.toNat := by exact id) : Work sc s t where
  kept := hk
  frame _ _ := by rw [hl]
  regs := hr
  still _ := ha
  grows _ h := by rw [hl]; exact h
  lmWf h := by rw [hl]; exact h
  lmData h := by rw [hl]; exact h
  arenaWf h := by rw [ha]; exact h
  arena32 h := by rw [ha]; exact h
  arena h := ⟨hb h, fun _ _ => by rw [ha]⟩
  curEnd := hz
  even := he
  startEven := hm
  cntrlC := hc
  cbp := hp
  elim := hx
  costY := hy

theorem work_mbStart (sc : Scope) (s : State) (h : sc.keep .mbStart = 0) : Work sc s { s with mbStart := s.arenaCur } :=
  work_regs sc s _ rfl rfl rfl (fun c => by cases c <;> first | rfl | (rw [h]; simp)) id id (fun h _ => h) id id id id

theorem work_cntrlY (sc : Scope) (s : State) (w : Word) (h : w &&& sc.keep .cntrlY = s.cntrlY &&& sc.keep .cntrlY) :
    Work sc s { s with cntrlY := w } :=
  work_regs sc s _ rfl rfl rfl (fun c => by cases c <;> first | rfl | exact h) id id (fun _ h => h) id id id id

theorem work_cntrlC (sc : Scope) (s : State) (w : Word) (h : w &&& sc.keep .cntrlC = s.cntrlC &&& sc.keep .cntrlC)
    (hc : s.cntrlC &&& 0x00FF00FF = 0 → w &&& 0x00FF00FF = 0) : Work sc s { s with cntrlC := w } :=
  work_regs sc s _ rfl rfl rfl (fun c => by cases c <;> first | rfl | exact h) id id (fun _ h => h) hc id id id

theorem work_cbp (sc : Scope) (s : State) (w : Word) (h : w &&& sc.keep .cbp = s.cbp &&& sc.keep .cbp)
    (hp : s.cbp &&& 0xFFFFFF00 = 0 → w &&& 0xFFFFFF00 = 0) : Work sc s { s with cbp := w } :=
  work_regs sc s _ rfl rfl rfl (fun c => by cases c <;> first | rfl | exact h) id id (fun _ h => h) id hp id id

theorem work_elim (sc : Scope) (s : State) (w : Word) (h : w &&& sc.keep .elim = s.elim &&& sc.keep .elim)
    (hx : s.elim &&& 0xFFFFFF80 = 0 → w &&& 0xFFFFFF80 = 0) : Work sc s { s with elim := w } :=
  work_regs sc s _ rfl rfl rfl (fun c => by cases c <;> first | rfl | exact h) id id (fun _ h => h) id id hx id

theorem work_costY (sc : Scope) (s : State) (w : Word) (h : sc.keep .costY = 0)
    (hy : w &&& 0xFFFF0000 = 0) : Work sc s { s with costY := w } :=
  work_regs sc s _ rfl rfl rfl (fun c => by cases c <;> first | rfl | (rw [h]; simp)) id id (fun _ h => h) id id id
    (fun _ => hy)

theorem work_costC (sc : Scope) (s : State) (w : Word) (h : sc.keep .costC = 0) : Work sc s { s with costC := w } :=
  work_regs sc s _ rfl rfl rfl (fun c => by cases c <;> first | rfl | (rw [h]; simp)) id id (fun _ h => h) id id id id

theorem work_costAcc (sc : Scope) (s : State) (w : Word) (h : sc.keep .costAcc = 0) :
    Work sc s { s with costAcc := w } :=
  work_regs sc s _ rfl rfl rfl (fun c => by cases c <;> first | rfl | (rw [h]; simp)) id id (fun _ h => h) id id id id

theorem csrValue_cur (s : State) (w : Word) (c : Csr) (hc : c ≠ .arenaCur) :
    csrValue c { s with arenaCur := w } = csrValue c s := by
  cases c <;> first | rfl | exact absurd rfl hc

/-- A rewind to where the cursor stood before some work (43_macroblock.md R243, R244, R253). -/
theorem work_rewind {sc : Scope} {s t : State} (h : Work sc s t) (hk : sc.keep .arenaCur = 0) :
    Work sc s { t with arenaCur := s.arenaCur } where
  kept := h.kept
  frame := h.frame
  regs c := by
    by_cases hc : c = .arenaCur
    · subst hc; rfl
    · rw [csrValue_cur _ _ _ hc]; exact h.regs c
  still hs := absurd hk hs
  grows := h.grows
  lmWf := h.lmWf
  lmData := h.lmData
  arenaWf := h.arenaWf
  arena32 := h.arena32
  arena hb := ⟨hb, (h.arena hb).2⟩
  curEnd := id
  even := id
  startEven := h.startEven
  cntrlC := h.cntrlC
  cbp := h.cbp
  elim := h.elim
  costY := h.costY

end Laws

end Sys2Proof.Machine
end

