-- ==== Sys2Proof/Laws/Commands.lean ====
section
/-! SUPPORT. For the steps of each command, what they may do: `<steps>_works` says they stay inside `Work`, end in no
error but ARENA_OVF, and stop only at a byte that has no value. -/

namespace Sys2Proof.Machine

namespace Laws

/-! ### Reads of the kernels -/

theorem residualAt_onlyUninit (p : Plane) (n k : Nat) (s : State) : OnlyUninit s (residualAt p n s k) := by
  intro e h
  simp only [residualAt] at h
  split at h
  · rename_i he; cases h; exact lmSample_onlyUninit _ _ _ he
  · split at h
    · rename_i he; cases h; exact lmSample_onlyUninit _ _ _ he
    · cases h

theorem residual_onlyUninit (p : Plane) (n : Nat) (s : State) : OnlyUninit s (residual p n s) :=
  readAll_onlyUninit fun k => residualAt_onlyUninit p n k s

theorem quantAt_onlyUninit (p : Plane) (k qb rd : Nat) (x : Int) (s : State) :
    OnlyUninit s (quantAt p k qb rd x s) := by
  intro e h
  simp only [quantAt] at h
  split at h
  · rename_i he; cases h; exact lmUnsigned_onlyUninit _ _ _ he
  · split at h
    · rename_i he; cases h; exact lmUnsigned_onlyUninit _ _ _ he
    · cases h

theorem ftLevel_onlyUninit (p : Plane) (dcx : Bool) (w : Mat Int) (s : State) (k : Nat) :
    OnlyUninit s (ftLevel p dcx w s k) := by
  intro e h
  simp only [ftLevel] at h
  split at h
  · cases h
  · exact quantAt_onlyUninit _ _ _ _ _ _ _ h

theorem withScales_onlyUninit (p : Plane) (k : Nat) (s : State) (f : Nat → Nat → Int) :
    OnlyUninit s (withScales p k s f) := by
  intro e h
  simp only [withScales] at h
  split at h
  · rename_i he; cases h; exact lmUnsigned_onlyUninit _ _ _ he
  · split at h
    · rename_i he; cases h; exact lmUnsigned_onlyUninit _ _ _ he
    · cases h

theorem dequantAt_onlyUninit (p : Plane) (n k : Nat) (s : State) : OnlyUninit s (dequantAt p n k s) := by
  intro e h
  simp only [dequantAt] at h
  split at h
  · rename_i he; cases h; exact lmSigned_onlyUninit _ _ _ he
  · exact withScales_onlyUninit _ _ _ _ _ h

theorem iqInput_onlyUninit (p : Plane) (n : Nat) (dcsrc : Bool) (s : State) (k : Nat) :
    OnlyUninit s (iqInput p n dcsrc s k) := by
  intro e h
  simp only [iqInput] at h
  split at h
  · exact lmSigned_onlyUninit _ _ _ h
  · exact dequantAt_onlyUninit _ _ _ _ _ h

theorem predBlock_onlyUninit (p : Plane) (n : Nat) (s : State) : OnlyUninit s (predBlock p n s) :=
  readAll_onlyUninit fun _ => lmSample_onlyUninit _ s

theorem coefScan_onlyUninit (p : Plane) (n start : Nat) (s : State) : OnlyUninit s (coefScan p n start s) :=
  readAll_onlyUninit fun _ => lmSigned_onlyUninit _ s

/-! ### Forward commands -/

/-- What FTQ4 answers: its sixteen levels stored, their count, and with DCX the unquantized DC (40_forward.md R150). -/
theorem ftq4_cases {p : Plane} {n : Nat} {dcx : Bool} {s t : State} (h : ftq4 p n dcx s = .ok t) :
    ∃ res levels, residual p n s = .ok res ∧ readAll (ftLevel p dcx (ft4 (matOfList res)) s) raster = .ok levels ∧
      levels.length = 16 ∧
      t = ((if dcx then s.putSigned (dcsaveAddr p n) [trunc16 (matAt (ft4 (matOfList res)) 0)] else s).putSigned
        (coefAddr p n 0) levels).putNnz p n (countNonzero levels) := by
  simp only [ftq4] at h
  split at h
  · cases h
  · rename_i res hres
    split at h
    · cases h
    · rename_i levels hl
      cases h
      exact ⟨res, levels, hres, hl, readAll_length hl, rfl⟩

theorem ftq4_works (sc : Scope) {p : Plane} {n : Fin 16} (dcx : Bool) (s : State) (hn : n.val < p.nb)
    (hW : ∀ a ∈ lmWritten (.ftq4 p n dcx), sc.lm a) : Works sc s (ftq4 p n.val dcx s) := by
  simp only [lmWritten, List.mem_append, List.mem_singleton] at hW
  cases hr : ftq4 p n.val dcx s with
  | ok t =>
    obtain ⟨res, levels, -, -, hl, rfl⟩ := ftq4_cases hr
    have h1 : Work sc s
        (if dcx then s.putSigned (dcsaveAddr p n.val) [trunc16 (matAt (ft4 (matOfList res)) 0)] else s) := by
      cases dcx with
      | true => exact work_putDcsave sc s _ hn fun a ha => hW a (.inr ha)
      | false => exact Work.refl _ _
    exact .done ((h1.trans (work_putCoef sc _ levels hn hl fun a ha => hW a (.inl (.inl ha)))).trans
      (work_putNnz sc _ _ hn (hW _ (.inl (.inr rfl)))))
  | error e =>
    simp only [ftq4] at hr
    split at hr
    · rename_i he; cases hr; exact OnlyUninit.works (residual_onlyUninit p n.val s) he
    · split at hr
      · rename_i he; cases hr
        exact OnlyUninit.works (readAll_onlyUninit fun k => ftLevel_onlyUninit p dcx _ s k) he
      · cases hr

theorem mem_dcLayer {p : Plane} {a : Nat} (h : a ∈ addrs (dccoefAddr p 0) (2 * p.nb)) : a ∈ dcLayerAddrs p :=
  List.mem_append_left _ h

theorem nnzdc_mem (p : Plane) : nnzdcAddr p ∈ dcLayerAddrs p := List.mem_append_right _ (by simp)

theorem fhq4_works (sc : Scope) (s : State) (hW : ∀ a ∈ dcLayerAddrs .y, sc.lm a) : Works sc s (fhq4 s) := by
  simp only [fhq4]
  split
  · rename_i he
    exact OnlyUninit.works (readAll_onlyUninit fun n => lmSigned_onlyUninit _ s) he
  · split
    · rename_i he
      exact OnlyUninit.works (readAll_onlyUninit fun k => quantAt_onlyUninit _ _ _ _ _ s) he
    · rename_i levels hl
      exact .done ((work_putDccoef sc s (p := .y) levels (readAll_length hl) fun a ha => hW a (mem_dcLayer ha)).trans
        (work_putNnzdc sc _ _ _ (hW _ (nnzdc_mem .y))))

theorem fhq2_works (sc : Scope) {p : Plane} (s : State) (hp : p.isChroma = true)
    (hW : ∀ a ∈ dcLayerAddrs p, sc.lm a) : Works sc s (fhq2 p s) := by
  have hnb : p.nb = 4 := by cases p <;> simp_all [Plane.isChroma, Plane.nb]
  simp only [fhq2]
  split
  · rename_i he
    exact OnlyUninit.works (readAll_onlyUninit fun n => lmSigned_onlyUninit _ s) he
  · split
    · rename_i he
      exact OnlyUninit.works (readAll_onlyUninit fun k => quantAt_onlyUninit _ _ _ _ _ s) he
    · rename_i levels hl
      exact .done ((work_putDccoef sc s levels (by rw [readAll_length hl, hnb]; rfl) fun a ha =>
        hW a (mem_dcLayer ha)).trans (work_putNnzdc sc _ _ _ (hW _ (nnzdc_mem p))))

/-! ### Inverse commands -/

theorem ihs4_works (sc : Scope) (s : State) (hW : ∀ a ∈ dcrecAddrs .y, sc.lm a) : Works sc s (ihs4 s) := by
  simp only [ihs4]
  split
  · rename_i he
    exact OnlyUninit.works (readAll_onlyUninit fun n => lmSigned_onlyUninit _ s) he
  · split
    · rename_i he
      exact OnlyUninit.works (readAll_onlyUninit fun k => withScales_onlyUninit _ _ s _) he
    · rename_i recs hl
      exact .done (work_putDcrec sc s (p := .y) recs (readAll_length hl) hW)

theorem ihs2_works (sc : Scope) {p : Plane} (s : State) (hp : p.isChroma = true)
    (hW : ∀ a ∈ dcrecAddrs p, sc.lm a) : Works sc s (ihs2 p s) := by
  have hnb : p.nb = 4 := by cases p <;> simp_all [Plane.isChroma, Plane.nb]
  simp only [ihs2]
  split
  · rename_i he
    exact OnlyUninit.works (readAll_onlyUninit fun n => lmSigned_onlyUninit _ s) he
  · split
    · rename_i he
      exact OnlyUninit.works (readAll_onlyUninit fun k => withScales_onlyUninit _ _ s _) he
    · rename_i recs hl
      exact .done (work_putDcrec sc s recs (by rw [readAll_length hl, hnb]; rfl) hW)

theorem iqtr4_works (sc : Scope) {p : Plane} {n : Nat} (dcsrc : Bool) (s : State) (hn : n < p.nb)
    (hW : ∀ a ∈ recAddrs p n, sc.lm a) : Works sc s (iqtr4 p n dcsrc s) := by
  simp only [iqtr4]
  split
  · rename_i he
    exact OnlyUninit.works (readAll_onlyUninit fun k => iqInput_onlyUninit p n dcsrc s k) he
  · split
    · rename_i he; exact OnlyUninit.works (predBlock_onlyUninit p n s) he
    · exact .done (work_putRec sc s _ hn hW)

theorem iqtr4dc_works (sc : Scope) {p : Plane} {n : Nat} (dcsrc : Bool) (s : State) (hn : n < p.nb)
    (hW : ∀ a ∈ recAddrs p n, sc.lm a) : Works sc s (iqtr4dc p n dcsrc s) := by
  simp only [iqtr4dc]
  split
  · rename_i he; exact OnlyUninit.works (iqInput_onlyUninit p n dcsrc s 0) he
  · split
    · rename_i he; exact OnlyUninit.works (predBlock_onlyUninit p n s) he
    · exact .done (work_putRec sc s _ hn hW)

theorem copy4_works (sc : Scope) {p : Plane} {n : Nat} (s : State) (hn : n < p.nb)
    (hW : ∀ a ∈ recAddrs p n, sc.lm a) : Works sc s (copy4 p n s) := by
  simp only [copy4]
  split
  · rename_i he; exact OnlyUninit.works (predBlock_onlyUninit p n s) he
  · exact .done (work_putRec sc s _ hn hW)

/-! ### Pack commands -/

theorem popcountTo_le (fuel m : Nat) : popcountTo fuel m ≤ fuel := by
  induction fuel generalizing m with
  | zero => simp [popcountTo]
  | succ f ih => have := ih (m / 2); simp only [popcountTo]; omega

/-- The bitmap, shifted down to the first scan position, counts the values that are not 0. -/
theorem popcount_sigFrom (vs : List Int) (j fuel : Nat) (hf : j + vs.length ≤ fuel) :
    popcountTo fuel (sigFrom j vs) = countNonzero vs := by
  have scale : ∀ (j : Nat) (vs : List Int), sigFrom (j + 1) vs = 2 * sigFrom j vs := by
    intro j vs
    induction vs generalizing j with
    | nil => rfl
    | cons v vs ih => simp only [sigFrom, ih (j + 1)]; split <;> omega
  have zero : ∀ fuel, popcountTo fuel 0 = 0 := by
    intro fuel; induction fuel with
    | zero => rfl
    | succ f ih => simp [popcountTo, ih]
  induction fuel generalizing j vs with
  | zero =>
    have : vs = [] := List.length_eq_zero_iff.mp (by omega)
    subst this; rfl
  | succ f ih =>
    cases j with
    | zero =>
      cases vs with
      | nil => simp [sigFrom, zero, countNonzero]
      | cons v vs =>
        simp only [sigFrom, popcountTo, scale, countNonzero, List.countP_cons]
        have h1 : ((if v ≠ 0 then 2 ^ 0 else 0) + 2 * sigFrom 0 vs) / 2 = sigFrom 0 vs := by split <;> omega
        have h2 : ((if v ≠ 0 then 2 ^ 0 else 0) + 2 * sigFrom 0 vs) % 2 = if v ≠ 0 then 1 else 0 := by split <;> omega
        rw [h1, h2, ih vs 0 (by simp at hf; omega)]
        simp only [countNonzero]
        by_cases hv : v = 0 <;> simp [hv]; omega
    | succ j =>
      rw [scale, popcountTo]
      have h1 : 2 * sigFrom j vs / 2 = sigFrom j vs := by omega
      have h2 : 2 * sigFrom j vs % 2 = 0 := by omega
      rw [h1, h2, ih vs j (by omega)]; omega

/-- A record of a scan inside the sixteen positions counts the values that are not 0 (42_pack.md R206). -/
theorem nnzOf_sig (start : Nat) (vs : List Int) (h : start + vs.length ≤ 16) :
    nnzOf (sigFrom start vs) = countNonzero vs := popcount_sigFrom vs start 16 h

theorem countNonzero_le (vs : List Int) : countNonzero vs ≤ vs.length := List.countP_le_length

/-- A record is as long as its 16-bit values. -/
theorem recordHalves_length (start : Nat) (vs : List Int) (h : start + vs.length ≤ 16) :
    2 * (recordHalves start vs).length = recordLen start vs := by
  simp only [recordHalves, recordLen, nnzOf_sig start vs h, List.length_cons, List.length_map, countNonzero,
    List.countP_eq_length_filter]
  omega

/-- EMIT: it overflows and changes nothing, or writes one record and moves the cursor past it (42_pack.md R205). -/
theorem emit_cases (start : Nat) (vs : List Int) (s : State) :
    (s.arenaEnd.toNat < s.arenaCur.toNat + recordLen start vs ∧ emit start vs s = .error (.raised .arenaOvf s)) ∨
    (s.arenaCur.toNat + recordLen start vs ≤ s.arenaEnd.toNat ∧
      emit start vs s = .ok
        (⟨nnzOf (sigFrom start vs), sigFrom start vs, costFrom (costLut s) (largeCost s) 0 vs⟩,
          { s with
            arena := s.arena.writeHalves s.arenaCur.toNat (recordHalves start vs)
            arenaCur := BitVec.ofNat 32 (s.arenaCur.toNat + recordLen start vs) })) := by
  simp only [emit]
  split
  · exact .inl ⟨by omega, rfl⟩
  · exact .inr ⟨by omega, rfl⟩

theorem even_of_toNat (w : Word) : w.getLsbD 0 = false ↔ w.toNat % 2 = 0 := by
  rw [BitVec.getLsbD, Nat.testBit_zero]; simp

theorem unchangedPart_emit (s : State) (m : Memory) (c : Word) :
    unchangedPart { s with arena := m, arenaCur := c } = unchangedPart s := rfl

theorem csrValue_emit (s : State) (m : Memory) (w : Word) (c : Csr) (hc : c ≠ .arenaCur) :
    csrValue c { s with arena := m, arenaCur := w } = csrValue c s := by
  cases c <;> first | rfl | exact absurd rfl hc

theorem emit_worksP (sc : Scope) (start : Nat) (vs : List Int) (s : State) (h : start + vs.length ≤ 16)
    (hk : sc.keep .arenaCur = 0) : WorksP sc s (emit start vs s) := by
  rcases emit_cases start vs s with ⟨-, he⟩ | ⟨hle, he⟩
  · rw [he]
    exact
      { ok := fun k => (nomatch k)
        raised := fun k => (by cases k; exact ⟨⟨rfl, hk⟩, Work.refl _ _⟩)
        uninit := fun k => (nomatch k) }
  · rw [he]
    have hlen := recordHalves_length start vs h
    have hlt : s.arenaCur.toNat + recordLen start vs < 2 ^ 32 := Nat.lt_of_le_of_lt hle s.arenaEnd.isLt
    have hcur : (BitVec.ofNat 32 (s.arenaCur.toNat + recordLen start vs)).toNat = s.arenaCur.toNat + recordLen start vs := by
      rw [BitVec.toNat_ofNat, Nat.mod_eq_of_lt hlt]
    refine .done
      { kept := unchangedPart_emit _ _ _
        frame := fun _ _ => rfl
        regs := fun c => by
          by_cases hc : c = .arenaCur
          · subst hc; rw [hk]; simp
          · rw [csrValue_emit _ _ _ _ hc]
        still := fun hs => absurd hk hs
        grows := fun _ h => h
        lmWf := id
        lmData := id
        arenaWf := fun h => MemoryLaws.writeHalves_wf _ _ _ h
        arena32 := fun h c hc => by
          rcases MemoryLaws.writeHalves_addrs _ _ _ _ hc with hc | hc
          · omega
          · exact h c hc
        arena := fun hb => by
          refine ⟨by simp only [hcur]; omega, fun a ha => ?_⟩
          exact MemoryLaws.read_writeHalves_out _ _ _ _ (by omega)
        curEnd := fun _ => by simp only [hcur]; omega
        even := fun h => by
          rw [even_of_toNat] at h ⊢
          have h4 : recordLen start vs % 2 = 0 := by simp only [recordLen]; omega
          rw [hcur]; omega
        startEven := fun _ h => h
        cntrlC := id
        cbp := id
        elim := id
        costY := id }

theorem coefScan_length {p : Plane} {n start : Nat} {s : State} {vs : List Int} (h : coefScan p n start s = .ok vs) :
    vs.length = 16 - start := by
  rw [readAll_length h]; simp [zigzag]

theorem scanStart_le (ac : Bool) : scanStart ac ≤ 1 := by cases ac <;> decide

/-- What a coefficient record answers: EMIT's answer, with NNZ stored. -/
theorem emitCoef_cases {p : Plane} {n : Nat} {ac : Bool} {s t : State} {r : Emitted} (h : emitCoef p n ac s = .ok (r, t)) :
    ∃ vs u, coefScan p n (scanStart ac) s = .ok vs ∧ emit (scanStart ac) vs s = .ok (r, u) ∧ t = u.putNnz p n r.nnz := by
  simp only [emitCoef] at h
  split at h
  · cases h
  · rename_i vs hvs
    split at h
    · cases h
    · rename_i r' u hu; cases h; exact ⟨vs, u, hvs, hu, rfl⟩

theorem emitCoef_worksP (sc : Scope) {p : Plane} {n : Nat} (ac : Bool) (s : State) (hn : n < p.nb)
    (hk : sc.keep .arenaCur = 0) (hW : sc.lm (nnzAddr p n)) : WorksP sc s (emitCoef p n ac s) := by
  simp only [emitCoef]
  split
  · rename_i e he
    exact (OnlyUninit.works (coefScan_onlyUninit _ _ _ _) he).errorP rfl
  · rename_i vs hvs
    have hl := coefScan_length hvs
    have hs := scanStart_le ac
    have hw := emit_worksP sc (scanStart ac) vs s (by omega) hk
    split
    · rename_i e he; exact hw.errorP he
    · rename_i r u hu; exact .done ((hw.ok hu).trans (work_putNnz sc _ _ hn hW))

theorem dcScan_length (p : Plane) : (dcScan p).length = p.nb := by cases p <;> rfl

/-- What a DC-layer record answers: EMIT's answer, with NNZDC stored. -/
theorem emitDc_cases {p : Plane} {s t : State} {r : Emitted} (h : emitDc p s = .ok (r, t)) :
    ∃ vs u, readAll (fun k => dccoef p k s) (dcScan p) = .ok vs ∧ emit 0 vs s = .ok (r, u) ∧ t = u.putNnzdc p r.nnz := by
  simp only [emitDc] at h
  split at h
  · cases h
  · rename_i vs hvs
    split at h
    · cases h
    · rename_i r' u hu; cases h; exact ⟨vs, u, hvs, hu, rfl⟩

theorem nb_le (p : Plane) : p.nb ≤ 16 := by cases p <;> decide

theorem emitDc_worksP (sc : Scope) (p : Plane) (s : State) (hk : sc.keep .arenaCur = 0)
    (hW : sc.lm (nnzdcAddr p)) : WorksP sc s (emitDc p s) := by
  simp only [emitDc]
  split
  · rename_i e he
    exact (OnlyUninit.works (readAll_onlyUninit fun k => lmSigned_onlyUninit _ s) he).errorP rfl
  · rename_i vs hvs
    have hl : vs.length ≤ 16 := by rw [readAll_length hvs, dcScan_length]; exact nb_le p
    have hw := emit_worksP sc 0 vs s (by omega) hk
    split
    · rename_i e he; exact hw.errorP he
    · rename_i r u hu; exact .done ((hw.ok hu).trans (work_putNnzdc sc _ _ _ hW))

theorem pack4_works (sc : Scope) {p : Plane} {n : Nat} (ac : Bool) (s : State) (hn : n < p.nb)
    (hk : sc.keep .arenaCur = 0) (hc : sc.keep .costAcc = 0) (hW : sc.lm (nnzAddr p n)) :
    Works sc s (pack4 p n ac s) := by
  have h := emitCoef_worksP sc ac s hn hk hW
  simp only [pack4]
  split
  · rename_i he; exact h.error he
  · rename_i ht; exact .done ((h.ok ht).trans (work_costAcc sc _ _ hc))

theorem packdc_works (sc : Scope) (p : Plane) (s : State) (hk : sc.keep .arenaCur = 0)
    (hc : sc.keep .costAcc = 0) (hW : sc.lm (nnzdcAddr p)) : Works sc s (packdc p s) := by
  have h := emitDc_worksP sc p s hk hW
  simp only [packdc]
  split
  · rename_i he; exact h.error he
  · rename_i ht; exact .done ((h.ok ht).trans (work_costAcc sc _ _ hc))

theorem nop_works (sc : Scope) (s : State) : Works sc s (nop s) := .done (Work.refl _ _)

end Laws

end Sys2Proof.Machine
end

