-- ==== Sys2Proof/Laws/Macroblock.lean ====
section
/-! SUPPORT. For the steps of the macroblock commands, what they may do: `<steps>_works` as in Laws/Commands.lean. -/

namespace Sys2Proof.Machine

namespace Laws

/-! ### Hard-wired bits of CNTRL_C, CBP and ELIM -/

theorem zero_and_word (y : Word) : (0 : Word) &&& y = 0 := by simp

theorem or_and_word (x y m : Word) : (x ||| y) &&& m = (x &&& m) ||| (y &&& m) := by
  ext i
  simp [Bool.and_or_distrib_right]

/-- Setting a bit outside a mask keeps the bits inside it clear. -/
theorem setBit_mask {x m : Word} {b : Nat} (h : x &&& m = 0) (hb : BitVec.ofNat 32 (2 ^ b) &&& m = 0) :
    setBit x b &&& m = 0 := by
  rw [setBit, or_and_word, h, hb]; rfl

/-- Clearing a bit keeps the bits of a mask clear. -/
theorem clrBit_mask {x m : Word} {b : Nat} (h : x &&& m = 0) : clrBit x b &&& m = 0 := by
  rw [clrBit, BitVec.and_assoc, BitVec.and_comm (~~~ _), ← BitVec.and_assoc, h, zero_and_word]

/-- Setting a bit outside a mask keeps the bits inside it. -/
theorem setBit_keep {m : Word} {b : Nat} (x : Word) (hb : BitVec.ofNat 32 (2 ^ b) &&& m = 0) :
    setBit x b &&& m = x &&& m := by
  rw [setBit, or_and_word, hb]; simp

/-- Clearing a bit outside a mask keeps the bits inside it. -/
theorem clrBit_keep {m : Word} {b : Nat} (x : Word) (hb : BitVec.ofNat 32 (2 ^ b) &&& m = 0) :
    clrBit x b &&& m = x &&& m := by
  have h : ~~~ BitVec.ofNat 32 (2 ^ b) &&& m = m := by
    apply BitVec.eq_of_getLsbD_eq
    intro i hi
    have := congrArg (fun w => BitVec.getLsbD w i) hb
    simp only [BitVec.getLsbD_and, BitVec.getLsbD_not, hi, decide_true, Bool.true_and] at this ⊢
    revert this
    cases BitVec.getLsbD (BitVec.ofNat 32 (2 ^ b)) i <;> cases BitVec.getLsbD m i <;> simp
  rw [clrBit, BitVec.and_assoc, h]

/-- A value inside a field has no bit in a mask outside the field. -/
theorem field_mask {v f m : Word} (hv : v &&& f = v) (hm : m &&& f = 0) : v &&& m = 0 := by
  rw [← hv, BitVec.and_assoc, BitVec.and_comm f, hm]; simp

/-- Replacing a field keeps the bits of a mask outside it. -/
theorem replace_keep {f v m : Word} (x : Word) (hv : v &&& f = v) (hm : m &&& f = 0) :
    ((x &&& ~~~ f) ||| v) &&& m = x &&& m := by
  have h : ~~~ f &&& m = m := by
    apply BitVec.eq_of_getLsbD_eq
    intro i hi
    have := congrArg (fun w => BitVec.getLsbD w i) hm
    simp only [BitVec.getLsbD_and, BitVec.getLsbD_not, hi, decide_true, Bool.true_and] at this ⊢
    revert this
    cases BitVec.getLsbD f i <;> cases BitVec.getLsbD m i <;> simp
  rw [or_and_word, field_mask hv hm, BitVec.and_assoc, h]; simp

/-- Clearing a field keeps the bits of a mask outside it. -/
theorem clear_keep {f m : Word} (x : Word) (hm : m &&& f = 0) : x &&& ~~~ f &&& m = x &&& m := by
  have := replace_keep (v := 0) x (by simp) hm
  simpa using this

theorem elim_bit (b : Nat) (h : b < 7) : BitVec.ofNat 32 (2 ^ b) &&& (0xFFFFFF80 : Word) = 0 := by
  revert b; decide

theorem cbp_bit (b : Nat) (h : b < 4) : BitVec.ofNat 32 (2 ^ b) &&& (0xFFFFFF00 : Word) = 0 := by
  revert b; decide

theorem acBit_chroma {p : Plane} (hp : p.isChroma = true) (n : Nat) (h : n < 4) :
    BitVec.ofNat 32 (2 ^ acBit p n) &&& (0x00FF00FF : Word) = 0 := by
  cases p
  · cases hp
  · revert n; decide
  · revert n; decide

theorem dcBit_chroma {p : Plane} (hp : p.isChroma = true) (n : Nat) (h : n < 4) :
    BitVec.ofNat 32 (2 ^ dcBit p n) &&& (0x00FF00FF : Word) = 0 := by
  cases p
  · cases hp
  · revert n; decide
  · revert n; decide

theorem setDcBits_chroma {p : Plane} (hp : p.isChroma = true) (vs : List Int) (k : Nat) (w : Word)
    (hl : k + vs.length ≤ 4) (h : w &&& 0x00FF00FF = 0) : setDcBits p k vs w &&& 0x00FF00FF = 0 := by
  induction vs generalizing k w with
  | nil => exact h
  | cons v vs ih =>
    simp only [List.length_cons] at hl
    rw [setDcBits]
    refine ih _ _ (by omega) ?_
    split
    · exact setBit_mask h (dcBit_chroma hp k (by omega))
    · exact h

/-- Setting DC bits keeps the bits of a mask that holds none of them. -/
theorem setDcBits_keep {m : Word} (p : Plane) (vs : List Int) (k : Nat) (w : Word)
    (h : ∀ n, k ≤ n → n < k + vs.length → BitVec.ofNat 32 (2 ^ dcBit p n) &&& m = 0) :
    setDcBits p k vs w &&& m = w &&& m := by
  induction vs generalizing k w with
  | nil => rfl
  | cons v vs ih =>
    simp only [List.length_cons] at h
    rw [setDcBits, ih _ _ fun n h1 h2 => h n (by omega) (by omega)]
    split
    · exact setBit_keep w (h k (Nat.le_refl k) (by omega))
    · rfl

theorem clrAcBits_mask {m : Word} (p : Plane) (ns : List Nat) (w : Word) (h : w &&& m = 0) :
    clrAcBits p ns w &&& m = 0 := by
  induction ns generalizing w with
  | nil => exact h
  | cons n ns ih => exact ih _ (clrBit_mask h)

theorem withCbpL_mask (cbp : Word) (v : Nat) (h : cbp &&& 0xFFFFFF00 = 0) : withCbpL cbp v &&& 0xFFFFFF00 = 0 := by
  have small : ∀ v, v < 16 → BitVec.ofNat 32 v &&& (0xFFFFFF00 : Word) = 0 := by decide
  rw [withCbpL, or_and_word, small _ (Nat.mod_lt _ (by decide)), BitVec.and_assoc,
    BitVec.and_comm (0xFFFFFFF0 : Word), ← BitVec.and_assoc, h, zero_and_word]
  rfl

theorem withChromaCbp_mask (cbp : Word) (dcb dcr : Nat) (acb acr : List Nat) (h : cbp &&& 0xFFFFFF00 = 0) :
    withChromaCbp cbp dcb dcr acb acr &&& 0xFFFFFF00 = 0 := by
  have small : ∀ c, c < 3 → ∀ b d : Bool,
      BitVec.ofNat 32 (16 * c + 64 * b.toNat + 128 * d.toNat) &&& (0xFFFFFF00 : Word) = 0 := by decide
  have code : ∀ x y : Bool, (if x = true then 2 else if y = true then 1 else 0) < 3 := by decide
  simp only [withChromaCbp]
  rw [or_and_word, BitVec.and_assoc, BitVec.and_comm (0xFFFFFF0F : Word), ← BitVec.and_assoc, h, zero_and_word,
    small _ (code _ _)]
  rfl

theorem withCbpL_keep {m : Word} (cbp : Word) (v : Nat) (hm : m &&& 0x0000000F = 0) :
    withCbpL cbp v &&& m = cbp &&& m := by
  have small : ∀ v, v < 16 → BitVec.ofNat 32 v &&& (0x0000000F : Word) = BitVec.ofNat 32 v := by decide
  exact replace_keep cbp (small _ (Nat.mod_lt _ (by decide))) hm

theorem withChromaCbp_keep {m : Word} (cbp : Word) (dcb dcr : Nat) (acb acr : List Nat) (hm : m &&& 0x000000F0 = 0) :
    withChromaCbp cbp dcb dcr acb acr &&& m = cbp &&& m := by
  have small : ∀ c, c < 3 → ∀ b d : Bool,
      BitVec.ofNat 32 (16 * c + 64 * b.toNat + 128 * d.toNat) &&& (0x000000F0 : Word)
        = BitVec.ofNat 32 (16 * c + 64 * b.toNat + 128 * d.toNat) := by decide
  have code : ∀ x y : Bool, (if x = true then 2 else if y = true then 1 else 0) < 3 := by decide
  exact replace_keep cbp (small _ (code _ _) _ _) hm

theorem and_mask {x y m : Word} (h : x &&& m = 0) : x &&& y &&& m = 0 := by
  rw [BitVec.and_assoc, BitVec.and_comm y, ← BitVec.and_assoc, h, zero_and_word]

theorem raster_lt16 {n : Nat} (h : n ∈ raster) : n < 16 := by
  simp only [raster, List.mem_cons, List.not_mem_nil, or_false] at h
  omega

/-! ### MB_BEGIN -/

/-- The scope of MB_BEGIN. -/
structure BeginScope (sc : Scope) : Prop where
  lm : ∀ a ∈ addrs (nnzAddr .y 0) 27, sc.lm a
  mbStart : sc.keep .mbStart = 0
  cntrlY : sc.keep .cntrlY = 0
  cntrlC : sc.keep .cntrlC = 0
  cbp : sc.keep .cbp = 0
  elim : sc.keep .elim = 0
  costY : sc.keep .costY = 0
  costC : sc.keep .costC = 0
  costAcc : sc.keep .costAcc = 0

/-- A register with no kept bit may take any value. -/
theorem free_keep {k : Word} (v w : Word) (h : k = 0) : v &&& k = w &&& k := by rw [h]; simp

theorem mbBegin_works {sc : Scope} (hs : BeginScope sc) (s : State) : Works sc s (mbBegin s) := by
  have h1 := work_mbStart sc s hs.mbStart
  have h2 := work_cntrlY sc { s with mbStart := s.arenaCur } 0 (free_keep _ _ hs.cntrlY)
  have h3 := work_cntrlC sc { s with mbStart := s.arenaCur, cntrlY := 0 } 0 (free_keep _ _ hs.cntrlC)
    fun _ => zero_and_word _
  have h4 := work_cbp sc { s with mbStart := s.arenaCur, cntrlY := 0, cntrlC := 0 } 0 (free_keep _ _ hs.cbp)
    fun _ => zero_and_word _
  have h5 := work_elim sc { s with mbStart := s.arenaCur, cntrlY := 0, cntrlC := 0, cbp := 0 } 0
    (free_keep _ _ hs.elim) fun _ => zero_and_word _
  have h6 := work_costY sc { s with mbStart := s.arenaCur, cntrlY := 0, cntrlC := 0, cbp := 0, elim := 0 } 0 hs.costY
    (zero_and_word _)
  have h7 := work_costC sc
    { s with mbStart := s.arenaCur, cntrlY := 0, cntrlC := 0, cbp := 0, elim := 0, costY := 0 } 0 hs.costC
  have h8 := work_costAcc sc
    { s with mbStart := s.arenaCur, cntrlY := 0, cntrlC := 0, cbp := 0, elim := 0, costY := 0, costC := 0 } 0 hs.costAcc
  refine .done (((((((((h1.trans h2).trans h3).trans h4).trans h5).trans h6).trans h7).trans h8)).trans
    (work_putBytes sc _ _ _ ?_ fun x h0 h1 => hs.lm x (mem_addrs.mpr ⟨h0, by simpa using h1⟩)))
  intro x h0 h1
  simp only [nnzAddr, List.length_replicate] at h0 h1
  have all : ∀ k, k < 27 → dataAddr (0x1400 + k) = true := by decide
  have := all (x - 0x1400) (by omega)
  rwa [show 0x1400 + (x - 0x1400) = x by omega] at this

/-! ### Reconstruction -/

theorem recon1_works (sc : Scope) {p : Plane} (m : Word) (f : Bool) {n : Nat} (s : State) (hn : n < p.nb)
    (hW : ∀ a ∈ recAddrs p n, sc.lm a) : Works sc s (recon1 p m f n s) := by
  simp only [recon1]
  split
  · exact iqtr4_works sc f s hn hW
  · split
    · exact iqtr4dc_works sc f s hn hW
    · exact copy4_works sc s hn hW

theorem planeBlocks_lt {p : Plane} {n : Nat} (h : n ∈ planeBlocks p) : n < p.nb := by
  revert n
  cases p <;> simp only [planeBlocks, raster, Plane.nb] <;> decide

theorem planeBlocks_length (p : Plane) : (planeBlocks p).length = p.nb := by cases p <;> rfl

/-- The samples of a sub-block are samples of its plane. -/
theorem recAddrs_plane {p : Plane} {n a : Nat} (hn : n < p.nb) (h : a ∈ recAddrs p n) : a ∈ recPlaneAddrs p := by
  obtain ⟨k, hk, rfl⟩ := List.mem_map.mp h
  have hk16 : k < 16 := raster_lt16 hk
  refine mem_addrs.mpr ?_
  cases p <;> simp only [sampleAddr, row0, col0, planeWidth, Plane.nb] at * <;> omega

theorem reconPlane_works (sc : Scope) (p : Plane) (m : Word) (f : Bool) (s : State)
    (hW : ∀ a ∈ recPlaneAddrs p, sc.lm a) : Works sc s (reconPlane p m f s) :=
  works_runAll fun _ hn s => recon1_works sc m f s (planeBlocks_lt hn) fun a ha =>
    hW a (recAddrs_plane (planeBlocks_lt hn) ha)

/-- The scope of setting DC bits of a plane's control word. -/
def DcBitsScope (sc : Scope) : Plane → Prop
  | .y => sc.keep .cntrlY &&& 0x0000FFFF = 0
  | .cb => sc.keep .cntrlC &&& 0x0000FF00 = 0
  | .cr => sc.keep .cntrlC &&& 0x0000FF00 = 0

theorem dcBit_y (n : Nat) (h : n < 16) :
    BitVec.ofNat 32 (2 ^ dcBit .y n) &&& (0x0000FFFF : Word) = BitVec.ofNat 32 (2 ^ dcBit .y n) := by
  revert n; decide

theorem dcBit_c {p : Plane} (hp : p.isChroma = true) (n : Nat) (h : n < 4) :
    BitVec.ofNat 32 (2 ^ dcBit p n) &&& (0x0000FF00 : Word) = BitVec.ofNat 32 (2 ^ dcBit p n) := by
  cases p
  · cases hp
  · revert n; decide
  · revert n; decide

/-- Setting DC bits from one value per sub-block. -/
theorem work_setDcBits {sc : Scope} (s : State) (p : Plane) (vs : List Int) (hl : vs.length = p.nb)
    (hk : DcBitsScope sc p) : Work sc s (s.putCntrl p (setDcBits p 0 vs (cntrl p s))) := by
  cases p
  · refine work_cntrlY sc s _ (setDcBits_keep .y vs 0 _ fun n _ hn => field_mask (dcBit_y n ?_) hk)
    simp only [Plane.nb] at hl; omega
  · simp only [Plane.nb] at hl
    exact work_cntrlC sc s _
      (setDcBits_keep .cb vs 0 _ fun n _ hn => field_mask (dcBit_c rfl n (by omega)) hk)
      (setDcBits_chroma rfl vs 0 _ (by omega))
  · simp only [Plane.nb] at hl
    exact work_cntrlC sc s _
      (setDcBits_keep .cr vs 0 _ fun n _ hn => field_mask (dcBit_c rfl n (by omega)) hk)
      (setDcBits_chroma rfl vs 0 _ (by omega))

theorem promote_works {sc : Scope} (p : Plane) (s : State) (hk : DcBitsScope sc p) : Works sc s (promote p s) := by
  simp only [promote]
  split
  · rename_i he
    exact OnlyUninit.works (readAll_onlyUninit fun n => lmSigned_onlyUninit _ s) he
  · rename_i recs hr
    exact .done (work_setDcBits s p recs ((readAll_length hr).trans (planeBlocks_length p)) hk)

/-- The scope of RECON_Y16. -/
structure ReconYScope (sc : Scope) (dc : Bool) : Prop where
  recon : ∀ a ∈ recPlaneAddrs .y, sc.lm a
  dcrec : dc = true → ∀ a ∈ dcrecAddrs .y, sc.lm a
  bits : dc = true → DcBitsScope sc .y

theorem reconYDc_works {sc : Scope} {dc : Bool} (hs : ReconYScope sc dc) (s : State) : Works sc s (reconYDc dc s) := by
  simp only [reconYDc]
  split
  · rename_i hdc
    have h := ihs4_works sc s (hs.dcrec hdc)
    split
    · rename_i he; exact h.error he
    · rename_i ht; exact .trans (h.ok ht) (promote_works .y _ (hs.bits hdc))
  · exact .done (Work.refl _ _)

theorem reconY16_works {sc : Scope} {dc : Bool} (hs : ReconYScope sc dc) (border : Bool) (s : State) :
    Works sc s (reconY16 dc border s) := by
  have h := reconYDc_works hs s
  simp only [reconY16]
  split
  · rename_i he; exact h.error he
  · rename_i ht; exact .trans (h.ok ht) (reconPlane_works sc _ _ _ _ hs.recon)

/-- The scope of RECON_C8. -/
structure ReconCScope (sc : Scope) : Prop where
  recon : ∀ p, p.isChroma = true → ∀ a ∈ recPlaneAddrs p, sc.lm a
  dcrec : ∀ p, p.isChroma = true → ∀ a ∈ dcrecAddrs p, sc.lm a
  bits : ∀ p, p.isChroma = true → DcBitsScope sc p

theorem reconCDc_works {sc : Scope} (hs : ReconCScope sc) {p : Plane} (hp : p.isChroma = true) (s : State) :
    Works sc s (reconCDc p s) := by
  have h := ihs2_works sc s hp (hs.dcrec p hp)
  simp only [reconCDc]
  split
  · rename_i he; exact h.error he
  · rename_i ht; exact .trans (h.ok ht) (promote_works p _ (hs.bits p hp))

theorem chroma_mem {p : Plane} (h : p ∈ [Plane.cb, Plane.cr]) : p.isChroma = true := by
  revert h; cases p <;> decide

theorem reconC8_works {sc : Scope} (hs : ReconCScope sc) (border : Bool) (s : State) :
    Works sc s (reconC8 border s) := by
  have h : Works sc s (runAll reconCDc [.cb, .cr] s) :=
    works_runAll fun p hp s => reconCDc_works hs (chroma_mem hp) s
  simp only [reconC8]
  split
  · rename_i he; exact h.error he
  · rename_i t ht
    have hb := reconPlane_works sc .cb (masked .cb border t.cntrlC) true t (hs.recon .cb rfl)
    refine .trans (h.ok ht) ?_
    split
    · rename_i he; exact hb.error he
    · rename_i hu; exact .trans (hb.ok hu) (reconPlane_works sc _ _ _ _ (hs.recon .cr rfl))

/-! ### Elimination -/

/-- The scope of coding a plane: its levels and counts, and the cursor. -/
structure CodeScope (sc : Scope) (p : Plane) : Prop where
  coef : ∀ a ∈ coefPlaneAddrs p, sc.lm a
  nnz : ∀ a ∈ nnzPlaneAddrs p, sc.lm a
  cur : sc.keep .arenaCur = 0

theorem mem_planeBlocks {p : Plane} {n : Nat} (h : n < p.nb) : n ∈ planeBlocks p := by
  revert n
  cases p <;> simp only [planeBlocks, raster, Plane.nb] <;> decide

theorem CodeScope.coefBlock {sc : Scope} {p : Plane} (hs : CodeScope sc p) {n : Nat} (hn : n < p.nb) :
    ∀ a ∈ addrs (coefAddr p n 0) 32, sc.lm a := fun a ha =>
  hs.coef a (List.mem_flatMap.mpr ⟨n, mem_planeBlocks hn, ha⟩)

theorem CodeScope.nnzBlock {sc : Scope} {p : Plane} (hs : CodeScope sc p) {n : Nat} (hn : n < p.nb) :
    sc.lm (nnzAddr p n) :=
  hs.nnz _ (mem_addrs.mpr (by cases p <;> simp only [nnzAddr, Plane.nb] at * <;> omega))

theorem work_zeroBlock {sc : Scope} {p : Plane} (hs : CodeScope sc p) {n : Nat} (s : State) (hn : n < p.nb) :
    Work sc s (zeroBlock p n s) :=
  (work_putNnz sc s 0 hn (hs.nnzBlock hn)).trans (work_putCoef sc _ _ hn (by simp) (hs.coefBlock hn))

theorem work_zeroBlocks {sc : Scope} {p : Plane} (hs : CodeScope sc p) (ns : List Nat) (s : State)
    (hn : ∀ n ∈ ns, n < p.nb) : Work sc s (zeroBlocks p ns s) := by
  induction ns generalizing s with
  | nil => exact Work.refl _ _
  | cons n ns ih =>
    exact (work_zeroBlock hs s (hn n (by simp))).trans (ih _ fun k hk => hn k (by simp [hk]))

/-- The scope of CODE_L16, and of CODE_I16 but for its DC layer. -/
structure LumaScope (sc : Scope) : Prop extends CodeScope sc .y where
  cntrl : sc.keep .cntrlY = 0
  cbp : sc.keep .cbp &&& 0x0000000F = 0
  elim : sc.keep .elim &&& 0x0000001F = 0
  costY : sc.keep .costY = 0

theorem groupBlocks_lt {g n : Nat} (h : n ∈ groupBlocks g) : n < Plane.nb .y := by
  have hm : n ∈ blkOrder := List.mem_of_mem_drop (List.mem_of_mem_take h)
  revert n
  simp only [blkOrder, Plane.nb]
  intro n _ hn
  simp only [List.mem_cons, List.not_mem_nil, or_false] at hn
  omega

theorem luma_elim_bit (b : Nat) (h : b < 5) :
    BitVec.ofNat 32 (2 ^ b) &&& (0x0000001F : Word) = BitVec.ofNat 32 (2 ^ b) := by revert b; decide

theorem luma_cbp_bit (b : Nat) (h : b < 4) :
    BitVec.ofNat 32 (2 ^ b) &&& (0x0000000F : Word) = BitVec.ofNat 32 (2 ^ b) := by revert b; decide

theorem chroma_elim_bit (b : Nat) (h : b = 5 ∨ b = 6) :
    BitVec.ofNat 32 (2 ^ b) &&& (0x00000060 : Word) = BitVec.ofNat 32 (2 ^ b) := by
  rcases h with h | h <;> subst h <;> decide

theorem work_eliminateGroup {sc : Scope} (hs : LumaScope sc) {s t : State} (h : Work sc s t) {g : Nat} (hg : g < 4) :
    Work sc s (eliminateGroup g s.arenaCur t) := by
  have h1 := work_rewind h hs.cur
  have h2 := work_cntrlY sc { t with arenaCur := s.arenaCur } (clrBothBits .y (groupBlocks g) t.cntrlY)
    (free_keep _ _ hs.cntrl)
  have h3 := work_elim sc { t with arenaCur := s.arenaCur, cntrlY := clrBothBits .y (groupBlocks g) t.cntrlY }
    (setBit t.elim g) (setBit_keep _ (field_mask (luma_elim_bit g (by omega)) hs.elim))
    fun h => setBit_mask h (elim_bit g (by omega))
  exact ((h1.trans h2).trans h3).trans (work_zeroBlocks hs.toCodeScope _ _ fun n hn => groupBlocks_lt hn)

theorem raster_lt {n : Nat} (h : n ∈ raster) : n < Plane.nb .y := raster_lt16 h

theorem work_eliminateMb {sc : Scope} (hs : LumaScope sc) {s t : State} (h : Work sc s t) :
    Work sc s (eliminateMb s.arenaCur t) := by
  have h1 := work_rewind h hs.cur
  have h2 := work_cntrlY sc { t with arenaCur := s.arenaCur } 0 (free_keep _ _ hs.cntrl)
  have h3 := work_cbp sc { t with arenaCur := s.arenaCur, cntrlY := 0 } (withCbpL t.cbp 0)
    (withCbpL_keep _ _ hs.cbp) (withCbpL_mask _ _)
  have h4 := work_elim sc { t with arenaCur := s.arenaCur, cntrlY := 0, cbp := withCbpL t.cbp 0 }
    (setBit t.elim 4) (setBit_keep _ (field_mask (luma_elim_bit 4 (by omega)) hs.elim))
    fun h => setBit_mask h (elim_bit 4 (by omega))
  exact (((h1.trans h2).trans h3).trans h4).trans (work_zeroBlocks hs.toCodeScope _ _ fun n hn => raster_lt hn)

theorem four_lt {p : Plane} {n : Nat} (h : n ∈ [0, 1, 2, 3]) : n < p.nb := by
  simp only [List.mem_cons, List.not_mem_nil, or_false] at h
  cases p <;> simp only [Plane.nb] <;> omega

/-- The scope of CODE_C8. -/
structure ChromaScope (sc : Scope) : Prop where
  code : ∀ p, p.isChroma = true → CodeScope sc p
  dcsave : ∀ p, p.isChroma = true → ∀ a ∈ dcsaveAddrs p, sc.lm a
  dcLayer : ∀ p, p.isChroma = true → ∀ a ∈ dcLayerAddrs p, sc.lm a
  cntrl : sc.keep .cntrlC = 0
  cbp : sc.keep .cbp &&& 0x000000F0 = 0
  elim : sc.keep .elim &&& 0x00000060 = 0
  costC : sc.keep .costC = 0

theorem work_eliminatePlane {sc : Scope} (hs : ChromaScope sc) {s t : State} (h : Work sc s t) {p : Plane}
    (hp : p.isChroma = true) : Work sc s (eliminatePlane p s.arenaCur t) := by
  have hi : 4 + p.idx = 5 ∨ 4 + p.idx = 6 := by cases p <;> simp_all [Plane.idx, Plane.isChroma]
  have h1 := work_rewind h (hs.code p hp).cur
  have h2 := work_cntrlC sc { t with arenaCur := s.arenaCur } (clrAcBits p [0, 1, 2, 3] t.cntrlC)
    (free_keep _ _ hs.cntrl) (clrAcBits_mask p _ _)
  have h3 := work_elim sc { t with arenaCur := s.arenaCur, cntrlC := clrAcBits p [0, 1, 2, 3] t.cntrlC }
    (setBit t.elim (4 + p.idx)) (setBit_keep _ (field_mask (chroma_elim_bit _ hi) hs.elim))
    fun h => setBit_mask h (elim_bit _ (by omega))
  exact ((h1.trans h2).trans h3).trans (work_zeroBlocks (hs.code p hp) _ _ fun n hn => four_lt hn)

/-! ### AC records -/

/-- Nothing of a plane's control word is kept. -/
def CntrlFree (sc : Scope) : Plane → Prop
  | .y => sc.keep .cntrlY = 0
  | .cb => sc.keep .cntrlC = 0
  | .cr => sc.keep .cntrlC = 0

theorem work_setAcBit {sc : Scope} (s : State) {p : Plane} {n : Nat} (hn : n < p.nb) (hk : CntrlFree sc p) :
    Work sc s (s.putCntrl p (setBit (cntrl p s) (acBit p n))) := by
  cases p
  · exact work_cntrlY sc s _ (free_keep _ _ hk)
  · exact work_cntrlC sc s _ (free_keep _ _ hk) fun h => setBit_mask h (acBit_chroma rfl n hn)
  · exact work_cntrlC sc s _ (free_keep _ _ hk) fun h => setBit_mask h (acBit_chroma rfl n hn)

theorem emitAc_worksP {sc : Scope} {p : Plane} (hs : CodeScope sc p) (hk : CntrlFree sc p) {n : Nat} (s : State)
    (hn : n < p.nb) : WorksP sc s (emitAc p n s) := by
  have h := emitCoef_worksP sc true s hn hs.cur (hs.nnzBlock hn)
  simp only [emitAc]
  split
  · rename_i he; exact h.errorP he
  · rename_i r t ht
    refine .done ((h.ok ht).trans ?_)
    split
    · exact work_setAcBit t hn hk
    · exact Work.refl _ _

theorem emitAcs_worksP {sc : Scope} {p : Plane} (hs : CodeScope sc p) (hk : CntrlFree sc p) (ns : List Nat)
    (s : State) (hn : ∀ n ∈ ns, n < p.nb) : WorksP sc s (emitAcs p ns s) := by
  induction ns generalizing s with
  | nil => exact .done (Work.refl _ _)
  | cons n ns ih =>
    have h := emitAc_worksP hs hk s (hn n (by simp))
    simp only [emitAcs]
    split
    · rename_i he; exact h.errorP he
    · rename_i r t ht
      have hk := ih t fun k hk => hn k (by simp [hk])
      refine .trans (h.ok ht) ?_
      split
      · rename_i he; exact hk.errorP he
      · rename_i hu; exact .done (hk.ok hu)

theorem setLayerBits_works {sc : Scope} (p : Plane) (s : State) (hk : DcBitsScope sc p) :
    Works sc s (setLayerBits p s) := by
  simp only [setLayerBits]
  split
  · rename_i he
    exact OnlyUninit.works (readAll_onlyUninit fun n => lmSigned_onlyUninit _ s) he
  · rename_i dcs hr
    exact .done (work_setDcBits s p dcs ((readAll_length hr).trans (planeBlocks_length p)) hk)

/-! ### CODE_I16 -/

/-- The scope of CODE_I16's coding part. -/
structure I16Scope (sc : Scope) : Prop extends LumaScope sc where
  dcsave : ∀ a ∈ dcsaveAddrs .y, sc.lm a
  dcLayer : ∀ a ∈ dcLayerAddrs .y, sc.lm a

theorem dcsave_plane {p : Plane} {n a : Nat} (hn : n < p.nb) (h : a ∈ addrs (dcsaveAddr p n) 2) :
    a ∈ dcsaveAddrs p := by
  have h := mem_addrs.mp h
  refine mem_addrs.mpr ?_
  simp only [dcsaveAddr] at *
  omega

/-- FTQ4 with DCX as a step of coding a plane with a DC layer. -/
theorem ftq4_dcx_works {sc : Scope} {p : Plane} (hs : CodeScope sc p) (hd : ∀ a ∈ dcsaveAddrs p, sc.lm a) {n : Nat}
    (hn : n < p.nb) (s : State) : Works sc s (ftq4 p n true s) := by
  have hlt : n < 16 := Nat.lt_of_lt_of_le hn (nb_le p)
  refine ftq4_works sc (n := ⟨n, hlt⟩) true s hn fun a ha => ?_
  simp only [lmWritten, List.mem_append, List.mem_singleton, if_true] at ha
  rcases ha with (ha | ha) | ha
  · exact hs.coefBlock hn a ha
  · exact ha ▸ hs.nnzBlock hn
  · exact hd a (dcsave_plane hn ha)

/-- FTQ4 without DCX as a step of coding a plane. -/
theorem ftq4_plain_works {sc : Scope} {p : Plane} {n : Nat} (hn : n < p.nb)
    (hc : ∀ a ∈ addrs (coefAddr p n 0) 32, sc.lm a) (hz : sc.lm (nnzAddr p n)) (s : State) :
    Works sc s (ftq4 p n false s) := by
  have hlt : n < 16 := Nat.lt_of_lt_of_le hn (nb_le p)
  refine ftq4_works sc (n := ⟨n, hlt⟩) false s hn fun a ha => ?_
  simp only [lmWritten, List.mem_append, List.mem_singleton] at ha
  rcases ha with (ha | ha) | ha
  · exact hc a ha
  · exact ha ▸ hz
  · simp at ha

theorem dcBitsScope_free {sc : Scope} {p : Plane} (h : CntrlFree sc p) : DcBitsScope sc p := by
  cases p <;> (simp only [CntrlFree] at h; simp only [DcBitsScope, h]; exact zero_and_word _)

theorem i16Dc_works {sc : Scope} (hs : I16Scope sc) (s : State) : Works sc s (i16Dc s) := by
  have h1 : Works sc s (runAll (fun n => ftq4 .y n true) raster s) :=
    works_runAll fun n hn s => ftq4_dcx_works hs.toCodeScope hs.dcsave (raster_lt hn) s
  simp only [i16Dc]
  split
  · rename_i he; exact h1.error he
  · rename_i t ht
    have h2 := fhq4_works sc t hs.dcLayer
    refine .trans (h1.ok ht) ?_
    split
    · rename_i he; exact h2.error he
    · rename_i u hu
      have h3 := setLayerBits_works .y { u with cntrlY := 0 } (dcBitsScope_free (p := .y) hs.cntrl)
      refine .trans (h2.ok hu) (.trans (work_cntrlY sc u 0 (free_keep _ _ hs.cntrl)) ?_)
      split
      · rename_i he; exact h3.error he
      · rename_i v hv
        have h4 := emitDc_worksP sc .y v hs.cur (hs.dcLayer _ (nnzdc_mem .y))
        refine .trans (h3.ok hv) ?_
        split
        · rename_i he; exact h4.error he
        · rename_i hw; exact .done (h4.ok hw)

theorem blkOrder_lt {n : Nat} (h : n ∈ blkOrder) : n < Plane.nb .y := by
  simp only [blkOrder, List.mem_cons, List.not_mem_nil, or_false] at h
  simp only [Plane.nb]; omega

theorem i16Code_works {sc : Scope} (hs : I16Scope sc) (s : State) : Works sc s (i16Code s) := by
  have h1 := i16Dc_works hs s
  simp only [i16Code]
  split
  · rename_i he; exact h1.error he
  · rename_i t ht
    have h2 := emitAcs_worksP hs.toCodeScope (show CntrlFree sc .y from hs.cntrl) blkOrder t fun n hn => blkOrder_lt hn
    refine .trans (h1.ok ht) ?_
    split
    · rename_i he; exact h2.error he
    · rename_i any c u hu
      have k1 := work_cbp sc u (withCbpL u.cbp (if any then 0xF else 0)) (withCbpL_keep _ _ hs.cbp) (withCbpL_mask _ _)
      have k2 := work_elim sc { u with cbp := withCbpL u.cbp (if any then 0xF else 0) } (clrLumaElim u.elim)
        (clear_keep _ hs.elim) and_mask
      have k3 := work_costY sc
        { u with cbp := withCbpL u.cbp (if any then 0xF else 0), elim := clrLumaElim u.elim } 0 hs.costY (zero_and_word _)
      exact .done ((h2.ok hu).trans ((k1.trans k2).trans k3))

theorem codeI16_works {sc : Scope} {recon : Bool} (hs : I16Scope sc) (hr : recon = true → ReconYScope sc true)
    (border : Bool) (s : State) : Works sc s (codeI16 recon border s) := by
  have h := i16Code_works hs s
  simp only [codeI16]
  split
  · rename_i he; exact h.error he
  · rename_i t ht
    refine .trans (h.ok ht) ?_
    split
    · rename_i hrec; exact reconY16_works (hr hrec) border t
    · exact .done (Work.refl _ _)

/-! ### CODE_I4 -/

/-- SETBITS changes the two bits of its sub-block only (43_macroblock.md R246). -/
theorem levelBits_keep {m : Word} (n : Nat) (vs : List Int) (w : Word)
    (ha : BitVec.ofNat 32 (2 ^ acBit .y n) &&& m = 0) (hd : BitVec.ofNat 32 (2 ^ dcBit .y n) &&& m = 0) :
    levelBits n vs w &&& m = w &&& m := by
  simp only [levelBits]
  split
  · rw [setBit_keep _ hd]
    split
    · rw [setBit_keep _ ha, clrBit_keep _ hd, clrBit_keep _ ha]
    · rw [clrBit_keep _ hd, clrBit_keep _ ha]
  · split
    · rw [setBit_keep _ ha, clrBit_keep _ hd, clrBit_keep _ ha]
    · rw [clrBit_keep _ hd, clrBit_keep _ ha]

theorem setBits_works {sc : Scope} {n : Nat} (ha : BitVec.ofNat 32 (2 ^ acBit .y n) &&& sc.keep .cntrlY = 0)
    (hd : BitVec.ofNat 32 (2 ^ dcBit .y n) &&& sc.keep .cntrlY = 0) (s : State) : Works sc s (setBits n s) := by
  simp only [setBits]
  split
  · rename_i he
    exact OnlyUninit.works (readAll_onlyUninit fun k => lmSigned_onlyUninit _ s) he
  · exact .done (work_cntrlY sc s _ (levelBits_keep n _ _ ha hd))

theorem groupOf_lt {n : Nat} (h : n < 16) : groupOf n < 4 := by simp only [groupOf]; omega

/-- The scope of CODE_I4's coding part. -/
structure I4Scope (sc : Scope) (n : Nat) : Prop where
  coef : ∀ a ∈ addrs (coefAddr .y n 0) 32, sc.lm a
  nnz : sc.lm (nnzAddr .y n)
  cur : sc.keep .arenaCur = 0
  ac : BitVec.ofNat 32 (2 ^ acBit .y n) &&& sc.keep .cntrlY = 0
  dc : BitVec.ofNat 32 (2 ^ dcBit .y n) &&& sc.keep .cntrlY = 0
  cbp : BitVec.ofNat 32 (2 ^ groupOf n) &&& sc.keep .cbp = 0

theorem i4Code_works {sc : Scope} {n : Nat} (hs : I4Scope sc n) (s : State) (hn : n < 16) :
    Works sc s (i4Code n s) := by
  have h1 := ftq4_plain_works (p := .y) hn hs.coef hs.nnz s
  simp only [i4Code]
  split
  · rename_i he; exact h1.error he
  · rename_i t ht
    have h2 := setBits_works hs.ac hs.dc t
    refine .trans (h1.ok ht) ?_
    split
    · rename_i he; exact h2.error he
    · rename_i u hu
      have h3 := emitCoef_worksP sc (p := .y) false u hn hs.cur hs.nnz
      refine .trans (h2.ok hu) ?_
      split
      · rename_i he; exact h3.error he
      · rename_i r v hv
        refine .done ((h3.ok hv).trans ?_)
        split
        · exact work_cbp sc v _ (setBit_keep _ hs.cbp) fun h => setBit_mask h (cbp_bit _ (groupOf_lt hn))
        · exact Work.refl _ _

theorem codeI4_works {sc : Scope} {n : Nat} {recon : Bool} (hs : I4Scope sc n)
    (hr : recon = true → ∀ a ∈ recAddrs .y n, sc.lm a) (s : State) (hn : n < 16) :
    Works sc s (codeI4 n recon s) := by
  have h := i4Code_works hs s hn
  simp only [codeI4]
  split
  · rename_i he; exact h.error he
  · rename_i t ht
    refine .trans (h.ok ht) ?_
    split
    · rename_i hrec; exact recon1_works sc (p := .y) _ false t hn (hr hrec)
    · exact .done (Work.refl _ _)

/-! ### CODE_L16 -/

theorem free_mask {x m : Word} (h : m = 0) : x &&& m = 0 := by rw [h]; simp

theorem l16Block_worksP {sc : Scope} (hs : LumaScope sc) {n : Nat} (s : State) (hn : n < 16) :
    WorksP sc s (l16Block n s) := by
  have h1 := ftq4_plain_works (p := .y) hn (hs.coefBlock hn) (hs.nnzBlock hn) s
  simp only [l16Block]
  split
  · rename_i he; exact h1.errorP he
  · rename_i t ht
    have h2 := emitCoef_worksP sc (p := .y) false t hn hs.cur (hs.nnzBlock hn)
    refine .trans (h1.ok ht) ?_
    split
    · rename_i he; exact h2.errorP he
    · rename_i r u hu
      have h3 := setBits_works (n := n) (free_mask hs.cntrl) (free_mask hs.cntrl) u
      refine .trans (h2.ok hu) ?_
      split
      · rename_i he; exact h3.errorP he
      · rename_i hv; exact .done (h3.ok hv)

theorem l16Blocks_worksP {sc : Scope} (hs : LumaScope sc) (ns : List Nat) (s : State) (hn : ∀ n ∈ ns, n < 16) :
    WorksP sc s (l16Blocks ns s) := by
  induction ns generalizing s with
  | nil => exact .done (Work.refl _ _)
  | cons n ns ih =>
    have h := l16Block_worksP hs s (hn n (by simp))
    simp only [l16Blocks]
    split
    · rename_i he; exact h.errorP he
    · rename_i c t ht
      have hk := ih t fun k hk => hn k (by simp [hk])
      refine .trans (h.ok ht) ?_
      split
      · rename_i he; exact hk.errorP he
      · rename_i hu; exact .done (hk.ok hu)

theorem l16Group_worksP {sc : Scope} (hs : LumaScope sc) (elim : Bool) {g : Nat} (s : State) (hg : g < 4) :
    WorksP sc s (l16Group elim g s) := by
  have h := l16Blocks_worksP hs (groupBlocks g) s fun n hn => groupBlocks_lt hn
  simp only [l16Group]
  split
  · rename_i he; exact h.errorP he
  · rename_i c t ht
    split
    · exact .done (work_eliminateGroup hs (h.ok ht) hg)
    · refine .trans (h.ok ht) ?_
      split
      · rename_i he
        exact (OnlyUninit.works (readAll_onlyUninit fun n => lmSample_onlyUninit _ t) he).errorP rfl
      · refine .done ?_
        split
        · exact work_cbp sc t _ (setBit_keep _ (field_mask (luma_cbp_bit g hg) hs.cbp))
            fun h => setBit_mask h (cbp_bit _ hg)
        · exact Work.refl _ _

theorem l16Groups_worksP {sc : Scope} (hs : LumaScope sc) (elim : Bool) (gs : List Nat) (s : State)
    (hg : ∀ g ∈ gs, g < 4) : WorksP sc s (l16Groups elim gs s) := by
  induction gs generalizing s with
  | nil => exact .done (Work.refl _ _)
  | cons g gs ih =>
    have h := l16Group_worksP hs elim s (hg g (by simp))
    simp only [l16Groups]
    split
    · rename_i he; exact h.errorP he
    · rename_i c t ht
      have hk := ih t fun k hk => hg k (by simp [hk])
      refine .trans (h.ok ht) ?_
      split
      · rename_i he; exact hk.errorP he
      · rename_i hu; exact .done (hk.ok hu)

/-! The sum of the costs fits in 16 bits (43_macroblock.md R242). -/

theorem costFrom_le {lut : Nat → Nat} {large : Nat} (hl : ∀ r, lut r ≤ 255) (hL : large ≤ 255) (vs : List Int)
    (run : Nat) : costFrom lut large run vs ≤ 255 * vs.length := by
  induction vs generalizing run with
  | nil => simp [costFrom]
  | cons v vs ih =>
    simp only [costFrom, List.length_cons]
    split
    · have := ih (run + 1); omega
    · have := ih 0
      have := hl run
      split <;> omega

theorem costLut_le (s : State) (r : Nat) : costLut s r ≤ 255 := by
  simp only [costLut]; exact Nat.le_of_lt_succ (Nat.mod_lt _ (by decide))

theorem largeCost_le (s : State) : largeCost s ≤ 255 := by
  simp only [largeCost, bits]; exact Nat.le_of_lt_succ (Nat.mod_lt _ (by decide))

theorem emitCoef_cost {p : Plane} {n : Nat} {ac : Bool} {s t : State} {r : Emitted}
    (h : emitCoef p n ac s = .ok (r, t)) : r.cost ≤ 4080 := by
  obtain ⟨vs, u, hvs, hu, -⟩ := emitCoef_cases h
  have hl := coefScan_length hvs
  rcases emit_cases (scanStart ac) vs s with ⟨-, he⟩ | ⟨-, he⟩
  · rw [he] at hu; cases hu
  · rw [he] at hu; cases hu
    have := costFrom_le (costLut_le s) (largeCost_le s) vs 0
    simp only; omega

theorem l16Block_cost {n c : Nat} {s t : State} (h : l16Block n s = .ok (c, t)) : c ≤ 4080 := by
  simp only [l16Block] at h
  split at h
  · cases h
  · split at h
    · cases h
    · rename_i hu
      split at h
      · cases h
      · cases h; exact emitCoef_cost hu

theorem l16Blocks_cost {ns : List Nat} {c : Nat} {s t : State} (h : l16Blocks ns s = .ok (c, t)) :
    c ≤ 4080 * ns.length := by
  induction ns generalizing c s t with
  | nil => simp only [l16Blocks] at h; cases h; simp
  | cons n ns ih =>
    simp only [l16Blocks] at h
    split at h
    · cases h
    · rename_i hb
      split at h
      · cases h
      · rename_i hbs; cases h
        have := l16Block_cost hb
        have := ih hbs
        simp only [List.length_cons]; omega

theorem groupBlocks_length (g : Nat) : (groupBlocks g).length ≤ 4 := by
  simp only [groupBlocks, List.length_take]; omega

theorem l16Group_cost {elim : Bool} {g c : Nat} {s t : State} (h : l16Group elim g s = .ok (c, t)) : c ≤ 16320 := by
  have hl := groupBlocks_length g
  simp only [l16Group] at h
  split at h
  · cases h
  · rename_i hb
    have := l16Blocks_cost hb
    split at h
    · cases h; omega
    · split at h
      · cases h
      · cases h; omega

theorem l16Groups_cost {elim : Bool} {gs : List Nat} {c : Nat} {s t : State} (h : l16Groups elim gs s = .ok (c, t)) :
    c ≤ 16320 * gs.length := by
  induction gs generalizing c s t with
  | nil => simp only [l16Groups] at h; cases h; simp
  | cons g gs ih =>
    simp only [l16Groups] at h
    split at h
    · cases h
    · rename_i hb
      split at h
      · cases h
      · rename_i hbs; cases h
        have := l16Group_cost hb
        have := ih hbs
        simp only [List.length_cons]; omega

theorem half_mask {c : Nat} (h : c < 65536) : BitVec.ofNat 32 c &&& (0xFFFF0000 : Word) = 0 := by
  have high : ∀ i, i < 16 → (0xFFFF0000 : Word).getLsbD i = false := by decide
  apply BitVec.eq_of_getLsbD_eq
  intro i hi
  rw [BitVec.getLsbD_and]
  by_cases hlt : i < 16
  · rw [high i hlt, Bool.and_false]; simp
  · have hc : c < 2 ^ i :=
      Nat.lt_of_lt_of_le h (Nat.pow_le_pow_right (n := 2) (by decide) (show 16 ≤ i by omega))
    rw [BitVec.getLsbD_ofNat, Nat.testBit_lt_two_pow hc]; simp

theorem l16Code_works {sc : Scope} (hs : LumaScope sc) (elim : Bool) (s : State) : Works sc s (l16Code elim s) := by
  have k1 := work_cntrlY sc s 0 (free_keep _ _ hs.cntrl)
  have k2 := work_cbp sc { s with cntrlY := 0 } (withCbpL s.cbp 0) (withCbpL_keep _ _ hs.cbp) (withCbpL_mask _ _)
  have k3 := work_elim sc { s with cntrlY := 0, cbp := withCbpL s.cbp 0 } (clrLumaElim s.elim)
    (clear_keep _ hs.elim) and_mask
  have h0 := (k1.trans k2).trans k3
  have h := l16Groups_worksP hs elim [0, 1, 2, 3]
    { s with cntrlY := 0, cbp := withCbpL s.cbp 0, elim := clrLumaElim s.elim } (fun g hg => by
      simp only [List.mem_cons, List.not_mem_nil, or_false] at hg; omega)
  simp only [l16Code]
  split
  · rename_i he; exact .trans h0 (h.error he)
  · rename_i c t ht
    have hc := l16Groups_cost ht
    simp only [List.length_cons, List.length_nil] at hc
    have ht' := h.ok ht
    have step (u : State) : Work sc u { u with costY := BitVec.ofNat 32 c } :=
      work_costY sc u _ hs.costY (half_mask (by omega))
    split
    · exact .done (h0.trans ((work_eliminateMb hs ht').trans (step _)))
    · exact .done (h0.trans (ht'.trans (step _)))

theorem codeL16_works {sc : Scope} {recon : Bool} (hs : LumaScope sc) (hr : recon = true → ReconYScope sc false)
    (elim border : Bool) (s : State) : Works sc s (codeL16 elim recon border s) := by
  have h := l16Code_works hs elim s
  simp only [codeL16]
  split
  · rename_i he; exact h.error he
  · rename_i t ht
    refine .trans (h.ok ht) ?_
    split
    · rename_i hrec; exact reconY16_works (hr hrec) border t
    · exact .done (Work.refl _ _)

/-! ### CODE_C8 -/

theorem ChromaScope.cntrlFree {sc : Scope} (hs : ChromaScope sc) {p : Plane} (hp : p.isChroma = true) :
    CntrlFree sc p := by
  cases p
  · cases hp
  · exact hs.cntrl
  · exact hs.cntrl

theorem c8Forward_works {sc : Scope} (hs : ChromaScope sc) {p : Plane} (hp : p.isChroma = true) (s : State) :
    Works sc s (c8Forward p s) :=
  works_runAll fun _ hn s => ftq4_dcx_works (hs.code p hp) (hs.dcsave p hp) (four_lt hn) s

theorem c8DcRecord_works {sc : Scope} (hs : ChromaScope sc) {p : Plane} (hp : p.isChroma = true) (s : State) :
    Works sc s (c8DcRecord p s) := by
  have h := emitDc_worksP sc p s (hs.code p hp).cur (hs.dcLayer p hp _ (nnzdc_mem p))
  simp only [c8DcRecord]
  split
  · rename_i he; exact h.error he
  · rename_i ht; exact .done (h.ok ht)

theorem c8Dc_works {sc : Scope} (hs : ChromaScope sc) (s : State) : Works sc s (c8Dc s) := by
  have h1 : Works sc s (runAll c8Forward [.cb, .cr] s) :=
    works_runAll fun p hp s => c8Forward_works hs (chroma_mem hp) s
  simp only [c8Dc]
  split
  · rename_i he; exact h1.error he
  · rename_i t ht
    have h2 : Works sc t (runAll fhq2 [.cb, .cr] t) :=
      works_runAll fun p hp s => fhq2_works sc s (chroma_mem hp) (hs.dcLayer p (chroma_mem hp))
    refine .trans (h1.ok ht) ?_
    split
    · rename_i he; exact h2.error he
    · rename_i u hu
      have h3 : Works sc { u with cntrlC := 0, elim := clrChromaElim u.elim }
          (runAll setLayerBits [.cb, .cr] { u with cntrlC := 0, elim := clrChromaElim u.elim }) :=
        works_runAll fun p hp s => setLayerBits_works p s (dcBitsScope_free (hs.cntrlFree (chroma_mem hp)))
      have k1 := work_cntrlC sc u 0 (free_keep _ _ hs.cntrl) fun _ => zero_and_word _
      have k2 := work_elim sc { u with cntrlC := 0 } (clrChromaElim u.elim) (clear_keep _ hs.elim) and_mask
      refine .trans (h2.ok hu) (.trans (k1.trans k2) ?_)
      split
      · rename_i he; exact h3.error he
      · rename_i v hv
        exact .trans (h3.ok hv) (works_runAll fun p hp s => c8DcRecord_works hs (chroma_mem hp) s)

theorem c8Ac_worksP {sc : Scope} (hs : ChromaScope sc) (elim : Bool) {p : Plane} (hp : p.isChroma = true)
    (s : State) : WorksP sc s (c8Ac elim p s) := by
  have h := emitAcs_worksP (hs.code p hp) (hs.cntrlFree hp) [0, 1, 2, 3] s fun n hn => four_lt hn
  simp only [c8Ac]
  split
  · rename_i he; exact h.errorP he
  · rename_i any c t ht
    refine .done ?_
    split
    · exact work_eliminatePlane hs (h.ok ht) hp
    · exact h.ok ht

theorem chromaCbp_works {sc : Scope} (hs : ChromaScope sc) (s : State) : Works sc s (chromaCbp s) := by
  simp only [chromaCbp]
  split
  · rename_i he; exact OnlyUninit.works (lmSample_onlyUninit _ s) he
  · split
    · rename_i he; exact OnlyUninit.works (lmSample_onlyUninit _ s) he
    · split
      · rename_i he; exact OnlyUninit.works (readAll_onlyUninit fun n => lmSample_onlyUninit _ s) he
      · split
        · rename_i he; exact OnlyUninit.works (readAll_onlyUninit fun n => lmSample_onlyUninit _ s) he
        · exact .done (work_cbp sc s _ (withChromaCbp_keep _ _ _ _ _ hs.cbp) (withChromaCbp_mask _ _ _ _ _))

theorem c8Code_works {sc : Scope} (hs : ChromaScope sc) (elim : Bool) (s : State) : Works sc s (c8Code elim s) := by
  have h1 := c8Dc_works hs s
  simp only [c8Code]
  split
  · rename_i he; exact h1.error he
  · rename_i t ht
    have h2 := c8Ac_worksP hs elim (p := .cb) rfl t
    refine .trans (h1.ok ht) ?_
    split
    · rename_i he; exact h2.error he
    · rename_i cb u hu
      have h3 := c8Ac_worksP hs elim (p := .cr) rfl u
      refine .trans (h2.ok hu) ?_
      split
      · rename_i he; exact h3.error he
      · rename_i cr v hv
        exact .trans (h3.ok hv) (.trans (work_costC sc v _ hs.costC) (chromaCbp_works hs _))

theorem codeC8_works {sc : Scope} {recon : Bool} (hs : ChromaScope sc) (hr : recon = true → ReconCScope sc)
    (elim border : Bool) (s : State) : Works sc s (codeC8 elim recon border s) := by
  have h := c8Code_works hs elim s
  simp only [codeC8]
  split
  · rename_i he; exact h.error he
  · rename_i t ht
    refine .trans (h.ok ht) ?_
    split
    · rename_i hrec; exact reconC8_works (hr hrec) border t
    · exact .done (Work.refl _ _)

end Laws

end Sys2Proof.Machine
end

