-- ==== Sys2Proof/Laws/Exec.lean ====
section
/-! SUPPORT. Everything `exec` can answer, said once: the steps of each command, the scope they stay in, and the
cases of a command from acceptance to completion. -/

namespace Sys2Proof.Machine

namespace Laws

/-- The steps of each command. -/
def stepsOf : Instr → State → Except Stop State
  | .nop => nop
  | .ftq4 p n dcx => ftq4 p n.val dcx
  | .fhq4 => fhq4
  | .fhq2 p => fhq2 p
  | .ihs4 => ihs4
  | .ihs2 p => ihs2 p
  | .iqtr4 p n dcsrc => iqtr4 p n.val dcsrc
  | .iqtr4dc p n dcsrc => iqtr4dc p n.val dcsrc
  | .copy4 p n => copy4 p n.val
  | .pack4 p n ac => pack4 p n.val ac
  | .packdc p => packdc p
  | .mbBegin => mbBegin
  | .codeI16 recon border => codeI16 recon border
  | .codeI4 n recon => codeI4 n.val recon
  | .codeL16 elim recon border => codeL16 elim recon border
  | .codeC8 elim recon border => codeC8 elim recon border
  | .reconY16 dc border => reconY16 dc border
  | .reconC8 border => reconC8 border

/-- Every meaning is its command around its steps. -/
theorem exec_eq (i : Instr) (s : State) : exec i s = command i (stepsOf i) s := by cases i <;> rfl

/-- The scope of a command: its "Writes". -/
def scopeOf (i : Instr) (base : Nat) : Scope := ⟨base, fun a => a ∈ lmWritten i, csrKept i⟩

/-- A register whose every bit may change. -/
theorem none_kept : ~~~ (0xFFFFFFFF : Word) = 0 := by decide

theorem not_and_self (m : Word) : ~~~ m &&& m = 0 := by
  ext i
  simp

theorem i16Scope (recon border : Bool) (base : Nat) : I16Scope (scopeOf (.codeI16 recon border) base) where
  coef a ha := by simp [scopeOf, lmWritten, ha]
  nnz a ha := by simp [scopeOf, lmWritten, ha]
  cur := none_kept
  cntrl := none_kept
  cbp := not_and_self _
  elim := not_and_self _
  costY := none_kept
  dcsave a ha := by simp [scopeOf, lmWritten, ha]
  dcLayer a ha := by simp [scopeOf, lmWritten, ha]

theorem i16ReconScope (border : Bool) (base : Nat) : ReconYScope (scopeOf (.codeI16 true border) base) true where
  recon a ha := by simp [scopeOf, lmWritten, ha]
  dcrec _ a ha := by simp [scopeOf, lmWritten, ha]
  bits _ := dcBitsScope_free (p := .y) none_kept

theorem i4Scope (n : Fin 16) (recon : Bool) (base : Nat) : I4Scope (scopeOf (.codeI4 n recon) base) n.val where
  coef a ha := by simp [scopeOf, lmWritten, ha]
  nnz := by simp [scopeOf, lmWritten]
  cur := none_kept
  ac := by
    have : ∀ (n : Fin 16), BitVec.ofNat 32 (2 ^ acBit .y n.val) &&&
      ~~~ BitVec.ofNat 32 (2 ^ acBit .y n.val + 2 ^ dcBit .y n.val) = 0 := by decide
    exact this n
  dc := by
    have : ∀ (n : Fin 16), BitVec.ofNat 32 (2 ^ dcBit .y n.val) &&&
      ~~~ BitVec.ofNat 32 (2 ^ acBit .y n.val + 2 ^ dcBit .y n.val) = 0 := by decide
    exact this n
  cbp := by
    have : ∀ (n : Fin 16), BitVec.ofNat 32 (2 ^ groupOf n.val) &&& ~~~ BitVec.ofNat 32 (2 ^ groupOf n.val) = 0 := by
      decide
    exact this n

theorem l16Scope (elim recon border : Bool) (base : Nat) : LumaScope (scopeOf (.codeL16 elim recon border) base) where
  coef a ha := by simp [scopeOf, lmWritten, ha]
  nnz a ha := by simp [scopeOf, lmWritten, ha]
  cur := none_kept
  cntrl := none_kept
  cbp := not_and_self _
  elim := not_and_self _
  costY := none_kept

theorem l16ReconScope (elim border : Bool) (base : Nat) :
    ReconYScope (scopeOf (.codeL16 elim true border) base) false where
  recon a ha := by simp [scopeOf, lmWritten, ha]
  dcrec h := by cases h
  bits h := by cases h

/-- A byte of the "Writes" of one chroma plane is one of CODE_C8's. -/
theorem c8_mem {p : Plane} (hp : p.isChroma = true) {elim recon border : Bool} {a : Nat}
    (h : a ∈ dcsaveAddrs p ++ coefPlaneAddrs p ++ nnzPlaneAddrs p ++ dcLayerAddrs p
      ++ (if recon then dcrecAddrs p ++ recPlaneAddrs p else [])) : a ∈ lmWritten (.codeC8 elim recon border) := by
  refine List.mem_flatMap.mpr ⟨p, ?_, h⟩
  cases p
  · cases hp
  · simp
  · simp

theorem c8Scope (elim recon border : Bool) (base : Nat) : ChromaScope (scopeOf (.codeC8 elim recon border) base) where
  code p hp :=
    { coef := fun a ha => c8_mem hp (by simp [ha])
      nnz := fun a ha => c8_mem hp (by simp [ha])
      cur := none_kept }
  dcsave p hp a ha := c8_mem hp (by simp [ha])
  dcLayer p hp a ha := c8_mem hp (by simp [ha])
  cntrl := none_kept
  cbp := not_and_self _
  elim := not_and_self _
  costC := none_kept

theorem c8ReconScope (elim border : Bool) (base : Nat) : ReconCScope (scopeOf (.codeC8 elim true border) base) where
  recon p hp a ha := c8_mem hp (by simp [ha])
  dcrec p hp a ha := c8_mem hp (by simp [ha])
  bits p hp := by
    cases p
    · cases hp
    · exact dcBitsScope_free (p := .cb) none_kept
    · exact dcBitsScope_free (p := .cr) none_kept

theorem reconYScope (dc border : Bool) (base : Nat) : ReconYScope (scopeOf (.reconY16 dc border) base) dc where
  recon a ha := by simp [scopeOf, lmWritten, ha]
  dcrec h a ha := by simp [scopeOf, lmWritten, ha, h]
  bits h := by subst h; exact not_and_self _

theorem reconCScope (border : Bool) (base : Nat) : ReconCScope (scopeOf (.reconC8 border) base) where
  recon p hp a ha := by
    refine List.mem_flatMap.mpr ⟨p, ?_, by simp [ha]⟩
    cases p
    · cases hp
    · simp
    · simp
  dcrec p hp a ha := by
    refine List.mem_flatMap.mpr ⟨p, ?_, by simp [ha]⟩
    cases p
    · cases hp
    · simp
    · simp
  bits p hp := by
    cases p
    · cases hp
    · exact not_and_self _
    · exact not_and_self _

/-- The steps of a legal command stay in its scope (the "Writes" and "Errors" of its rule). -/
theorem stepsOf_works (i : Instr) (base : Nat) (s : State) (hw : i.wf = true) :
    Works (scopeOf i base) s (stepsOf i s) := by
  cases i with
  | nop => exact nop_works _ s
  | ftq4 p n dcx => exact ftq4_works _ dcx s (by simpa [Instr.wf] using hw) fun a ha => ha
  | fhq4 => exact fhq4_works _ s fun a ha => ha
  | fhq2 p => exact fhq2_works _ s hw fun a ha => ha
  | ihs4 => exact ihs4_works _ s fun a ha => ha
  | ihs2 p => exact ihs2_works _ s hw fun a ha => ha
  | iqtr4 p n dcsrc => exact iqtr4_works _ dcsrc s (by simpa [Instr.wf] using hw) fun a ha => ha
  | iqtr4dc p n dcsrc => exact iqtr4dc_works _ dcsrc s (by simpa [Instr.wf] using hw) fun a ha => ha
  | copy4 p n => exact copy4_works _ s (by simpa [Instr.wf] using hw) fun a ha => ha
  | pack4 p n ac =>
    exact pack4_works _ ac s (by simpa [Instr.wf] using hw) none_kept none_kept (by simp [scopeOf, lmWritten])
  | packdc p => exact packdc_works _ p s none_kept none_kept (by simp [scopeOf, lmWritten])
  | mbBegin => exact mbBegin_works ⟨fun a ha => ha, none_kept, none_kept, none_kept, none_kept, none_kept, none_kept, none_kept, none_kept⟩ s
  | codeI16 recon border =>
    exact codeI16_works (i16Scope recon border base) (fun h => by subst h; exact i16ReconScope border base) border s
  | codeI4 n recon =>
    exact codeI4_works (i4Scope n recon base) (fun h a ha => by simp [scopeOf, lmWritten, h, ha]) s n.isLt
  | codeL16 elim recon border =>
    exact codeL16_works (l16Scope elim recon border base) (fun h => by subst h; exact l16ReconScope elim border base)
      elim border s
  | codeC8 elim recon border =>
    exact codeC8_works (c8Scope elim recon border base) (fun h => by subst h; exact c8ReconScope elim border base)
      elim border s
  | reconY16 dc border => exact reconY16_works (reconYScope dc border base) border s
  | reconC8 border => exact reconC8_works (reconCScope border base) border s

/-- A command that passes its issue checks has legal operands. -/
theorem wf_of_issueCheck {i : Instr} {s : State} (h : issueCheck i s = none) : i.wf = true := by
  simp only [issueCheck] at h
  cases hw : i.wf with
  | true => rfl
  | false => simp [hw] at h

/-- What `exec` answers: a refusal of the word at issue; a completion; a completion with ARENA_OVF, which only a command
that moves the cursor can raise; or the fault at a
byte that has no value (60_exceptions.md R282 to R288, 20_memory.md R89). -/
inductive ExecCase (i : Instr) (base : Nat) (s : State) : Prop where
  | refused (code : ErrorCode) (hc : issueCheck i s = some code)
      (he : exec i s = .next (refuse (encode i) code s))
  | completed (t : State) (hc : issueCheck i s = none) (hs : stepsOf i (accept (encode i) s) = .ok t)
      (hw : Work (scopeOf i base) (accept (encode i) s) t) (he : exec i s = .next (complete t))
  | overflowed (t : State) (hc : issueCheck i s = none)
      (hs : stepsOf i (accept (encode i) s) = .error (.raised .arenaOvf t)) (hk : csrKept i .arenaCur = 0)
      (hw : Work (scopeOf i base) (accept (encode i) s) t)
      (he : exec i s = .next (complete (record .arenaOvf (opOf t.cmd) t)))
  | stopped (a : Nat) (hc : issueCheck i s = none) (ha : s.lm.read a = none) (he : exec i s = .fault (.uninitRead a))

theorem exec_cases (i : Instr) (base : Nat) (s : State) : ExecCase i base s := by
  cases hc : issueCheck i s with
  | some code => exact .refused code hc (by simp only [exec_eq, command, hc])
  | none =>
    have hw := stepsOf_works i base (accept (encode i) s) (wf_of_issueCheck hc)
    cases hs : stepsOf i (accept (encode i) s) with
    | ok t => exact .completed t hc hs (hw.ok hs) (by simp only [exec_eq, command, hc, hs, finish])
    | error e =>
      cases e with
      | uninit a =>
        exact .stopped a hc (hw.uninit hs) (by simp only [exec_eq, command, hc, hs, finish])
      | raised c t =>
        obtain ⟨⟨rfl, hk⟩, hwork⟩ := hw.raised hs
        exact .overflowed t hc hs hk hwork (by simp only [exec_eq, command, hc, hs, finish])

end Laws

end Sys2Proof.Machine
end

