-- ==== Sys2Proof/Laws/Blind.lean ====
section
/-! SUPPORT. The steps of every command are blind to CMD, BUSY, DONE and ERR: they neither read nor write them, so a
command does the same whatever error was recorded before it (10_state.md R35, 60_exceptions.md R283, R284). -/

namespace Sys2Proof.Machine

namespace Laws

/-- CMD, BUSY, DONE and ERR set, all else kept. -/
def withStatus (c : Word) (b d : Bool) (e : Option ErrorRecord) (s : State) : State :=
  { s with cmd := c, busy := b, done := d, err := e }

/-- The end of some steps, its state changed by `f` and its answer by `g`. -/
def mapEnd (f : State → State) (g : α → β) : Except Stop α → Except Stop β
  | .ok a => .ok (g a)
  | .error (.raised c s) => .error (.raised c (f s))
  | .error (.uninit a) => .error (.uninit a)

@[simp] theorem mapEnd_ok (f : State → State) (g : α → β) (a : α) : mapEnd f g (.ok a) = .ok (g a) := rfl
@[simp] theorem mapEnd_raised (f : State → State) (g : α → β) (c : ErrorCode) (s : State) :
    mapEnd f g (.error (.raised c s)) = .error (.raised c (f s)) := rfl
@[simp] theorem mapEnd_uninit (f : State → State) (g : α → β) (a : Nat) :
    mapEnd f g (.error (.uninit a)) = .error (.uninit a) := rfl

variable (c : Word) (b d : Bool) (e : Option ErrorRecord)

/-- Steps that answer a state are blind. -/
def Blind (f : State → Except Stop State) : Prop :=
  ∀ c b d e s, f (withStatus c b d e s) = mapEnd (withStatus c b d e) (withStatus c b d e) (f s)

/-- Steps that answer a value beside the state are blind. -/
def BlindP (f : State → Except Stop (α × State)) : Prop :=
  ∀ c b d e s, f (withStatus c b d e s) = mapEnd (withStatus c b d e) (fun r => (r.1, withStatus c b d e r.2)) (f s)

/-- A stop of a read is the same stop after the change. -/
theorem mapEnd_read {r : Except Stop α} {x : Stop} (hu : OnlyUninit s r) (h : r = .error x) (f : State → State)
    (g : β → γ) : (.error x : Except Stop γ) = mapEnd f g (.error x) := by
  obtain ⟨a, rfl, -⟩ := hu x h
  rfl

theorem blind_runAll {f : α → State → Except Stop State} (hf : ∀ a, Blind (f a)) (l : List α) :
    Blind (runAll f l) := by
  induction l with
  | nil => exact fun _ _ _ _ _ => rfl
  | cons a l ih =>
    intro c b d e s
    simp only [runAll, hf a c b d e s]
    cases f a s with
    | ok t => exact ih c b d e t
    | error x => cases x <;> rfl

/-! ### The primitive commands -/

theorem ftq4_blind (p : Plane) (n : Nat) (dcx : Bool) : Blind (ftq4 p n dcx) := by
  intro c b d e s
  have h0 : residual p n (withStatus c b d e s) = residual p n s := rfl
  have h1 : ∀ w, readAll (ftLevel p dcx w (withStatus c b d e s)) raster = readAll (ftLevel p dcx w s) raster :=
    fun w => by cases p <;> rfl
  simp only [ftq4, h0, h1]
  cases hr : residual p n s with
  | error x => exact mapEnd_read (residual_onlyUninit p n s) hr _ _
  | ok res =>
    dsimp only
    cases hl : readAll (ftLevel p dcx (ft4 (matOfList res)) s) raster with
    | error x => exact mapEnd_read (readAll_onlyUninit fun k => ftLevel_onlyUninit p dcx _ s k) hl _ _
    | ok levels => cases dcx <;> rfl

theorem fhq4_blind : Blind fhq4 := by
  intro c b d e s
  have h0 : readAll (fun n => dcsave .y n (withStatus c b d e s)) raster = readAll (fun n => dcsave .y n s) raster := rfl
  have h1 : ∀ o, readAll (fhq4Level o (withStatus c b d e s)) raster = readAll (fhq4Level o s) raster := fun _ => rfl
  simp only [fhq4, h0, h1]
  cases hr : readAll (fun n => dcsave .y n s) raster with
  | error x => exact mapEnd_read (readAll_onlyUninit fun n => lmSigned_onlyUninit _ s) hr _ _
  | ok dcs =>
    dsimp only
    cases hl : readAll (fhq4Level (h4 (matOfList dcs)) s) raster with
    | error x => exact mapEnd_read (readAll_onlyUninit fun k => quantAt_onlyUninit _ _ _ _ _ s) hl _ _
    | ok levels => rfl

theorem fhq2_blind (p : Plane) : Blind (fhq2 p) := by
  intro c b d e s
  have h0 : readAll (fun n => dcsave p n (withStatus c b d e s)) [0, 1, 2, 3] =
    readAll (fun n => dcsave p n s) [0, 1, 2, 3] := rfl
  have h1 : ∀ o, readAll (fhq2Level p o (withStatus c b d e s)) [0, 1, 2, 3] = readAll (fhq2Level p o s) [0, 1, 2, 3] :=
    fun _ => by cases p <;> rfl
  simp only [fhq2, h0, h1]
  cases hr : readAll (fun n => dcsave p n s) [0, 1, 2, 3] with
  | error x => exact mapEnd_read (readAll_onlyUninit fun n => lmSigned_onlyUninit _ s) hr _ _
  | ok dcs =>
    dsimp only
    cases hl : readAll (fhq2Level p (h2 (quadOfList dcs)) s) [0, 1, 2, 3] with
    | error x => exact mapEnd_read (readAll_onlyUninit fun k => quantAt_onlyUninit _ _ _ _ _ s) hl _ _
    | ok levels => rfl

theorem qpDiv_withStatus (p : Plane) (s : State) : qpDiv p (withStatus c b d e s) = qpDiv p s := by cases p <;> rfl

theorem ihs4_blind : Blind ihs4 := by
  intro c b d e s
  have h0 : readAll (fun k => dccoef .y k (withStatus c b d e s)) raster = readAll (fun k => dccoef .y k s) raster := rfl
  have h1 : ∀ f, withScales .y 0 (withStatus c b d e s) f = withScales .y 0 s f := fun _ => rfl
  simp only [ihs4, h0, h1, qpDiv_withStatus]
  cases hr : readAll (fun k => dccoef .y k s) raster with
  | error x => exact mapEnd_read (readAll_onlyUninit fun n => lmSigned_onlyUninit _ s) hr _ _
  | ok dcs =>
    dsimp only
    split
    · rename_i hl
      exact mapEnd_read (readAll_onlyUninit fun k => withScales_onlyUninit _ _ s _) hl _ _
    · rfl

theorem ihs2_blind (p : Plane) : Blind (ihs2 p) := by
  intro c b d e s
  have h0 : readAll (fun k => dccoef p k (withStatus c b d e s)) [0, 1, 2, 3] =
    readAll (fun k => dccoef p k s) [0, 1, 2, 3] := rfl
  have h1 : ∀ f, withScales p 0 (withStatus c b d e s) f = withScales p 0 s f := fun _ => rfl
  simp only [ihs2, h0, h1, qpDiv_withStatus]
  cases hr : readAll (fun k => dccoef p k s) [0, 1, 2, 3] with
  | error x => exact mapEnd_read (readAll_onlyUninit fun n => lmSigned_onlyUninit _ s) hr _ _
  | ok dcs =>
    dsimp only
    split
    · rename_i hl
      exact mapEnd_read (readAll_onlyUninit fun k => withScales_onlyUninit _ _ s _) hl _ _
    · rfl

theorem iqInput_withStatus (p : Plane) (n : Nat) (dcsrc : Bool) (s : State) :
    iqInput p n dcsrc (withStatus c b d e s) = iqInput p n dcsrc s := by
  funext k
  simp only [iqInput, dequantAt, qpDiv_withStatus]; rfl

theorem iqtr4_blind (p : Plane) (n : Nat) (dcsrc : Bool) : Blind (iqtr4 p n dcsrc) := by
  intro c b d e s
  have h1 : predBlock p n (withStatus c b d e s) = predBlock p n s := rfl
  simp only [iqtr4, iqInput_withStatus, h1]
  cases hr : readAll (iqInput p n dcsrc s) raster with
  | error x => exact mapEnd_read (readAll_onlyUninit fun k => iqInput_onlyUninit p n dcsrc s k) hr _ _
  | ok dd =>
    dsimp only
    cases hl : predBlock p n s with
    | error x => exact mapEnd_read (predBlock_onlyUninit p n s) hl _ _
    | ok pr => rfl

theorem iqtr4dc_blind (p : Plane) (n : Nat) (dcsrc : Bool) : Blind (iqtr4dc p n dcsrc) := by
  intro c b d e s
  have h1 : predBlock p n (withStatus c b d e s) = predBlock p n s := rfl
  simp only [iqtr4dc, iqInput_withStatus, h1]
  cases hr : iqInput p n dcsrc s 0 with
  | error x => exact mapEnd_read (iqInput_onlyUninit p n dcsrc s 0) hr _ _
  | ok dd =>
    dsimp only
    cases hl : predBlock p n s with
    | error x => exact mapEnd_read (predBlock_onlyUninit p n s) hl _ _
    | ok pr => rfl

theorem copy4_blind (p : Plane) (n : Nat) : Blind (copy4 p n) := by
  intro c b d e s
  have h1 : predBlock p n (withStatus c b d e s) = predBlock p n s := rfl
  simp only [copy4, h1]
  cases hl : predBlock p n s with
  | error x => exact mapEnd_read (predBlock_onlyUninit p n s) hl _ _
  | ok pr => rfl

theorem emit_blind (start : Nat) (vs : List Int) : BlindP (emit start vs) := by
  intro c b d e s
  by_cases h : s.arenaCur.toNat + recordLen start vs > s.arenaEnd.toNat
  · simp only [emit, withStatus, h, if_true, mapEnd_raised]
  · simp only [emit, withStatus, h, if_false, mapEnd_ok]; rfl

theorem emitCoef_blind (p : Plane) (n : Nat) (ac : Bool) : BlindP (emitCoef p n ac) := by
  intro c b d e s
  have h0 : coefScan p n (scanStart ac) (withStatus c b d e s) = coefScan p n (scanStart ac) s := rfl
  simp only [emitCoef, h0]
  cases hr : coefScan p n (scanStart ac) s with
  | error x => exact mapEnd_read (coefScan_onlyUninit p n _ s) hr _ _
  | ok vs =>
    simp only [emit_blind _ vs c b d e s]
    cases emit (scanStart ac) vs s with
    | ok t => rfl
    | error x => cases x <;> rfl

theorem emitDc_blind (p : Plane) : BlindP (emitDc p) := by
  intro c b d e s
  have h0 : readAll (fun k => dccoef p k (withStatus c b d e s)) (dcScan p) = readAll (fun k => dccoef p k s) (dcScan p) :=
    rfl
  simp only [emitDc, h0]
  cases hr : readAll (fun k => dccoef p k s) (dcScan p) with
  | error x => exact mapEnd_read (readAll_onlyUninit fun n => lmSigned_onlyUninit _ s) hr _ _
  | ok vs =>
    simp only [emit_blind _ vs c b d e s]
    cases emit 0 vs s with
    | ok t => rfl
    | error x => cases x <;> rfl

theorem pack4_blind (p : Plane) (n : Nat) (ac : Bool) : Blind (pack4 p n ac) := by
  intro c b d e s
  simp only [pack4, emitCoef_blind p n ac c b d e s]
  cases emitCoef p n ac s with
  | ok t => rfl
  | error x => cases x <;> rfl

theorem packdc_blind (p : Plane) : Blind (packdc p) := by
  intro c b d e s
  simp only [packdc, emitDc_blind p c b d e s]
  cases emitDc p s with
  | ok t => rfl
  | error x => cases x <;> rfl

theorem nop_blind : Blind nop := fun _ _ _ _ _ => rfl

theorem mbBegin_blind : Blind mbBegin := by
  intro c b d e s
  simp only [mbBegin, mapEnd_ok]
  generalize List.replicate 27 (0 : Byte) = bs
  rfl

/-! ### Reconstruction -/

theorem putCntrl_withStatus (p : Plane) (w : Word) (s : State) :
    (withStatus c b d e s).putCntrl p w = withStatus c b d e (s.putCntrl p w) := by cases p <;> rfl

theorem cntrl_withStatus (p : Plane) (s : State) : cntrl p (withStatus c b d e s) = cntrl p s := by cases p <;> rfl

theorem recon1_blind (p : Plane) (m : Word) (f : Bool) (n : Nat) : Blind (recon1 p m f n) := by
  intro c b d e s
  simp only [recon1, iqtr4_blind p n f c b d e s, iqtr4dc_blind p n f c b d e s, copy4_blind p n c b d e s]
  split
  · rfl
  · split <;> rfl

theorem promote_blind (p : Plane) : Blind (promote p) := by
  intro c b d e s
  have h0 : readAll (fun n => dcrec p n (withStatus c b d e s)) (planeBlocks p) =
    readAll (fun n => dcrec p n s) (planeBlocks p) := rfl
  simp only [promote, h0, cntrl_withStatus, putCntrl_withStatus]
  cases hr : readAll (fun n => dcrec p n s) (planeBlocks p) with
  | error x => exact mapEnd_read (readAll_onlyUninit fun n => lmSigned_onlyUninit _ s) hr _ _
  | ok recs => rfl

theorem reconPlane_blind (p : Plane) (m : Word) (f : Bool) : Blind (reconPlane p m f) :=
  blind_runAll (recon1_blind p m f) _

theorem reconYDc_blind (dc : Bool) : Blind (reconYDc dc) := by
  intro c b d e s
  cases dc with
  | false => rfl
  | true =>
    simp only [reconYDc, if_true, ihs4_blind c b d e s]
    cases ihs4 s with
    | ok t => exact promote_blind .y c b d e t
    | error x => cases x <;> rfl

theorem reconY16_blind (dc border : Bool) : Blind (reconY16 dc border) := by
  intro c b d e s
  simp only [reconY16, reconYDc_blind dc c b d e s]
  cases reconYDc dc s with
  | ok t => exact reconPlane_blind .y _ dc c b d e t
  | error x => cases x <;> rfl

theorem reconCDc_blind (p : Plane) : Blind (reconCDc p) := by
  intro c b d e s
  simp only [reconCDc, ihs2_blind p c b d e s]
  cases ihs2 p s with
  | ok t => exact promote_blind p c b d e t
  | error x => cases x <;> rfl

theorem reconC8_blind (border : Bool) : Blind (reconC8 border) := by
  intro c b d e s
  simp only [reconC8, blind_runAll reconCDc_blind [.cb, .cr] c b d e s]
  cases runAll reconCDc [.cb, .cr] s with
  | error x => cases x <;> rfl
  | ok t =>
    have hm : (withStatus c b d e t).cntrlC = t.cntrlC := rfl
    simp only [mapEnd_ok, hm, reconPlane_blind .cb _ true c b d e t]
    cases reconPlane .cb (masked .cb border t.cntrlC) true t with
    | ok u => exact reconPlane_blind .cr _ true c b d e u
    | error x => cases x <;> rfl

/-! ### Luma -/

theorem emitAc_blind (p : Plane) (n : Nat) : BlindP (emitAc p n) := by
  intro c b d e s
  simp only [emitAc, emitCoef_blind p n true c b d e s]
  cases emitCoef p n true s with
  | error x => cases x <;> rfl
  | ok t =>
    simp only [mapEnd_ok, cntrl_withStatus, putCntrl_withStatus]
    split <;> rfl

theorem emitAcs_blind (p : Plane) (ns : List Nat) : BlindP (emitAcs p ns) := by
  induction ns with
  | nil => exact fun _ _ _ _ _ => rfl
  | cons n ns ih =>
    intro c b d e s
    simp only [emitAcs, emitAc_blind p n c b d e s]
    cases emitAc p n s with
    | error x => cases x <;> rfl
    | ok t =>
      simp only [mapEnd_ok, ih c b d e t.2]
      cases emitAcs p ns t.2 with
      | error x => cases x <;> rfl
      | ok u => rfl

theorem setLayerBits_blind (p : Plane) : Blind (setLayerBits p) := by
  intro c b d e s
  have h0 : readAll (fun n => dccoef p n (withStatus c b d e s)) (planeBlocks p) =
    readAll (fun n => dccoef p n s) (planeBlocks p) := rfl
  simp only [setLayerBits, h0, cntrl_withStatus, putCntrl_withStatus]
  cases hr : readAll (fun n => dccoef p n s) (planeBlocks p) with
  | error x => exact mapEnd_read (readAll_onlyUninit fun n => lmSigned_onlyUninit _ s) hr _ _
  | ok recs => rfl

theorem i16Dc_blind : Blind i16Dc := by
  intro c b d e s
  simp only [i16Dc, blind_runAll (fun n => ftq4_blind .y n true) raster c b d e s]
  cases runAll (fun n => ftq4 .y n true) raster s with
  | error x => cases x <;> rfl
  | ok t =>
    simp only [mapEnd_ok, fhq4_blind c b d e t]
    cases fhq4 t with
    | error x => cases x <;> rfl
    | ok u =>
      have h := setLayerBits_blind .y c b d e { u with cntrlY := 0 }
      have h' : { withStatus c b d e u with cntrlY := 0 } = withStatus c b d e { u with cntrlY := 0 } := rfl
      simp only [mapEnd_ok, h', h]
      cases setLayerBits .y { u with cntrlY := 0 } with
      | error x => cases x <;> rfl
      | ok v =>
        simp only [mapEnd_ok, emitDc_blind .y c b d e v]
        cases emitDc .y v with
        | error x => cases x <;> rfl
        | ok w => rfl

theorem i16Code_blind : Blind i16Code := by
  intro c b d e s
  simp only [i16Code, i16Dc_blind c b d e s]
  cases i16Dc s with
  | error x => cases x <;> rfl
  | ok t =>
    simp only [mapEnd_ok, emitAcs_blind .y blkOrder c b d e t]
    cases emitAcs .y blkOrder t with
    | error x => cases x <;> rfl
    | ok u => rfl

theorem codeI16_blind (recon border : Bool) : Blind (codeI16 recon border) := by
  intro c b d e s
  simp only [codeI16, i16Code_blind c b d e s]
  cases i16Code s with
  | error x => cases x <;> rfl
  | ok t =>
    cases recon with
    | false => rfl
    | true => exact reconY16_blind true border c b d e t

theorem setBits_blind (n : Nat) : Blind (setBits n) := by
  intro c b d e s
  have h0 : readAll (fun k => coef .y n k (withStatus c b d e s)) raster = readAll (fun k => coef .y n k s) raster := rfl
  simp only [setBits, h0]
  cases hr : readAll (fun k => coef .y n k s) raster with
  | error x => exact mapEnd_read (readAll_onlyUninit fun n => lmSigned_onlyUninit _ s) hr _ _
  | ok recs => rfl

theorem i4Code_blind (n : Nat) : Blind (i4Code n) := by
  intro c b d e s
  simp only [i4Code, ftq4_blind .y n false c b d e s]
  cases ftq4 .y n false s with
  | error x => cases x <;> rfl
  | ok t =>
    simp only [mapEnd_ok, setBits_blind n c b d e t]
    cases setBits n t with
    | error x => cases x <;> rfl
    | ok u =>
      simp only [mapEnd_ok, emitCoef_blind .y n false c b d e u]
      cases emitCoef .y n false u with
      | error x => cases x <;> rfl
      | ok v =>
        simp only [mapEnd_ok]
        split <;> rfl

theorem codeI4_blind (n : Nat) (recon : Bool) : Blind (codeI4 n recon) := by
  intro c b d e s
  simp only [codeI4, i4Code_blind n c b d e s]
  cases i4Code n s with
  | error x => cases x <;> rfl
  | ok t =>
    cases recon with
    | false => rfl
    | true => exact recon1_blind .y t.cntrlY false n c b d e t

theorem l16Block_blind (n : Nat) : BlindP (l16Block n) := by
  intro c b d e s
  simp only [l16Block, ftq4_blind .y n false c b d e s]
  cases ftq4 .y n false s with
  | error x => cases x <;> rfl
  | ok t =>
    simp only [mapEnd_ok, emitCoef_blind .y n false c b d e t]
    cases emitCoef .y n false t with
    | error x => cases x <;> rfl
    | ok u =>
      simp only [mapEnd_ok, setBits_blind n c b d e u.2]
      cases setBits n u.2 with
      | error x => cases x <;> rfl
      | ok v => rfl

theorem l16Blocks_blind (ns : List Nat) : BlindP (l16Blocks ns) := by
  induction ns with
  | nil => exact fun _ _ _ _ _ => rfl
  | cons n ns ih =>
    intro c b d e s
    simp only [l16Blocks, l16Block_blind n c b d e s]
    cases l16Block n s with
    | error x => cases x <;> rfl
    | ok t =>
      simp only [mapEnd_ok, ih c b d e t.2]
      cases l16Blocks ns t.2 with
      | error x => cases x <;> rfl
      | ok u => rfl

theorem putSigned_withStatus (a : Nat) (vs : List Int) (s : State) :
    (withStatus c b d e s).putSigned a vs = withStatus c b d e (s.putSigned a vs) := rfl

theorem putNnz_withStatus (p : Plane) (n v : Nat) (s : State) :
    (withStatus c b d e s).putNnz p n v = withStatus c b d e (s.putNnz p n v) := rfl

theorem zeroBlocks_withStatus (p : Plane) (ns : List Nat) (s : State) :
    zeroBlocks p ns (withStatus c b d e s) = withStatus c b d e (zeroBlocks p ns s) := by
  induction ns generalizing s with
  | nil => rfl
  | cons n ns ih => simp only [zeroBlocks, zeroBlock, putNnz_withStatus, putSigned_withStatus, ih]

theorem eliminateGroup_withStatus (g : Nat) (w : Word) (s : State) :
    eliminateGroup g w (withStatus c b d e s) = withStatus c b d e (eliminateGroup g w s) :=
  zeroBlocks_withStatus c b d e .y _
    { s with arenaCur := w, cntrlY := clrBothBits .y (groupBlocks g) s.cntrlY, elim := setBit s.elim g }

theorem eliminateMb_withStatus (w : Word) (s : State) :
    eliminateMb w (withStatus c b d e s) = withStatus c b d e (eliminateMb w s) :=
  zeroBlocks_withStatus c b d e .y _
    { s with arenaCur := w, cntrlY := 0, cbp := withCbpL s.cbp 0, elim := setBit s.elim 4 }

theorem eliminatePlane_withStatus (p : Plane) (w : Word) (s : State) :
    eliminatePlane p w (withStatus c b d e s) = withStatus c b d e (eliminatePlane p w s) :=
  zeroBlocks_withStatus c b d e p _
    { s with
      arenaCur := w
      cntrlC := clrAcBits p [0, 1, 2, 3] s.cntrlC
      elim := setBit s.elim (4 + p.idx) }

theorem l16Group_blind (elim : Bool) (g : Nat) : BlindP (l16Group elim g) := by
  intro c b d e s
  simp only [l16Group, l16Blocks_blind (groupBlocks g) c b d e s]
  cases l16Blocks (groupBlocks g) s with
  | error x => cases x <;> rfl
  | ok r =>
    obtain ⟨gCost, t⟩ := r
    simp only [mapEnd_ok]
    by_cases h : (elim && decide (gCost < thrB8 t)) = true
    · have h' : (elim && decide (gCost < thrB8 (withStatus c b d e t))) = true := h
      simp only [h, h', if_true, mapEnd_ok, Except.ok.injEq, Prod.mk.injEq, true_and]
      exact eliminateGroup_withStatus c b d e g _ t
    · have h' : ¬ (elim && decide (gCost < thrB8 (withStatus c b d e t))) = true := h
      simp only [h, h']
      have hr : readAll (fun n => nnz .y n (withStatus c b d e t)) (groupBlocks g) =
        readAll (fun n => nnz .y n t) (groupBlocks g) := rfl
      simp only [hr]
      cases hx : readAll (fun n => nnz .y n t) (groupBlocks g) with
      | error x =>
        obtain ⟨a, rfl, -⟩ := readAll_onlyUninit (fun n => lmSample_onlyUninit (nnzAddr .y n) t) x hx
        rfl
      | ok counts =>
        by_cases hc : counts.any (· > 0) = true
        · simp only [hc, if_true]; rfl
        · simp only [hc]; rfl

theorem l16Groups_blind (elim : Bool) (gs : List Nat) : BlindP (l16Groups elim gs) := by
  induction gs with
  | nil => exact fun _ _ _ _ _ => rfl
  | cons g gs ih =>
    intro c b d e s
    simp only [l16Groups, l16Group_blind elim g c b d e s]
    cases l16Group elim g s with
    | error x => cases x <;> rfl
    | ok t =>
      simp only [mapEnd_ok, ih c b d e t.2]
      cases l16Groups elim gs t.2 with
      | error x => cases x <;> rfl
      | ok u => rfl

theorem l16Code_blind (elim : Bool) : Blind (l16Code elim) := by
  intro c b d e s
  have h := l16Groups_blind elim [0, 1, 2, 3] c b d e
    { s with cntrlY := 0, cbp := withCbpL s.cbp 0, elim := clrLumaElim s.elim }
  have h0 : { withStatus c b d e s with
      cntrlY := 0, cbp := withCbpL (withStatus c b d e s).cbp 0, elim := clrLumaElim (withStatus c b d e s).elim } =
    withStatus c b d e { s with cntrlY := 0, cbp := withCbpL s.cbp 0, elim := clrLumaElim s.elim } := rfl
  simp only [l16Code, h0, h]
  cases l16Groups elim [0, 1, 2, 3] { s with cntrlY := 0, cbp := withCbpL s.cbp 0, elim := clrLumaElim s.elim } with
  | error x => cases x <;> rfl
  | ok r =>
    obtain ⟨mbCost, t⟩ := r
    have ht : thrMb (withStatus c b d e t) = thrMb t := rfl
    have hc : (withStatus c b d e s).arenaCur = s.arenaCur := rfl
    simp only [mapEnd_ok, ht, hc, eliminateMb_withStatus]
    split <;> rfl

theorem codeL16_blind (elim recon border : Bool) : Blind (codeL16 elim recon border) := by
  intro c b d e s
  simp only [codeL16, l16Code_blind elim c b d e s]
  cases l16Code elim s with
  | error x => cases x <;> rfl
  | ok t =>
    cases recon with
    | false => rfl
    | true => exact reconY16_blind false border c b d e t

/-! ### Chroma -/

theorem c8DcRecord_blind (p : Plane) : Blind (c8DcRecord p) := by
  intro c b d e s
  simp only [c8DcRecord, emitDc_blind p c b d e s]
  cases emitDc p s with
  | error x => cases x <;> rfl
  | ok t => rfl

theorem c8Dc_blind : Blind c8Dc := by
  intro c b d e s
  have hf : ∀ p, Blind (c8Forward p) := fun p => blind_runAll (fun n => ftq4_blind p n true) _
  simp only [c8Dc, blind_runAll hf [.cb, .cr] c b d e s]
  cases runAll c8Forward [.cb, .cr] s with
  | error x => cases x <;> rfl
  | ok t =>
    simp only [mapEnd_ok, blind_runAll fhq2_blind [.cb, .cr] c b d e t]
    cases runAll fhq2 [.cb, .cr] t with
    | error x => cases x <;> rfl
    | ok u =>
      have h := blind_runAll setLayerBits_blind [.cb, .cr] c b d e { u with cntrlC := 0, elim := clrChromaElim u.elim }
      have h' : { withStatus c b d e u with cntrlC := 0, elim := clrChromaElim (withStatus c b d e u).elim } =
        withStatus c b d e { u with cntrlC := 0, elim := clrChromaElim u.elim } := rfl
      simp only [mapEnd_ok, h', h]
      cases runAll setLayerBits [.cb, .cr] { u with cntrlC := 0, elim := clrChromaElim u.elim } with
      | error x => cases x <;> rfl
      | ok v => exact blind_runAll c8DcRecord_blind _ c b d e v

theorem c8Ac_blind (elim : Bool) (p : Plane) : BlindP (c8Ac elim p) := by
  intro c b d e s
  simp only [c8Ac, emitAcs_blind p _ c b d e s]
  cases emitAcs p [0, 1, 2, 3] s with
  | error x => cases x <;> rfl
  | ok r =>
    obtain ⟨⟨any, cost⟩, t⟩ := r
    have ht : thrC (withStatus c b d e t) = thrC t := rfl
    have hc : (withStatus c b d e s).arenaCur = s.arenaCur := rfl
    simp only [mapEnd_ok, ht, hc, eliminatePlane_withStatus]
    split <;> rfl

theorem chromaCbp_blind : Blind chromaCbp := by
  intro c b d e s
  have h0 : ∀ p, nnzdc p (withStatus c b d e s) = nnzdc p s := fun _ => rfl
  have h1 : ∀ p n, nnz p n (withStatus c b d e s) = nnz p n s := fun _ _ => rfl
  simp only [chromaCbp, h0, h1]
  cases hb : nnzdc .cb s with
  | error x => exact mapEnd_read (lmSample_onlyUninit _ s) hb _ _
  | ok dcb =>
    dsimp only
    cases hr : nnzdc .cr s with
    | error x => exact mapEnd_read (lmSample_onlyUninit _ s) hr _ _
    | ok dcr =>
      dsimp only
      cases hab : readAll (fun n => nnz .cb n s) [0, 1, 2, 3] with
      | error x => exact mapEnd_read (readAll_onlyUninit fun n => lmSample_onlyUninit _ s) hab _ _
      | ok acb =>
        dsimp only
        cases har : readAll (fun n => nnz .cr n s) [0, 1, 2, 3] with
        | error x => exact mapEnd_read (readAll_onlyUninit fun n => lmSample_onlyUninit _ s) har _ _
        | ok acr => rfl

theorem c8Code_blind (elim : Bool) : Blind (c8Code elim) := by
  intro c b d e s
  simp only [c8Code, c8Dc_blind c b d e s]
  cases c8Dc s with
  | error x => cases x <;> rfl
  | ok t =>
    simp only [mapEnd_ok, c8Ac_blind elim .cb c b d e t]
    cases c8Ac elim .cb t with
    | error x => cases x <;> rfl
    | ok r =>
      simp only [mapEnd_ok, c8Ac_blind elim .cr c b d e r.2]
      cases c8Ac elim .cr r.2 with
      | error x => cases x <;> rfl
      | ok q => exact chromaCbp_blind c b d e { q.2 with costC := BitVec.ofNat 32 (r.1 + 2 ^ 16 * q.1) }

theorem codeC8_blind (elim recon border : Bool) : Blind (codeC8 elim recon border) := by
  intro c b d e s
  simp only [codeC8, c8Code_blind elim c b d e s]
  cases c8Code elim s with
  | error x => cases x <;> rfl
  | ok t =>
    cases recon with
    | false => rfl
    | true => exact reconC8_blind border c b d e t

/-! ### Every command -/

/-- The steps of every command are blind to CMD, BUSY, DONE and ERR. -/
theorem stepsOf_blind (i : Instr) : Blind (stepsOf i) := by
  cases i with
  | nop => exact nop_blind
  | ftq4 p n dcx => exact ftq4_blind p n.val dcx
  | fhq4 => exact fhq4_blind
  | fhq2 p => exact fhq2_blind p
  | ihs4 => exact ihs4_blind
  | ihs2 p => exact ihs2_blind p
  | iqtr4 p n dcsrc => exact iqtr4_blind p n.val dcsrc
  | iqtr4dc p n dcsrc => exact iqtr4dc_blind p n.val dcsrc
  | copy4 p n => exact copy4_blind p n.val
  | pack4 p n ac => exact pack4_blind p n.val ac
  | packdc p => exact packdc_blind p
  | mbBegin => exact mbBegin_blind
  | codeI16 recon border => exact codeI16_blind recon border
  | codeI4 n recon => exact codeI4_blind n.val recon
  | codeL16 elim recon border => exact codeL16_blind elim recon border
  | codeC8 elim recon border => exact codeC8_blind elim recon border
  | reconY16 dc border => exact reconY16_blind dc border
  | reconC8 border => exact reconC8_blind border

/-- The issue checks do not read ERR. -/
theorem issueCheck_err (i : Instr) (s : State) (x : Option ErrorRecord) :
    issueCheck i { s with err := x } = issueCheck i s := by
  have h : ∀ p, qpDiv p { s with err := x } = qpDiv p s := fun p => by cases p <;> rfl
  simp [issueCheck, qparamOk, h]

/-- The steps of an accepted command, whatever ERR holds. -/
theorem stepsOf_err (i : Instr) (s : State) (x : Option ErrorRecord) :
    stepsOf i (accept (encode i) { s with err := x }) =
      mapEnd (withStatus (encode i) true s.done x) (withStatus (encode i) true s.done x)
        (stepsOf i (accept (encode i) s)) :=
  stepsOf_blind i (encode i) true s.done x (accept (encode i) s)

/-- A command whose steps end, whatever ERR holds: the same end, ERR kept. -/
theorem exec_of_steps {i : Instr} {s u : State} (x : Option ErrorRecord) (hc : issueCheck i s = none)
    (hs : stepsOf i (accept (encode i) s) = .ok u) : exec i { s with err := x } = .next { complete u with err := x } := by
  have hu : u.cmd = encode i := ((stepsOf_works i 0 _ (wf_of_issueCheck hc)).ok hs).cmd
  rw [exec_eq]
  simp only [command, issueCheck_err, hc]
  rw [stepsOf_err, hs]
  simp only [mapEnd_ok, finish, complete, withStatus, hu]

/-- A command ends normally exactly when it passes its issue checks and none of its steps stops it. -/
theorem endsNormally_iff (i : Instr) (s : State) :
    EndsNormally i s ↔ issueCheck i s = none ∧ ∃ u, stepsOf i (accept (encode i) s) = .ok u := by
  constructor
  · rintro ⟨t, ht, he⟩
    rw [exec_eq] at ht
    simp only [command, issueCheck_err] at ht
    cases hc : issueCheck i s with
    | some code => simp [hc, refuse, record, complete] at ht; subst ht; simp at he
    | none =>
      refine ⟨rfl, ?_⟩
      simp only [hc] at ht
      rw [stepsOf_err] at ht
      cases hs : stepsOf i (accept (encode i) s) with
      | ok u => exact ⟨u, rfl⟩
      | error y =>
        rw [hs] at ht
        cases y with
        | uninit a => simp [finish] at ht
        | raised c u =>
          simp [finish, record, complete, withStatus] at ht
          subst ht
          simp at he
  · rintro ⟨hc, u, hs⟩
    exact ⟨_, exec_of_steps none hc hs, rfl⟩

/-- What a command that ends normally answers: the end of its steps, completed. -/
theorem endsNormally_exec {i : Instr} {s : State} (h : EndsNormally i s) :
    issueCheck i s = none ∧ ∃ u, stepsOf i (accept (encode i) s) = .ok u ∧ exec i s = .next (complete u) := by
  obtain ⟨hc, u, hs⟩ := (endsNormally_iff i s).mp h
  exact ⟨hc, u, hs, by rw [exec_eq]; simp only [command, hc, hs, finish]⟩

end Laws

end Sys2Proof.Machine
end

