-- ==== Sys2Proof/Laws/Completes.lean ====
section
/-! SUPPORT. When the steps of a command end normally: the local-memory bytes they read have a value and the arena has
room. `<steps>_completes` gives the state, how far the cursor and the arena writes can reach, and which bytes now have
a value. -/

namespace Sys2Proof.Machine

/-! ### Readable bytes -/

theorem Readable.append {l k : List Nat} {s : State} (h : Readable l s) (h' : Readable k s) : Readable (l ++ k) s := by
  intro a ha
  rcases List.mem_append.mp ha with ha | ha
  · exact h a ha
  · exact h' a ha

theorem Readable.left {l k : List Nat} {s : State} (h : Readable (l ++ k) s) : Readable l s := fun a ha =>
  h a (List.mem_append_left _ ha)

theorem Readable.right {l k : List Nat} {s : State} (h : Readable (l ++ k) s) : Readable k s := fun a ha =>
  h a (List.mem_append_right _ ha)

theorem Readable.flat {f : Nat → List Nat} {l : List Nat} {s : State} (h : Readable (l.flatMap f) s) {n : Nat}
    (hn : n ∈ l) : Readable (f n) s := fun a ha => h a (List.mem_flatMap.mpr ⟨n, hn, ha⟩)

/-- Consecutive bytes have a value, so each 16-bit element among them does. -/
theorem Readable.pair {a n k : Nat} {s : State} (h : Readable (addrs a n) s) (hk : 2 * k + 2 ≤ n) :
    (s.lm.read (a + 2 * k)).isSome = true ∧ (s.lm.read (a + 2 * k + 1)).isSome = true :=
  ⟨h _ (Laws.mem_addrs.mpr (by omega)), h _ (Laws.mem_addrs.mpr (by omega))⟩

namespace Laws

/-! ### How far steps can grow the state -/

/-- From `s` to `t` the cursor moved on by at most `k` bytes, no arena byte from there on changed, and no
local-memory byte lost its value. -/
structure Grown (k : Nat) (s t : State) : Prop where
  cur : t.arenaCur.toNat ≤ s.arenaCur.toNat + k
  above : ∀ a, s.arenaCur.toNat + k ≤ a → t.arena.read a = s.arena.read a
  fin : t.arenaEnd = s.arenaEnd
  grows : ∀ a, (s.lm.read a).isSome = true → (t.lm.read a).isSome = true

theorem Grown.refl (k : Nat) (s : State) : Grown k s s := ⟨by omega, fun _ _ => rfl, rfl, fun _ h => h⟩

theorem Grown.trans {j k : Nat} {s t u : State} (h : Grown j s t) (h' : Grown k t u) : Grown (j + k) s u where
  cur := by have := h.cur; have := h'.cur; omega
  above a ha := by
    have := h.cur
    rw [h'.above a (by omega), h.above a (by omega)]
  fin := h'.fin.trans h.fin
  grows a ha := h'.grows a (h.grows a ha)

theorem Grown.mono {j k : Nat} {s t : State} (h : Grown j s t) (hk : j ≤ k) : Grown k s t where
  cur := by have := h.cur; omega
  above a ha := h.above a (by omega)
  fin := h.fin
  grows := h.grows

theorem Grown.readable {k : Nat} {s t : State} (h : Grown k s t) {l : List Nat} (hr : Readable l s) : Readable l t :=
  fun a ha => h.grows a (hr a ha)

/-- A change of local memory by consecutive 16-bit stores. -/
theorem grown_putSigned (k : Nat) (s : State) (a : Nat) (vs : List Int) : Grown k s (s.putSigned a vs) :=
  ⟨Nat.le_add_right _ _, fun _ _ => rfl, rfl, fun _ h => MemoryLaws.writeHalves_grows _ _ _ _ h⟩

theorem grown_putByte (k : Nat) (s : State) (a : Nat) (b : Byte) : Grown k s (s.putByte a b) :=
  ⟨Nat.le_add_right _ _, fun _ _ => rfl, rfl, fun _ h => MemoryLaws.write_grows _ _ _ _ h⟩

theorem recRow_grows (p : Plane) (n r : Nat) (vs : List Int) (m : Memory) (a : Nat) (h : (m.read a).isSome = true) :
    ((recRow p n r vs m).read a).isSome = true := MemoryLaws.writeBytes_grows _ _ _ _ h

theorem grown_putRec (k : Nat) (s : State) (p : Plane) (n : Nat) (vs : List Int) : Grown k s (s.putRec p n vs) :=
  ⟨Nat.le_add_right _ _, fun _ _ => rfl, rfl, fun _ h =>
    recRow_grows _ _ _ _ _ _ (recRow_grows _ _ _ _ _ _ (recRow_grows _ _ _ _ _ _ (recRow_grows _ _ _ _ _ _ h)))⟩

theorem grown_putCntrl (k : Nat) (s : State) (p : Plane) (w : Word) : Grown k s (s.putCntrl p w) := by
  cases p <;> exact ⟨Nat.le_add_right _ _, fun _ _ => rfl, rfl, fun _ h => h⟩

/-- A change of registers alone, the cursor and its end apart. -/
theorem grown_regs (k : Nat) {s t : State} (hc : t.arenaCur = s.arenaCur) (hf : t.arenaEnd = s.arenaEnd)
    (ha : t.arena = s.arena) (hl : t.lm = s.lm) : Grown k s t :=
  ⟨by rw [hc]; exact Nat.le_add_right _ _, fun _ _ => by rw [ha], hf, fun _ h => by rw [hl]; exact h⟩

/-- A run of 16-bit stores gives its bytes a value. -/
theorem readable_putSigned (s : State) (a : Nat) (vs : List Int) : Readable (addrs a (2 * vs.length)) (s.putSigned a vs) := by
  intro x hx
  obtain ⟨h0, h1⟩ := mem_addrs.mp hx
  have hl : (vs.map (BitVec.ofInt 16)).length = vs.length := List.length_map _
  have hi : (x - a) / 2 < (vs.map (BitVec.ofInt 16)).length := by rw [hl]; omega
  by_cases he : (x - a) % 2 = 0
  · have := MemoryLaws.read_writeHalves_lo s.lm a ((x - a) / 2) _ hi
    rw [show a + 2 * ((x - a) / 2) = x by omega] at this
    rw [StateLaws.putSigned_lm, this]; rfl
  · have := MemoryLaws.read_writeHalves_hi s.lm a ((x - a) / 2) _ hi
    rw [show a + 2 * ((x - a) / 2) + 1 = x by omega] at this
    rw [StateLaws.putSigned_lm, this]; rfl

theorem readable_putByte (s : State) (a : Nat) (b : Byte) : Readable [a] (s.putByte a b) := by
  intro x hx
  have : x = a := by simpa using hx
  subst this
  show ((s.lm.write x b).read x).isSome = true
  rw [MemoryLaws.read_write_same]; rfl

/-- Steps end normally: what they need has a value and the arena has `k` bytes of room; afterwards `out` has a
value. -/
def Completes (k : Nat) (out : List Nat) (s : State) (r : Except Stop State) : Prop :=
  ∃ t, r = .ok t ∧ Grown k s t ∧ Readable out t

/-- The same of steps that answer a value beside the state. -/
def CompletesP (k : Nat) (out : List Nat) (s : State) (r : Except Stop (α × State)) : Prop :=
  ∃ v t, r = .ok (v, t) ∧ Grown k s t ∧ Readable out t

/-- Steps in order, each with its own room. -/
theorem runAll_completes {f : α → State → Except Stop State} {need : List Nat} {out : α → List Nat} {k : Nat}
    (h : ∀ a s, Readable need s → s.arenaCur.toNat + k ≤ s.arenaEnd.toNat → Completes k (out a) s (f a s))
    (l : List α) (s : State) (hr : Readable need s) (hk : s.arenaCur.toNat + k * l.length ≤ s.arenaEnd.toNat) :
    ∃ t, runAll f l s = .ok t ∧ Grown (k * l.length) s t ∧ ∀ a ∈ l, Readable (out a) t := by
  induction l generalizing s with
  | nil => exact ⟨s, rfl, Grown.refl _ _, by simp⟩
  | cons a l ih =>
    simp only [List.length_cons, Nat.mul_add, Nat.mul_one] at hk ⊢
    obtain ⟨t, ht, hg, ho⟩ := h a s hr (by omega)
    obtain ⟨u, hu, hg', ho'⟩ := ih t (hg.readable hr) (by have := hg.cur; rw [hg.fin]; omega)
    refine ⟨u, by simp only [runAll, ht, hu], (hg.trans hg').mono (by omega), fun b hb => ?_⟩
    rcases List.mem_cons.mp hb with hb | hb
    · subst hb; exact hg'.readable ho
    · exact ho' b hb

/-! ### Forward commands -/

theorem sample_mem (base : Nat) (p : Plane) (n : Nat) {k : Nat} (hk : k ∈ raster) :
    sampleAddr base p n (k / 4) (k % 4) ∈ sampleAddrs base p n := List.mem_map.mpr ⟨k, hk, rfl⟩

theorem residual_defined {p : Plane} {n : Nat} {s : State} (h : Readable (pixelAddrs p n) s) :
    ∃ res, residual p n s = .ok res := by
  refine readAll_defined fun k hk => ?_
  obtain ⟨a, ha⟩ := lmSample_defined (h.left _ (sample_mem srcBase p n hk))
  obtain ⟨b, hb⟩ := lmSample_defined (h.right _ (sample_mem predBase p n hk))
  exact ⟨(a : Int) - (b : Int), by simp only [residualAt, srcSample, predSample, ha, hb]⟩

theorem table_defined {t k : Nat} {p : Plane} {s : State} (h : Readable (tableAddrs p t) s) (hk : k < 16) :
    ∃ v, table t p k s = .ok v := by
  have hp := Readable.pair (k := k) h (by omega)
  have he : tableAddr p t 0 + 2 * k = tableAddr p t k := by simp only [tableAddr]; omega
  rw [he] at hp
  exact lmUnsigned_defined hp.1 hp.2

theorem quantAt_defined {p : Plane} {k qb rd : Nat} {x : Int} {s : State} (h : Readable (forwardTables p) s)
    (hk : k < 16) : ∃ v, quantAt p k qb rd x s = .ok v := by
  obtain ⟨sc, hsc⟩ := table_defined h.left hk
  obtain ⟨th, hth⟩ := table_defined h.right hk
  exact ⟨trunc16 (quant x sc th qb rd), by simp only [quantAt, hsc, hth]⟩

theorem ftLevel_defined {p : Plane} {dcx : Bool} {w : Mat Int} {k : Nat} {s : State}
    (h : Readable (forwardTables p) s) (hk : k < 16) : ∃ v, ftLevel p dcx w s k = .ok v := by
  simp only [ftLevel]
  split
  · exact ⟨0, rfl⟩
  · exact quantAt_defined h hk

/-- What FTQ4 leaves a value in. -/
def ftWritten (p : Plane) (n : Nat) (dcx : Bool) : List Nat :=
  addrs (coefAddr p n 0) 32 ++ [nnzAddr p n] ++ (if dcx then addrs (dcsaveAddr p n) 2 else [])

theorem ftq4_completes (k : Nat) {p : Plane} {n : Nat} (dcx : Bool) {s : State} (hp : Readable (pixelAddrs p n) s)
    (ht : Readable (forwardTables p) s) : Completes k (ftWritten p n dcx) s (ftq4 p n dcx s) := by
  obtain ⟨res, hres⟩ := residual_defined hp
  obtain ⟨levels, hl⟩ := readAll_defined (f := ftLevel p dcx (ft4 (matOfList res)) s) (l := raster)
    fun k hk => ftLevel_defined ht (raster_lt16 hk)
  have hlen : levels.length = 16 := readAll_length hl
  refine ⟨_, by simp only [ftq4, hres, hl]; rfl, ?_, ?_⟩
  · have h0 : Grown 0 s
        (if dcx then s.putSigned (dcsaveAddr p n) [trunc16 (matAt (ft4 (matOfList res)) 0)] else s) := by
      split
      · exact grown_putSigned _ _ _ _
      · exact Grown.refl _ _
    exact ((h0.trans (grown_putSigned 0 _ _ _)).trans (grown_putByte 0 _ _ _)).mono (by omega)
  · refine Readable.append (Readable.append ?_ (readable_putByte _ _ _)) ?_
    · refine (grown_putByte 0 _ _ _).readable ?_
      have := readable_putSigned
        (if dcx then s.putSigned (dcsaveAddr p n) [trunc16 (matAt (ft4 (matOfList res)) 0)] else s)
        (coefAddr p n 0) levels
      rwa [hlen] at this
    · cases dcx with
      | true =>
        refine (grown_putByte 0 _ _ _).readable ((grown_putSigned 0 _ _ _).readable ?_)
        exact readable_putSigned s (dcsaveAddr p n) [trunc16 (matAt (ft4 (matOfList res)) 0)]
      | false => intro a ha; cases ha

theorem dcsave_defined {p : Plane} {n : Nat} {s : State} (h : Readable (dcsaveAddrs p) s) (hn : n < p.nb) :
    ∃ v, dcsave p n s = .ok v := by
  have hp := Readable.pair (k := n) h (by omega)
  have he : dcsaveAddr p 0 + 2 * n = dcsaveAddr p n := by simp only [dcsaveAddr]; omega
  rw [he] at hp
  exact lmSigned_defined hp.1 hp.2

/-- The levels of a DC layer and their count stored. -/
theorem readable_dcLayer {p : Plane} (s : State) (levels : List Int) (v : Nat) (hl : levels.length = p.nb) :
    Readable (dcLayerAddrs p) ((s.putSigned (dccoefAddr p 0) levels).putNnzdc p v) := by
  refine Readable.append ((grown_putByte 0 _ _ _).readable ?_) (readable_putByte _ _ _)
  have := readable_putSigned s (dccoefAddr p 0) levels
  rwa [hl] at this

theorem fhq4_completes (k : Nat) {s : State} (hd : Readable (dcsaveAddrs .y) s) (ht : Readable (forwardTables .y) s) :
    Completes k (dcLayerAddrs .y) s (fhq4 s) := by
  obtain ⟨dcs, hdcs⟩ := readAll_defined (f := fun n => dcsave .y n s) (l := raster)
    fun n hn => dcsave_defined hd (raster_lt hn)
  obtain ⟨levels, hl⟩ := readAll_defined (f := fhq4Level (h4 (matOfList dcs)) s) (l := raster)
    fun k _ => quantAt_defined ht (by decide)
  exact ⟨_, by simp only [fhq4, hdcs, hl]; rfl, ((grown_putSigned 0 _ _ _).trans (grown_putByte 0 _ _ _)).mono (by omega),
    readable_dcLayer s levels _ (readAll_length hl)⟩

theorem fhq2_completes (k : Nat) {p : Plane} {s : State} (hp : p.isChroma = true) (hd : Readable (dcsaveAddrs p) s)
    (ht : Readable (forwardTables p) s) : Completes k (dcLayerAddrs p) s (fhq2 p s) := by
  have hnb : p.nb = 4 := by cases p <;> simp_all [Plane.isChroma, Plane.nb]
  obtain ⟨dcs, hdcs⟩ := readAll_defined (f := fun n => dcsave p n s) (l := [0, 1, 2, 3])
    fun n hn => dcsave_defined hd (four_lt hn)
  obtain ⟨levels, hl⟩ := readAll_defined (f := fhq2Level p (h2 (quadOfList dcs)) s) (l := [0, 1, 2, 3])
    fun k _ => quantAt_defined ht (by decide)
  exact ⟨_, by simp only [fhq2, hdcs, hl]; rfl, ((grown_putSigned 0 _ _ _).trans (grown_putByte 0 _ _ _)).mono (by omega),
    readable_dcLayer s levels _ (by rw [readAll_length hl, hnb]; rfl)⟩

/-! ### Inverse commands -/

theorem withScales_defined {p : Plane} {k : Nat} {s : State} (h : Readable (inverseTables p) s) (hk : k < 16)
    (f : Nat → Nat → Int) : ∃ v, withScales p k s f = .ok v := by
  obtain ⟨isc, hisc⟩ := table_defined h.left hk
  obtain ⟨wt, hwt⟩ := table_defined h.right hk
  exact ⟨f isc wt, by simp only [withScales, hisc, hwt]⟩

theorem dccoef_defined {p : Plane} {n : Nat} {s : State} (h : Readable (dccoefAddrs p) s) (hn : n < p.nb) :
    ∃ v, dccoef p n s = .ok v := by
  have hp := Readable.pair (k := n) h (by omega)
  have he : dccoefAddr p 0 + 2 * n = dccoefAddr p n := by simp only [dccoefAddr]; omega
  rw [he] at hp
  exact lmSigned_defined hp.1 hp.2

theorem ihs4_completes (k : Nat) {s : State} (hd : Readable (dccoefAddrs .y) s) (ht : Readable (inverseTables .y) s) :
    Completes k (dcrecAddrs .y) s (ihs4 s) := by
  obtain ⟨dcs, hdcs⟩ := readAll_defined (f := fun k => dccoef .y k s) (l := raster)
    fun n hn => dccoef_defined hd (raster_lt hn)
  obtain ⟨recs, hl⟩ := readAll_defined (l := raster)
    (f := fun n => withScales .y 0 s fun isc wt => trunc16 (dcScale4 (qpDiv .y s) isc wt (matAt (h4 (matOfList dcs)) n)))
    fun k _ => withScales_defined ht (by decide) _
  refine ⟨_, by simp only [ihs4, hdcs, hl]; rfl, grown_putSigned _ _ _ _, ?_⟩
  have := readable_putSigned s (dcrecAddr .y 0) recs
  rwa [readAll_length hl] at this

theorem ihs2_completes (k : Nat) {p : Plane} {s : State} (hp : p.isChroma = true) (hd : Readable (dccoefAddrs p) s)
    (ht : Readable (inverseTables p) s) : Completes k (dcrecAddrs p) s (ihs2 p s) := by
  have hnb : p.nb = 4 := by cases p <;> simp_all [Plane.isChroma, Plane.nb]
  obtain ⟨dcs, hdcs⟩ := readAll_defined (f := fun k => dccoef p k s) (l := [0, 1, 2, 3])
    fun n hn => dccoef_defined hd (four_lt hn)
  obtain ⟨recs, hl⟩ := readAll_defined (l := [0, 1, 2, 3])
    (f := fun n => withScales p 0 s fun isc wt => trunc16 (dcScale2 (qpDiv p s) isc wt (quadAt (h2 (quadOfList dcs)) n)))
    fun k _ => withScales_defined ht (by decide) _
  refine ⟨_, by simp only [ihs2, hdcs, hl]; rfl, grown_putSigned _ _ _ _, ?_⟩
  have := readable_putSigned s (dcrecAddr p 0) recs
  rw [readAll_length hl] at this
  rw [dcrecAddrs, hnb]; exact this

theorem coef_defined {p : Plane} {n k : Nat} {s : State} (h : Readable (addrs (coefAddr p n 0) 32) s) (hk : k < 16) :
    ∃ v, coef p n k s = .ok v := by
  have hp := Readable.pair (k := k) h (by omega)
  have he : coefAddr p n 0 + 2 * k = coefAddr p n k := by cases p <;> simp only [coefAddr] <;> omega
  rw [he] at hp
  exact lmSigned_defined hp.1 hp.2

theorem dcrec_defined {p : Plane} {n : Nat} {s : State} (h : Readable (addrs (dcrecAddr p n) 2) s) :
    ∃ v, dcrec p n s = .ok v := by
  have hp := Readable.pair (k := 0) h (by omega)
  exact lmSigned_defined hp.1 hp.2

theorem predBlock_defined {p : Plane} {n : Nat} {s : State} (h : Readable (sampleAddrs predBase p n) s) :
    ∃ pr, predBlock p n s = .ok pr :=
  readAll_defined fun _ hk => lmSample_defined (h _ (sample_mem predBase p n hk))

theorem dequantAt_defined {p : Plane} {n k : Nat} {s : State} (hc : Readable (addrs (coefAddr p n 0) 32) s)
    (ht : Readable (inverseTables p) s) (hk : k < 16) : ∃ v, dequantAt p n k s = .ok v := by
  obtain ⟨c, hcv⟩ := coef_defined hc hk
  simp only [dequantAt, hcv]
  exact withScales_defined ht hk _

theorem iqInput_defined {p : Plane} {n k : Nat} {f : Bool} {s : State} (hc : Readable (addrs (coefAddr p n 0) 32) s)
    (hd : f = true → Readable (addrs (dcrecAddr p n) 2) s) (ht : Readable (inverseTables p) s) (hk : k < 16) :
    ∃ v, iqInput p n f s k = .ok v := by
  simp only [iqInput]
  split
  · rename_i h
    exact dcrec_defined (hd (by simp at h; exact h.1))
  · exact dequantAt_defined hc ht hk

theorem iqtr4_completes (k : Nat) {p : Plane} {n : Nat} {f : Bool} {s : State}
    (hc : Readable (addrs (coefAddr p n 0) 32) s) (hd : f = true → Readable (addrs (dcrecAddr p n) 2) s)
    (hp : Readable (sampleAddrs predBase p n) s) (ht : Readable (inverseTables p) s) :
    Completes k [] s (iqtr4 p n f s) := by
  obtain ⟨d, hdv⟩ := readAll_defined (f := iqInput p n f s) (l := raster)
    fun k hk => iqInput_defined hc hd ht (raster_lt16 hk)
  obtain ⟨pr, hpr⟩ := predBlock_defined hp
  exact ⟨_, by simp only [iqtr4, hdv, hpr]; rfl, grown_putRec _ _ _ _ _, fun a ha => by cases ha⟩

theorem iqtr4dc_completes (k : Nat) {p : Plane} {n : Nat} {f : Bool} {s : State}
    (hq : ∃ q0, iqInput p n f s 0 = .ok q0) (hp : Readable (sampleAddrs predBase p n) s) :
    Completes k [] s (iqtr4dc p n f s) := by
  obtain ⟨q0, hq0⟩ := hq
  obtain ⟨pr, hpr⟩ := predBlock_defined hp
  exact ⟨_, by simp only [iqtr4dc, hq0, hpr]; rfl, grown_putRec _ _ _ _ _, fun a ha => by cases ha⟩

theorem copy4_completes (k : Nat) {p : Plane} {n : Nat} {s : State} (hp : Readable (sampleAddrs predBase p n) s) :
    Completes k [] s (copy4 p n s) := by
  obtain ⟨pr, hpr⟩ := predBlock_defined hp
  exact ⟨_, by simp only [copy4, hpr]; rfl, grown_putRec _ _ _ _ _, fun a ha => by cases ha⟩

/-! ### Records -/

theorem emit_completes {start : Nat} {vs : List Int} {s : State} {k : Nat} (hl : start + vs.length ≤ 16)
    (hk : 4 + 2 * vs.length ≤ k) (hroom : s.arenaCur.toNat + k ≤ s.arenaEnd.toNat) :
    CompletesP k [] s (emit start vs s) := by
  have hlen := recordHalves_length start vs hl
  have hshort : recordLen start vs ≤ k := by
    have := nnzOf_sig start vs hl
    have := countNonzero_le vs
    simp only [recordLen]; omega
  rcases emit_cases start vs s with ⟨hlt, -⟩ | ⟨hle, he⟩
  · omega
  · have hcur : (BitVec.ofNat 32 (s.arenaCur.toNat + recordLen start vs)).toNat = s.arenaCur.toNat + recordLen start vs := by
      rw [BitVec.toNat_ofNat, Nat.mod_eq_of_lt (Nat.lt_of_le_of_lt hle s.arenaEnd.isLt)]
    refine ⟨_, _, he, ⟨?_, fun a ha => ?_, rfl, fun _ h => h⟩, fun a ha => by cases ha⟩
    · simp only [hcur]; omega
    · exact MemoryLaws.read_writeHalves_out _ _ _ _ (by omega)

theorem zigzag_lt {n : Nat} (h : n ∈ zigzag) : n < 16 := by
  simp only [zigzag, List.mem_cons, List.not_mem_nil, or_false] at h
  omega

theorem coefScan_defined {p : Plane} {n start : Nat} {s : State} (h : Readable (addrs (coefAddr p n 0) 32) s) :
    ∃ vs, coefScan p n start s = .ok vs :=
  readAll_defined fun _ hk => coef_defined h (zigzag_lt (List.mem_of_mem_drop hk))

/-- The most a record of a 4x4 block takes: 36 bytes, 34 for an AC record (42_pack.md R204). -/
def coefRoom (ac : Bool) : Nat := if ac then 34 else 36

theorem emitCoef_completes {p : Plane} {n : Nat} {ac : Bool} {s : State}
    (h : Readable (addrs (coefAddr p n 0) 32) s) (hroom : s.arenaCur.toNat + coefRoom ac ≤ s.arenaEnd.toNat) :
    CompletesP (coefRoom ac) [nnzAddr p n] s (emitCoef p n ac s) := by
  obtain ⟨vs, hvs⟩ := coefScan_defined (start := scanStart ac) h
  have hl := coefScan_length hvs
  have hs := scanStart_le ac
  obtain ⟨r, t, ht, hg, -⟩ := emit_completes (start := scanStart ac) (vs := vs) (s := s) (k := coefRoom ac)
    (by omega) (by cases ac <;> simp_all [scanStart, coefRoom]) hroom
  exact ⟨r, _, by simp only [emitCoef, hvs, ht]; rfl, (hg.trans (grown_putByte 0 _ _ _)).mono (by omega),
    readable_putByte _ _ _⟩

theorem dcScan_lt {p : Plane} {n : Nat} (h : n ∈ dcScan p) : n < p.nb := by
  cases p
  · exact zigzag_lt h
  · exact four_lt h
  · exact four_lt h

theorem emitDc_completes {p : Plane} {s : State} (h : Readable (dccoefAddrs p) s)
    (hroom : s.arenaCur.toNat + (4 + 2 * p.nb) ≤ s.arenaEnd.toNat) :
    CompletesP (4 + 2 * p.nb) [] s (emitDc p s) := by
  obtain ⟨vs, hvs⟩ := readAll_defined (f := fun k => dccoef p k s) (l := dcScan p)
    fun n hn => dccoef_defined h (dcScan_lt hn)
  have hl : vs.length = p.nb := (readAll_length hvs).trans (dcScan_length p)
  have := nb_le p
  obtain ⟨r, t, ht, hg, -⟩ := emit_completes (start := 0) (vs := vs) (s := s) (k := 4 + 2 * p.nb)
    (by omega) (by omega) hroom
  exact ⟨r, _, by simp only [emitDc, hvs, ht]; rfl, (hg.trans (grown_putByte 0 _ _ _)).mono (by omega),
    fun a ha => by cases ha⟩

/-! ### Reconstruction -/

theorem recon1_completes (k : Nat) {p : Plane} {n : Nat} {m : Word} {f : Bool} {s : State}
    (hc : Readable (addrs (coefAddr p n 0) 32) s) (hd : f = true → Readable (addrs (dcrecAddr p n) 2) s)
    (hp : Readable (sampleAddrs predBase p n) s) (ht : Readable (inverseTables p) s) :
    Completes k [] s (recon1 p m f n s) := by
  simp only [recon1]
  split
  · exact iqtr4_completes k hc hd hp ht
  · split
    · exact iqtr4dc_completes k (iqInput_defined hc hd ht (by decide)) hp
    · exact copy4_completes k hp

theorem dcrec_plane {p : Plane} {n : Nat} {s : State} (hn : n < p.nb) (h : Readable (dcrecAddrs p) s) :
    Readable (addrs (dcrecAddr p n) 2) s := fun a ha =>
  h a (mem_addrs.mpr (by have := mem_addrs.mp ha; simp only [dcrecAddr] at *; omega))

theorem reconPlane_completes (k : Nat) {p : Plane} {m : Word} {f : Bool} {s : State} (hi : Readable (reconInputs p) s)
    (hd : f = true → Readable (dcrecAddrs p) s) : Completes k [] s (reconPlane p m f s) := by
  suffices h : ∀ l, (∀ n ∈ l, n < p.nb) → ∀ s, Readable (reconInputs p) s →
      (f = true → Readable (dcrecAddrs p) s) → Completes k [] s (runAll (recon1 p m f) l s) from
    h _ (fun _ hn => planeBlocks_lt hn) s hi hd
  intro l
  induction l with
  | nil => intro _ s _ _; exact ⟨s, rfl, Grown.refl _ _, fun a ha => by cases ha⟩
  | cons n l ih =>
    intro hl s hi hd
    have hn := hl n (by simp)
    obtain ⟨t, ht, hg, -⟩ := recon1_completes 0 (p := p) (n := n) (m := m) (f := f) (s := s)
      (hi.left.left.flat (mem_planeBlocks hn)) (fun hf => dcrec_plane hn (hd hf))
      (hi.left.right.flat (mem_planeBlocks hn)) hi.right
    obtain ⟨u, hu, hg', -⟩ := ih (fun n hn => hl n (by simp [hn])) t (hg.readable hi) fun hf => hg.readable (hd hf)
    exact ⟨u, by simp only [runAll, ht, hu], (hg.trans hg').mono (by omega), fun a ha => by cases ha⟩

theorem promote_completes (k : Nat) {p : Plane} {s : State} (hd : Readable (dcrecAddrs p) s) :
    Completes k [] s (promote p s) := by
  obtain ⟨recs, hr⟩ := readAll_defined (f := fun n => dcrec p n s) (l := planeBlocks p)
    fun n hn => dcrec_defined (dcrec_plane (planeBlocks_lt hn) hd)
  exact ⟨_, by simp only [promote, hr]; rfl, grown_putCntrl _ _ _ _, fun a ha => by cases ha⟩

theorem reconY16_completes (k : Nat) {dc border : Bool} {s : State} (hi : Readable (reconInputs .y) s)
    (hd : dc = true → Readable (dccoefAddrs .y) s) : Completes k [] s (reconY16 dc border s) := by
  cases dc with
  | false =>
    obtain ⟨t, ht, hg, -⟩ := reconPlane_completes k (p := .y) (m := masked .y border s.cntrlY) (f := false) hi
      fun h => by cases h
    exact ⟨t, by simp [reconY16, reconYDc, ht], hg, fun a ha => by cases ha⟩
  | true =>
    obtain ⟨t, ht, hg, ho⟩ := ihs4_completes 0 (hd rfl) hi.right
    obtain ⟨u, hu, hg', -⟩ := promote_completes 0 ho
    obtain ⟨v, hv, hg'', -⟩ := reconPlane_completes 0 (p := .y) (m := masked .y border u.cntrlY) (f := true)
      (hg'.readable (hg.readable hi)) fun _ => hg'.readable ho
    exact ⟨v, by simp [reconY16, reconYDc, ht, hu, hv], ((hg.trans hg').trans hg'').mono (by omega),
      fun a ha => by cases ha⟩

theorem reconCDc_completes {p : Plane} (hp : p.isChroma = true) {s : State} (hd : Readable (dccoefAddrs p) s)
    (ht : Readable (inverseTables p) s) : Completes 0 (dcrecAddrs p) s (reconCDc p s) := by
  obtain ⟨t, ht, hg, ho⟩ := ihs2_completes 0 hp hd ht
  obtain ⟨u, hu, hg', -⟩ := promote_completes 0 ho
  exact ⟨u, by simp only [reconCDc, ht, hu], (hg.trans hg').mono (by omega), hg'.readable ho⟩

theorem reconC8_completes (k : Nat) {border : Bool} {s : State} (hb : Readable (reconInputs .cb) s)
    (hbd : Readable (dccoefAddrs .cb) s) (hr : Readable (reconInputs .cr) s) (hrd : Readable (dccoefAddrs .cr) s) :
    Completes k [] s (reconC8 border s) := by
  obtain ⟨t, ht, hg, ho⟩ := reconCDc_completes (p := .cb) rfl hbd hb.right
  obtain ⟨u, hu, hg', ho'⟩ := reconCDc_completes (p := .cr) rfl (hg.readable hrd) (hg.readable hr.right)
  have hgu := hg.trans hg'
  obtain ⟨v, hv, hgv, -⟩ := reconPlane_completes 0 (p := .cb) (m := masked .cb border u.cntrlC) (f := true)
    (hgu.readable hb) fun _ => hg'.readable ho
  have hguv := hgu.trans hgv
  obtain ⟨w, hw, hgw, -⟩ := reconPlane_completes 0 (p := .cr) (m := masked .cb border u.cntrlC) (f := true)
    (hguv.readable hr) fun _ => hgv.readable ho'
  exact ⟨w, by simp [reconC8, runAll, ht, hu, hv, hw], (hguv.trans hgw).mono (by omega), fun a ha => by cases ha⟩

/-! ### AC records and CODE_I16 -/

theorem emitAc_completes {p : Plane} {n : Nat} {s : State} (h : Readable (addrs (coefAddr p n 0) 32) s)
    (hroom : s.arenaCur.toNat + 34 ≤ s.arenaEnd.toNat) : CompletesP 34 [nnzAddr p n] s (emitAc p n s) := by
  obtain ⟨r, t, ht, hg, ho⟩ := emitCoef_completes (ac := true) h hroom
  refine ⟨r, _, by simp only [emitAc, ht]; rfl, ?_, ?_⟩
  · split
    · exact (hg.trans (grown_putCntrl 0 _ _ _)).mono (by simp [coefRoom])
    · exact hg
  · split
    · exact (grown_putCntrl 0 _ _ _).readable ho
    · exact ho

theorem emitAcs_completes {p : Plane} (ns : List Nat) {s : State}
    (h : ∀ n ∈ ns, Readable (addrs (coefAddr p n 0) 32) s)
    (hroom : s.arenaCur.toNat + 34 * ns.length ≤ s.arenaEnd.toNat) :
    ∃ v t, emitAcs p ns s = .ok (v, t) ∧ Grown (34 * ns.length) s t ∧ ∀ n ∈ ns, Readable [nnzAddr p n] t := by
  induction ns generalizing s with
  | nil => exact ⟨_, s, rfl, Grown.refl _ _, by simp⟩
  | cons n ns ih =>
    simp only [List.length_cons, Nat.mul_add, Nat.mul_one] at hroom ⊢
    obtain ⟨r, t, ht, hg, ho⟩ := emitAc_completes (h n (by simp)) (by omega)
    obtain ⟨v, u, hu, hg', ho'⟩ := ih (s := t) (fun m hm => hg.readable (h m (by simp [hm])))
      (by have := hg.cur; rw [hg.fin]; omega)
    refine ⟨(decide (r.nnz > 0) || v.1, r.cost + v.2), u, by simp only [emitAcs, ht, hu],
      (hg.trans hg').mono (by omega), fun m hm => ?_⟩
    rcases List.mem_cons.mp hm with hm | hm
    · subst hm; exact hg'.readable ho
    · exact ho' m hm

theorem setLayerBits_completes (k : Nat) {p : Plane} {s : State} (hd : Readable (dccoefAddrs p) s) :
    Completes k [] s (setLayerBits p s) := by
  obtain ⟨dcs, hr⟩ := readAll_defined (f := fun n => dccoef p n s) (l := planeBlocks p)
    fun n hn => dccoef_defined hd (planeBlocks_lt hn)
  exact ⟨_, by simp only [setLayerBits, hr]; rfl, grown_putCntrl _ _ _ _, fun a ha => by cases ha⟩

/-- The levels and unquantized DCs of a plane have a value when those of each sub-block do. -/
theorem ftWritten_coef {p : Plane} {n : Nat} {dcx : Bool} {s : State} (h : Readable (ftWritten p n dcx) s) :
    Readable (addrs (coefAddr p n 0) 32) s := h.left.left

theorem coefPlane_of {p : Plane} {s : State} (h : ∀ n ∈ planeBlocks p, Readable (addrs (coefAddr p n 0) 32) s) :
    Readable (coefPlaneAddrs p) s := by
  intro a ha
  obtain ⟨n, hn, ha⟩ := List.mem_flatMap.mp ha
  exact h n hn a ha

theorem dcsave_of {p : Plane} {s : State} (h : ∀ n ∈ planeBlocks p, Readable (ftWritten p n true) s) :
    Readable (dcsaveAddrs p) s := by
  intro a ha
  have ha := mem_addrs.mp ha
  have hn : (a - dcsaveAddr p 0) / 2 < p.nb := by omega
  refine (h _ (mem_planeBlocks hn)).right a (mem_addrs.mpr ?_)
  simp only [dcsaveAddr] at *
  omega

/-- Forward transform of a whole plane with a DC layer. -/
theorem forwardPlane_completes {p : Plane} {s : State} (h : Readable (codeInputs p false) s) :
    ∃ t, runAll (fun n => ftq4 p n true) (planeBlocks p) s = .ok t ∧ Grown 0 s t ∧
      Readable (coefPlaneAddrs p) t ∧ Readable (dcsaveAddrs p) t := by
  suffices H : ∀ l, (∀ n ∈ l, n < p.nb) → ∀ s, Readable (codeInputs p false) s →
      ∃ t, runAll (fun n => ftq4 p n true) l s = .ok t ∧ Grown 0 s t ∧ ∀ n ∈ l, Readable (ftWritten p n true) t by
    obtain ⟨t, ht, hg, ho⟩ := H _ (fun _ hn => planeBlocks_lt hn) s h
    exact ⟨t, ht, hg, coefPlane_of fun n hn => ftWritten_coef (ho n hn), dcsave_of ho⟩
  intro l
  induction l with
  | nil => intro _ s _; exact ⟨s, rfl, Grown.refl _ _, by simp⟩
  | cons n l ih =>
    intro hl s hi
    have hn := hl n (by simp)
    obtain ⟨t, ht, hg, ho⟩ := ftq4_completes 0 true (hi.left.left.flat (mem_planeBlocks hn)) hi.left.right
    obtain ⟨u, hu, hg', ho'⟩ := ih (fun n hn => hl n (by simp [hn])) t (hg.readable hi)
    refine ⟨u, by simp only [runAll, ht, hu], hg.trans hg', fun m hm => ?_⟩
    rcases List.mem_cons.mp hm with hm | hm
    · subst hm; exact hg'.readable ho
    · exact ho' m hm

theorem codeInputs_forward {p : Plane} {recon : Bool} {s : State} (h : Readable (codeInputs p recon) s) :
    Readable (codeInputs p false) s := (h.left).append fun a ha => by cases ha

theorem codeInputs_recon {p : Plane} {s : State} (h : Readable (codeInputs p true) s)
    (hc : Readable (coefPlaneAddrs p) s) : Readable (reconInputs p) s := by
  refine (hc.append ?_).append h.right
  intro a ha
  obtain ⟨n, hn, ha⟩ := List.mem_flatMap.mp ha
  exact (h.left.left.flat hn).right a ha

theorem dcLayer_dccoef {p : Plane} {s : State} (h : Readable (dcLayerAddrs p) s) : Readable (dccoefAddrs p) s :=
  h.left

theorem coefPlane_block {p : Plane} {s : State} (h : Readable (coefPlaneAddrs p) s) {n : Nat} (hn : n < p.nb) :
    Readable (addrs (coefAddr p n 0) 32) s := h.flat (mem_planeBlocks hn)

theorem i16Code_completes {s : State} (h : Readable (codeInputs .y false) s)
    (hroom : s.arenaCur.toNat + 580 ≤ s.arenaEnd.toNat) :
    Completes 580 (coefPlaneAddrs .y ++ dccoefAddrs .y) s (i16Code s) := by
  obtain ⟨t, ht, hg, hc, hd⟩ := forwardPlane_completes h
  have ht' : runAll (fun n => ftq4 .y n true) raster s = .ok t := ht
  obtain ⟨u, hu, hg1, ho1⟩ := fhq4_completes 0 hd (hg.readable h.left.right)
  have hgu := hg.trans hg1
  have g0 : Grown 0 u { u with cntrlY := 0 } := grown_regs 0 rfl rfl rfl rfl
  obtain ⟨v, hv, hg2, -⟩ := setLayerBits_completes 0 (p := .y) (g0.readable (dcLayer_dccoef ho1))
  have hgv := (hgu.trans g0).trans hg2
  have hdv : Readable (dccoefAddrs .y) v := hg2.readable (g0.readable (dcLayer_dccoef ho1))
  obtain ⟨r, w, hw, hg3, -⟩ := emitDc_completes hdv (by have := hgv.cur; rw [hgv.fin]; simp only [Plane.nb]; omega)
  have hgw := hgv.trans hg3
  have hcw : Readable (coefPlaneAddrs .y) w := hg3.readable (hg2.readable (g0.readable (hg1.readable hc)))
  have hcw' : ∀ n ∈ blkOrder, Readable (addrs (coefAddr .y n 0) 32) w :=
    fun n hn => coefPlane_block hcw (blkOrder_lt hn)
  have hdc : i16Dc s = .ok w := by
    simp only [i16Dc]
    rw [ht']
    simp only [hu, hv, hw]
  obtain ⟨⟨any, c⟩, y, hy, hg4, -⟩ := emitAcs_completes blkOrder hcw' (by
    have := hgw.cur; rw [hgw.fin]; simp only [Plane.nb, blkOrder, List.length_cons, List.length_nil] at *; omega)
  have hgy := hgw.trans hg4
  refine ⟨_, by simp only [i16Code, hdc, hy]; rfl,
    ?_, ?_⟩
  · have g5 := hgy.trans (k := 0) (u := { y with
        cbp := withCbpL y.cbp (if any then 0xF else 0)
        elim := clrLumaElim y.elim
        costY := 0 }) (grown_regs 0 rfl rfl rfl rfl)
    exact g5.mono (by simp only [Plane.nb, blkOrder, List.length_cons, List.length_nil]; omega)
  · exact (hg4.readable hcw).append (hg4.readable (hg3.readable hdv))

theorem codeI16_completes {recon border : Bool} {s : State} (h : Readable (codeInputs .y recon) s)
    (hroom : s.arenaCur.toNat + 580 ≤ s.arenaEnd.toNat) : Completes 580 [] s (codeI16 recon border s) := by
  obtain ⟨t, ht, hg, ho⟩ := i16Code_completes (codeInputs_forward h) hroom
  cases recon with
  | false => exact ⟨t, by simp [codeI16, ht], hg, fun a ha => by cases ha⟩
  | true =>
    obtain ⟨u, hu, hg', -⟩ := reconY16_completes 0 (dc := true) (border := border)
      (codeInputs_recon (hg.readable h) ho.left) fun _ => ho.right
    exact ⟨u, by simp [codeI16, ht, hu], (hg.trans hg').mono (by omega), fun a ha => by cases ha⟩

/-! ### CODE_I4 and CODE_L16 -/

theorem setBits_completes (k : Nat) {n : Nat} {s : State} (h : Readable (addrs (coefAddr .y n 0) 32) s) :
    Completes k [] s (setBits n s) := by
  obtain ⟨levels, hl⟩ := readAll_defined (f := fun k => coef .y n k s) (l := raster)
    fun k hk => coef_defined h (raster_lt16 hk)
  exact ⟨{ s with cntrlY := levelBits n levels s.cntrlY }, by simp only [setBits, hl], grown_regs k rfl rfl rfl rfl,
    fun a ha => by cases ha⟩

theorem i4Code_completes {n : Nat} {s : State} (hp : Readable (pixelAddrs .y n) s)
    (ht : Readable (forwardTables .y) s) (hroom : s.arenaCur.toNat + 36 ≤ s.arenaEnd.toNat) :
    Completes 36 (addrs (coefAddr .y n 0) 32) s (i4Code n s) := by
  obtain ⟨t, ht, hg, ho⟩ := ftq4_completes 0 false hp ht
  obtain ⟨u, hu, hg1, -⟩ := setBits_completes 0 (ftWritten_coef ho)
  have hgu := hg.trans hg1
  have hcu := hg1.readable (ftWritten_coef ho)
  obtain ⟨r, v, hv, hg2, -⟩ := emitCoef_completes (ac := false) hcu
    (by have := hgu.cur; rw [hgu.fin]; simp [coefRoom]; omega)
  have hgv := hgu.trans hg2
  refine ⟨_, by simp only [i4Code, ht, hu, hv]; rfl, ?_, ?_⟩
  · split
    · exact hgv.trans (grown_regs (t := { v with cbp := setBit v.cbp (groupOf n) }) 0 rfl rfl rfl rfl)
    · exact hgv
  · split
    · exact (grown_regs (s := v) (t := { v with cbp := setBit v.cbp (groupOf n) }) 0 rfl rfl rfl rfl).readable
        (hg2.readable hcu)
    · exact hg2.readable hcu

theorem codeI4_completes {n : Nat} {recon : Bool} {s : State}
    (h : Readable (pixelAddrs .y n ++ forwardTables .y ++ (if recon then inverseTables .y else [])) s)
    (hroom : s.arenaCur.toNat + 36 ≤ s.arenaEnd.toNat) : Completes 36 [] s (codeI4 n recon s) := by
  obtain ⟨t, ht, hg, ho⟩ := i4Code_completes h.left.left h.left.right hroom
  cases recon with
  | false => exact ⟨t, by simp [codeI4, ht], hg, fun a ha => by cases ha⟩
  | true =>
    obtain ⟨u, hu, hg', -⟩ := recon1_completes 0 (p := .y) (n := n) (m := t.cntrlY) (f := false) ho
      (fun hf => by cases hf) (hg.readable h.left.left.right) (hg.readable h.right)
    exact ⟨u, by simp [codeI4, ht, hu], (hg.trans hg').mono (by omega), fun a ha => by cases ha⟩

theorem l16Block_completes {n : Nat} {s : State} (hn : n < 16) (h : Readable (codeInputs .y false) s)
    (hroom : s.arenaCur.toNat + 36 ≤ s.arenaEnd.toNat) :
    CompletesP 36 (addrs (coefAddr .y n 0) 32 ++ [nnzAddr .y n]) s (l16Block n s) := by
  obtain ⟨t, ht, hg, ho⟩ := ftq4_completes 0 false (h.left.left.flat (mem_planeBlocks (p := .y) hn)) h.left.right
  have hct := ftWritten_coef ho
  obtain ⟨r, u, hu, hg1, hz⟩ := emitCoef_completes (ac := false) hct
    (by have := hg.cur; rw [hg.fin]; simp [coefRoom]; omega)
  obtain ⟨v, hv, hg2, -⟩ := setBits_completes 0 (hg1.readable hct)
  exact ⟨r.cost, v, by simp only [l16Block, ht, hu, hv],
    ((hg.trans hg1).trans hg2).mono (by simp [coefRoom]),
    (hg2.readable (hg1.readable hct)).append (hg2.readable hz)⟩

theorem l16Blocks_completes (ns : List Nat) {s : State} (hn : ∀ n ∈ ns, n < 16)
    (h : Readable (codeInputs .y false) s) (hroom : s.arenaCur.toNat + 36 * ns.length ≤ s.arenaEnd.toNat) :
    ∃ c t, l16Blocks ns s = .ok (c, t) ∧ Grown (36 * ns.length) s t ∧
      ∀ n ∈ ns, Readable (addrs (coefAddr .y n 0) 32 ++ [nnzAddr .y n]) t := by
  induction ns generalizing s with
  | nil => exact ⟨_, s, rfl, Grown.refl _ _, by simp⟩
  | cons n ns ih =>
    simp only [List.length_cons, Nat.mul_add, Nat.mul_one] at hroom ⊢
    obtain ⟨c, t, ht, hg, ho⟩ := l16Block_completes (hn n (by simp)) h (by omega)
    obtain ⟨cs, u, hu, hg', ho'⟩ := ih (s := t) (fun m hm => hn m (by simp [hm])) (hg.readable h)
      (by have := hg.cur; rw [hg.fin]; omega)
    refine ⟨c + cs, u, by simp only [l16Blocks, ht, hu], (hg.trans hg').mono (by omega), fun m hm => ?_⟩
    rcases List.mem_cons.mp hm with hm | hm
    · subst hm; exact hg'.readable ho
    · exact ho' m hm

theorem grown_zeroBlocks (k : Nat) (p : Plane) (ns : List Nat) (s : State) : Grown k s (zeroBlocks p ns s) := by
  induction ns generalizing s with
  | nil => exact Grown.refl _ _
  | cons n ns ih =>
    have h : Grown 0 s (zeroBlock p n s) := ((grown_putByte 0 _ _ _).trans (grown_putSigned 0 _ _ _))
    exact (h.trans (ih _)).mono (by omega)

/-- A rewind to where the cursor stood. -/
theorem grown_rewind {k : Nat} {s t u : State} (h : Grown k s t) (hc : u.arenaCur = s.arenaCur)
    (hf : u.arenaEnd = t.arenaEnd) (ha : u.arena = t.arena) (hl : u.lm = t.lm) : Grown k s u :=
  ⟨by rw [hc]; exact Nat.le_add_right _ _, fun a hk => by rw [ha]; exact h.above a hk, hf.trans h.fin,
    fun a hs => by rw [hl]; exact h.grows a hs⟩

/-- A group's room: four records of 36 bytes. -/
theorem l16Group_completes (elim : Bool) {g : Nat} {s : State} (h : Readable (codeInputs .y false) s)
    (hroom : s.arenaCur.toNat + 144 ≤ s.arenaEnd.toNat) :
    ∃ c t, l16Group elim g s = .ok (c, t) ∧ Grown 144 s t ∧
      ∀ n ∈ groupBlocks g, Readable (addrs (coefAddr .y n 0) 32) t := by
  have hlen := groupBlocks_length g
  obtain ⟨c, t, ht, hg, ho⟩ := l16Blocks_completes (groupBlocks g) (fun n hn => groupBlocks_lt hn) h (by omega)
  have hg := hg.mono (k := 144) (by omega)
  simp only [l16Group, ht]
  split
  · have h1 : Grown 144 s { t with
        arenaCur := s.arenaCur
        cntrlY := clrBothBits .y (groupBlocks g) t.cntrlY
        elim := setBit t.elim g } := grown_rewind hg rfl rfl rfl rfl
    have h2 := grown_zeroBlocks 0 .y (groupBlocks g) { t with
        arenaCur := s.arenaCur
        cntrlY := clrBothBits .y (groupBlocks g) t.cntrlY
        elim := setBit t.elim g }
    exact ⟨0, _, rfl, h1.trans h2, fun n hn a ha => h2.grows a ((ho n hn).left a ha)⟩
  · obtain ⟨counts, hcs⟩ := readAll_defined (f := fun n => nnz .y n t) (l := groupBlocks g)
      fun n hn => lmSample_defined ((ho n hn).right _ (by simp))
    rw [hcs]
    refine ⟨c, _, rfl, ?_, fun n hn => ?_⟩
    · split
      · exact hg.trans (grown_regs (t := { t with cbp := setBit t.cbp g }) 0 rfl rfl rfl rfl)
      · exact hg
    · split
      · exact (grown_regs (s := t) (t := { t with cbp := setBit t.cbp g }) 0 rfl rfl rfl rfl).readable (ho n hn).left
      · exact (ho n hn).left

theorem l16Groups_completes (elim : Bool) (gs : List Nat) {s : State} (h : Readable (codeInputs .y false) s)
    (hroom : s.arenaCur.toNat + 144 * gs.length ≤ s.arenaEnd.toNat) :
    ∃ c t, l16Groups elim gs s = .ok (c, t) ∧ Grown (144 * gs.length) s t ∧
      ∀ g ∈ gs, ∀ n ∈ groupBlocks g, Readable (addrs (coefAddr .y n 0) 32) t := by
  induction gs generalizing s with
  | nil => exact ⟨_, s, rfl, Grown.refl _ _, by simp⟩
  | cons g gs ih =>
    simp only [List.length_cons, Nat.mul_add, Nat.mul_one] at hroom ⊢
    obtain ⟨c, t, ht, hg, ho⟩ := l16Group_completes elim (g := g) h (by omega)
    obtain ⟨cs, u, hu, hg', ho'⟩ := ih (s := t) (hg.readable h) (by have := hg.cur; rw [hg.fin]; omega)
    refine ⟨c + cs, u, by simp only [l16Groups, ht, hu], (hg.trans hg').mono (by omega), fun m hm n hn => ?_⟩
    rcases List.mem_cons.mp hm with hm | hm
    · subst hm; exact hg'.readable (ho n hn)
    · exact ho' m hm n hn

/-- Every luma sub-block is in one of the four groups. -/
theorem group_cover {n : Nat} (h : n < 16) : ∃ g ∈ [0, 1, 2, 3], n ∈ groupBlocks g := by
  have : ∀ n, n < 16 → ∃ g ∈ [0, 1, 2, 3], n ∈ groupBlocks g := by decide
  exact this n h

theorem grown_costY (s : State) (w : Word) : Grown 0 s { s with costY := w } := grown_regs 0 rfl rfl rfl rfl

theorem eliminateMb_grown (s : State) {k : Nat} {t : State} (h : Grown k s t) :
    Grown k s (eliminateMb s.arenaCur t) ∧
      ∀ a, (t.lm.read a).isSome = true → ((eliminateMb s.arenaCur t).lm.read a).isSome = true := by
  simp only [eliminateMb]
  generalize raster = ns
  have h1 : Grown k s { t with
      arenaCur := s.arenaCur, cntrlY := 0, cbp := withCbpL t.cbp 0, elim := setBit t.elim 4 } :=
    grown_rewind h rfl rfl rfl rfl
  have h2 := grown_zeroBlocks 0 .y ns { t with
      arenaCur := s.arenaCur, cntrlY := 0, cbp := withCbpL t.cbp 0, elim := setBit t.elim 4 }
  exact ⟨h1.trans h2, fun a ha => h2.grows a ha⟩

theorem l16Code_completes (elim : Bool) {s : State} (h : Readable (codeInputs .y false) s)
    (hroom : s.arenaCur.toNat + 576 ≤ s.arenaEnd.toNat) :
    Completes 576 (coefPlaneAddrs .y) s (l16Code elim s) := by
  have g0 : Grown 0 s { s with cntrlY := 0, cbp := withCbpL s.cbp 0, elim := clrLumaElim s.elim } :=
    grown_regs 0 rfl rfl rfl rfl
  obtain ⟨c, t, ht, hg, ho⟩ := l16Groups_completes elim [0, 1, 2, 3] (g0.readable h) hroom
  have hc : Readable (coefPlaneAddrs .y) t := coefPlane_of fun n hn => by
    obtain ⟨g, hg, hn⟩ := group_cover (planeBlocks_lt hn)
    exact ho g hg n hn
  have hgt : Grown 576 s t :=
    (g0.trans hg).mono (by simp only [List.length_cons, List.length_nil]; omega)
  simp only [l16Code, ht]
  split
  · obtain ⟨h2, h3⟩ := eliminateMb_grown s hgt
    exact ⟨_, rfl, h2.trans (grown_costY _ _), (grown_costY _ _).readable fun a ha => h3 a (hc a ha)⟩
  · exact ⟨_, rfl, hgt.trans (grown_regs (t := { t with costY := BitVec.ofNat 32 c }) 0 rfl rfl rfl rfl), hc⟩

theorem codeL16_completes {elim recon border : Bool} {s : State} (h : Readable (codeInputs .y recon) s)
    (hroom : s.arenaCur.toNat + 576 ≤ s.arenaEnd.toNat) : Completes 576 [] s (codeL16 elim recon border s) := by
  obtain ⟨t, ht, hg, ho⟩ := l16Code_completes elim (codeInputs_forward h) hroom
  cases recon with
  | false => exact ⟨t, by simp [codeL16, ht], hg, fun a ha => by cases ha⟩
  | true =>
    obtain ⟨u, hu, hg', -⟩ := reconY16_completes 0 (dc := false) (border := border)
      (codeInputs_recon (hg.readable h) ho) fun hf => by cases hf
    exact ⟨u, by simp [codeL16, ht, hu], (hg.trans hg').mono (by omega), fun a ha => by cases ha⟩

/-! ### CODE_C8 -/

theorem c8Forward_completes {p : Plane} (hp : p.isChroma = true) {s : State} (h : Readable (codeInputs p false) s) :
    ∃ t, c8Forward p s = .ok t ∧ Grown 0 s t ∧ Readable (coefPlaneAddrs p) t ∧ Readable (dcsaveAddrs p) t := by
  have he : planeBlocks p = [0, 1, 2, 3] := by cases p <;> first | rfl | cases hp
  have := forwardPlane_completes h
  rwa [he] at this

theorem c8DcRecord_completes {p : Plane} (hp : p.isChroma = true) {s : State} (h : Readable (dccoefAddrs p) s)
    (hroom : s.arenaCur.toNat + 12 ≤ s.arenaEnd.toNat) :
    ∃ t, c8DcRecord p s = .ok t ∧ Grown 12 s t ∧ Readable [nnzdcAddr p] t := by
  have hnb : 4 + 2 * p.nb = 12 := by cases p <;> simp_all [Plane.isChroma, Plane.nb]
  obtain ⟨vs, hvs⟩ := readAll_defined (f := fun k => dccoef p k s) (l := dcScan p)
    fun n hn => dccoef_defined h (dcScan_lt hn)
  have hl : vs.length = p.nb := (readAll_length hvs).trans (dcScan_length p)
  have := nb_le p
  obtain ⟨r, t, ht, hg, -⟩ := emit_completes (start := 0) (vs := vs) (s := s) (k := 12) (by omega) (by omega) hroom
  exact ⟨_, by simp only [c8DcRecord, emitDc, hvs, ht]; rfl, (hg.trans (grown_putByte 0 _ _ _)).mono (by omega),
    readable_putByte _ _ _⟩

/-- What the first half of CODE_C8 leaves readable for the second. -/
theorem c8Dc_completes {s : State} (hb : Readable (codeInputs .cb false) s) (hr : Readable (codeInputs .cr false) s)
    (hroom : s.arenaCur.toNat + 24 ≤ s.arenaEnd.toNat) :
    ∃ t, c8Dc s = .ok t ∧ Grown 24 s t ∧ ∀ p, p.isChroma = true →
      Readable (coefPlaneAddrs p) t ∧ Readable (dccoefAddrs p) t ∧ Readable [nnzdcAddr p] t := by
  obtain ⟨s1, h1, g1, c1, d1⟩ := c8Forward_completes (p := .cb) rfl hb
  obtain ⟨s2, h2, g2, c2, d2⟩ := c8Forward_completes (p := .cr) rfl (g1.readable hr)
  obtain ⟨s3, h3, g3, l3⟩ := fhq2_completes 0 (p := .cb) rfl (g2.readable d1)
    (g2.readable (g1.readable hb.left.right))
  obtain ⟨s4, h4, g4, l4⟩ := fhq2_completes 0 (p := .cr) rfl (g3.readable d2)
    (g3.readable (g2.readable (g1.readable hr.left.right)))
  have g5 : Grown 0 s4 { s4 with cntrlC := 0, elim := clrChromaElim s4.elim } := grown_regs 0 rfl rfl rfl rfl
  obtain ⟨s6, h6, g6, -⟩ := setLayerBits_completes 0 (p := .cb)
    (g5.readable (g4.readable (dcLayer_dccoef l3)))
  obtain ⟨s7, h7, g7, -⟩ := setLayerBits_completes 0 (p := .cr) (g6.readable (g5.readable (dcLayer_dccoef l4)))
  have g57 := (g5.trans g6).trans g7
  have gs7 := (((g1.trans g2).trans g3).trans g4).trans g57
  have b7 : Readable (dccoefAddrs .cb) s7 := g57.readable (g4.readable (dcLayer_dccoef l3))
  have r7 : Readable (dccoefAddrs .cr) s7 := g57.readable (dcLayer_dccoef l4)
  obtain ⟨s8, h8, g8, n8⟩ := c8DcRecord_completes (p := .cb) rfl b7 (by have := gs7.cur; rw [gs7.fin]; omega)
  have gs8 := gs7.trans g8
  obtain ⟨s9, h9, g9, n9⟩ := c8DcRecord_completes (p := .cr) rfl (g8.readable r7)
    (by have := gs8.cur; rw [gs8.fin]; omega)
  refine ⟨s9, by simp only [c8Dc, runAll, h1, h2, h3, h4, h6, h7, h8, h9], (gs8.trans g9).mono (by omega),
    fun p hp => ?_⟩
  have g29 := (((g3.trans g4).trans g57).trans g8).trans g9
  have g79 := g8.trans g9
  cases p with
  | y => cases hp
  | cb => exact ⟨g29.readable (g2.readable c1), g79.readable b7, g9.readable n8⟩
  | cr => exact ⟨g29.readable c2, g79.readable r7, n9⟩

theorem c8Ac_completes (elim : Bool) {p : Plane} {s : State} (h : Readable (coefPlaneAddrs p) s)
    (hroom : s.arenaCur.toNat + 136 ≤ s.arenaEnd.toNat) :
    ∃ c t, c8Ac elim p s = .ok (c, t) ∧ Grown 136 s t ∧ ∀ n ∈ [0, 1, 2, 3], Readable [nnzAddr p n] t := by
  obtain ⟨v, t, ht, hg, ho⟩ := emitAcs_completes (p := p) [0, 1, 2, 3]
    (fun n hn => coefPlane_block h (four_lt hn)) (by simpa using hroom)
  have hg : Grown 136 s t := hg
  simp only [c8Ac, ht]
  refine ⟨_, _, rfl, ?_, fun n hn => ?_⟩
  · split
    · exact (grown_rewind (u := { t with
        arenaCur := s.arenaCur
        cntrlC := clrAcBits p [0, 1, 2, 3] t.cntrlC
        elim := setBit t.elim (4 + p.idx) }) hg rfl rfl rfl rfl).trans (grown_zeroBlocks 0 p [0, 1, 2, 3] _)
    · exact hg
  · split
    · exact fun a ha => (grown_zeroBlocks 0 p [0, 1, 2, 3] { t with
        arenaCur := s.arenaCur
        cntrlC := clrAcBits p [0, 1, 2, 3] t.cntrlC
        elim := setBit t.elim (4 + p.idx) }).grows a (ho n hn a ha)
    · exact ho n hn

theorem chromaCbp_completes (k : Nat) {s : State} (hd : ∀ p, p.isChroma = true → Readable [nnzdcAddr p] s)
    (hn : ∀ p, p.isChroma = true → ∀ n ∈ [0, 1, 2, 3], Readable [nnzAddr p n] s) :
    Completes k [] s (chromaCbp s) := by
  obtain ⟨a, ha⟩ := lmSample_defined (hd .cb rfl _ (List.mem_singleton.mpr rfl))
  obtain ⟨b, hb⟩ := lmSample_defined (hd .cr rfl _ (List.mem_singleton.mpr rfl))
  obtain ⟨c, hc⟩ := readAll_defined (f := fun n => nnz .cb n s) (l := [0, 1, 2, 3])
    fun n hm => lmSample_defined (hn .cb rfl n hm _ (List.mem_singleton.mpr rfl))
  obtain ⟨d, hd'⟩ := readAll_defined (f := fun n => nnz .cr n s) (l := [0, 1, 2, 3])
    fun n hm => lmSample_defined (hn .cr rfl n hm _ (List.mem_singleton.mpr rfl))
  exact ⟨{ s with cbp := withChromaCbp s.cbp a b c d }, by simp only [chromaCbp, nnzdc, ha, hb, hc, hd'],
    grown_regs k rfl rfl rfl rfl, fun a ha => by cases ha⟩

theorem c8Code_completes (elim : Bool) {s : State} (hb : Readable (codeInputs .cb false) s)
    (hr : Readable (codeInputs .cr false) s) (hroom : s.arenaCur.toNat + 296 ≤ s.arenaEnd.toNat) :
    ∃ t, c8Code elim s = .ok t ∧ Grown 296 s t ∧ ∀ p, p.isChroma = true →
      Readable (coefPlaneAddrs p) t ∧ Readable (dccoefAddrs p) t := by
  obtain ⟨s1, h1, g1, o1⟩ := c8Dc_completes hb hr (by omega)
  obtain ⟨cb, s2, h2, g2, n2⟩ := c8Ac_completes elim (o1 .cb rfl).1 (by have := g1.cur; rw [g1.fin]; omega)
  have g12 := g1.trans g2
  obtain ⟨cr, s3, h3, g3, n3⟩ := c8Ac_completes elim (g2.readable (o1 .cr rfl).1)
    (by have := g12.cur; rw [g12.fin]; omega)
  have g4 : Grown 0 s3 { s3 with costC := BitVec.ofNat 32 (cb + 2 ^ 16 * cr) } := grown_regs 0 rfl rfl rfl rfl
  have g24 := (g2.trans g3).trans g4
  obtain ⟨s5, h5, g5, -⟩ := chromaCbp_completes 0 (s := { s3 with costC := BitVec.ofNat 32 (cb + 2 ^ 16 * cr) })
    (fun p hp => g24.readable (o1 p hp).2.2) (fun p hp n hn => by
      cases p with
      | y => cases hp
      | cb => exact (g3.trans g4).readable (n2 n hn)
      | cr => exact g4.readable (n3 n hn))
  have g25 := g24.trans g5
  exact ⟨s5, by simp only [c8Code, h1, h2, h3, h5], (g1.trans g25).mono (by omega),
    fun p hp => ⟨g25.readable (o1 p hp).1, g25.readable (o1 p hp).2.1⟩⟩

theorem codeC8_completes {elim recon border : Bool} {s : State} (hb : Readable (codeInputs .cb recon) s)
    (hr : Readable (codeInputs .cr recon) s) (hroom : s.arenaCur.toNat + 296 ≤ s.arenaEnd.toNat) :
    Completes 296 [] s (codeC8 elim recon border s) := by
  obtain ⟨t, ht, hg, ho⟩ := c8Code_completes elim (codeInputs_forward hb) (codeInputs_forward hr) hroom
  cases recon with
  | false => exact ⟨t, by simp [codeC8, ht], hg, fun a ha => by cases ha⟩
  | true =>
    obtain ⟨u, hu, hg', -⟩ := reconC8_completes 0 (border := border)
      (codeInputs_recon (hg.readable hb) (ho .cb rfl).1) (ho .cb rfl).2
      (codeInputs_recon (hg.readable hr) (ho .cr rfl).1) (ho .cr rfl).2
    exact ⟨u, by simp [codeC8, ht, hu], (hg.trans hg').mono (by omega), fun a ha => by cases ha⟩

/-! ### Every command -/

theorem grown_putBytes (k : Nat) (s : State) (a : Nat) (bs : List Byte) : Grown k s (s.putBytes a bs) :=
  ⟨Nat.le_add_right _ _, fun _ _ => rfl, rfl, fun _ h => MemoryLaws.writeBytes_grows _ _ _ _ h⟩

theorem mbBegin_completes (k : Nat) (s : State) : ∃ t, mbBegin s = .ok t ∧ Grown k s t := by
  refine ⟨_, by rw [mbBegin], ?_⟩
  generalize List.replicate 27 (0 : Byte) = bs
  refine Grown.mono (j := 0 + 0) ((grown_regs (s := s) (t := { s with
    mbStart := s.arenaCur
    cntrlY := 0
    cntrlC := 0
    cbp := 0
    elim := 0
    costY := 0
    costC := 0
    costAcc := 0 }) 0 rfl rfl rfl rfl).trans (grown_putBytes 0 _ _ bs)) (by omega)

/-- The steps of a legal command whose inputs have a value end normally when the arena has room for its records; they
write no arena byte from `recordRoom` past the cursor on. -/
theorem stepsOf_completes (i : Instr) (s : State) (hw : i.wf = true) (hr : Readable (lmInputs i) s)
    (hroom : s.arenaCur.toNat + recordRoom i ≤ s.arenaEnd.toNat) : Completes (recordRoom i) [] s (stepsOf i s) := by
  have drop {k : Nat} {out : List Nat} {r : Except Stop State} (h : Completes k out s r) : Completes k [] s r := by
    obtain ⟨t, ht, hg, -⟩ := h
    exact ⟨t, ht, hg, fun a ha => by cases ha⟩
  cases i with
  | nop => exact ⟨s, rfl, Grown.refl _ _, fun a ha => by cases ha⟩
  | ftq4 p n dcx => exact drop (ftq4_completes _ dcx hr.left hr.right)
  | fhq4 => exact drop (fhq4_completes _ hr.left hr.right)
  | fhq2 p => exact drop (fhq2_completes _ hw hr.left hr.right)
  | ihs4 => exact drop (ihs4_completes _ hr.left hr.right)
  | ihs2 p => exact drop (ihs2_completes _ hw hr.left hr.right)
  | iqtr4 p n dcsrc =>
    exact iqtr4_completes _ hr.left.left.left (fun h => by
      have := hr.left.left.right
      rwa [h, if_pos rfl] at this) hr.left.right hr.right
  | iqtr4dc p n dcsrc =>
    refine iqtr4dc_completes _ ?_ hr.right
    have h := hr.left
    cases dcsrc with
    | true => exact dcrec_defined h
    | false =>
      have h : Readable (addrs (coefAddr p n.val 0) 2 ++ inverseTables p) s := h
      have hp := Readable.pair (k := 0) h.left (by omega)
      obtain ⟨c, hc⟩ := lmSigned_defined hp.1 hp.2
      have hc : coef p n.val 0 s = .ok c := hc
      show ∃ q0, dequantAt p n.val 0 s = .ok q0
      simp only [dequantAt, hc]
      exact withScales_defined h.right (by decide) _
  | copy4 p n => exact copy4_completes _ hr
  | pack4 p n ac =>
    obtain ⟨r, t, ht, hg, -⟩ := emitCoef_completes (p := p) (n := n.val) (ac := ac) hr hroom
    exact ⟨_, by simp only [stepsOf, pack4, ht],
      (hg.trans (grown_regs (t := t.addCost r.cost) 0 rfl rfl rfl rfl)), fun a ha => by cases ha⟩
  | packdc p =>
    obtain ⟨r, t, ht, hg, -⟩ := emitDc_completes (p := p) hr hroom
    exact ⟨_, by simp only [stepsOf, packdc, ht],
      (hg.trans (grown_regs (t := t.addCost r.cost) 0 rfl rfl rfl rfl)), fun a ha => by cases ha⟩
  | mbBegin =>
    obtain ⟨t, ht, hg⟩ := mbBegin_completes 0 s
    exact ⟨t, ht, hg, fun a ha => by cases ha⟩
  | codeI16 recon border => exact codeI16_completes hr hroom
  | codeI4 n recon => exact codeI4_completes hr hroom
  | codeL16 elim recon border => exact codeL16_completes hr hroom
  | codeC8 elim recon border => exact codeC8_completes hr.left hr.right hroom
  | reconY16 dc border =>
    exact reconY16_completes _ hr.left fun h => by
      have := hr.right
      rwa [h, if_pos rfl] at this
  | reconC8 border => exact reconC8_completes _ hr.left.left.left hr.left.left.right hr.left.right hr.right

/-- A command whose operands are legal, whose inputs have a value and whose records fit ends, with no new error. -/
theorem exec_completes (i : Instr) (s : State) (hc : issueCheck i s = none) (hr : Readable (lmInputs i) s)
    (hroom : s.arenaCur.toNat + recordRoom i ≤ s.arenaEnd.toNat) : ∃ t, exec i s = .next t ∧ t.err = s.err := by
  obtain ⟨t, ht, -⟩ := stepsOf_completes i (accept (encode i) s) (wf_of_issueCheck hc) hr hroom
  refine ⟨complete t, by simp only [exec_eq, command, hc, ht, finish], ?_⟩
  exact ((stepsOf_works i 0 (accept (encode i) s) (wf_of_issueCheck hc)).ok ht).err

end Laws

end Sys2Proof.Machine
end

