-- ==== Sys2Proof/Laws/PerInstr.lean ====
section
/-! SUPPORT. What holds of the word of every command, constructor by constructor: the family `ReservedZero`. -/

namespace Sys2Proof.Laws.ReservedZero

/-- The word of a command has bits 13:0 clear and carries an opcode of the map (30_encoding.md R114, R116 (a)). -/
def Statement (i : Instr) : Prop := bits (encode i) 13 0 = 0 ∧ (opRow (opOf (encode i))).isSome = true

/-- A word put together from its fields has bits 13:0 clear. -/
theorem bits_pack_low (op pl blk : Nat) (a b c d : Bool) : bits (pack op pl blk a b c d) 13 0 = 0 := by
  simp only [bits, pack, BitVec.toNat_ofNat, Nat.shiftRight_zero]
  omega

/-- The opcode of a word put together from its fields. -/
theorem opOf_pack (op pl blk : Nat) (a b c d : Bool) (hp : pl < 4) (hb : blk < 16) :
    opOf (pack op pl blk a b c d) = BitVec.ofNat 8 op := by
  have h : ∀ x : Bool, x.toNat ≤ 1 := fun x => by cases x <;> decide
  have := h a
  have := h b
  have := h c
  have := h d
  apply BitVec.eq_of_toNat_eq
  simp only [opOf, bits, pack, BitVec.toNat_ofNat, Nat.shiftRight_eq_div_pow]
  omega

theorem idx_lt (p : Plane) : p.idx < 4 := by cases p <;> decide

/-- The family's statement for a word put together from its fields with an opcode of the map. -/
theorem pack_statement (op pl blk : Nat) (a b c d : Bool) (hp : pl < 4) (hb : blk < 16)
    (hr : (opRow (BitVec.ofNat 8 op)).isSome = true) :
    bits (pack op pl blk a b c d) 13 0 = 0 ∧ (opRow (opOf (pack op pl blk a b c d))).isSome = true :=
  ⟨bits_pack_low .., by rw [opOf_pack _ _ _ _ _ _ _ hp hb]; exact hr⟩

theorem nop : Statement .nop :=
  pack_statement _ _ _ _ _ _ _ (by decide) (by decide) (by decide)
theorem ftq4 (p : Plane) (n : Fin 16) (dcx : Bool) : Statement (.ftq4 p n dcx) :=
  pack_statement _ _ _ _ _ _ _ (idx_lt p) n.isLt (by decide)
theorem fhq4 : Statement .fhq4 :=
  pack_statement _ _ _ _ _ _ _ (by decide) (by decide) (by decide)
theorem fhq2 (p : Plane) : Statement (.fhq2 p) :=
  pack_statement _ _ _ _ _ _ _ (idx_lt p) (by decide) (by decide)
theorem ihs4 : Statement .ihs4 :=
  pack_statement _ _ _ _ _ _ _ (by decide) (by decide) (by decide)
theorem ihs2 (p : Plane) : Statement (.ihs2 p) :=
  pack_statement _ _ _ _ _ _ _ (idx_lt p) (by decide) (by decide)
theorem iqtr4 (p : Plane) (n : Fin 16) (dcsrc : Bool) : Statement (.iqtr4 p n dcsrc) :=
  pack_statement _ _ _ _ _ _ _ (idx_lt p) n.isLt (by decide)
theorem iqtr4dc (p : Plane) (n : Fin 16) (dcsrc : Bool) : Statement (.iqtr4dc p n dcsrc) :=
  pack_statement _ _ _ _ _ _ _ (idx_lt p) n.isLt (by decide)
theorem copy4 (p : Plane) (n : Fin 16) : Statement (.copy4 p n) :=
  pack_statement _ _ _ _ _ _ _ (idx_lt p) n.isLt (by decide)
theorem pack4 (p : Plane) (n : Fin 16) (ac : Bool) : Statement (.pack4 p n ac) :=
  pack_statement _ _ _ _ _ _ _ (idx_lt p) n.isLt (by decide)
theorem packdc (p : Plane) : Statement (.packdc p) :=
  pack_statement _ _ _ _ _ _ _ (idx_lt p) (by decide) (by decide)
theorem mbBegin : Statement .mbBegin :=
  pack_statement _ _ _ _ _ _ _ (by decide) (by decide) (by decide)
theorem codeI16 (recon border : Bool) : Statement (.codeI16 recon border) :=
  pack_statement _ _ _ _ _ _ _ (by decide) (by decide) (by decide)
theorem codeI4 (n : Fin 16) (recon : Bool) : Statement (.codeI4 n recon) :=
  pack_statement _ _ _ _ _ _ _ (by decide) n.isLt (by decide)
theorem codeL16 (elim recon border : Bool) : Statement (.codeL16 elim recon border) :=
  pack_statement _ _ _ _ _ _ _ (by decide) (by decide) (by decide)
theorem codeC8 (elim recon border : Bool) : Statement (.codeC8 elim recon border) :=
  pack_statement _ _ _ _ _ _ _ (by decide) (by decide) (by decide)
theorem reconY16 (dc border : Bool) : Statement (.reconY16 dc border) :=
  pack_statement _ _ _ _ _ _ _ (by decide) (by decide) (by decide)
theorem reconC8 (border : Bool) : Statement (.reconC8 border) :=
  pack_statement _ _ _ _ _ _ _ (by decide) (by decide) (by decide)

end Sys2Proof.Laws.ReservedZero
end

