-- ==== Sys2Proof/Machine/Program.lean ====
section
/-! DEFINITION. Host programs (30_encoding.md R120, R121): the assembly text of a command, the pseudo-operations as
the moves they stand for, and the command sequences of the five coding modes (43_macroblock.md R264). -/

namespace Sys2Proof.Machine

/-- The plane's name in assembly (30_encoding.md R120). -/
def Plane.asm : Plane → String
  | .y => "Y"
  | .cb => "CB"
  | .cr => "CR"

/-- Operands after a mnemonic, separated by commas, the absent ones (empty) left out. -/
def asmOperands (ops : List String) : String := String.intercalate ", " (ops.filter (· ≠ ""))

/-- A flag keyword, present when its bit is 1 (30_encoding.md R120). -/
def asmFlag (name : String) (b : Bool) : String := if b then name else ""

/-- A mnemonic with its operands. -/
def asmLine (mnemonic : String) (ops : List String) : String :=
  if asmOperands ops = "" then mnemonic else mnemonic ++ " " ++ asmOperands ops

/-- The assembly text of a command (30_encoding.md R120). -/
def asm : Instr → String
  | .nop => "NOP"
  | .ftq4 p n dcx => asmLine "FTQ4" [Plane.asm p, toString n.val, asmFlag "dcx" dcx]
  | .fhq4 => "FHQ4"
  | .fhq2 p => asmLine "FHQ2" [Plane.asm p]
  | .ihs4 => "IHS4"
  | .ihs2 p => asmLine "IHS2" [Plane.asm p]
  | .iqtr4 p n f => asmLine "IQTR4" [Plane.asm p, toString n.val, asmFlag "dcsrc" f]
  | .iqtr4dc p n f => asmLine "IQTR4DC" [Plane.asm p, toString n.val, asmFlag "dcsrc" f]
  | .copy4 p n => asmLine "COPY4" [Plane.asm p, toString n.val]
  | .pack4 p n ac => asmLine "PACK4" [Plane.asm p, toString n.val, asmFlag "ac" ac]
  | .packdc p => asmLine "PACKDC" [Plane.asm p]
  | .mbBegin => "MB_BEGIN"
  | .codeI16 r b => asmLine "CODE_I16" [asmFlag "recon" r, asmFlag "border" b]
  | .codeI4 n r => asmLine "CODE_I4" [toString n.val, asmFlag "recon" r]
  | .codeL16 e r b => asmLine "CODE_L16" [asmFlag "elim" e, asmFlag "recon" r, asmFlag "border" b]
  | .codeC8 e r b => asmLine "CODE_C8" [asmFlag "elim" e, asmFlag "recon" r, asmFlag "border" b]
  | .reconY16 d b => asmLine "RECON_Y16" [asmFlag "dc" d, asmFlag "border" b]
  | .reconC8 b => asmLine "RECON_C8" [asmFlag "border" b]

/-! ### Operations and pseudo-operations (30_encoding.md R121) -/

/-- `WR32 addr, value`. -/
def wr32 (a : BitVec 16) (v : Word) : List Event := [.host (.write .w32 a v)]
/-- `WR16 addr, value`. -/
def wr16 (a : BitVec 16) (v : Word) : List Event := [.host (.write .w16 a v)]
/-- `WR8 addr, value`. -/
def wr8 (a : BitVec 16) (v : Word) : List Event := [.host (.write .w8 a v)]
/-- `RD32 addr`. -/
def rd32 (a : BitVec 16) : List Event := [.host (.read .w32 a)]

/-- A command mnemonic with operands: a write of its encoding to CMD. -/
def issueOp (i : Instr) : List Event := wr32 0x0010 (encode i)

/-- `WAIT` with `polls` reads of STATUS before the engine completes, and one after, which reads BUSY = 0. -/
def waitOp (polls : Nat) : List Event :=
  (List.replicate polls (rd32 0x000C)).flatten ++ [.engine] ++ rd32 0x000C

/-- `ACK`: clear DONE and ERR. -/
def ackOp : List Event := wr32 0x000C 0x00000006
/-- `SETCUR a`. -/
def setCurOp (a : Word) : List Event := wr32 0x0014 a
/-- `SETEND a`. -/
def setEndOp (a : Word) : List Event := wr32 0x0018 a
/-- `SETQ p, qbits, qpdiv, round`. -/
def setQOp (p : Plane) (qbits qpdiv round : Nat) : List Event :=
  wr32 (BitVec.ofNat 16 (0x0040 + 8 * p.idx)) (BitVec.ofNat 32 (qpdiv * 2 ^ 8 ||| qbits))
    ++ wr32 (BitVec.ofNat 16 (0x0044 + 8 * p.idx)) (BitVec.ofNat 32 round)

/-! ### The commands of each coding mode, after MB_BEGIN (43_macroblock.md R264) -/

/-- Intra 16x16 luma. -/
def modeIntra16 (border : Bool) : List Instr := [.mbBegin, .codeI16 true border]
/-- Intra 4x4 luma: sub-blocks in BLK order; the host forms each prediction between commands. -/
def modeIntra4 : List Instr := .mbBegin :: blkOrder.map fun n => .codeI4 (Fin.ofNat 16 n) true
/-- Intra chroma 8x8. -/
def modeIntraChroma (border : Bool) : List Instr := [.mbBegin, .codeC8 false true border]
/-- Inter 16x16 luma. -/
def modeInter16 (elim border : Bool) : List Instr := [.mbBegin, .codeL16 elim true border]
/-- Inter chroma 8x8. -/
def modeInterChroma (elim border : Bool) : List Instr := [.mbBegin, .codeC8 elim true border]

end Sys2Proof.Machine
end

