-- ==== Sys2Proof/Tests/Slice0.lean ====
section
/-! SUPPORT. The model's own tests: ill-formed operands refused, words written out from 30_encoding.md, the vectors of
95_test_vectors.md on single commands, and for every statement with hypotheses a state and operands that meet them. -/

namespace Sys2Proof.Tests

open Sys2Proof.Machine Sys2Proof.Claims

/-! ### Ill-formed operands (30_encoding.md R116) -/

theorem test_wf_ftq4_blk : (Instr.ftq4 .cb 4 false).wf = false := by decide
theorem test_wf_fhq2_luma : (Instr.fhq2 .y).wf = false := by decide
theorem test_wf_ihs2_luma : (Instr.ihs2 .y).wf = false := by decide
theorem test_wf_iqtr4_blk : (Instr.iqtr4 .cr 15 true).wf = false := by decide
theorem test_wf_iqtr4dc_blk : (Instr.iqtr4dc .cr 4 false).wf = false := by decide
theorem test_wf_copy4_blk : (Instr.copy4 .cb 9).wf = false := by decide
theorem test_wf_pack4_blk : (Instr.pack4 .cr 4 true).wf = false := by decide
theorem test_wf_codeI16_border : (Instr.codeI16 false true).wf = false := by decide
theorem test_wf_codeL16_border : (Instr.codeL16 true false true).wf = false := by decide
theorem test_wf_codeC8_border : (Instr.codeC8 false false true).wf = false := by decide

/-! ### Words written out bit by bit (30_encoding.md R111, R114) -/

theorem test_decode_nop : decode 0b00000000000000000000000000000000#32 = .ok .nop := by decide
theorem test_decode_ftq4 : decode 0b00000001010010100000000000000000#32 = .ok (.ftq4 .cb 2 true) := by decide
theorem test_decode_fhq4 : decode 0b00000010000000000000000000000000#32 = .ok .fhq4 := by decide
theorem test_decode_fhq2 : decode 0b00000011100000000000000000000000#32 = .ok (.fhq2 .cr) := by decide
theorem test_decode_ihs4 : decode 0b00001000000000000000000000000000#32 = .ok .ihs4 := by decide
theorem test_decode_ihs2 : decode 0b00001001010000000000000000000000#32 = .ok (.ihs2 .cb) := by decide
theorem test_decode_iqtr4 : decode 0b00001010001111100000000000000000#32 = .ok (.iqtr4 .y 15 true) := by decide
theorem test_decode_iqtr4dc : decode 0b00001011100011000000000000000000#32 = .ok (.iqtr4dc .cr 3 false) := by decide
theorem test_decode_copy4 : decode 0b00001100000101000000000000000000#32 = .ok (.copy4 .y 5) := by decide
theorem test_decode_pack4 : decode 0b00010000000001100000000000000000#32 = .ok (.pack4 .y 1 true) := by decide
theorem test_decode_packdc : decode 0b00010001010000000000000000000000#32 = .ok (.packdc .cb) := by decide
theorem test_decode_mbBegin : decode 0b00100000000000000000000000000000#32 = .ok .mbBegin := by decide
theorem test_decode_codeI16 : decode 0b00100001000000001100000000000000#32 = .ok (.codeI16 true true) := by decide
theorem test_decode_codeI4 : decode 0b00100010000101001000000000000000#32 = .ok (.codeI4 5 true) := by decide
theorem test_decode_codeL16 : decode 0b00100011000000010000000000000000#32 = .ok (.codeL16 true false false) := by decide
theorem test_decode_codeC8 : decode 0b00100100000000001000000000000000#32 = .ok (.codeC8 false true false) := by decide
theorem test_decode_reconY16 : decode 0b00100101000000100100000000000000#32 = .ok (.reconY16 true true) := by decide
theorem test_decode_reconC8 : decode 0b00100110000000000100000000000000#32 = .ok (.reconC8 true) := by decide

/-- A reserved opcode, a reserved plane, a reserved bit, a flag the command lacks: vectors V-E2. -/
theorem test_decode_refused :
    [0x04FFFFFF, 0x01C00000, 0x01000001, 0x23004000, 0x22540000].map decode =
      [.reject .illegalOpcode, .reject .illegalField, .reject .illegalField, .reject .illegalField,
        .reject .illegalField] := by decide

/-- The assembly text of 30_encoding.md R120. -/
theorem test_asm : [asm (.ftq4 .cb 2 true), asm (.reconC8 false)] = ["FTQ4 CB, 2, dcx", "RECON_C8"] := by decide

/-! ### Small states -/

/-- Bytes from an address on. -/
def seg : Nat → List Nat → Memory
  | _, [] => []
  | a, b :: bs => (a, BitVec.ofNat 8 b) :: seg (a + 1) bs

/-- 16-bit values from an address on. -/
def halves : Nat → List Int → Memory
  | _, [] => []
  | a, v :: vs => (a, BitVec.ofInt 8 v) :: (a + 1, BitVec.ofInt 8 (v / 256)) :: halves (a + 2) vs

/-- The parameter set "QP28 intra" of 95_test_vectors.md, `P_INV_TMP_WRAP16` false, over a local memory. -/
def qp28 (lm : Memory) : State :=
  { State.reset with
    invTmpWrap16 := false
    qparamY := 0x413
    roundY := 0x2AAAA
    qparamCb := 0x413
    roundCb := 0x2AAAA
    qparamCr := 0x413
    roundCr := 0x2AAAA
    arenaCur := 0x100
    arenaEnd := 0x200
    lm := lm }

/-- SCALE and THRESH of the set at a table's address. -/
def fwd (a : Nat) : Memory :=
  halves a [8192, 5243, 8192, 5243, 5243, 3355, 5243, 3355, 8192, 5243, 8192, 5243, 5243, 3355, 5243, 3355]
    ++ halves (a + 0x20) (List.replicate 16 0)

/-- ISCALE and WEIGHT of the set. -/
def inv (a : Nat) : Memory :=
  halves a [16, 20, 16, 20, 20, 25, 20, 25, 16, 20, 16, 20, 20, 25, 20, 25]
    ++ halves (a + 0x20) (List.replicate 16 16)

/-- The source rows of the V-F3 block at an address, rows `w` apart. -/
def block3 (a w : Nat) : Memory :=
  seg a [12, 15, 20, 18] ++ seg (a + w) [10, 11, 30, 25] ++ seg (a + 2 * w) [9, 9, 9, 9]
    ++ seg (a + 3 * w) [40, 0, 255, 3]

/-- The V-F3 levels in raster order. -/
def levels3 : List Int := [5, -2, -3, 6, -4, 2, 4, -7, 4, -1, -3, 5, -3, 2, 2, -4]

/-- A 4x4 block of one sample value. -/
def flat (a w v : Nat) : Memory :=
  seg a [v, v, v, v] ++ seg (a + w) [v, v, v, v] ++ seg (a + 2 * w) [v, v, v, v] ++ seg (a + 3 * w) [v, v, v, v]

/-- What `f` reads of the next state; none after a stop. -/
def after (o : Host.Outcome State Fault Refusal) (f : State → α) : Option α :=
  match o with
  | .next t => some (f t)
  | .fault _ => none
  | .refused _ => none

/-- A list of elements, none where one has no value. -/
def elems (f : Nat → State → Except Stop α) (ks : List Nat) (t : State) : Option (List α) :=
  (readAll (fun k => f k t) ks).toOption

/-- The samples of `REC` at a sub-block. -/
def recs (p : Plane) (n : Nat) (t : State) : Option (List Nat) :=
  elems (fun k => lmSample (sampleAddr recBase p n (k / 4) (k % 4))) raster t

/-- Arena bytes from an address on. -/
def arenaBytes (a n : Nat) (t : State) : List (Option Byte) := (addrs a n).map t.arena.read

/-! ### The vectors of 95_test_vectors.md, one step each -/

/-- V-C1. -/
theorem test_nop : after (exec .nop State.reset) statusWord = some 0x00000002 := by decide
/-- V-C1, with CTRL = 1. -/
theorem test_nop_irq :
    after (exec .nop { State.reset with irqDoneEn := true }) (fun t => (statusWord t, t.irq)) =
      some (0x0000000A, true) := by decide

/-- V-F3. -/
theorem test_ftq4 :
    after (exec (.ftq4 .y 0 false) (qp28 (fwd 0x100 ++ block3 0x400 16 ++ flat 0x600 16 10)))
      (fun t => (elems (coef .y 0) raster t, (nnz .y 0 t).toOption)) = some (some levels3, some 16) := by decide
/-- V-F7. -/
theorem test_ftq4_chroma_dcx :
    after (exec (.ftq4 .cb 2 true) (qp28 (fwd 0x180 ++ block3 0x520 8 ++ flat 0x720 8 10)))
      (fun t => (elems (coef .cb 2) raster t, (nnz .cb 2 t).toOption, (dcsave .cb 2 t).toOption)) =
      some (some (0 :: levels3.tail), some 15, some 315) := by decide

/-- V-H2: the shift is a floor. -/
theorem test_fhq4_floor :
    after (exec .fhq4 { qp28 (halves 0x100 [2] ++ halves 0x120 [0] ++ halves 0x1340 (-1 :: List.replicate 15 0)) with
        qparamY := 0x400, roundY := 0 })
      (fun t => (elems (dccoef .y) raster t, (nnzdc .y t).toOption)) =
      some (some (List.replicate 16 (-1)), some 16) := by decide
/-- V-H3. -/
theorem test_fhq4 :
    after (exec .fhq4 (qp28 (fwd 0x100 ++ halves 0x1340 (List.replicate 8 160 ++ List.replicate 8 (-160)))))
      (fun t => (elems (dccoef .y) raster t, (nnzdc .y t).toOption)) =
      some (some [0, 0, 0, 0, 10, 0, 0, 0, 0, 0, 0, 0, 0, 0, 0, 0], some 1) := by decide
/-- V-H5. -/
theorem test_fhq2 :
    after (exec (.fhq2 .cr) (qp28 (fwd 0x200 ++ halves 0x1368 [0, 0, 0, 315])))
      (fun t => (elems (dccoef .cr) [0, 1, 2, 3] t, (nnzdc .cr t).toOption)) =
      some (some [2, -2, -2, 2], some 4) := by decide

/-- V-I2. -/
theorem test_ihs4 :
    after (exec .ihs4 (qp28 (inv 0x140 ++ halves 0x1300 (-3 :: 1 :: List.replicate 14 0))))
      (elems (dcrec .y) [0, 1, 2, 3, 12, 13, 14, 15]) =
      some (some [-128, -128, -256, -256, -128, -128, -256, -256]) := by decide
/-- V-I2b: no rounding term from QP_DIV 6 on. -/
theorem test_ihs4_qpdiv8 :
    after (exec .ihs4 { qp28 (inv 0x140 ++ halves 0x1300 (1 :: List.replicate 15 0)) with qparamY := 0x813 })
      (elems (dcrec .y) raster) = some (some (List.replicate 16 1024)) := by decide
/-- V-I4. -/
theorem test_ihs2 :
    after (exec (.ihs2 .cb) (qp28 (inv 0x1C0 ++ halves 0x1320 [-3, 1, 0, 2]))) (elems (dcrec .cb) [0, 1, 2, 3]) =
      some (some [0, -768, -512, -256]) := by decide
/-- V-I4, QP_DIV 0. -/
theorem test_ihs2_qpdiv0 :
    after (exec (.ihs2 .cb) { qp28 (inv 0x1C0 ++ halves 0x1320 [1, 0, 0, 0]) with qparamCb := 0x013 })
      (elems (dcrec .cb) [0, 1, 2, 3]) = some (some [8, 8, 8, 8]) := by decide

/-- V-I5. -/
theorem test_iqtr4 :
    after (exec (.iqtr4 .y 0 false) (qp28 (inv 0x140 ++ flat 0x600 16 10 ++ halves 0x1000 levels3))) (recs .y 0) =
      some (some [23, 21, 14, 16, 12, 5, 33, 26, 11, 8, 10, 7, 46, 0, 251, 3]) := by decide
/-- V-I6, on a device that wraps the temporaries. -/
theorem test_iqtr4_wrap :
    after (exec (.iqtr4 .y 0 false)
        { qp28 (inv 0x140 ++ flat 0x600 16 100 ++ halves 0x1000 (200 :: List.replicate 15 0)) with
          invTmpWrap16 := true })
      (recs .y 0) = some (some (List.replicate 16 0)) := by decide
/-- V-I8. -/
theorem test_iqtr4dc :
    after (exec (.iqtr4dc .y 0 false) (qp28 (inv 0x140 ++ flat 0x600 16 10 ++ halves 0x1000 levels3))) (recs .y 0) =
      some (some (List.replicate 16 30)) := by decide
/-- V-I9. -/
theorem test_iqtr4dc_clip :
    after (exec (.iqtr4dc .y 0 true) (qp28 (flat 0x600 16 3 ++ halves 0x1380 [-640]))) (recs .y 0) =
      some (some (List.replicate 16 0)) := by decide
/-- V-I10. -/
theorem test_copy4 :
    after (exec (.copy4 .y 5)
        (qp28 (seg 0x644 [0, 1, 2, 3] ++ seg 0x654 [4, 5, 6, 7] ++ seg 0x664 [8, 9, 10, 11]
          ++ seg 0x674 [12, 13, 14, 15])))
      (fun t => (addrs 0x844 4 ++ addrs 0x874 4).map t.lm.read) =
      some (([0, 1, 2, 3, 12, 13, 14, 15] : List Byte).map some) := by decide

/-- V-P1. -/
theorem test_pack4 :
    after (exec (.pack4 .y 0 false) (qp28 (halves 0x1000 levels3)))
      (fun t => (arenaBytes 0x100 8 t ++ arenaBytes 0x122 3 t, t.arenaCur, t.costAcc, (nnz .y 0 t).toOption)) =
      some (([0x10, 0x00, 0xFF, 0xFF, 0x05, 0x00, 0xFE, 0xFF, 0xFC, 0xFF] : List Byte).map some ++ [none],
        0x124, 138, some 16) := by decide
/-- V-P9. -/
theorem test_pack4_overflow :
    after (exec (.pack4 .y 0 false) { qp28 (halves 0x1000 levels3) with arenaCur := 0x1F8 })
      (fun t => (t.arena, t.arenaCur, t.costAcc, statusWord t, (nnz .y 0 t).toOption)) =
      some ([], 0x1F8, 0, 0x00100406, none) := by decide
/-- V-P6. -/
theorem test_packdc :
    after (exec (.packdc .cb) (qp28 (halves 0x1320 [0, -1, 0, 2])))
      (fun t => (arenaBytes 0x100 9 t, t.costAcc, (nnzdc .cb t).toOption)) =
      some (([0x02, 0x00, 0x0A, 0x00, 0xFF, 0xFF, 0x02, 0x00] : List Byte).map some ++ [none], 11, some 2) := by decide
/-- V-P7: the luma layer is scanned in zigzag order. -/
theorem test_packdc_luma :
    after (exec (.packdc .y) (qp28 (halves 0x1300 (10 :: List.replicate 14 0 ++ [-1]))))
      (fun t => (arenaBytes 0x100 8 t, t.costAcc)) =
      some (([0x02, 0x00, 0x01, 0x80, 0x0A, 0x00, 0xFF, 0xFF] : List Byte).map some, 10) := by decide

/-- V-M2. -/
theorem test_mbBegin :
    after (exec .mbBegin { State.reset with arenaCur := 0x1000, cbp := 0xE5, costAcc := 9 })
      (fun t => (t.mbStart, t.cbp, t.costAcc, elems (nnz .y) [0, 15] t)) = some (0x1000, 0, 0, some [0, 0]) := by decide
/-- V-M3. -/
theorem test_codeI4 :
    after (exec (.codeI4 5 true) (qp28 (fwd 0x100 ++ inv 0x140 ++ block3 0x444 16 ++ flat 0x644 16 10)))
      (fun t => (t.cntrlY, t.cbp, t.arenaCur, recs .y 5 t)) =
      some (0x04000400, 0x01, 0x124, some [23, 21, 14, 16, 12, 5, 33, 26, 11, 8, 10, 7, 46, 0, 251, 3]) := by decide
/-- 60_exceptions.md R286: the first record of CODE_L16 does not fit; sub-block 0 has its levels and count, and no
control bit, since SETBITS comes after EMIT. -/
theorem test_codeL16_overflow :
    after (exec (.codeL16 true false false)
        { qp28 (fwd 0x100 ++ block3 0x400 16 ++ flat 0x600 16 10) with arenaCur := 0x1FE })
      (fun t => (statusWord t, t.cntrlY, elems (coef .y 0) raster t, (nnz .y 0 t).toOption)) =
      some (0x00230406, 0, some levels3, some 16) := by decide
/-- 43_macroblock.md R243 on P-3's group 3: the control bits of sub-blocks 10, 11, 14 and 15 are cleared. -/
theorem test_codeL16_group :
    (eliminateGroup 3 0x3030 { State.reset with cntrlY := 0xFFFFFFFF }).cntrlY = 0xFFCCFFCC := by decide

/-- 43_macroblock.md R257, R258, R260 on P-4's layers, no DC bit set before: promotion sets the DC bits of the four Cb blocks and of Cr
block 3, the border mask makes
Cb sub-block 0 a copy, and Cb sub-block 3 is DC-only. -/
theorem test_reconC8_border :
    after (exec (.reconC8 true)
        (qp28 (halves 0x1C0 [16] ++ halves 0x1E0 [16] ++ halves 0x240 [16] ++ halves 0x260 [16] ++ seg 0x700 (List.replicate 64 50)
          ++ seg 0x740 (List.replicate 64 10) ++ halves 0x1320 [5, 0, 0, 0, 2, -2, -2, 2])))
      (fun t => (t.cntrlC, recs .cb 0 t, recs .cb 3 t, elems (dcrec .cr) [0, 1, 2, 3] t)) =
      some (0x0000F100, some (List.replicate 16 50), some (List.replicate 16 60), some [0, 0, 0, 1024]) := by decide +kernel

/-- V-M1's promotion: every DCREC is 640, the DC bit of sub-block 0 was set. -/
theorem test_codeI16_promotion :
    (promote .y { qp28 (halves 0x1380 (List.replicate 16 640)) with cntrlY := 0x8000 }).toOption.map (·.cntrlY) =
      some 0x0000FFFF := by decide
/-- V-M4: of the promoted word the mask keeps sub-blocks 3, 7, 11, 12, 13, 14 and 15. -/
theorem test_reconY16_border : masked .y true 0x0000FFFF = 0x0000111F := by decide
/-- P-4: the counts give CBP_C = 2 and both NZ bits; CBP_L stays. -/
theorem test_codeC8_cbp :
    (chromaCbp { qp28 (seg 0x1410 [0, 0, 0, 0, 0, 0, 0, 15, 0, 1, 4]) with cbp := 0x1F }).toOption.map (·.cbp) =
      some 0xEF := by decide

/-! ### Witnesses: a state and operands that meet the hypotheses of each statement -/

/-- Every listed byte of local memory holds 1; the QP28 registers, QP_DIV 8 in every plane, and room in the arena. -/
def ones (l : List Nat) : State :=
  { qp28 (l.map (·, 1)) with
    qparamY := 0x813
    qparamCb := 0x813
    qparamCr := 0x813
    arenaEnd := 0x1000 }

/-- QP_DIV above 8 in every plane. -/
def qp9 : State :=
  { State.reset with
    qparamY := 0x913
    qparamCb := 0x913
    qparamCr := 0x913 }

/-- A command running. -/
def busyWith (i : Instr) : State :=
  { State.reset with
    cmd := encode i
    busy := true
    arenaCur := 0x100
    arenaEnd := 0x200 }

theorem readable_ones (l : List Nat) : Readable l (ones l) := by
  intro a ha
  show (Memory.read (l.map (·, 1)) a).isSome = true
  induction l with
  | nil => cases ha
  | cons b l ih =>
    simp only [List.map_cons, Memory.read]
    split
    · rfl
    · rcases List.mem_cons.mp ha with rfl | h
      · contradiction
      · exact ih h

theorem ones_qpDiv (l : List Nat) (p : Plane) : qpDiv p (ones l) ≤ 8 := by
  cases p <;> exact (by decide : bits 0x813 11 8 ≤ 8)

theorem ones_room (i : Instr) (l : List Nat) : (ones l).arenaCur.toNat + recordRoom i ≤ (ones l).arenaEnd.toNat := by
  cases i <;> simp only [ones, qp28, recordRoom] <;> first | decide | (rename_i a; cases a <;> decide)

/-- A next state, from a test on it. -/
theorem next_of_after {o : Host.Outcome State Fault Refusal} {f : State → α} {v : α} (h : after o f = some v) :
    ∃ t, o = .next t ∧ f t = v := by
  cases o with
  | next t => exact ⟨t, rfl, by simpa [after] using h⟩
  | fault r => cases h
  | refused r => cases h

/-- Steps that end normally, from a test on their result. -/
theorem ok_of_isSome {r : Except Stop α} (h : r.toOption.isSome = true) : ∃ t, r = .ok t := by
  cases r with
  | ok t => exact ⟨t, rfl⟩
  | error e => cases h

theorem witness_DecodeOfEncode : (Instr.ftq4 .cr 3 true).wf = true ∧ (Instr.pack4 .y 15 true).wf = true := by decide

theorem witness_EncodeOfDecode : decode 0x01140000 = .ok (.ftq4 .y 5 false) ∧ decode 0x2401C000 = .ok (.codeC8 true true true) := by
  decide

theorem witness_ReservedOpcodeRefused :
    State.reset.busy = false ∧ bits 0x04FFFFFF 31 24 ∉ definedOps ∧ bits 0x27000000 31 24 ∉ definedOps ∧
      bits 0xFF000000 31 24 ∉ definedOps := by decide

theorem witness_IllegalFieldRefused :
    State.reset.busy = false ∧ bits 0x01500000 31 24 ∈ definedOps ∧ ¬ legalFields 0x01500000 ∧
      bits 0x26000001 31 24 ∈ definedOps ∧ ¬ legalFields 0x26000001 := by
  refine ⟨rfl, by decide, fun h => ?_, by decide, fun h => ?_⟩
  · exact absurd h.2.2.1 (by decide)
  · exact absurd h.1 (by unfold absent; decide)

theorem witness_LegalWordAcceptedOrBadQparam :
    qp9.busy = false ∧ bits 0x24008000 31 24 ∈ definedOps ∧ legalFields 0x24008000 ∧
      (∃ p ∈ planesRead 0x24008000, qpDiv p qp9 > 8) ∧ (∀ p ∈ planesRead 0x24008000, qpDiv p (ones []) ≤ 8) := by
  exact ⟨rfl, by decide, ⟨rfl, rfl, by decide⟩, by decide, fun p _ => ones_qpDiv [] p⟩

theorem witness_RefusedCommandHasNoEffect :
    (Instr.codeL16 true false true).wf = false ∧ (Instr.iqtr4 .cr 3 false).wf = true ∧
      ∃ p ∈ qpDivRead (.iqtr4 .cr 3 false), qpDiv p qp9 > 8 := by decide

theorem witness_StepRunsTheDecodedCommand :
    (busyWith .nop).pending = [] ∧ (busyWith .nop).busy = true ∧ decode (busyWith .nop).cmd = .ok .nop ∧
      0x26004000 < 2 ^ 32 ∧ decode (BitVec.ofNat 32 0x26004000) = .ok (.reconC8 true) ∧
      State.reset.pending = [] ∧ State.reset.busy = false := by decide

theorem witness_StepRunsTheDecodedCommand_moves :
    ({ busyWith .fhq4 with pending := [.engine] }).pending = [.engine] ∧ (busyWith .fhq4).busy = true ∧
      decode (busyWith .fhq4).cmd = .ok .fhq4 ∧ ({ State.reset with pending := [.engine] }).busy = false ∧
      ({ State.reset with pending := [.host (.read .w32 0)] }).pending = [.host (.read .w32 0)] ∧
      ({ State.reset with pending := [.hardReset] }).pending = [.hardReset] := by decide

theorem witness_IssueThenEngineIsExec :
    let s := { ones [] with pending := [.host (.write .w32 0x0010 0x0A8E0000), .engine] }
    s.busy = false ∧ decode 0x0A8E0000 = .ok (.iqtr4 .cr 3 true) ∧
      ∀ p ∈ qpDivRead (.iqtr4 .cr 3 true), qpDiv p s ≤ 8 := by decide

/-- For every legal command, a state that meets the hypotheses. -/
theorem witness_EveryCommandCompletes (i : Instr) :
    (∀ p ∈ qpDivRead i, qpDiv p (ones (lmInputs i)) ≤ 8) ∧ Readable (lmInputs i) (ones (lmInputs i)) ∧
      (ones (lmInputs i)).arenaCur.toNat + recordRoom i ≤ (ones (lmInputs i)).arenaEnd.toNat :=
  ⟨fun p _ => ones_qpDiv _ p, readable_ones _, ones_room i _⟩

/-- A legal command ends without an error from the state of `witness_EveryCommandCompletes`. -/
theorem ones_completes (i : Instr) (hw : i.wf = true) :
    ∃ t, exec i (ones (lmInputs i)) = .next t ∧ t.err = none := by
  have hq : qparamOk i (ones (lmInputs i)) = true := by simp [qparamOk, ones_qpDiv]
  exact Laws.exec_completes i _ (by simp [issueCheck, hw, hq]) (readable_ones _) (ones_room i _)

theorem witness_CommandEnds :
    (∃ t, exec (.codeI16 true true) (ones (lmInputs (.codeI16 true true))) = .next t ∧ t.err = none) ∧
      (Instr.codeI16 true true).wf = true ∧
      ∀ p ∈ qpDivRead (.codeI16 true true), qpDiv p (ones (lmInputs (.codeI16 true true))) ≤ 8 :=
  ⟨ones_completes _ rfl, rfl, fun p _ => ones_qpDiv _ p⟩

/-- The other end: ARENA_OVF recorded. -/
theorem witness_CommandEnds_overflow :
    ∃ t, exec (.pack4 .y 0 false) { qp28 (halves 0x1000 levels3) with arenaCur := 0x1F8 } = .next t ∧
      statusWord t = 0x00100406 := next_of_after (by decide)

/-- And it ends normally, in the sense of the statements. -/
theorem ones_normal (i : Instr) (hw : i.wf = true) : EndsNormally i (ones (lmInputs i)) := ones_completes i hw

/-- With an earlier error recorded: a command that ends normally all the same. -/
theorem ones_normal_sticky (i : Instr) (hw : i.wf = true) (e : ErrorRecord) :
    EndsNormally i { ones (lmInputs i) with err := some e } ∧
      ∃ t, exec i { ones (lmInputs i) with err := some e } = .next t ∧ t.err = some e := by
  obtain ⟨hc, u, hs, -⟩ := Laws.endsNormally_exec (ones_normal i hw)
  exact ⟨ones_normal i hw, _, Laws.exec_of_steps (some e) hc hs, rfl⟩

/-- An end with ERR clear, and a stop. -/
theorem witness_EarlierErrorChangesNothing :
    (∃ t, exec (.codeI16 true true) { ones (lmInputs (.codeI16 true true)) with err := none } = .next t ∧ t.err = none) ∧
      exec (.copy4 .y 0) { State.reset with err := none } = .fault (.uninitRead 0x0600) :=
  ⟨ones_completes _ rfl, rfl⟩

theorem witness_CommandFrame :
    ∃ t, exec (.codeC8 true true true) (ones (lmInputs (.codeC8 true true true))) = .next t ∧ t.err = none :=
  ones_completes _ rfl

theorem witness_ArenaDiscipline :
    (∃ t, exec (.codeL16 true true false) (ones (lmInputs (.codeL16 true true false))) = .next t ∧ t.err = none) ∧
      (ones []).arenaCur.toNat ≤ (ones []).arenaEnd.toNat := ⟨ones_completes _ rfl, by decide⟩

theorem witness_CommandsKeepTheHostsInputs :
    ∃ t, exec .mbBegin State.reset = .next t ∧ t.cbp = 0 := next_of_after (by decide)

theorem witness_StepKeepsInvariant :
    (busyWith .nop).Inv ∧ ∃ t, step (busyWith .nop) = .next t ∧ t.done = true := by
  refine ⟨?_, next_of_after (by decide)⟩
  refine ⟨rfl, ?_, rfl, ?_, by decide, by decide, by decide, by decide, by decide, by decide, by decide, ?_, ?_, ?_⟩
  · intro c hc; cases hc
  · intro c hc; cases hc
  · intro p; cases p <;> decide
  · intro p; cases p <;> decide
  · exact fun _ => ⟨.nop, by decide, by decide⟩

theorem witness_ResetValues : resetValue .thr = some 0x09040504 ∧ State.reset.busy = false := by decide

theorem witness_SoftResetEffect :
    (0x80000000 : Word).getLsbD 31 = true ∧ State.reset.busy = false ∧ (busyWith (.copy4 .y 0)).busy = true ∧
      decode (busyWith (.copy4 .y 0)).cmd = .ok (.copy4 .y 0) ∧ 0x083F ∉ lmWritten (.copy4 .y 0) ∧
      0xFF < (busyWith (.copy4 .y 0)).arenaCur.toNat ∧ (busyWith (.copy4 .y 0)).arenaEnd.toNat ≤ 0x200 := by decide

theorem witness_HardResetKeepsTheArena :
    State.reset.busy = false ∧ (busyWith .nop).busy = true ∧ (busyWith .nop).arenaCur.toNat ≤ 0x100 ∧
      0x1FF < (busyWith .nop).arenaEnd.toNat ∧ (busyWith .nop).arenaEnd.toNat ≤ 0x200 := by decide

theorem witness_StatusLayoutAndInterrupt :
    State.reset.err = none ∧ ({ State.reset with err := some ⟨.busyWrite, 0x26⟩ }).err = some ⟨.busyWrite, 0x26⟩ := by
  decide

theorem witness_StatusAndCtrlWrites :
    (3 : Word).getLsbD 31 = false ∧ (6 : Word).getLsbD 1 = true ∧ (6 : Word).getLsbD 2 = true ∧
      (0x7FFFFFFC : Word).getLsbD 31 = false ∧ (0x7FFFFFFC : Word).getLsbD 0 = false ∧
      (0x7FFFFFFC : Word).getLsbD 1 = false := by decide

/-- Misaligned, narrow in the CSR region, just past it, across NNZDC and the reserved bytes; then the last word of the
CSR region, the last sample of REC, and the last bytes of the map. -/
theorem witness_IllegalAccessRefused :
    (¬ legalAccess .w32 0x0102 ∧ ¬ legalAccess .w16 0x0010 ∧ ¬ legalAccess .w32 0x0080 ∧ ¬ legalAccess .w16 0x141A) ∧
      legalAccess .w32 0x007C ∧ legalAccess .w8 0x097F ∧ legalAccess .w32 0x141C := by
  unfold legalAccess
  decide

theorem witness_HostReadsHaveNoSideEffect :
    ∃ t, hostRead .w32 0x007C State.reset = .next t ∧ t.resp = ⟨false, 0⟩ := next_of_after (by decide)

theorem witness_LocalMemoryReadsBack :
    State.reset.busy = false ∧ dataAccess .w32 0x013C ∧ dataAccess .w16 0x127E ∧ dataAccess .w32 0x1280 ∧
      dataAccess .w32 0x12FC ∧ dataAccess .w8 0x141A ∧
      ∀ j, j < Width.w16.bytes → (ones [0x127E, 0x127F]).lm.read (0x127E + j) = some 1 := by
  unfold dataAccess
  decide

theorem witness_WritesWhileBusy :
    (busyWith .nop).busy = true ∧ legalAccess .w8 0x0400 ∧ legalAccess .w32 0x0004 ∧ legalAccess .w32 0x0014 ∧
      ¬ legalAccess .w32 0x0402 := by
  unfold legalAccess
  decide

theorem witness_RegisterWrites :
    State.reset.busy = false ∧ storedBits .cntrlC = some 0xFF00FF00 ∧ storedBits .elim = none ∧ Csr.elim ≠ .cntrlC ∧
      Csr.cntrlC ≠ .ctrl ∧ Csr.cntrlC ≠ .status ∧ Csr.cntrlC ≠ .cmd := by decide

theorem witness_RegisterReadsAndFields : State.reset.busy = false ∧ 0x7C ∈ [0x6C, 0x70, 0x74, 0x78, 0x7C] ∧ 15 < 16 := by
  decide

/-- While CODE_C8 runs: THR is on no list; CNTRL_Y is listed, and CODE_C8 does not write it. -/
theorem witness_RegisterReadsAndFields_busy :
    let s := busyWith (.codeC8 true true true)
    Csr.thr ∉ busyList ∧ s.busy = true ∧ decode s.cmd = .ok (.codeC8 true true true) ∧ Csr.cntrlY ∈ busyList ∧
      csrChanged (.codeC8 true true true) .cntrlY = 0 := by decide

theorem witness_QuantizerCorners :
    (42 : Int) ≠ 0 ∧ (42 : Int).natAbs < 43 ∧ 2 ^ 19 ≤ 0xFFFFFF ∧ 174762 < 2 ^ 19 := by decide

/-- Residuals at both ends of the range. -/
theorem witness_ForwardTransform :
    ∀ r c : Nat, r < 4 → c < 4 → -255 ≤ (if r = c then 255 else -255 : Int) ∧ (if r = c then 255 else -255 : Int) ≤ 255 := by
  intro r c _ _
  split <;> omega

theorem witness_InverseTransform :
    (∀ i, i < 4 → ∀ x ∈ ibSums fun j => (if 4 * i + j = 0 then 32767 else 0 : Int), fits16 x) ∧
      ∀ c, c < 4 →
        ∀ x ∈ ibSums fun i => ibOut id (fun j => (if 4 * i + j = 0 then 32767 else 0 : Int)) c, fits16 x := by
  unfold fits16
  decide

theorem witness_NopResult : bits 0x00000001 31 24 = 0 ∧ (0x00000001 : Word) ≠ 0 := by decide

theorem witness_Ftq4Result :
    let s := ones (lmInputs (.ftq4 .cr 3 true))
    3 < Plane.nb .cr ∧ (∀ k, k < 16 → srcSample .cr 3 (k / 4) (k % 4) s = .ok 1) ∧
      (∀ k, k < 16 → predSample .cr 3 (k / 4) (k % 4) s = .ok 1) ∧
      (∀ k, k < 16 → table tableScale .cr k s = .ok 257) ∧ ∀ k, k < 16 → table tableThresh .cr k s = .ok 257 := by decide

theorem witness_FhqResults :
    (∀ n, n < 16 → dcsave .y n (ones (lmInputs .fhq4)) = .ok 257) ∧
      table tableScale .y 0 (ones (lmInputs .fhq4)) = .ok 257 ∧
      table tableThresh .y 0 (ones (lmInputs .fhq4)) = .ok 257 := by decide

theorem witness_FhqResults_chroma :
    Plane.isChroma .cr = true ∧ (∀ n, n < 4 → dcsave .cr n (ones (lmInputs (.fhq2 .cr))) = .ok 257) ∧
      table tableScale .cr 0 (ones (lmInputs (.fhq2 .cr))) = .ok 257 ∧
      table tableThresh .cr 0 (ones (lmInputs (.fhq2 .cr))) = .ok 257 := by decide

theorem witness_IhsResults :
    qpDiv .y (ones (lmInputs .ihs4)) ≤ 8 ∧ (∀ k, k < 16 → dccoef .y k (ones (lmInputs .ihs4)) = .ok 257) ∧
      table tableIscale .y 0 (ones (lmInputs .ihs4)) = .ok 257 ∧
      table tableWeight .y 0 (ones (lmInputs .ihs4)) = .ok 257 := by decide

theorem witness_IhsResults_chroma :
    Plane.isChroma .cb = true ∧ qpDiv .cb (ones (lmInputs (.ihs2 .cb))) ≤ 8 ∧
      (∀ k, k < 4 → dccoef .cb k (ones (lmInputs (.ihs2 .cb))) = .ok 257) ∧
      table tableIscale .cb 0 (ones (lmInputs (.ihs2 .cb))) = .ok 257 ∧
      table tableWeight .cb 0 (ones (lmInputs (.ihs2 .cb))) = .ok 257 := by decide

theorem witness_Iqtr4Result :
    let s := ones (lmInputs (.iqtr4 .y 15 true))
    15 < Plane.nb .y ∧ qpDiv .y s ≤ 8 ∧ (∀ k, k < 16 → coef .y 15 k s = .ok 257) ∧
      (∀ k, k < 16 → table tableIscale .y k s = .ok 257) ∧ (∀ k, k < 16 → table tableWeight .y k s = .ok 257) ∧
      dcrec .y 15 s = .ok 257 ∧ ∀ k, k < 16 → predSample .y 15 (k / 4) (k % 4) s = .ok 1 := by decide

theorem witness_Iqtr4dcResult :
    let s := ones (lmInputs (.iqtr4dc .cb 3 true))
    3 < Plane.nb .cb ∧ qpDiv .cb s ≤ 8 ∧ dcrec .cb 3 s = .ok 257 ∧
      ∀ k, k < 16 → predSample .cb 3 (k / 4) (k % 4) s = .ok 1 := by decide

theorem witness_Iqtr4dcResult_level :
    let s := { ones (lmInputs (.iqtr4dc .cr 0 false)) with invTmpWrap16 := true }
    0 < Plane.nb .cr ∧ qpDiv .cr s ≤ 8 ∧ coef .cr 0 0 s = .ok 257 ∧ table tableIscale .cr 0 s = .ok 257 ∧
      table tableWeight .cr 0 s = .ok 257 ∧ ∀ k, k < 16 → predSample .cr 0 (k / 4) (k % 4) s = .ok 1 := by decide

theorem witness_Copy4Result :
    15 < Plane.nb .y ∧ ∀ k, k < 16 → predSample .y 15 (k / 4) (k % 4) (ones (lmInputs (.copy4 .y 15))) = .ok 1 := by decide

/-- Only position 0 holds a level; the full path ends normally. -/
theorem witness_ReconstructionPathsAgree :
    let s := qp28 (inv 0x140 ++ flat 0x600 16 10 ++ halves 0x1000 (5 :: List.replicate 15 0))
    (∀ k, 1 ≤ k → k < 16 → coef .y 0 k s = .ok 0) ∧ ∃ t, iqtr4 .y 0 false s = .ok t :=
  ⟨by decide, ok_of_isSome (by decide)⟩

/-- Offsets at both ends of the range that rounds to 0. -/
theorem witness_ReconstructionPathsAgree_copy :
    iqInput .y 0 true (qp28 (halves 0x1380 [-32])) 0 = .ok (-32) ∧
      iqInput .y 0 true (qp28 (halves 0x1380 [31])) 0 = .ok 31 := by decide

theorem witness_ReconstructionOrderUnobservable :
    let s := qp28 (seg 0x700 (List.replicate 64 50))
    s.lm.wf = true ∧ 0 < Plane.nb .cb ∧ 3 < Plane.nb .cb ∧
      ∃ t u, recon1 .cb 0 true 0 s = .ok t ∧ recon1 .cb 0 true 3 t = .ok u := by
  refine ⟨by decide, by decide, by decide, ?_⟩
  have h : (match recon1 .cb 0 true 0 (qp28 (seg 0x700 (List.replicate 64 50))) with
      | .ok t => recon1 .cb 0 true 3 t
      | .error e => .error e).toOption.isSome = true := by decide
  cases ht : recon1 .cb 0 true 0 (qp28 (seg 0x700 (List.replicate 64 50))) with
  | error e => rw [ht] at h; cases h
  | ok t =>
    rw [ht] at h
    obtain ⟨u, hu⟩ := ok_of_isSome h
    exact ⟨t, u, rfl, hu⟩

theorem witness_BitmapCountAndCost :
    1 + (List.replicate 15 (7 : Int)).length ≤ 16 ∧ 0 + (List.replicate 16 (7 : Int)).length ≤ 16 ∧
      ∀ r : Nat, r < (List.replicate 16 (7 : Int)).length → (if r < 16 then 1 else 9) = 1 := by
  refine ⟨by decide, by decide, fun r h => ?_⟩
  have : r < 16 := h
  simp [this]

theorem witness_ScanRebuiltFromItsRecord : 1 + (List.replicate 15 (-1 : Int)).length ≤ 16 := by decide

theorem witness_Pack4Result :
    let s := ones (lmInputs (.pack4 .cr 3 true))
    3 < Plane.nb .cr ∧ (∀ k, k < 16 → coef .cr 3 k s = .ok 257) ∧
      s.arenaCur.toNat + recLen ((zigzag.drop 1).map fun _ => (257 : Int)) ≤ s.arenaEnd.toNat := by decide

theorem witness_PackdcResult :
    let s := ones (lmInputs (.packdc .y))
    (∀ k, k < 16 → dccoef .y k s = .ok 257) ∧
      s.arenaCur.toNat + recLen (zigzag.map fun _ => (257 : Int)) ≤ s.arenaEnd.toNat := by decide

/-- One byte short of a full record; then the last even cursor. -/
theorem witness_PackOverflow :
    let s := { ones (lmInputs (.pack4 .y 15 false)) with arenaEnd := 0x122 }
    15 < Plane.nb .y ∧ (∀ k, k < 16 → coef .y 15 k s = .ok 257) ∧
      s.arenaEnd.toNat < s.arenaCur.toNat + recLen (zigzag.map fun _ => (257 : Int)) ∧
      0 + ([] : List Int).length ≤ 16 ∧
      2 ^ 32 ≤ ({ s with arenaCur := 0xFFFFFFFE }).arenaCur.toNat + recLen [] := by decide

theorem witness_PackOverflow_dc :
    let s := { ones (lmInputs (.packdc .cb)) with arenaEnd := 0x10A }
    (∀ k, k < 4 → dccoef .cb k s = .ok 257) ∧
      s.arenaEnd.toNat < s.arenaCur.toNat + recLen ([0, 1, 2, 3].map fun _ => (257 : Int)) := by decide

theorem witness_MbBeginResult :
    bits 0x20004000 31 24 = 0x20 ∧ (0x20004000 : Word) ≠ 0x20000000 ∧ nnzAddr .y 0 - 1 = 0x13FF := by decide

theorem witness_ControlBitsOfABlock : 15 < 16 ∧ (0 : Nat) ≠ 31 - 15 ∧ (1 : Nat) ≠ 15 - 15 := by decide

/-- Each of the three paths at the last Cr sub-block, whose bits are 24 and 8. -/
theorem witness_PathSelectionAndBorderMask :
    3 < Plane.nb .cr ∧ (0x01000000 : Word).getLsbD (31 - 4 * (Plane.cr.idx - 1) - 3) = true ∧
      (0x00000100 : Word).getLsbD (31 - 4 * (Plane.cr.idx - 1) - 3) = false ∧
      (0x00000100 : Word).getLsbD (15 - 4 * (Plane.cr.idx - 1) - 3) = true ∧
      (0x00000000 : Word).getLsbD (15 - 4 * (Plane.cr.idx - 1) - 3) = false ∧ Plane.cr ≠ .y := by decide

theorem witness_Promotion :
    (∀ n, n < 16 → dcrec .y n (ones (dcrecAddrs .y)) = .ok 257) ∧
      (∃ t, reconC8 true (ones (lmInputs (.reconC8 true))) = .ok t) ∧
      ∃ t, reconY16 true true (ones (lmInputs (.reconY16 true true))) = .ok t := by
  refine ⟨by decide, ?_, ?_⟩
  · obtain ⟨t, ht, -⟩ := Laws.stepsOf_completes (.reconC8 true) _ rfl (readable_ones _) (ones_room _ _)
    exact ⟨t, ht⟩
  · obtain ⟨t, ht, -⟩ := Laws.stepsOf_completes (.reconY16 true true) _ rfl (readable_ones _) (ones_room _ _)
    exact ⟨t, ht⟩

theorem witness_ReconY16Result (dc border : Bool) :
    (∃ t, exec (.reconY16 dc border) (ones (lmInputs (.reconY16 dc border))) = .next t ∧ t.err = none) ∧
      qpDiv .y (ones (lmInputs (.reconY16 dc border))) ≤ 8 := ⟨ones_completes _ rfl, ones_qpDiv _ _⟩

theorem witness_ReconC8Result (border : Bool) :
    (∃ t, exec (.reconC8 border) (ones (lmInputs (.reconC8 border))) = .next t ∧ t.err = none) ∧
      ∀ p, qpDiv p (ones (lmInputs (.reconC8 border))) ≤ 8 := ⟨ones_completes _ rfl, ones_qpDiv _⟩

theorem witness_ReconFlagRunsTheReconSteps (i : Instr) (hw : i.wf = true) :
    (∀ p, qpDiv p (ones (lmInputs i)) ≤ 8) ∧ EndsNormally i (ones (lmInputs i)) ∧
      ∃ u, exec i (ones (lmInputs i)) = .next u ∧ u.err = none :=
  ⟨ones_qpDiv _, ones_normal i hw, ones_completes i hw⟩

/-- The four commands of the statement are legal. -/
theorem witness_ReconFlagRunsTheReconSteps_wf :
    (Instr.codeI16 false false).wf = true ∧ (Instr.codeL16 true false false).wf = true ∧
      (Instr.codeC8 true false false).wf = true ∧ (Instr.codeI4 15 false).wf = true := by decide

/-- A record that does not fit; then a refused command. -/
theorem witness_AbnormalEndReconstructsNothing :
    (∃ t, exec (.pack4 .y 0 false) { qp28 (halves 0x1000 levels3) with arenaCur := 0x1F8 } = .next t ∧ t.err.isSome = true) ∧
      ¬ EndsNormally (.pack4 .y 0 false) { qp28 (halves 0x1000 levels3) with arenaCur := 0x1F8 } ∧
      (∃ t, exec (.reconC8 true) qp9 = .next t ∧ t.err.isSome = true) ∧ ¬ EndsNormally (.reconC8 true) qp9 := by
  have bad : ∀ (i : Instr) (s : State), after (exec i { s with err := none }) (fun t => t.err.isSome) = some true →
      ¬ EndsNormally i s := by
    rintro i s h ⟨t, ht, he⟩
    rw [ht] at h
    simp [after, he] at h
  exact ⟨next_of_after (by decide), bad _ _ (by decide), next_of_after (by decide), bad _ _ (by decide)⟩

theorem witness_LumaElimination : 3 < 4 ∧ groupOf 15 = 3 ∧ groupOf 0 ≠ 3 ∧ (0x0FFF : Nat) < coefAddr .y 0 0 := by decide

theorem witness_PlaneElimination : Plane.cr ≠ .y ∧ (∀ n, n < 4 → 0 ≠ acBit .cr n) ∧ ∀ n, n < 4 → 31 ≠ acBit .cr n := by
  decide

/-- Counts all 0; then one AC count. -/
theorem witness_ChromaCbp :
    let s := qp28 (seg 0x1410 [0, 0, 0, 0, 0, 0, 0, 0, 0, 0, 1])
    let t := qp28 (seg 0x1410 [0, 0, 0, 0, 0, 0, 0, 1, 0, 0, 0])
    nnzdc .cb s = .ok 0 ∧ nnzdc .cr s = .ok 1 ∧ (∀ n, n < 4 → nnz .cb n s = .ok 0) ∧ (∀ n, n < 4 → nnz .cr n s = .ok 0) ∧
      nnzdc .cb t = .ok 0 ∧ nnzdc .cr t = .ok 0 ∧ (∀ n, n < 4 → nnz .cb n t = .ok 0) ∧
      ∀ n, n < 4 → nnz .cr n t = .ok (if n = 3 then 1 else 0) := by decide

/-- The largest record, exactly fitting. -/
theorem witness_CodeI4Result :
    let s := { ones (lmInputs (.codeI4 15 true)) with arenaEnd := 0x124 }
    (∀ k, k < 16 → srcSample .y 15 (k / 4) (k % 4) s = .ok 1) ∧
      (∀ k, k < 16 → predSample .y 15 (k / 4) (k % 4) s = .ok 1) ∧
      (∀ k, k < 16 → table tableScale .y k s = .ok 257) ∧ (∀ k, k < 16 → table tableThresh .y k s = .ok 257) ∧
      qpDiv .y s ≤ 8 ∧ (∀ k, k < 16 → table tableIscale .y k s = .ok 257) ∧
      ∀ k, k < 16 → table tableWeight .y k s = .ok 257 := by decide

theorem witness_CodeI4Result_fits : ∀ vs : List Int, vs.length ≤ 16 → (0x100 : Nat) + recLen vs ≤ 0x124 := by
  intro vs h
  have := Laws.countNonzero_le vs
  simp only [recLen]
  omega

/-- Even the smallest record of 4 bytes does not fit. -/
theorem witness_CodeI4Overflow :
    let s := { ones (lmInputs (.codeI4 15 true)) with arenaEnd := 0x102 }
    (∀ k, k < 16 → srcSample .y 15 (k / 4) (k % 4) s = .ok 1) ∧
      (∀ k, k < 16 → predSample .y 15 (k / 4) (k % 4) s = .ok 1) ∧
      (∀ k, k < 16 → table tableScale .y k s = .ok 257) ∧ (∀ k, k < 16 → table tableThresh .y k s = .ok 257) ∧
      qpDiv .y s ≤ 8 ∧ s.arenaEnd.toNat < s.arenaCur.toNat + 4 := by decide

theorem witness_InterLumaSoundness (elim recon : Bool) (e : ErrorRecord) :
    let i := Instr.codeL16 elim recon recon
    EndsNormally i { ones (lmInputs i) with err := some e } ∧
      ∃ t, exec i { ones (lmInputs i) with err := some e } = .next t ∧ t.err = some e :=
  ones_normal_sticky _ (by cases recon <;> rfl) e

theorem witness_IntraLumaSoundness (recon : Bool) (e : ErrorRecord) :
    let i := Instr.codeI16 recon recon
    EndsNormally i { ones (lmInputs i) with err := some e } ∧
      ∃ t, exec i { ones (lmInputs i) with err := some e } = .next t ∧ t.err = some e :=
  ones_normal_sticky _ (by cases recon <;> rfl) e

theorem witness_ChromaSoundness (elim recon : Bool) (e : ErrorRecord) :
    let i := Instr.codeC8 elim recon recon
    EndsNormally i { ones (lmInputs i) with err := some e } ∧
      ∃ t, exec i { ones (lmInputs i) with err := some e } = .next t ∧ t.err = some e :=
  ones_normal_sticky _ (by cases recon <;> rfl) e

theorem readable_accept {l : List Nat} {s : State} (w : Word) (h : Readable l s) : Readable l (accept w s) := h

/-- FTQ4 after any word was accepted ends, and its levels are written. -/
theorem ftq4_ends {p : Plane} {n : Fin 16} (dcx : Bool) {s : State} (hp : Readable (pixelAddrs p n.val) s)
    (hf : Readable (forwardTables p) s) (w : Word) :
    ∃ t, ftq4 p n.val dcx (accept w s) = .ok t ∧ Readable (Laws.ftWritten p n.val dcx) t := by
  obtain ⟨t, ht, -, hr⟩ := Laws.ftq4_completes 0 dcx (readable_accept w hp) (readable_accept w hf)
  exact ⟨t, ht, hr⟩

/-- Where FTQ4 finds its inputs, it gives some levels. -/
theorem gives (p : Plane) (n : Fin 16) (dcx : Bool) (s : State) (hn : n.val < p.nb)
    (h : Readable (lmInputs (.ftq4 p n dcx)) s) : ∃ lv, Ftq4Gives p n dcx s lv := by
  have hw : (Instr.ftq4 p n dcx).wf = true := decide_eq_true hn
  have hq : qparamOk (.ftq4 p n dcx) s = true := rfl
  have hc : issueCheck (.ftq4 p n dcx) s = none := by simp only [issueCheck, hw, hq]; rfl
  obtain ⟨t, ht, hr⟩ := ftq4_ends dcx h.left h.right (encode (.ftq4 p n dcx))
  refine ⟨fun k => (coef p n k t).toOption.getD 0, complete t, ?_, fun k hk => ?_⟩
  · rw [Laws.exec_eq]
    simp only [command, hc, Laws.stepsOf, ht, finish]
  · obtain ⟨v, hv⟩ := Laws.coef_defined (p := p) (n := n) (k := k) hr.left.left hk
    show coef p n k t = .ok ((coef p n k t).toOption.getD 0)
    rw [hv]
    rfl

/-- FTQ4 finds its inputs where a command that codes the plane does. -/
theorem ftq4_inputs {p : Plane} {recon dcx : Bool} {s : State} (n : Fin 16) (hn : n.val < p.nb)
    (h : Readable (codeInputs p recon) s) : Readable (lmInputs (.ftq4 p n dcx)) s :=
  Readable.append (h.left.left.flat (Laws.mem_planeBlocks hn)) h.left.right

theorem witness_CodeL16Result (elim recon : Bool) (e : ErrorRecord) :
    let i := Instr.codeL16 elim recon recon
    let s := { ones (lmInputs i) with err := some e }
    EndsNormally i s ∧ (∃ t, exec i s = .next t ∧ t.err = some e) ∧ ∀ n : Fin 16, ∃ lv, Ftq4Gives .y n false s lv := by
  have h := ones_normal_sticky (.codeL16 elim recon recon) (by cases recon <;> rfl) e
  exact ⟨h.1, h.2, fun n => gives .y n false _ n.isLt (ftq4_inputs n n.isLt (readable_ones _))⟩

theorem witness_CodeI16Result (recon : Bool) (e : ErrorRecord) :
    let i := Instr.codeI16 recon recon
    let s := { ones (lmInputs i) with err := some e }
    EndsNormally i s ∧ (∃ t, exec i s = .next t ∧ t.err = some e) ∧ ∀ n : Fin 16, ∃ lv, Ftq4Gives .y n true s lv := by
  have h := ones_normal_sticky (.codeI16 recon recon) (by cases recon <;> rfl) e
  exact ⟨h.1, h.2, fun n => gives .y n true _ n.isLt (ftq4_inputs n n.isLt (readable_ones _))⟩

theorem witness_CodeC8Result (elim recon : Bool) (e : ErrorRecord) :
    let i := Instr.codeC8 elim recon recon
    let s := { ones (lmInputs i) with err := some e }
    EndsNormally i s ∧ (∃ t, exec i s = .next t ∧ t.err = some e) ∧
      ∀ p (n : Fin 16), p ≠ .y → n.val < 4 → ∃ lv, Ftq4Gives p n true s lv := by
  have h := ones_normal_sticky (.codeC8 elim recon recon) (by cases recon <;> rfl) e
  have hr := readable_ones (lmInputs (.codeC8 elim recon recon))
  refine ⟨h.1, h.2, fun p n hp hn => ?_⟩
  cases p with
  | y => exact absurd rfl hp
  | cb => exact gives .cb n true _ hn (ftq4_inputs n hn hr.left)
  | cr => exact gives .cr n true _ hn (ftq4_inputs n hn hr.right)

/-- Costs by hand from the reset table of 10_state.md R48: 3 at run 0, then 1 at run 3; and 2 at run 2. -/
theorem test_scanCost : scanCost State.reset [1, 0, 0, 0, 1] = 4 ∧ scanCost State.reset [0, 0, 1, 0] = 2 := by decide

end Sys2Proof.Tests
end

section
/-! PROOFS. What the host loads stays through every command: `HostKept`, said once for the steps of a command and for
`exec`, and the statement `CommandsKeepTheHostsInputs` from it. -/

namespace Sys2Proof.Machine

namespace Laws

/-! ### The commands write at REC and above (20_memory.md R84) -/

theorem addrs_ge {b a n : Nat} (h : b ≤ a) : ∀ x ∈ addrs a n, b ≤ x := fun _ hx => h.trans (mem_addrs.mp hx).1

theorem sampleAddr_ge (base : Nat) (p : Plane) (n r c : Nat) : base ≤ sampleAddr base p n r c := by
  simp only [sampleAddr]; omega

theorem coefAddr_ge (p : Plane) (n k : Nat) : 0x1000 ≤ coefAddr p n k := by
  cases p with
  | y => simp only [coefAddr]; omega
  | cb => simp only [coefAddr]; split <;> omega
  | cr => simp only [coefAddr]; omega

theorem recAddrs_ge (p : Plane) (n : Nat) : ∀ a ∈ recAddrs p n, 0x0800 ≤ a := by
  intro a ha
  obtain ⟨k, -, rfl⟩ := List.mem_map.mp ha
  exact sampleAddr_ge recBase p n _ _

theorem recPlaneAddrs_ge (p : Plane) : ∀ a ∈ recPlaneAddrs p, 0x0800 ≤ a := addrs_ge (sampleAddr_ge recBase p 0 0 0)

theorem coefBlock_ge (p : Plane) (n : Nat) : ∀ a ∈ addrs (coefAddr p n 0) 32, 0x0800 ≤ a :=
  addrs_ge (Nat.le_trans (by decide) (coefAddr_ge p n 0))

theorem coefPlaneAddrs_ge (p : Plane) : ∀ a ∈ coefPlaneAddrs p, 0x0800 ≤ a := by
  intro a ha
  obtain ⟨n, -, ha⟩ := List.mem_flatMap.mp ha
  exact coefBlock_ge p n a ha

theorem nnzAddr_ge (p : Plane) (n : Nat) : 0x0800 ≤ nnzAddr p n := by
  cases p <;> simp only [nnzAddr] <;> omega

theorem nnzPlaneAddrs_ge (p : Plane) : ∀ a ∈ nnzPlaneAddrs p, 0x0800 ≤ a := addrs_ge (nnzAddr_ge p 0)

theorem nnzdcAddr_ge (p : Plane) : 0x0800 ≤ nnzdcAddr p := by simp only [nnzdcAddr]; omega

theorem dcLayerAddrs_ge (p : Plane) : ∀ a ∈ dcLayerAddrs p, 0x0800 ≤ a :=
  List.forall_mem_append.mpr
    ⟨addrs_ge (by simp only [dccoefAddr]; omega), List.forall_mem_singleton.mpr (nnzdcAddr_ge p)⟩

theorem dcrecAddrs_ge (p : Plane) : ∀ a ∈ dcrecAddrs p, 0x0800 ≤ a := addrs_ge (by simp only [dcrecAddr]; omega)

theorem dcsaveBlock_ge (p : Plane) (n k : Nat) : ∀ a ∈ addrs (dcsaveAddr p n) k, 0x0800 ≤ a :=
  addrs_ge (by simp only [dcsaveAddr]; omega)

/-- What a coding command writes when its flag is set, or nothing. -/
theorem flag_ge {b : Bool} {l : List Nat} (h : ∀ a ∈ l, 0x0800 ≤ a) : ∀ a ∈ (if b then l else []), 0x0800 ≤ a := by
  cases b with
  | true => exact h
  | false => intro a ha; cases ha

/-- What CODE_I16 and CODE_C8 write of a plane. -/
theorem dcPlane_ge (p : Plane) (recon : Bool) :
    ∀ a ∈ dcsaveAddrs p ++ coefPlaneAddrs p ++ nnzPlaneAddrs p ++ dcLayerAddrs p
      ++ (if recon then dcrecAddrs p ++ recPlaneAddrs p else []), 0x0800 ≤ a := by
  simp only [List.forall_mem_append]
  exact ⟨⟨⟨⟨dcsaveBlock_ge p 0 _, coefPlaneAddrs_ge p⟩, nnzPlaneAddrs_ge p⟩, dcLayerAddrs_ge p⟩,
    flag_ge (List.forall_mem_append.mpr ⟨dcrecAddrs_ge p, recPlaneAddrs_ge p⟩)⟩

/-- No command writes below REC: the tables, SRC and PRED stand there. -/
theorem lmWritten_ge (i : Instr) : ∀ a ∈ lmWritten i, 0x0800 ≤ a := by
  cases i with
  | nop => intro a ha; cases ha
  | ftq4 p n dcx =>
    simp only [lmWritten, List.forall_mem_append, List.forall_mem_singleton]
    exact ⟨⟨coefBlock_ge p n, nnzAddr_ge p n⟩, flag_ge (dcsaveBlock_ge p n 2)⟩
  | fhq4 => exact dcLayerAddrs_ge .y
  | fhq2 p => exact dcLayerAddrs_ge p
  | ihs4 => exact dcrecAddrs_ge .y
  | ihs2 p => exact dcrecAddrs_ge p
  | iqtr4 p n _ => exact recAddrs_ge p n
  | iqtr4dc p n _ => exact recAddrs_ge p n
  | copy4 p n => exact recAddrs_ge p n
  | pack4 p n _ => exact List.forall_mem_singleton.mpr (nnzAddr_ge p n)
  | packdc p => exact List.forall_mem_singleton.mpr (nnzdcAddr_ge p)
  | mbBegin => exact addrs_ge (nnzAddr_ge .y 0)
  | codeI16 recon _ => exact dcPlane_ge .y recon
  | codeI4 n recon =>
    simp only [lmWritten, List.forall_mem_append, List.forall_mem_singleton]
    exact ⟨⟨coefBlock_ge .y n, nnzAddr_ge .y n⟩, flag_ge (recAddrs_ge .y n)⟩
  | codeL16 _ recon _ =>
    simp only [lmWritten, List.forall_mem_append]
    exact ⟨⟨coefPlaneAddrs_ge .y, nnzPlaneAddrs_ge .y⟩, flag_ge (recPlaneAddrs_ge .y)⟩
  | codeC8 _ recon _ =>
    intro a ha
    obtain ⟨p, -, ha⟩ := List.mem_flatMap.mp ha
    exact dcPlane_ge p recon a ha
  | reconY16 dc _ =>
    simp only [lmWritten, List.forall_mem_append]
    exact ⟨recPlaneAddrs_ge .y, flag_ge (dcrecAddrs_ge .y)⟩
  | reconC8 _ =>
    intro a ha
    obtain ⟨p, -, ha⟩ := List.mem_flatMap.mp ha
    exact (List.forall_mem_append.mpr ⟨dcrecAddrs_ge p, recPlaneAddrs_ge p⟩) a ha

/-! ### What the host loads -/

/-- The registers only the host writes: CTRL, ARENA_END, THR, the costs, the parameters, and the read-only ones. -/
def hostRegs : List Csr :=
  [.ctrl, .arenaEnd, .thr, .costLut0, .costLut1, .costLut2, .costLut3, .qparamY, .roundY, .qparamCb, .roundCb,
    .qparamCr, .roundCr, .cfg, .id, .version]

/-- The fields neither the steps of a command nor its acceptance and end change, the others blanked out. -/
def hostPart (s : State) : State := withStatus 0 false false none (unchangedPart s)

theorem csrValue_hostPart {c : Csr} (hc : c ∈ hostRegs) (s : State) : csrValue c (hostPart s) = csrValue c s := by
  have all : ∀ c ∈ hostRegs, csrValue c (hostPart s) = csrValue c s := by
    simp only [hostRegs, List.forall_mem_cons]
    exact ⟨rfl, rfl, rfl, rfl, rfl, rfl, rfl, rfl, rfl, rfl, rfl, rfl, rfl, rfl, rfl, rfl, fun _ h => nomatch h⟩
  exact all c hc

theorem hostPart_record (code : ErrorCode) (op : Byte) (s : State) : hostPart (record code op s) = hostPart s := by
  cases h : s.err with
  | none => simp only [record, h]; rfl
  | some e => simp only [record, h]

/-- From `s` to `t` everything the host loads stayed: its registers, and local memory below REC. -/
structure HostKept (s t : State) : Prop where
  part : hostPart t = hostPart s
  below : ∀ a, a < 0x0800 → t.lm.read a = s.lm.read a

theorem HostKept.refl (s : State) : HostKept s s := ⟨rfl, fun _ _ => rfl⟩

theorem HostKept.trans {s t u : State} (h : HostKept s t) (k : HostKept t u) : HostKept s u :=
  ⟨k.part.trans h.part, fun a ha => (k.below a ha).trans (h.below a ha)⟩

theorem HostKept.symm {s t : State} (h : HostKept s t) : HostKept t s := ⟨h.part.symm, fun a ha => (h.below a ha).symm⟩

theorem HostKept.csr {s t : State} (h : HostKept s t) {c : Csr} (hc : c ∈ hostRegs) : csrValue c t = csrValue c s := by
  rw [← csrValue_hostPart hc t, h.part, csrValue_hostPart hc s]

/-- Steps that write local memory at REC and above only keep what the host loads. -/
theorem Work.hostKept {sc : Scope} {s t : State} (h : Work sc s t) (hl : ∀ a, sc.lm a → 0x0800 ≤ a) : HostKept s t where
  part := congrArg (withStatus 0 false false none) h.kept
  below a ha := h.frame a fun hw => absurd (hl a hw) (by omega)

/-- Every command that answers a next state keeps what the host loads. -/
theorem exec_hostKept {i : Instr} {s t : State} (h : exec i s = .next t) : HostKept s t := by
  cases exec_cases i 0 s with
  | refused code _ he =>
    cases he.symm.trans h
    exact ⟨hostPart_record _ _ _, fun _ _ => by simp only [refuse, StateLaws.complete_lm, StateLaws.record_lm]⟩
  | completed u _ _ hw he =>
    cases he.symm.trans h
    have hk := hw.hostKept (lmWritten_ge i)
    exact ⟨hk.part, hk.below⟩
  | overflowed u _ _ _ hw he =>
    cases he.symm.trans h
    have hk := hw.hostKept (lmWritten_ge i)
    exact ⟨(hostPart_record _ _ _).trans hk.part, fun a ha => by
      rw [StateLaws.complete_lm, StateLaws.record_lm]; exact hk.below a ha⟩
  | stopped a _ _ he => cases he.symm.trans h

end Laws

/-- Settles O15: every end of a command, its refusal and its overflow included, keeps what the host loads. -/
theorem commandsKeepTheHostsInputs : Obligations.CommandsKeepTheHostsInputs := by
  intro i s t h
  have hk := Laws.exec_hostKept h
  exact ⟨hk.below, fun c hc => hk.csr hc⟩

end Sys2Proof.Machine
end

section
/-! PROOFS. What the operations a macroblock command is made of compute, each said once: the values `readAll`
answers, the steps `runAll` runs, the control bits, and the records in the arena. -/

namespace Sys2Proof.Machine

namespace Laws

open Sys2Proof.Claims

/-! ### Values read -/

/-- What `readAll` answers, as the values of a function. -/
theorem readAll_values [Inhabited β] {f : α → Except Stop β} {l : List α} {bs : List β} (h : readAll f l = .ok bs) :
    ∃ g : α → β, (∀ a ∈ l, f a = .ok (g a)) ∧ bs = l.map g := by
  have hg : ∀ a ∈ l, f a = .ok ((f a).toOption.getD default) := by
    intro a ha
    obtain ⟨i, hi, rfl⟩ := List.mem_iff_getElem.mp ha
    rw [readAll_get h i hi]
    rfl
  exact ⟨_, hg, Except.ok.inj (h.symm.trans (readAll_ok hg))⟩

theorem readAll_congr {f g : α → Except Stop β} {l : List α} (h : ∀ a ∈ l, f a = g a) : readAll f l = readAll g l := by
  induction l with
  | nil => rfl
  | cons a l ih => simp only [readAll, h a (by simp), ih fun b hb => h b (by simp [hb])]

theorem mem_raster {n : Nat} (h : n < 16) : n ∈ raster := mem_planeBlocks (p := .y) h

/-- Steps in order: what every step keeps holds at the end, and so does what each step does once no step undoes it. -/
theorem runAll_holds {f : α → State → Except Stop State} {I : State → Prop} {D : α → State → Prop} {l : List α}
    (step : ∀ a ∈ l, ∀ u v, I u → f a u = .ok v → I v ∧ D a v ∧ ∀ b ∈ l, D b u → D b v) {s t : State}
    (h : runAll f l s = .ok t) (hs : I s) : I t ∧ ∀ a ∈ l, D a t := by
  suffices H : ∀ k, (∀ a ∈ k, a ∈ l) → ∀ s, I s → runAll f k s = .ok t →
      I t ∧ (∀ a ∈ k, D a t) ∧ ∀ b ∈ l, D b s → D b t from by
    obtain ⟨hi, hd, -⟩ := H l (fun _ h => h) s hs h
    exact ⟨hi, hd⟩
  intro k
  induction k with
  | nil => intro _ s hs h; cases h; exact ⟨hs, by simp, fun _ _ h => h⟩
  | cons a k ih =>
    intro hk s hs h
    simp only [runAll] at h
    split at h
    · cases h
    · rename_i v hv
      have ha := hk a (by simp)
      obtain ⟨hi, hd, hb⟩ := step a ha s v hs hv
      obtain ⟨hi', hd', hb'⟩ := ih (fun b hb => hk b (by simp [hb])) v hi h
      exact ⟨hi', List.forall_mem_cons.mpr ⟨hb' a ha hd, hd'⟩, fun b hl h => hb' b hl (hb b hl h)⟩

theorem map_raster_length (f : Nat → α) : (raster.map f).length = 16 := List.length_map _

theorem map_raster_getElem (f : Nat → α) {k : Nat} (h : k < (raster.map f).length) : (raster.map f)[k] = f k := by
  have hr : ∀ j (h : j < 16), raster[j]'h = j := by decide
  rw [List.getElem_map]
  exact congrArg f (hr k h)

/-! ### Levels of a scan -/

/-- The order of a scan does not change the count. -/
theorem countNonzero_zigzag (f : Nat → Int) : countNonzero (zigzag.map f) = countNonzero (raster.map f) :=
  ((show zigzag.Perm raster by decide).map f).countP_eq _

/-- The scan of an AC record: positions 1 to 15 in zigzag order (42_pack.md R200). -/
def acScan (lv : Nat → Int) : List Int := (zigzag.drop 1).map lv

theorem acScan_length (lv : Nat → Int) : (acScan lv).length = 15 := rfl

theorem countNonzero_acScan {lv : Nat → Int} (h : lv 0 = 0) :
    countNonzero (acScan lv) = countNonzero (raster.map lv) := by
  have hz : zigzag.map lv = 0 :: acScan lv := by rw [← h]; rfl
  rw [← countNonzero_zigzag, hz]
  rfl

theorem countNonzero_pos {lv : Nat → Int} : 0 < countNonzero (raster.map lv) ↔ ∃ k, k < 16 ∧ lv k ≠ 0 := by
  simp only [countNonzero, List.countP_pos_iff, List.mem_map, decide_eq_true_eq]
  constructor
  · rintro ⟨_, ⟨k, hk, rfl⟩, hne⟩; exact ⟨k, raster_lt16 hk, hne⟩
  · rintro ⟨k, hk, hne⟩; exact ⟨_, ⟨k, mem_raster hk, rfl⟩, hne⟩

/-! ### Control bits -/

/-- Setting a bit sets that bit alone. -/
theorem getLsbD_setBit (x : Word) {b i : Nat} (hi : i < 32) :
    (setBit x b).getLsbD i = true ↔ x.getLsbD i = true ∨ i = b := by
  simp only [setBit, BitVec.getLsbD_or, BitVec.getLsbD_ofNat, Nat.testBit_two_pow, hi, decide_true, Bool.true_and,
    Bool.or_eq_true, decide_eq_true_eq]
  exact or_congr_right eq_comm

/-- `setDcBits` sets the DC bit of each value that is not 0, and no other bit. -/
theorem getLsbD_setDcBits (p : Plane) (k : Nat) (vs : List Int) (w : Word) {i : Nat} (hi : i < 32) :
    (setDcBits p k vs w).getLsbD i = true ↔
      w.getLsbD i = true ∨ ∃ j, ∃ h : j < vs.length, vs[j] ≠ 0 ∧ i = dcBit p (k + j) := by
  induction vs generalizing k w with
  | nil => simp [setDcBits]
  | cons v vs ih =>
    rw [setDcBits, ih]
    have head : (if v ≠ 0 then setBit w (dcBit p k) else w).getLsbD i = true ↔
        w.getLsbD i = true ∨ (v ≠ 0 ∧ i = dcBit p k) := by
      split
      · rename_i hv; simp [getLsbD_setBit w hi, hv]
      · rename_i hv; simp [hv]
    rw [head, or_assoc]
    refine or_congr_right ⟨?_, ?_⟩
    · rintro (h | ⟨j, hj, h⟩)
      · exact ⟨0, by simp, h⟩
      · exact ⟨j + 1, by simpa using hj, by simpa [Nat.add_assoc, Nat.add_comm 1 j] using h⟩
    · rintro ⟨j, hj, h⟩
      cases j with
      | zero => exact .inl h
      | succ j => exact .inr ⟨j, by simpa using hj, by simpa [Nat.add_assoc, Nat.add_comm 1 j] using h⟩

/-- With one value per luma sub-block, the DC bit of sub-block `n` is set exactly when it was or its value is not 0. -/
theorem dcBit_setDcBits (f : Nat → Int) (w : Word) {n : Nat} (hn : n < 16) :
    (setDcBits .y 0 (raster.map f) w).getLsbD (15 - n) = true ↔ w.getLsbD (15 - n) = true ∨ f n ≠ 0 := by
  rw [getLsbD_setDcBits _ _ _ _ (by omega)]
  refine or_congr_right ⟨?_, fun h => ⟨n, by rwa [map_raster_length], ?_, by rw [dcBit, Nat.zero_add]⟩⟩
  · rintro ⟨j, hj, hne, he⟩
    rw [map_raster_getElem] at hne
    rw [map_raster_length] at hj
    simp only [dcBit] at he
    rwa [show n = j by omega]
  · rwa [map_raster_getElem]

/-- Setting DC bits of luma leaves the AC bits. -/
theorem acBit_setDcBits (vs : List Int) (w : Word) {n : Nat} (hn : n < 16) (hl : vs.length = 16) :
    (setDcBits .y 0 vs w).getLsbD (31 - n) = w.getLsbD (31 - n) := by
  rw [Bool.eq_iff_iff, getLsbD_setDcBits _ _ _ _ (by omega)]
  refine or_iff_left ?_
  rintro ⟨j, hj, -, he⟩
  simp only [dcBit] at he
  omega

/-! ### Records -/

/-- The bytes of a 16-bit store, the low byte first. -/
def halfBytes (v : Half) : List Byte := [v.extractLsb' 0 8, v.extractLsb' 8 8]

theorem length_halves (vs : List Half) : (vs.flatMap halfBytes).length = 2 * vs.length := by
  induction vs with
  | nil => rfl
  | cons v vs ih =>
    rw [List.flatMap_cons, List.length_append, ih, List.length_cons, show (halfBytes v).length = 2 from rfl]
    omega

/-- Consecutive 16-bit stores read back byte by byte. -/
theorem read_writeHalves_bytes (m : Memory) (x : Nat) (vs : List Half) (j : Nat) (h : j < 2 * vs.length) :
    (m.writeHalves x vs).read (x + j) = (vs.flatMap halfBytes)[j]? := by
  induction vs generalizing m x j with
  | nil => simp at h
  | cons v vs ih =>
    match j with
    | 0 => exact MemoryLaws.read_writeHalves_lo m x 0 (v :: vs) (by simp)
    | 1 => exact MemoryLaws.read_writeHalves_hi m x 0 (v :: vs) (by simp)
    | j + 2 =>
      have := ih (m.writeHalf x v) (x + 2) j (by simp only [List.length_cons] at h; omega)
      rw [Memory.writeHalves, show x + (j + 2) = x + 2 + j by omega, this]
      rfl

theorem halfBytes_ofNat (n : Nat) : halfBytes (BitVec.ofNat 16 n) = [BitVec.ofNat 8 n, BitVec.ofNat 8 (n / 256)] := by
  have lo : (BitVec.ofNat 16 n).extractLsb' 0 8 = BitVec.ofNat 8 n :=
    BitVec.eq_of_toNat_eq (by simp)
  have hi : (BitVec.ofNat 16 n).extractLsb' 8 8 = BitVec.ofNat 8 (n / 256) :=
    BitVec.eq_of_toNat_eq (by simp [Nat.shiftRight_eq_div_pow]; omega)
  rw [halfBytes, lo, hi]

theorem halfBytes_ofInt (v : Int) : halfBytes (BitVec.ofInt 16 v) = [BitVec.ofInt 8 v, BitVec.ofInt 8 (v / 256)] := by
  have lo : (BitVec.ofInt 16 v).extractLsb' 0 8 = BitVec.ofInt 8 v :=
    BitVec.eq_of_toNat_eq (by simp; omega)
  have hi : (BitVec.ofInt 16 v).extractLsb' 8 8 = BitVec.ofInt 8 (v / 256) :=
    BitVec.eq_of_toNat_eq (by simp [Nat.shiftRight_eq_div_pow]; omega)
  rw [halfBytes, lo, hi]

/-- The 16-bit values EMIT stores are the record's bytes (42_pack.md R204). -/
theorem recordHalves_bytes {start : Nat} {vs : List Int} (h : start + vs.length ≤ 16) :
    (recordHalves start vs).flatMap halfBytes = recordOf start vs := by
  have values : ∀ l : List Int, (l.map (BitVec.ofInt 16)).flatMap halfBytes
      = l.flatMap fun v => [BitVec.ofInt 8 v, BitVec.ofInt 8 (v / 256)] := by
    intro l
    rw [List.flatMap_map]
    exact congrArg (List.flatMap · l) (funext halfBytes_ofInt)
  have small : countNonzero vs / 256 = 0 := by have := countNonzero_le vs; omega
  rw [recordHalves, List.flatMap_cons, List.flatMap_cons, values, nnzOf_sig start vs h, halfBytes_ofNat,
    halfBytes_ofNat, small]
  rfl

theorem recordOf_length {start : Nat} {vs : List Int} (h : start + vs.length ≤ 16) :
    (recordOf start vs).length = recordLen start vs := by
  rw [← recordHalves_bytes h, length_halves, recordHalves_length start vs h]

/-- No record, where neither the arena nor the cursor changed. -/
theorem appendedAll_nil {s t : State} (ha : t.arena = s.arena) (hc : t.arenaCur = s.arenaCur) : AppendedAll [] s t :=
  ⟨by rw [hc]; rfl, fun _ h => absurd h (Nat.not_lt_zero _), fun _ _ => by rw [ha]⟩

/-- Records appended one after the other. -/
theorem appendedAll_trans {bs cs : List Byte} {s t u : State} (h : AppendedAll bs s t) (k : AppendedAll cs t u) :
    AppendedAll (bs ++ cs) s u := by
  obtain ⟨hcur, hbytes, hbelow⟩ := h
  obtain ⟨kcur, kbytes, kbelow⟩ := k
  refine ⟨by rw [List.length_append]; omega, fun j hj => ?_, fun a ha => ?_⟩
  · rw [List.length_append] at hj
    by_cases hb : j < bs.length
    · rw [kbelow _ (by omega), hbytes j hb, List.getElem?_append_left hb]
    · have := kbytes (j - bs.length) (by omega)
      rw [List.getElem?_append_right (by omega), ← this]
      congr 1; omega
  · rw [kbelow _ (by omega), hbelow a ha]

/-- EMIT appends the record of its scan and changes nothing else; it answers the count of the values that are not 0. -/
theorem emit_appends {start : Nat} {vs : List Int} {s t : State} {r : Emitted} (hl : start + vs.length ≤ 16)
    (h : emit start vs s = .ok (r, t)) :
    AppendedAll (recordOf start vs) s t ∧ r.nnz = countNonzero vs ∧
      t = { s with arena := t.arena, arenaCur := t.arenaCur } := by
  rcases emit_cases start vs s with ⟨-, he⟩ | ⟨hle, he⟩
  · exact nomatch he.symm.trans h
  · obtain ⟨rfl, rfl⟩ := Prod.mk.inj (Except.ok.inj (he.symm.trans h))
    have hlen := recordHalves_length start vs hl
    refine ⟨⟨?_, fun j hj => ?_, fun a ha => MemoryLaws.read_writeHalves_out _ _ _ _ (.inl ha)⟩,
      nnzOf_sig start vs hl, rfl⟩
    · rw [recordOf_length hl]
      exact Nat.mod_eq_of_lt (Nat.lt_of_le_of_lt hle s.arenaEnd.isLt)
    · rw [recordOf_length hl] at hj
      rw [← recordHalves_bytes hl]
      exact read_writeHalves_bytes _ _ _ _ (by omega)

/-! ### Named stores read back -/

theorem lmSample_putByte (s : State) (a v : Nat) (hv : v < 256) :
    lmSample a (s.putByte a (BitVec.ofNat 8 v)) = .ok v := by
  simp only [lmSample, lmByte, StateLaws.putByte_lm, MemoryLaws.read_write_same, BitVec.toNat_ofNat]
  rw [Nat.mod_eq_of_lt hv]

theorem read_putByte_ne (s : State) {a x : Nat} (b : Byte) (h : x ≠ a) : (s.putByte a b).lm.read x = s.lm.read x :=
  MemoryLaws.read_write_ne _ _ h

theorem read_putSigned_out (s : State) (a x : Nat) (vs : List Int) (h : x < a ∨ a + 2 * vs.length ≤ x) :
    (s.putSigned a vs).lm.read x = s.lm.read x :=
  MemoryLaws.read_writeHalves_out _ _ _ _ (by rwa [List.length_map])

/-- Sixteen 16-bit values stored in raster order read back. -/
theorem lmSigned_putRaster (s : State) (a : Nat) {f : Nat → Int} {k : Nat} (hk : k < 16)
    (hf : trunc16 (f k) = f k) : lmSigned (a + 2 * k) (s.putSigned a (raster.map f)) = .ok (f k) := by
  rw [lmSigned_putSigned s a k _ (by rwa [map_raster_length]), map_raster_getElem, hf]

end Laws

end Sys2Proof.Machine
end

section
/-! PROOFS. FTQ4 and FHQ4 as functions of what the host loads and of the saved DCs: what they compute, and the state
that holds it. -/

namespace Sys2Proof.Machine

namespace Laws

/-! ### What the host loads, as the kernels read it -/

theorem hostKept_accept (w : Word) (s : State) : HostKept s (accept w s) := ⟨rfl, fun _ _ => rfl⟩

theorem hostKept_complete (s : State) : HostKept s (complete s) := ⟨rfl, fun _ _ => rfl⟩

theorem HostKept.qparam {s t : State} (h : HostKept s t) (p : Plane) : qparam p t = qparam p s := by
  cases p with
  | y => exact h.csr (c := .qparamY) (by decide)
  | cb => exact h.csr (c := .qparamCb) (by decide)
  | cr => exact h.csr (c := .qparamCr) (by decide)

theorem HostKept.roundReg {s t : State} (h : HostKept s t) (p : Plane) : roundReg p t = roundReg p s := by
  cases p with
  | y => exact h.csr (c := .roundY) (by decide)
  | cb => exact h.csr (c := .roundCb) (by decide)
  | cr => exact h.csr (c := .roundCr) (by decide)

theorem HostKept.qbits {s t : State} (h : HostKept s t) (p : Plane) : qbits p t = qbits p s :=
  congrArg (bits · 4 0) (h.qparam p)

theorem HostKept.roundOff {s t : State} (h : HostKept s t) (p : Plane) : roundOff p t = roundOff p s :=
  congrArg (bits · 23 0) (h.roundReg p)

/-- SRC and PRED stand below REC. -/
theorem sampleAddr_below {p : Plane} {n r c base : Nat} (hb : base ≤ 0x0600) (hn : n < p.nb) (hr : r < 4) (hc : c < 4) :
    sampleAddr base p n r c < 0x0800 := by
  cases p <;> simp only [sampleAddr, planeOffset, planeWidth, row0, col0, Plane.nb] at * <;> omega

theorem HostKept.residual {s t : State} (h : HostKept s t) {p : Plane} {n : Nat} (hn : n < p.nb) :
    residual p n t = residual p n s := by
  refine readAll_congr fun k hk => ?_
  have hk := raster_lt16 hk
  have src : srcSample p n (k / 4) (k % 4) t = srcSample p n (k / 4) (k % 4) s :=
    lmSample_congr (h.below _ (sampleAddr_below (by decide) hn (by omega) (by omega)))
  have pred : predSample p n (k / 4) (k % 4) t = predSample p n (k / 4) (k % 4) s :=
    lmSample_congr (h.below _ (sampleAddr_below (by decide) hn (by omega) (by omega)))
  simp only [residualAt, src, pred]

theorem HostKept.table {s t : State} (h : HostKept s t) (p : Plane) {i k : Nat} (hi : i < 4) (hk : k < 16) :
    table i p k t = table i p k s := by
  have low : tableAddr p i k + 1 < 0x0800 := by cases p <;> simp only [tableAddr, Plane.idx] <;> omega
  exact lmUnsigned_congr (h.below _ (by omega)) (h.below _ low)

theorem HostKept.quantAt {s t : State} (h : HostKept s t) (p : Plane) {k : Nat} (hk : k < 16) (qb rd : Nat) (x : Int) :
    quantAt p k qb rd x t = quantAt p k qb rd x s := by
  simp only [Machine.quantAt, h.table p (show tableScale < 4 by decide) hk,
    h.table p (show tableThresh < 4 by decide) hk]

/-- A quantized value fits in 16 bits. -/
theorem quantAt_trunc {p : Plane} {k qb rd : Nat} {x v : Int} {s : State} (h : quantAt p k qb rd x s = .ok v) :
    trunc16 v = v := by
  simp only [quantAt] at h
  split at h
  · cases h
  · split at h
    · cases h
    · cases h; exact trunc16_idem _

/-! ### Completion leaves the buffers -/

@[simp] theorem coef_complete (p : Plane) (n k : Nat) (s : State) : coef p n k (complete s) = coef p n k s := rfl
@[simp] theorem dcsave_complete (p : Plane) (n : Nat) (s : State) : dcsave p n (complete s) = dcsave p n s := rfl
@[simp] theorem dccoef_complete (p : Plane) (k : Nat) (s : State) : dccoef p k (complete s) = dccoef p k s := rfl
@[simp] theorem nnzdc_complete (p : Plane) (s : State) : nnzdc p (complete s) = nnzdc p s := rfl

/-! ### Changes of local memory alone -/

/-- From `s` to `t` at most local memory changed. -/
def LmChange (s t : State) : Prop := ∃ m, t = { s with lm := m }

theorem LmChange.refl (s : State) : LmChange s s := ⟨s.lm, rfl⟩

theorem LmChange.trans {s t u : State} (h : LmChange s t) (k : LmChange t u) : LmChange s u := by
  obtain ⟨m, rfl⟩ := h
  obtain ⟨m', rfl⟩ := k
  exact ⟨m', rfl⟩

theorem lmChange_putSigned (s : State) (a : Nat) (vs : List Int) : LmChange s (s.putSigned a vs) := ⟨_, rfl⟩

theorem lmChange_putByte (s : State) (a : Nat) (b : Byte) : LmChange s (s.putByte a b) := ⟨_, rfl⟩

/-- A change of local memory from REC on keeps what the host loads. -/
theorem LmChange.hostKept {s t : State} (h : LmChange s t) (hb : ∀ a, a < 0x0800 → t.lm.read a = s.lm.read a) :
    HostKept s t := by
  obtain ⟨m, rfl⟩ := h
  exact ⟨rfl, hb⟩

/-! ### FTQ4 (40_forward.md R150) -/

/-- `dc` is the DC of sub-block `n` before quantization and `lv` its levels, as FTQ4 computes them from `s`. -/
def Transformed (p : Plane) (n : Nat) (dcx : Bool) (s : State) (dc : Int) (lv : Nat → Int) : Prop :=
  ∃ res, residual p n s = .ok res ∧ dc = trunc16 (matAt (ft4 (matOfList res)) 0) ∧
    ∀ k, k < 16 → ftLevel p dcx (ft4 (matOfList res)) s k = .ok (lv k)

/-- `s` with the results of FTQ4 stored. -/
def ftStored (p : Plane) (n : Nat) (dcx : Bool) (dc : Int) (lv : Nat → Int) (s : State) : State :=
  ((if dcx then s.putSigned (dcsaveAddr p n) [dc] else s).putSigned (coefAddr p n 0) (raster.map lv)).putNnz p n
    (countNonzero (raster.map lv))

theorem ftq4_stores {p : Plane} {n : Nat} {dcx : Bool} {s t : State} (h : ftq4 p n dcx s = .ok t) :
    ∃ dc lv, Transformed p n dcx s dc lv ∧ t = ftStored p n dcx dc lv s := by
  obtain ⟨res, levels, hres, hl, -, rfl⟩ := ftq4_cases h
  obtain ⟨lv, hlv, rfl⟩ := readAll_values hl
  exact ⟨_, lv, ⟨res, hres, rfl, fun k hk => hlv k (mem_raster hk)⟩, rfl⟩

theorem ftq4_of_transformed {p : Plane} {n : Nat} {dcx : Bool} {s : State} {dc : Int} {lv : Nat → Int}
    (h : Transformed p n dcx s dc lv) : ftq4 p n dcx s = .ok (ftStored p n dcx dc lv s) := by
  obtain ⟨res, hres, rfl, hl⟩ := h
  simp only [ftq4, hres, readAll_ok fun k hk => hl k (raster_lt16 hk)]
  rfl

/-- FTQ4 computes the same from every state with the same inputs. -/
theorem Transformed.congr {p : Plane} {n : Nat} {dcx : Bool} {s t : State} {dc : Int} {lv : Nat → Int}
    (h : Transformed p n dcx s dc lv) (hk : HostKept s t) (hn : n < p.nb) : Transformed p n dcx t dc lv := by
  obtain ⟨res, hres, hdc, hl⟩ := h
  refine ⟨res, (hk.residual hn).trans hres, hdc, fun k hk16 => ?_⟩
  rw [← hl k hk16]
  simp only [ftLevel, hk.qbits, hk.roundOff, hk.quantAt p hk16]

theorem Transformed.level_zero {p : Plane} {n : Nat} {s : State} {dc : Int} {lv : Nat → Int}
    (h : Transformed p n true s dc lv) : lv 0 = 0 := by
  obtain ⟨res, -, -, hl⟩ := h
  exact (Except.ok.inj (hl 0 (by decide))).symm

theorem Transformed.level_trunc {p : Plane} {n : Nat} {dcx : Bool} {s : State} {dc : Int} {lv : Nat → Int}
    (h : Transformed p n dcx s dc lv) {k : Nat} (hk : k < 16) : trunc16 (lv k) = lv k := by
  obtain ⟨res, -, -, hl⟩ := h
  have := hl k hk
  simp only [ftLevel] at this
  split at this
  · rw [← Except.ok.inj this]; rfl
  · exact quantAt_trunc this

theorem Transformed.dc_trunc {p : Plane} {n : Nat} {dcx : Bool} {s : State} {dc : Int} {lv : Nat → Int}
    (h : Transformed p n dcx s dc lv) : trunc16 dc = dc := by
  obtain ⟨res, -, rfl, -⟩ := h
  exact trunc16_idem _

theorem coefAddr_add (p : Plane) (n k : Nat) : coefAddr p n k = coefAddr p n 0 + 2 * k := by
  cases p <;> rfl

/-- The levels of a sub-block stand below DCCOEF. -/
theorem coefAddr_lt {p : Plane} {n k : Nat} (hn : n < p.nb) (hk : k < 16) : coefAddr p n k + 1 < 0x1300 := by
  cases p with
  | y => simp only [coefAddr, Plane.nb] at *; omega
  | cb => simp only [coefAddr, Plane.nb] at *; split <;> omega
  | cr => simp only [coefAddr, Plane.nb] at *; omega

/-- The counts stand above every 16-bit buffer. -/
theorem nnzAddr_count (p : Plane) (n : Nat) : 0x1400 ≤ nnzAddr p n := by
  cases p <;> simp only [nnzAddr] <;> omega

/-- The levels of a sub-block after FTQ4 stored them. -/
theorem Transformed.coef_stored {p : Plane} {n : Nat} {dcx : Bool} {s : State} {dc : Int} {lv : Nat → Int}
    (h : Transformed p n dcx s dc lv) (hn : n < p.nb) (u : State) {k : Nat} (hk : k < 16) :
    coef p n k (ftStored p n dcx dc lv u) = .ok (lv k) := by
  have ha := coefAddr_lt hn hk
  have hz := nnzAddr_count p n
  have hr := lmSigned_putRaster (if dcx then u.putSigned (dcsaveAddr p n) [dc] else u)
    (coefAddr p n 0) hk (h.level_trunc hk)
  rw [← coefAddr_add] at hr
  rw [← hr]
  exact lmSigned_congr (read_putByte_ne _ _ (by omega)) (read_putByte_ne _ _ (by omega))

theorem dcsaveAddr_range {p : Plane} {n : Nat} (hn : n < p.nb) :
    0x1340 ≤ dcsaveAddr p n ∧ dcsaveAddr p n + 1 < 0x1370 := by
  cases p <;> simp only [dcsaveAddr, dcOffset, Plane.nb] at * <;> omega

/-- The saved DC of a sub-block after FTQ4 stored it. -/
theorem Transformed.dcsave_stored {p : Plane} {n : Nat} {s : State} {dc : Int} {lv : Nat → Int}
    (h : Transformed p n true s dc lv) (hn : n < p.nb) (u : State) :
    dcsave p n (ftStored p n true dc lv u) = .ok dc := by
  have hd := dcsaveAddr_range hn
  have hz := nnzAddr_count p n
  have hc : coefAddr p n 0 + 2 * (raster.map lv).length ≤ 0x1300 := by
    have := coefAddr_lt hn (show 15 < 16 by decide)
    have := coefAddr_add p n 15
    rw [map_raster_length]; omega
  have hr : dcsave p n (u.putSigned (dcsaveAddr p n) [dc]) = .ok dc := by
    have := lmSigned_putSigned u (dcsaveAddr p n) 0 [dc] (by simp)
    rwa [List.getElem_cons_zero, h.dc_trunc] at this
  rw [← hr]
  refine lmSigned_congr ?_ ?_
  · exact (read_putByte_ne _ _ (by omega)).trans (read_putSigned_out _ _ _ _ (by omega))
  · exact (read_putByte_ne _ _ (by omega)).trans (read_putSigned_out _ _ _ _ (by omega))

theorem ftStored_lmChange (p : Plane) (n : Nat) (dcx : Bool) (dc : Int) (lv : Nat → Int) (s : State) :
    LmChange s (ftStored p n dcx dc lv s) := by
  refine LmChange.trans ?_ ((lmChange_putSigned _ _ _).trans (lmChange_putByte _ _ _))
  cases dcx with
  | true => exact lmChange_putSigned _ _ _
  | false => exact LmChange.refl s

/-- FTQ4 leaves every byte outside its sub-block's levels, count and saved DC. -/
theorem read_ftStored_out (p : Plane) (n : Nat) (dcx : Bool) (dc : Int) (lv : Nat → Int) (s : State) {a : Nat}
    (hc : a < coefAddr p n 0 ∨ coefAddr p n 0 + 32 ≤ a) (hd : a < dcsaveAddr p n ∨ dcsaveAddr p n + 2 ≤ a)
    (hz : a ≠ nnzAddr p n) : (ftStored p n dcx dc lv s).lm.read a = s.lm.read a := by
  refine (read_putByte_ne _ _ hz).trans ((read_putSigned_out _ _ _ _ (by rwa [map_raster_length])).trans ?_)
  cases dcx with
  | true => exact read_putSigned_out _ _ _ _ (by simpa using hd)
  | false => rfl

/-- FTQ4 as a command leaves what it computes. -/
theorem exec_ftq4 {p : Plane} {n : Fin 16} {s : State} {dc : Int} {lv : Nat → Int}
    (h : Transformed p n true s dc lv) (hn : n.val < p.nb) :
    ∃ u, exec (.ftq4 p n true) s = .next u ∧ dcsave p n u = .ok dc ∧ ∀ k, k < 16 → coef p n k u = .ok (lv k) := by
  have hw : (Instr.ftq4 p n true).wf = true := decide_eq_true hn
  have hc : issueCheck (.ftq4 p n true) s = none := by
    simp only [issueCheck, hw, show qparamOk (.ftq4 p n true) s = true from rfl]; rfl
  have ha : Transformed p n true (accept (encode (.ftq4 p n true)) s) dc lv := h.congr (hostKept_accept _ s) hn
  refine ⟨complete (ftStored p n true dc lv (accept (encode (.ftq4 p n true)) s)), ?_, ?_, fun k hk => ?_⟩
  · rw [exec_eq]
    simp only [command, hc, stepsOf, ftq4_of_transformed ha, finish]
  · rw [dcsave_complete]
    exact h.dcsave_stored hn _
  · rw [coef_complete]
    exact h.coef_stored hn _ hk

/-! ### FHQ4 (40_forward.md R155) -/

/-- `dl` are the levels of the luma DC layer FHQ4 computes from the DCs `dc`, with the tables and parameters of `s`. -/
def LayerOf (s : State) (dc dl : Nat → Int) : Prop :=
  ∀ k, k < 16 → fhq4Level (h4 (matOfList (raster.map dc))) s k = .ok (dl k)

/-- `s` with the results of FHQ4 stored. -/
def layerStored (dl : Nat → Int) (s : State) : State :=
  (s.putSigned (dccoefAddr .y 0) (raster.map dl)).putNnzdc .y (countNonzero (raster.map dl))

theorem fhq4_stores {s t : State} {dc : Nat → Int} (hd : ∀ n, n < 16 → dcsave .y n s = .ok (dc n))
    (h : fhq4 s = .ok t) : ∃ dl, LayerOf s dc dl ∧ t = layerStored dl s := by
  simp only [fhq4, readAll_ok fun n hn => hd n (raster_lt16 hn)] at h
  split at h
  · cases h
  · rename_i levels hl
    obtain ⟨dl, hdl, rfl⟩ := readAll_values hl
    cases h
    exact ⟨dl, fun k hk => hdl k (mem_raster hk), rfl⟩

theorem fhq4_of_layer {s : State} {dc dl : Nat → Int} (hd : ∀ n, n < 16 → dcsave .y n s = .ok (dc n))
    (h : LayerOf s dc dl) : fhq4 s = .ok (layerStored dl s) := by
  simp only [fhq4, readAll_ok fun n hn => hd n (raster_lt16 hn), readAll_ok fun k hk => h k (raster_lt16 hk)]
  rfl

theorem LayerOf.congr {s t : State} {dc dl : Nat → Int} (h : LayerOf s dc dl) (hk : HostKept s t) :
    LayerOf t dc dl := by
  intro k hk16
  rw [← h k hk16]
  simp only [fhq4Level, hk.qbits, hk.roundOff, hk.quantAt .y (show 0 < 16 by decide)]

/-- The levels of the layer after FHQ4 stored them. -/
theorem LayerOf.dccoef_stored {s : State} {dc dl : Nat → Int} (h : LayerOf s dc dl) (u : State) {k : Nat}
    (hk : k < 16) :
    dccoef .y k (layerStored dl u) = .ok (dl k) := by
  have hr := lmSigned_putRaster u (dccoefAddr .y 0) hk (quantAt_trunc (h k hk))
  rw [← show dccoefAddr .y k = dccoefAddr .y 0 + 2 * k from rfl] at hr
  rw [← hr]
  exact lmSigned_congr (read_putByte_ne _ _ (by simp only [dccoefAddr, dcOffset, nnzdcAddr, Plane.idx]; omega))
    (read_putByte_ne _ _ (by simp only [dccoefAddr, dcOffset, nnzdcAddr, Plane.idx]; omega))

theorem countNonzero_raster_lt (f : Nat → Int) : countNonzero (raster.map f) < 256 :=
  Nat.lt_of_le_of_lt (countNonzero_le _) (by rw [map_raster_length]; decide)

theorem nnzdc_layerStored (dl : Nat → Int) (s : State) :
    nnzdc .y (layerStored dl s) = .ok (countNonzero (raster.map dl)) :=
  lmSample_putByte _ _ _ (countNonzero_raster_lt dl)

theorem layerStored_lmChange (dl : Nat → Int) (s : State) : LmChange s (layerStored dl s) :=
  (lmChange_putSigned _ _ _).trans (lmChange_putByte _ _ _)

/-- FHQ4 leaves every byte outside the DC layer and its count. -/
theorem read_layerStored_out (dl : Nat → Int) (s : State) {a : Nat} (hl : a < 0x1300 ∨ 0x1320 ≤ a) (hz : a ≠ 0x1418) :
    (layerStored dl s).lm.read a = s.lm.read a :=
  (read_putByte_ne _ _ hz).trans (read_putSigned_out _ _ _ _ (by rw [map_raster_length]; exact hl))

/-- FHQ4 as a command leaves what it computes. -/
theorem exec_fhq4 {s : State} {dc dl : Nat → Int} (hd : ∀ n, n < 16 → dcsave .y n s = .ok (dc n))
    (h : LayerOf s dc dl) :
    ∃ u, exec .fhq4 s = .next u ∧ (∀ k, k < 16 → dccoef .y k u = .ok (dl k)) ∧
      nnzdc .y u = .ok (countNonzero (raster.map dl)) := by
  have ha : LayerOf (accept (encode .fhq4) s) dc dl := h.congr (hostKept_accept _ s)
  refine ⟨complete (layerStored dl (accept (encode .fhq4) s)), ?_, fun k hk => ?_, ?_⟩
  · rw [exec_eq]
    simp only [command, show issueCheck .fhq4 s = none from rfl, stepsOf,
      fhq4_of_layer (s := accept (encode .fhq4) s) hd ha, finish]
  · rw [dccoef_complete]
    exact h.dccoef_stored _ hk
  · rw [nnzdc_complete]
    exact nnzdc_layerStored dl _

end Laws

end Sys2Proof.Machine
end

section
/-! PROOFS. CODE_I16 (43_macroblock.md R235): its stages one after the other, what its coding part leaves (`I16Coded`),
that reconstruction keeps it, and the statement `IntraLumaSoundness` from it. -/

namespace Sys2Proof.Machine

namespace Laws

open Sys2Proof.Claims

/-! ### The forward transform of the sixteen blocks -/

/-- The saved DCs and the levels of the luma sub-blocks in `t` are `dc` and `lv`. -/
structure BlocksHold (dc : Nat → Int) (lv : Nat → Nat → Int) (t : State) : Prop where
  dcsave : ∀ n, n < 16 → dcsave .y n t = .ok (dc n)
  coef : ∀ n k, n < 16 → k < 16 → coef .y n k t = .ok (lv n k)

/-- The blocks stay while their bytes do. -/
theorem BlocksHold.frame {dc : Nat → Int} {lv : Nat → Nat → Int} {s t : State} (h : BlocksHold dc lv s)
    (hf : ∀ a, 0x1000 ≤ a → a < 0x1360 → a < 0x1300 ∨ 0x1340 ≤ a → t.lm.read a = s.lm.read a) : BlocksHold dc lv t where
  dcsave n hn := by
    rw [← h.dcsave n hn]
    refine lmSigned_congr (hf _ ?_ ?_ ?_) (hf _ ?_ ?_ ?_) <;> simp only [dcsaveAddr, dcOffset] <;> omega
  coef n k hn hk := by
    rw [← h.coef n k hn hk]
    refine lmSigned_congr (hf _ ?_ ?_ ?_) (hf _ ?_ ?_ ?_) <;> simp only [coefAddr] <;> omega

/-- Luma sub-block `n` holds in `u` what FTQ4 computes for it from `s`. -/
def BlockDone (s : State) (n : Nat) (u : State) : Prop :=
  ∃ dc lv, Transformed .y n true s dc lv ∧ dcsave .y n u = .ok dc ∧ ∀ k, k < 16 → coef .y n k u = .ok (lv k)

/-- FTQ4 on luma sub-block `n` writes its 32 bytes of COEF, its two of DCSAVE, and a count. -/
theorem read_ftStored_luma {n a : Nat} (dc : Int) (lv : Nat → Int) (u : State)
    (hc : a < 0x1000 + 32 * n ∨ 0x1020 + 32 * n ≤ a) (hd : a < 0x1340 + 2 * n ∨ 0x1342 + 2 * n ≤ a) (hz : a < 0x1400) :
    (ftStored .y n true dc lv u).lm.read a = u.lm.read a :=
  read_ftStored_out _ _ _ _ _ _ (by simp only [coefAddr]; omega) (by simp only [dcsaveAddr, dcOffset]; omega)
    (by simp only [nnzAddr]; omega)

/-- FTQ4 on another sub-block leaves what a sub-block holds. -/
theorem BlockDone.stored {s u : State} {m n : Nat} (h : BlockDone s m u) (hm : m < 16) (hn : n < 16) (he : m ≠ n)
    (dc : Int) (lv : Nat → Int) : BlockDone s m (ftStored .y n true dc lv u) := by
  obtain ⟨dc', lv', ht, hd, hc⟩ := h
  refine ⟨dc', lv', ht, ?_, fun k hk => ?_⟩
  · rw [← hd]
    refine lmSigned_congr (read_ftStored_luma _ _ _ ?_ ?_ ?_) (read_ftStored_luma _ _ _ ?_ ?_ ?_) <;>
      simp only [dcsaveAddr, dcOffset] <;> omega
  · rw [← hc k hk]
    refine lmSigned_congr (read_ftStored_luma _ _ _ ?_ ?_ ?_) (read_ftStored_luma _ _ _ ?_ ?_ ?_) <;>
      simp only [coefAddr] <;> omega

/-- FTQ4 on one luma sub-block, as a step of the forward transform that began at `s`. -/
theorem ftq4_step {s u v : State} {n : Nat} (hn : n < 16) (hlm : LmChange s u) (hk : HostKept s u)
    (h : ftq4 .y n true u = .ok v) :
    (LmChange s v ∧ HostKept s v) ∧ BlockDone s n v ∧ ∀ m ∈ raster, BlockDone s m u → BlockDone s m v := by
  obtain ⟨dc, lv, ht, rfl⟩ := ftq4_stores h
  have hlm' := ftStored_lmChange .y n true dc lv u
  have hk' := hlm'.hostKept fun a ha => read_ftStored_luma dc lv u (by omega) (by omega) (by omega)
  have hdone : BlockDone s n (ftStored .y n true dc lv u) :=
    ⟨dc, lv, ht.congr hk.symm hn, ht.dcsave_stored hn u, fun k => ht.coef_stored hn u⟩
  refine ⟨⟨hlm.trans hlm', hk.trans hk'⟩, hdone, fun m hm hold => ?_⟩
  by_cases he : m = n
  · rwa [he]
  · exact hold.stored (raster_lt16 hm) hn he dc lv

/-- FTQ4 on every sub-block: what the host loads stays, and every block holds what FTQ4 computes from it. -/
theorem forward_blocks {s t : State} (h : runAll (fun n => ftq4 .y n true) raster s = .ok t) :
    LmChange s t ∧ HostKept s t ∧
      ∃ dc lv, (∀ n, n < 16 → Transformed .y n true s (dc n) (lv n)) ∧ BlocksHold dc lv t := by
  obtain ⟨⟨hlm, hk⟩, hdone⟩ := runAll_holds (I := fun u => LmChange s u ∧ HostKept s u) (D := BlockDone s)
    (fun n hn u v hu hv => ftq4_step (raster_lt16 hn) hu.1 hu.2 hv) h ⟨LmChange.refl s, HostKept.refl s⟩
  have total : ∀ n, ∃ dc lv, n < 16 → Transformed .y n true s dc lv ∧ dcsave .y n t = .ok dc ∧
      ∀ k, k < 16 → coef .y n k t = .ok (lv k) := fun n => by
    by_cases hn : n < 16
    · obtain ⟨dc, lv, h⟩ := hdone n (mem_raster hn)
      exact ⟨dc, lv, fun _ => h⟩
    · exact ⟨0, fun _ => 0, fun h => absurd h hn⟩
  choose dc lv hdl using total
  exact ⟨hlm, hk, dc, lv, fun n hn => (hdl n hn).1, fun n hn => (hdl n hn).2.1, fun n k hn => (hdl n hn).2.2 k⟩

/-! ### The AC records -/

/-- What the AC records of the luma sub-blocks `ns` with levels `lv` change from `s` to `t`. -/
structure AcCoded (lv : Nat → Nat → Int) (ns : List Nat) (s t : State) : Prop where
  fixed : ∃ m a c w, t = { s with lm := m, arena := a, arenaCur := c, cntrlY := w }
  frame : ∀ a, (∀ n ∈ ns, a ≠ nnzAddr .y n) → t.lm.read a = s.lm.read a
  nnz : ∀ n ∈ ns, nnz .y n t = .ok (countNonzero (acScan (lv n)))
  records : AppendedAll (ns.flatMap fun n => recordOf 1 (acScan (lv n))) s t
  bits : ∀ i, i < 32 → (t.cntrlY.getLsbD i = true ↔
    s.cntrlY.getLsbD i = true ∨ ∃ n ∈ ns, 0 < countNonzero (acScan (lv n)) ∧ i = acBit .y n)

theorem AcCoded.nil (lv : Nat → Nat → Int) (s : State) : AcCoded lv [] s s where
  fixed := ⟨_, _, _, _, rfl⟩
  frame _ _ := rfl
  nnz _ h := nomatch h
  records := appendedAll_nil rfl rfl
  bits _ _ := by simp

theorem AcCoded.cons {lv : Nat → Nat → Int} {n : Nat} {ns : List Nat} {s t u : State} (h : AcCoded lv [n] s t)
    (k : AcCoded lv ns t u) : AcCoded lv (n :: ns) s u where
  fixed := by
    obtain ⟨_, _, _, _, rfl⟩ := h.fixed
    obtain ⟨m, a, c, w, rfl⟩ := k.fixed
    exact ⟨m, a, c, w, rfl⟩
  frame a ha := by
    rw [k.frame a fun m hm => ha m (by simp [hm]), h.frame a fun m hm => ha m (by simp_all)]
  nnz m hm := by
    by_cases hk : m ∈ ns
    · exact k.nnz m hk
    · obtain rfl : m = n := by simpa [hk] using hm
      rw [← h.nnz m (by simp)]
      refine lmSample_congr (k.frame _ fun j hj he => hk ?_)
      obtain rfl : m = j := by simpa [nnzAddr] using he
      exact hj
  records := by
    have := appendedAll_trans h.records k.records
    simpa using this
  bits i hi := by
    rw [k.bits i hi, h.bits i hi, or_assoc]
    simp

/-- `s` with the count of sub-block `n` stored, and its AC bit set when the count is not 0. -/
def acCounted (n c : Nat) (s : State) : State :=
  { s with
    lm := s.lm.write (nnzAddr .y n) (BitVec.ofNat 8 c)
    cntrlY := if 0 < c then setBit s.cntrlY (acBit .y n) else s.cntrlY }

/-- The AC record of one luma sub-block is EMIT of its scan; then its count and AC bit are stored. -/
theorem emitAc_stores {lv : Nat → Int} {n : Nat} {s t : State} {r : Emitted}
    (hc : ∀ k, k < 16 → coef .y n k s = .ok (lv k)) (h : emitAc .y n s = .ok (r, t)) :
    ∃ u, emit 1 (acScan lv) s = .ok (r, u) ∧ t = acCounted n r.nnz u := by
  have hscan : coefScan .y n (scanStart true) s = .ok (acScan lv) :=
    readAll_ok fun k hk => hc k (zigzag_lt (List.mem_of_mem_drop hk))
  simp only [emitAc] at h
  split at h
  · cases h
  · rename_i r' v hv
    obtain ⟨rfl, rfl⟩ := Prod.mk.inj (Except.ok.inj h)
    obtain ⟨vs, u, hvs, hu, rfl⟩ := emitCoef_cases hv
    obtain rfl : vs = acScan lv := Except.ok.inj (hvs.symm.trans hscan)
    refine ⟨u, hu, ?_⟩
    by_cases hp : 0 < r'.nnz
    · rw [acCounted, if_pos hp, if_pos hp]; rfl
    · rw [acCounted, if_neg hp, if_neg hp]; rfl

theorem emitAc_coded {lv : Nat → Nat → Int} {n : Nat} {s t : State} {r : Emitted}
    (hc : ∀ k, k < 16 → coef .y n k s = .ok (lv n k)) (h : emitAc .y n s = .ok (r, t)) :
    AcCoded lv [n] s t ∧ r.nnz = countNonzero (acScan (lv n)) := by
  obtain ⟨u, hu, rfl⟩ := emitAc_stores hc h
  obtain ⟨hrec, hr, hfix⟩ := emit_appends (by rw [acScan_length]) hu
  have hlm : u.lm = s.lm := by rw [hfix]
  have hle : countNonzero (acScan (lv n)) ≤ 15 := countNonzero_le _
  refine ⟨?_, hr⟩
  rw [hr]
  exact
    { fixed := by rw [hfix]; exact ⟨_, _, _, _, rfl⟩
      frame := fun a ha => by
        rw [← hlm]; exact MemoryLaws.read_write_ne _ _ (ha n (List.mem_singleton_self n))
      nnz := fun m hm => by
        obtain rfl := List.mem_singleton.mp hm
        exact lmSample_putByte u _ _ (by omega)
      records := by rw [List.flatMap_singleton]; exact hrec
      bits := fun i hi => by
        have hw : u.cntrlY = s.cntrlY := by rw [hfix]
        simp only [acCounted, hw, List.mem_singleton, exists_eq_left]
        split
        · rename_i hp; simp [getLsbD_setBit _ hi, hp]
        · rename_i hp; simp [hp] }

/-- The AC records of the sub-blocks `ns`; they answer whether one of them is not empty. -/
theorem emitAcs_coded {lv : Nat → Nat → Int} (ns : List Nat) {s t : State} {any : Bool} {cost : Nat}
    (hc : ∀ n ∈ ns, ∀ k, k < 16 → coef .y n k s = .ok (lv n k)) (hn : ∀ n ∈ ns, n < 16)
    (h : emitAcs .y ns s = .ok ((any, cost), t)) :
    AcCoded lv ns s t ∧ (any = true ↔ ∃ n ∈ ns, 0 < countNonzero (acScan (lv n))) := by
  induction ns generalizing s any cost with
  | nil => cases h; exact ⟨AcCoded.nil lv t, by simp⟩
  | cons n ns ih =>
    simp only [emitAcs] at h
    split at h
    · cases h
    · rename_i r u hu
      split at h
      · cases h
      · rename_i any' cost' v hv
        cases h
        obtain ⟨hone, hr⟩ := emitAc_coded (hc n (by simp)) hu
        have hcu : ∀ m ∈ ns, ∀ k, k < 16 → coef .y m k u = .ok (lv m k) := fun m hm k hk => by
          have hm16 := hn m (by simp [hm])
          rw [← hc m (by simp [hm]) k hk]
          refine lmSigned_congr (hone.frame _ fun j _ => ?_) (hone.frame _ fun j _ => ?_) <;>
            simp only [coefAddr, nnzAddr] <;> omega
        obtain ⟨hrest, hany⟩ := ih hcu (fun m hm => hn m (by simp [hm])) hv
        refine ⟨hone.cons hrest, ?_⟩
        simp only [Bool.or_eq_true, decide_eq_true_eq, hr, hany, List.exists_mem_cons_iff]

/-! ### The DC layer -/

/-- The levels of the DC layer in `t` are `dl`. -/
def LayerHolds (dl : Nat → Int) (t : State) : Prop := ∀ k, k < 16 → dccoef .y k t = .ok (dl k)

/-- The DC layer stays while its bytes do. -/
theorem LayerHolds.frame {dl : Nat → Int} {s t : State} (h : LayerHolds dl s)
    (hf : ∀ a, 0x1300 ≤ a → a < 0x1320 → t.lm.read a = s.lm.read a) : LayerHolds dl t := by
  intro k hk
  rw [← h k hk]
  refine lmSigned_congr (hf _ ?_ ?_) (hf _ ?_ ?_) <;> simp only [dccoefAddr, dcOffset] <;> omega

/-- FHQ4 leaves the levels of the DC layer and changes only the layer and its count. -/
theorem fhq4_leaves {s t : State} {dc : Nat → Int} (hd : ∀ n, n < 16 → dcsave .y n s = .ok (dc n))
    (h : fhq4 s = .ok t) :
    ∃ dl, LayerOf s dc dl ∧ LayerHolds dl t ∧ LmChange s t ∧
      ∀ a, a < 0x1300 ∨ 0x1320 ≤ a → a ≠ 0x1418 → t.lm.read a = s.lm.read a := by
  obtain ⟨dl, hdl, rfl⟩ := fhq4_stores hd h
  exact ⟨dl, hdl, fun k => hdl.dccoef_stored s, layerStored_lmChange dl s, fun a => read_layerStored_out dl s⟩

theorem setLayerBits_stores {dl : Nat → Int} {s t : State} (hl : LayerHolds dl s) (h : setLayerBits .y s = .ok t) :
    t = { s with cntrlY := setDcBits .y 0 (raster.map dl) s.cntrlY } := by
  simp only [setLayerBits, planeBlocks, readAll_ok fun k hk => hl k (raster_lt16 hk)] at h
  exact (Except.ok.inj h).symm

/-- The record of the DC layer, and its count stored. -/
theorem emitDc_appends {dl : Nat → Int} {s t : State} {r : Emitted} (hl : LayerHolds dl s)
    (h : emitDc .y s = .ok (r, t)) :
    AppendedAll (recordOf 0 (zigzag.map dl)) s t ∧ nnzdc .y t = .ok (countNonzero (raster.map dl)) ∧
      (∃ m a c, t = { s with lm := m, arena := a, arenaCur := c }) ∧
      ∀ a, a ≠ 0x1418 → t.lm.read a = s.lm.read a := by
  obtain ⟨vs, u, hvs, hu, rfl⟩ := emitDc_cases h
  obtain rfl : vs = zigzag.map dl :=
    Except.ok.inj (hvs.symm.trans (readAll_ok fun k hk => hl k (zigzag_lt hk)))
  obtain ⟨hrec, hr, hfix⟩ := emit_appends (start := 0) (by rw [List.length_map]; decide) hu
  rw [countNonzero_zigzag] at hr
  refine ⟨hrec, ?_, ?_, fun a ha => ?_⟩
  · rw [hr]
    exact lmSample_putByte u _ _ (countNonzero_raster_lt dl)
  · rw [hfix]
    exact ⟨_, _, _, rfl⟩
  · rw [StateLaws.putNnzdc_lm, hfix]
    exact MemoryLaws.read_write_ne _ _ ha

/-! ### The coding part -/

/-- What the coding part of CODE_I16 leaves in `t` when it ran from `s`: the DCs `dc` and levels `lv` FTQ4 gives the
blocks, the levels `dl` FHQ4 gives the DC layer, their counts, records and AC bits, CBP, ELIM and COST_Y. -/
structure I16Coded (s : State) (dc : Nat → Int) (lv : Nat → Nat → Int) (dl : Nat → Int) (t : State) : Prop where
  transformed : ∀ n, n < 16 → Transformed .y n true s (dc n) (lv n)
  layerOf : LayerOf s dc dl
  blocks : BlocksHold dc lv t
  layer : LayerHolds dl t
  nnz : ∀ n, n < 16 → nnz .y n t = .ok (countNonzero (acScan (lv n)))
  nnzdc : nnzdc .y t = .ok (countNonzero (raster.map dl))
  records : AppendedAll (recordOf 0 (zigzag.map dl) ++ blkOrder.flatMap fun n => recordOf 1 (acScan (lv n))) s t
  acBits : ∀ n, n < 16 → (t.cntrlY.getLsbD (31 - n) = true ↔ 0 < countNonzero (acScan (lv n)))
  cbp : ∃ any : Bool, (any = true ↔ ∃ n, n < 16 ∧ 0 < countNonzero (acScan (lv n))) ∧
    t.cbp = withCbpL s.cbp (if any then 0xF else 0)
  elim : t.elim = clrLumaElim s.elim
  costY : t.costY = 0

theorem mem_blkOrder {n : Nat} : n ∈ blkOrder ↔ n < 16 :=
  ⟨blkOrder_lt, fun h => (show blkOrder.Perm raster by decide).mem_iff.mpr (mem_raster h)⟩

/-- The stages of the DC layer: transform of the blocks, transform of the layer, its DC bits, its record. -/
theorem i16Dc_cases {s t : State} (h : i16Dc s = .ok t) :
    ∃ u v w r, runAll (fun n => ftq4 .y n true) raster s = .ok u ∧ fhq4 u = .ok v ∧
      setLayerBits .y { v with cntrlY := 0 } = .ok w ∧ emitDc .y w = .ok (r, t) := by
  simp only [i16Dc] at h
  split at h
  · cases h
  · rename_i u hu
    split at h
    · cases h
    · rename_i v hv
      split at h
      · cases h
      · rename_i w hw
        split at h
        · cases h
        · rename_i r x hx
          cases h
          exact ⟨u, v, w, r, hu, hv, hw, hx⟩

/-- What the DC layer's stages leave. -/
theorem i16Dc_coded {s t : State} (h : i16Dc s = .ok t) :
    ∃ dc lv dl, (∀ n, n < 16 → Transformed .y n true s (dc n) (lv n)) ∧ LayerOf s dc dl ∧ BlocksHold dc lv t ∧
      LayerHolds dl t ∧ nnzdc .y t = .ok (countNonzero (raster.map dl)) ∧
      AppendedAll (recordOf 0 (zigzag.map dl)) s t ∧ t.cntrlY = setDcBits .y 0 (raster.map dl) 0 ∧
      t.cbp = s.cbp ∧ t.elim = s.elim := by
  obtain ⟨u, v, w, r, hu, hv, hw, ht⟩ := i16Dc_cases h
  obtain ⟨hlu, hku, dc, lv, htr, hblocks⟩ := forward_blocks hu
  obtain ⟨dl, hdl, hlayer, hlv, hframe⟩ := fhq4_leaves hblocks.dcsave hv
  have hlayer0 : LayerHolds dl { v with cntrlY := 0 } := hlayer
  have hlayerw : LayerHolds dl { v with cntrlY := setDcBits .y 0 (raster.map dl) 0 } := hlayer
  obtain rfl := setLayerBits_stores hlayer0 hw
  obtain ⟨hrec, hz, ⟨m', a, c, rfl⟩, hframe'⟩ := emitDc_appends hlayerw ht
  obtain ⟨m, rfl⟩ := hlu.trans hlv
  refine ⟨dc, lv, dl, htr, hdl.congr hku.symm, ?_, ?_, hz, ?_, rfl, rfl, rfl⟩
  · exact hblocks.frame fun x h0 h1 hx => (hframe' x (by omega)).trans (hframe x (by omega) (by omega))
  · exact hlayer.frame fun x h0 h1 => hframe' x (by omega)
  · exact appendedAll_trans (bs := []) (appendedAll_nil rfl rfl) hrec

theorem i16Code_cases {s t : State} (h : i16Code s = .ok t) :
    ∃ u any cost v, i16Dc s = .ok u ∧ emitAcs .y blkOrder u = .ok ((any, cost), v) ∧
      t = { v with cbp := withCbpL v.cbp (if any then 0xF else 0), elim := clrLumaElim v.elim, costY := 0 } := by
  simp only [i16Code] at h
  split at h
  · cases h
  · rename_i u hu
    split at h
    · cases h
    · rename_i any cost v hv
      exact ⟨u, any, cost, v, hu, hv, (Except.ok.inj h).symm⟩

theorem getLsbD_zero_word (i : Nat) : (0 : Word).getLsbD i = false := by simp

/-- The coding part of CODE_I16 codes; its DC bits are those of the DC layer. -/
theorem i16Code_coded {s t : State} (h : i16Code s = .ok t) :
    ∃ dc lv dl, I16Coded s dc lv dl t ∧ ∀ n, n < 16 → (t.cntrlY.getLsbD (15 - n) = true ↔ dl n ≠ 0) := by
  obtain ⟨u, any, cost, v, hu, hv, rfl⟩ := i16Code_cases h
  obtain ⟨dc, lv, dl, htr, hdl, hblocks, hlayer, hz, hrec, hcntrl, hcbp, helim⟩ := i16Dc_coded hu
  obtain ⟨hac, hany⟩ := emitAcs_coded blkOrder (fun n hn k => hblocks.coef n k (blkOrder_lt hn))
    (fun n hn => blkOrder_lt hn) hv
  obtain ⟨m, a, c, w, rfl⟩ := hac.fixed
  have frame : ∀ x, x < 0x1400 ∨ 0x1410 ≤ x → m.read x = u.lm.read x := fun x hx =>
    hac.frame x fun n hn => by have := mem_blkOrder.mp hn; simp only [nnzAddr]; omega
  refine ⟨dc, lv, dl,
    { transformed := htr
      layerOf := hdl
      blocks := hblocks.frame fun x h0 h1 hx => frame x (by omega)
      layer := hlayer.frame fun x h0 h1 => frame x (by omega)
      nnz := fun n hn => hac.nnz n (mem_blkOrder.mpr hn)
      nnzdc := (lmSample_congr (frame (nnzdcAddr .y) (by decide))).trans hz
      records := appendedAll_trans hrec hac.records
      acBits := fun n hn => ?_
      cbp := ⟨any, by rw [hany]; simp only [mem_blkOrder], by rw [← hcbp]⟩
      elim := by rw [← helim]
      costY := rfl }, fun n hn => ?_⟩
  · rw [hac.bits (31 - n) (by omega), hcntrl, acBit_setDcBits _ _ hn (map_raster_length dl)]
    simp only [getLsbD_zero_word, Bool.false_eq_true, false_or]
    constructor
    · rintro ⟨j, hj, hpos, he⟩
      have hj := mem_blkOrder.mp hj
      simp only [acBit] at he
      rwa [show n = j by omega]
    · exact fun hpos => ⟨n, mem_blkOrder.mpr hn, hpos, rfl⟩
  · rw [hac.bits (15 - n) (by omega), hcntrl, dcBit_setDcBits dl 0 hn]
    simp only [getLsbD_zero_word, Bool.false_eq_true, false_or]
    refine or_iff_left ?_
    rintro ⟨j, hj, -, he⟩
    have hj := mem_blkOrder.mp hj
    simp only [acBit] at he
    omega

end Laws

end Sys2Proof.Machine
end

section
/-! PROOFS. Reconstruction keeps what CODE_I16 coded and promotes its DC bits; CODE_I16 as a whole, and the statement
`IntraLumaSoundness`. -/

namespace Sys2Proof.Machine

namespace Laws

open Sys2Proof.Claims

/-! ### Reconstruction of luma with a DC layer (43_macroblock.md R256, R257) -/

/-- The scope of steps that write the local-memory bytes `l` and no register. -/
def lmScope (l : List Nat) : Scope := ⟨0, fun a => a ∈ l, fun _ => 0xFFFFFFFF⟩

/-- A register whose every bit is kept stays. -/
theorem Work.csr {sc : Scope} {s t : State} (h : Work sc s t) {c : Csr} (hk : sc.keep c = 0xFFFFFFFF) :
    csrValue c t = csrValue c s := by
  have ones : ∀ w : Word, w &&& 0xFFFFFFFF = w := fun w => by
    rw [show (0xFFFFFFFF : Word) = BitVec.allOnes 32 from rfl, BitVec.and_allOnes]
  have := h.regs c
  rwa [hk, ones, ones] at this

theorem all_kept : ~~~ (0 : Word) = 0xFFFFFFFF := by decide

theorem reconY16_dc_cases {border : Bool} {s t : State} (h : reconY16 true border s = .ok t) :
    ∃ u v m, ihs4 s = .ok u ∧ promote .y u = .ok v ∧ reconPlane .y m true v = .ok t := by
  simp only [reconY16, reconYDc, if_true] at h
  split at h
  · cases h
  · rename_i v hv
    split at hv
    · cases hv
    · rename_i u hu
      exact ⟨u, v, _, hu, hv, h⟩

/-- Promotion of luma sets the DC bit of each sub-block whose DCREC is not 0. -/
theorem promote_stores {s t : State} (h : promote .y s = .ok t) :
    ∃ f : Nat → Int, (∀ n, n < 16 → dcrec .y n s = .ok (f n)) ∧
      t = { s with cntrlY := setDcBits .y 0 (raster.map f) s.cntrlY } := by
  simp only [promote] at h
  split at h
  · cases h
  · rename_i recs hr
    obtain ⟨f, hf, rfl⟩ := readAll_values hr
    exact ⟨f, fun n hn => hf n (mem_raster hn), (Except.ok.inj h).symm⟩

theorem mem_recPlane_y {a : Nat} : a ∈ recPlaneAddrs .y ↔ 0x0800 ≤ a ∧ a < 0x0900 := mem_addrs

theorem mem_dcrec_y {a : Nat} : a ∈ dcrecAddrs .y ↔ 0x1380 ≤ a ∧ a < 0x13A0 := mem_addrs

/-- After reconstruction with a DC layer, a DC bit is set exactly when it was or the block's DCREC is not 0. -/
theorem reconY16_dcBits {border : Bool} {s t : State} (h : reconY16 true border s = .ok t) {n : Nat} (hn : n < 16) :
    t.cntrlY.getLsbD (15 - n) = true ↔
      s.cntrlY.getLsbD (15 - n) = true ∨ ∃ q, dcrec .y n t = .ok q ∧ q ≠ 0 := by
  obtain ⟨u, v, m, hu, hv, ht⟩ := reconY16_dc_cases h
  have wu := (ihs4_works (lmScope (dcrecAddrs .y)) s fun a ha => ha).ok hu
  have wt := (reconPlane_works (lmScope (recPlaneAddrs .y)) .y m true v fun a ha => ha).ok ht
  obtain ⟨f, hf, rfl⟩ := promote_stores hv
  have cu : u.cntrlY = s.cntrlY := wu.csr (c := .cntrlY) rfl
  have ct : t.cntrlY = setDcBits .y 0 (raster.map f) u.cntrlY := wt.csr (c := .cntrlY) rfl
  have hrec : dcrec .y n t = .ok (f n) := by
    have stays : ∀ a, 0x0900 ≤ a → t.lm.read a = u.lm.read a := fun a ha =>
      wt.frame a fun hm => by have := mem_recPlane_y.mp hm; omega
    rw [← hf n hn]
    refine lmSigned_congr (stays _ ?_) (stays _ ?_) <;> simp only [dcrecAddr, dcOffset] <;> omega
  rw [ct, dcBit_setDcBits f _ hn, cu, hrec]
  refine or_congr_right ⟨fun hne => ⟨f n, rfl, hne⟩, ?_⟩
  rintro ⟨q, hq, hne⟩
  rwa [Except.ok.inj hq]

/-- Reconstruction keeps what CODE_I16 coded. -/
theorem I16Coded.recon {border : Bool} {s t u : State} {dc : Nat → Int} {lv : Nat → Nat → Int} {dl : Nat → Int}
    (h : I16Coded s dc lv dl t) (hu : reconY16 true border t = .ok u) : I16Coded s dc lv dl u := by
  have hw := (reconY16_works (reconYScope true border 0) border t).ok hu
  have stays : ∀ a, 0x1000 ≤ a → a < 0x1380 ∨ 0x13A0 ≤ a → u.lm.read a = t.lm.read a := fun a h0 h1 =>
    hw.frame a fun hm => by
      rcases List.mem_append.mp hm with hm | hm
      · have := mem_recPlane_y.mp hm; omega
      · have := mem_dcrec_y.mp hm; omega
  have arena : u.arena = t.arena := hw.still fun hk => absurd (all_kept.symm.trans hk) (by decide)
  have cur : u.arenaCur = t.arenaCur := hw.csr (c := .arenaCur) all_kept
  have high : u.cntrlY &&& ~~~ 0x0000FFFF = t.cntrlY &&& ~~~ 0x0000FFFF := hw.regs .cntrlY
  exact
    { transformed := h.transformed
      layerOf := h.layerOf
      blocks := h.blocks.frame fun a h0 h1 _ => stays a h0 (by omega)
      layer := h.layer.frame fun a h0 h1 => stays a (by omega) (by omega)
      nnz := fun n hn =>
        (lmSample_congr (stays _ (by simp only [nnzAddr]; omega) (by simp only [nnzAddr]; omega))).trans (h.nnz n hn)
      nnzdc := (lmSample_congr (stays (nnzdcAddr .y) (by decide) (by decide))).trans h.nnzdc
      records := by simpa using appendedAll_trans h.records (appendedAll_nil arena cur)
      acBits := fun n hn => by
        have mask : ∀ n, n < 16 → (~~~ (0x0000FFFF : Word)).getLsbD (31 - n) = true := by decide
        have := congrArg (fun w => BitVec.getLsbD w (31 - n)) high
        simp only [BitVec.getLsbD_and, mask n hn, Bool.and_true] at this
        rw [this]
        exact h.acBits n hn
      cbp := by rw [show u.cbp = t.cbp from hw.csr (c := .cbp) all_kept]; exact h.cbp
      elim := (show u.elim = t.elim from hw.csr (c := .elim) all_kept).trans h.elim
      costY := (show u.costY = t.costY from hw.csr (c := .costY) all_kept).trans h.costY }

/-! ### CODE_I16 -/

/-- CODE_I16 codes, with and without reconstruction; its DC bits are those of the DC layer, promoted with RECON. -/
theorem codeI16_coded {recon border : Bool} {s t : State} (h : codeI16 recon border s = .ok t) :
    ∃ dc lv dl, I16Coded s dc lv dl t ∧ ∀ n, n < 16 → (t.cntrlY.getLsbD (15 - n) = true ↔
      dl n ≠ 0 ∨ (recon = true ∧ ∃ q, dcrec .y n t = .ok q ∧ q ≠ 0)) := by
  simp only [codeI16] at h
  split at h
  · cases h
  · rename_i u hu
    obtain ⟨dc, lv, dl, hcoded, hbits⟩ := i16Code_coded hu
    cases recon with
    | false =>
      obtain rfl : u = t := Except.ok.inj h
      exact ⟨dc, lv, dl, hcoded, fun n hn => by simpa using hbits n hn⟩
    | true =>
      have h : reconY16 true border u = .ok t := h
      refine ⟨dc, lv, dl, hcoded.recon h, fun n hn => ?_⟩
      rw [reconY16_dcBits h hn, hbits n hn]
      simp

/-- A block's count is positive exactly when it has a level. -/
theorem I16Coded.count_pos {s t : State} {dc : Nat → Int} {lv : Nat → Nat → Int} {dl : Nat → Int}
    (h : I16Coded s dc lv dl t) {n : Nat} (hn : n < 16) :
    0 < countNonzero (acScan (lv n)) ↔ ∃ k, k < 16 ∧ lv n k ≠ 0 := by
  rw [countNonzero_acScan (h.transformed n hn).level_zero, countNonzero_pos]

theorem or_and_same (x m : Word) : (x ||| m) &&& m = m := by
  ext i
  simp only [BitVec.getElem_or, BitVec.getElem_and]
  cases m[i] <;> simp

/-- Disjoint masks leave no bit. -/
theorem and_disjoint {m k : Word} (x : Word) (h : m &&& k = 0) : x &&& m &&& k = 0 := by
  rw [BitVec.and_assoc, h]
  exact BitVec.and_zero

theorem withCbpL_full (cbp : Word) : withCbpL cbp 0xF = cbp ||| 0xF := by
  have fill : ∀ x m : Word, (x &&& ~~~ m) ||| m = x ||| m := fun x m => by
    ext i
    simp only [BitVec.getElem_or, BitVec.getElem_and, BitVec.getElem_not]
    cases x[i] <;> cases m[i] <;> rfl
  exact fill cbp 0xF

theorem withCbpL_empty (cbp : Word) : withCbpL cbp 0 = cbp &&& 0xFFFFFFF0 := BitVec.or_zero

/-- A level anywhere fills CBP_L. -/
theorem I16Coded.cbp_full {s t : State} {dc : Nat → Int} {lv : Nat → Nat → Int} {dl : Nat → Int}
    (h : I16Coded s dc lv dl t) (hl : ∃ n, n < 16 ∧ 0 < countNonzero (acScan (lv n))) : t.cbp = s.cbp ||| 0xF := by
  obtain ⟨any, hany, hcbp⟩ := h.cbp
  rw [hcbp, if_pos (hany.mpr hl), withCbpL_full]

/-- No level leaves CBP_L empty. -/
theorem I16Coded.cbp_empty {s t : State} {dc : Nat → Int} {lv : Nat → Nat → Int} {dl : Nat → Int}
    (h : I16Coded s dc lv dl t) (hl : ∀ n, n < 16 → countNonzero (acScan (lv n)) = 0) :
    t.cbp = s.cbp &&& 0xFFFFFFF0 := by
  obtain ⟨any, hany, hcbp⟩ := h.cbp
  have none : ¬ any = true := fun ha => by
    obtain ⟨n, hn, hpos⟩ := hany.mp ha
    rw [hl n hn] at hpos
    exact absurd hpos (by decide)
  rw [hcbp, if_neg none, withCbpL_empty]

/-- What was coded depends on the sixteen levels of the sixteen blocks alone. -/
theorem I16Coded.relevel {s t : State} {dc : Nat → Int} {lv lv' : Nat → Nat → Int} {dl : Nat → Int}
    (h : I16Coded s dc lv dl t) (he : ∀ n k, n < 16 → k < 16 → lv n k = lv' n k) : I16Coded s dc lv' dl t := by
  have scan : ∀ n, n < 16 → acScan (lv n) = acScan (lv' n) := fun n hn =>
    List.map_congr_left fun k hk => he n k hn (zigzag_lt (List.mem_of_mem_drop hk))
  have records : (blkOrder.flatMap fun n => recordOf 1 (acScan (lv n)))
      = blkOrder.flatMap fun n => recordOf 1 (acScan (lv' n)) :=
    List.flatMap_congr fun n hn => by rw [scan n (blkOrder_lt hn)]
  exact
    { transformed := fun n hn => by
        obtain ⟨res, hres, hdc, hl⟩ := h.transformed n hn
        exact ⟨res, hres, hdc, fun k hk => by rw [← he n k hn hk]; exact hl k hk⟩
      layerOf := h.layerOf
      blocks := ⟨h.blocks.dcsave, fun n k hn hk => by rw [← he n k hn hk]; exact h.blocks.coef n k hn hk⟩
      layer := h.layer
      nnz := fun n hn => by rw [← scan n hn]; exact h.nnz n hn
      nnzdc := h.nnzdc
      records := by rw [← records]; exact h.records
      acBits := fun n hn => by rw [← scan n hn]; exact h.acBits n hn
      cbp := by
        obtain ⟨any, hany, hcbp⟩ := h.cbp
        refine ⟨any, hany.trans (exists_congr fun n => and_congr_right fun hn => ?_), hcbp⟩
        rw [scan n hn]
      elim := h.elim
      costY := h.costY }

/-- A CODE_I16 that ended normally: its steps, from the accepted state, in their scope. -/
theorem codeI16_ends {recon border : Bool} {s t : State} (h : exec (.codeI16 recon border) s = .next t)
    (hn : EndsNormally (.codeI16 recon border) s) :
    ∃ u, t = complete u ∧ codeI16 recon border (accept (encode (.codeI16 recon border)) s) = .ok u ∧
      Work (scopeOf (.codeI16 recon border) 0) (accept (encode (.codeI16 recon border)) s) u := by
  obtain ⟨hc, u, hs, he⟩ := endsNormally_exec hn
  cases h.symm.trans he
  exact ⟨u, rfl, hs, (stepsOf_works _ 0 _ (wf_of_issueCheck hc)).ok hs⟩

/-- Work changes the fields a command may change, and no other. -/
theorem eq_of_unchangedPart {s t : State} (h : unchangedPart t = unchangedPart s) :
    t = { s with
      arenaCur := t.arenaCur, mbStart := t.mbStart, cntrlY := t.cntrlY, cntrlC := t.cntrlC, cbp := t.cbp, elim := t.elim
      costY := t.costY, costC := t.costC, costAcc := t.costAcc, lm := t.lm, arena := t.arena } := by
  cases s
  cases t
  simpa [unchangedPart] using h

/-- What FTQ4 gives a block is what CODE_I16 transforms it into. -/
theorem Transformed.gives {n : Fin 16} {s : State} {dc : Int} {lv lv' : Nat → Int}
    (h : Transformed .y n true s dc lv) (hg : Ftq4Gives .y n true s lv') :
    ∀ k, k < 16 → lv k = lv' k := by
  obtain ⟨u, hu, hlv⟩ := hg
  obtain ⟨v, hv, -, hcoef⟩ := exec_ftq4 h n.isLt
  obtain rfl := Host.Outcome.next.inj (hu.symm.trans hv)
  intro k hk
  exact Except.ok.inj ((hcoef k hk).symm.trans (hlv k hk))

/-- What a CODE_I16 that ended normally codes, in terms of FTQ4 and FHQ4. -/
theorem codeI16_result : CodeI16Result := by
  intro recon border s t lv' h hend hgives
  obtain ⟨u, rfl, hs, hw⟩ := codeI16_ends h hend
  obtain ⟨dc, lv, dl, hcoded, -⟩ := codeI16_coded hs
  have htr : ∀ n : Fin 16, Transformed .y n true s (dc n) (lv n) := fun n =>
    (hcoded.transformed n n.isLt).congr (hostKept_accept _ s).symm n.isLt
  have hcoded := hcoded.relevel fun n k hn hk => (htr ⟨n, hn⟩).gives (hgives ⟨n, hn⟩) k hk
  have hlayer : LayerOf (complete u) dc dl :=
    hcoded.layerOf.congr ((hw.hostKept (lmWritten_ge _)).trans (hostKept_complete u))
  have hsaved : ∀ n, n < 16 → dcsave .y n (complete u) = .ok (dc n) := hcoded.blocks.dcsave
  obtain ⟨v, hv, hdl, hz⟩ := exec_fhq4 hsaved hlayer
  refine ⟨fun n => ⟨fun k => hcoded.blocks.coef n k n.isLt, hcoded.nnz n n.isLt, ?_⟩,
    ⟨v, dl, hv, fun k hk => ⟨hdl k hk, hcoded.layer k hk⟩, hcoded.nnzdc.trans hz.symm, hcoded.records⟩,
    ?_, ?_, hcoded.elim, hcoded.costY, fun a ha => hw.frame a ha, ?_⟩
  · obtain ⟨w, hw, hdc, -⟩ := exec_ftq4 (htr n) n.isLt
    exact ⟨w, hw, (hsaved n n.isLt).trans hdc.symm⟩
  · rintro ⟨n, k, hn, hk, hne⟩
    exact hcoded.cbp_full ⟨n, hn, (hcoded.count_pos hn).mpr ⟨k, hk, hne⟩⟩
  · intro hz
    refine hcoded.cbp_empty fun n hn => Nat.eq_zero_of_not_pos fun hpos => ?_
    obtain ⟨k, hk, hne⟩ := (hcoded.count_pos hn).mp hpos
    exact hne (hz n k hn hk)
  · have e := eq_of_unchangedPart hw.kept
    have start : u.mbStart = s.mbStart := hw.csr (c := .mbStart) all_kept
    have cntrlC : u.cntrlC = s.cntrlC := hw.csr (c := .cntrlC) all_kept
    have costC : u.costC = s.costC := hw.csr (c := .costC) all_kept
    have costAcc : u.costAcc = s.costAcc := hw.csr (c := .costAcc) all_kept
    rw [start, cntrlC, costC, costAcc] at e
    exact congrArg complete e

end Laws

/-- Settles O59, from what the stages of CODE_I16 leave (`Laws.I16Coded`). -/
theorem intraLumaSoundness : Obligations.IntraLumaSoundness := by
  refine ⟨fun recon border s t h hend => ?_, Laws.codeI16_result⟩
  obtain ⟨u, rfl, hs, -⟩ := Laws.codeI16_ends h hend
  obtain ⟨dc, lv, dl, hcoded, hbits⟩ := Laws.codeI16_coded hs
  have count {n v : Nat} (hn : n < 16) (hv : nnz .y n (complete u) = .ok v) : countNonzero (Laws.acScan (lv n)) = v :=
    Except.ok.inj ((hcoded.nnz n hn).symm.trans hv)
  refine ⟨fun n hn => ⟨lv n, dl n, fun k => hcoded.blocks.coef n k hn, hcoded.layer n hn,
    (hcoded.transformed n hn).level_zero, ?_, (hcoded.acBits n hn).trans (hcoded.count_pos hn), hbits n hn⟩,
    ?_, fun hz => ?_, ?_, hcoded.costY⟩
  · rw [← Laws.countNonzero_acScan (hcoded.transformed n hn).level_zero]
    exact hcoded.nnz n hn
  · rintro ⟨n, v, hn, hv, hpos⟩
    rw [StateLaws.complete_cbp, hcoded.cbp_full ⟨n, hn, (count hn hv).symm ▸ hpos⟩]
    exact Laws.or_and_same _ _
  · rw [StateLaws.complete_cbp, hcoded.cbp_empty fun n hn => count hn (hz n hn)]
    exact Laws.and_disjoint _ (by decide)
  · rw [StateLaws.complete_elim, hcoded.elim]
    exact Laws.and_disjoint _ (by decide)

end Sys2Proof.Machine
end

section
/-! PROOFS. The invariant: what it depends on, that the engine, the host port and the resets keep it, and the
statements `ResetMeetsInvariant`, `StepKeepsInvariant` and `CommandFrame`. -/

namespace Sys2Proof.Machine

namespace Laws

/-! ### What the invariant depends on -/

theorem record_eq (code : ErrorCode) (op : Byte) (s : State) :
    record code op s = withStatus s.cmd s.busy s.done (some (s.err.getD ⟨code, op⟩)) s := by
  cases h : s.err with
  | none => simp only [record, h]; rfl
  | some e =>
    simp only [record, h, Option.getD_some, withStatus]
    rw [← h]

/-- The fields the invariant speaks of whether a command runs or not, the others blanked out. -/
def invPart (s : State) : State :=
  { s with
    cmd := 0
    irqDoneEn := false
    irqErrEn := false
    busy := false
    done := false
    err := none
    pending := []
    resp := ⟨false, 0⟩
    free := 0 }

theorem inv_invPart {s : State} (h : s.Inv) : (invPart s).Inv := { h with running := fun hb => nomatch hb }

/-- The invariant from its part that does not depend on CMD and BUSY, and its part that does. -/
theorem inv_of_invPart {s : State} (h : (invPart s).Inv)
    (hr : s.busy = true → ∃ i, decode s.cmd = .ok i ∧ issueCheck i s = none) : s.Inv := { h with running := hr }

theorem qparam_invPart (p : Plane) (s : State) : qparam p (invPart s) = qparam p s := by cases p <;> rfl

/-- The issue checks read the parameter registers alone. -/
theorem issueCheck_congr {s t : State} (h : invPart t = invPart s) (i : Instr) : issueCheck i t = issueCheck i s := by
  have hq : ∀ p, qpDiv p t = qpDiv p s := fun p => by
    simp only [qpDiv, ← qparam_invPart p t, h, qparam_invPart]
  simp [issueCheck, qparamOk, hq]

/-- A change outside the invariant's part that starts no command keeps the invariant. -/
theorem inv_same {s t : State} (hi : s.Inv) (h : invPart t = invPart s)
    (hb : t.busy = true → s.busy = true ∧ t.cmd = s.cmd) : t.Inv := by
  refine inv_of_invPart (h ▸ inv_invPart hi) fun ht => ?_
  obtain ⟨hs, hc⟩ := hb ht
  obtain ⟨i, hd, hck⟩ := hi.running hs
  exact ⟨i, hc ▸ hd, (issueCheck_congr h i).trans hck⟩

/-- A change outside the invariant's part that leaves the engine idle keeps the invariant. -/
theorem inv_idle {s t : State} (hi : s.Inv) (h : invPart t = invPart s) (hb : t.busy = false) : t.Inv :=
  inv_same hi h fun ht => absurd (hb.symm.trans ht) (by decide)

theorem invPart_record (code : ErrorCode) (op : Byte) (s : State) : invPart (record code op s) = invPart s := by
  rw [record_eq]
  rfl

theorem inv_record {s : State} (hi : s.Inv) (code : ErrorCode) (op : Byte) : (record code op s).Inv :=
  inv_same hi (invPart_record code op s) fun h => by simpa using h

theorem inv_refuse {s : State} (hi : s.Inv) (w : Word) (code : ErrorCode) : (refuse w code s).Inv :=
  inv_idle hi (invPart_record code (opOf w) { s with cmd := w }) rfl

/-! ### The engine -/

/-- A command with the word `w` that ended with an error. -/
theorem complete_record_eq {w : Word} {s : State} (hw : s.cmd = w) (code : ErrorCode) (op : Byte) :
    complete (record code op s) = withStatus w false true (some (s.err.getD ⟨code, op⟩)) s := by
  rw [record_eq, hw]
  rfl

/-- However a command ends, its refusal and its overflow included: CMD holds its word, BUSY is 0, DONE is 1, and all else
is the work of its steps. -/
theorem exec_ends {i : Instr} {s t : State} (h : exec i s = .next t) :
    ∃ u e, t = withStatus (encode i) false true e u ∧ Work (scopeOf i 0) (accept (encode i) s) u := by
  cases exec_cases i 0 s with
  | refused code _ he =>
    cases he.symm.trans h
    exact ⟨accept (encode i) s, _, complete_record_eq (s := { s with cmd := encode i }) rfl code _, Work.refl _ _⟩
  | completed u _ _ hw he =>
    cases he.symm.trans h
    refine ⟨u, u.err, ?_, hw⟩
    rw [← show u.cmd = encode i from hw.cmd]
    rfl
  | overflowed u _ _ _ hw he =>
    cases he.symm.trans h
    exact ⟨u, _, complete_record_eq hw.cmd _ _, hw⟩
  | stopped a _ _ he => cases he.symm.trans h

/-- The steps of a command keep the invariant, apart from what it says of the running command. -/
theorem Work.inv {sc : Scope} {s t : State} (h : Work sc s t) (hi : (complete s).Inv) : (complete t).Inv := by
  have hq : ∀ p, qparam p (complete t) = qparam p (complete s) := fun p => by
    have := congrArg (qparam p) h.kept
    cases p <;> exact this
  have hr : ∀ p, roundReg p (complete t) = roundReg p (complete s) := fun p => by
    have := congrArg (roundReg p) h.kept
    cases p <;> exact this
  exact
    { lmWf := h.lmWf hi.lmWf
      lmData := h.lmData hi.lmData
      arenaWf := h.arenaWf hi.arenaWf
      arena32 := h.arena32 hi.arena32
      curEven := h.even hi.curEven
      endEven := by rw [StateLaws.complete_arenaEnd, h.arenaEnd]; exact hi.endEven
      startEven := h.startEven hi.curEven hi.startEven
      cntrlC := h.cntrlC hi.cntrlC
      cbp := h.cbp hi.cbp
      elim := h.elim hi.elim
      costY := h.costY hi.costY
      qparam := fun p => by rw [hq]; exact hi.qparam p
      round := fun p => by rw [hr]; exact hi.round p
      running := fun hb => nomatch hb }

/-- Every command that answers a next state keeps the invariant, whatever ends it. -/
theorem exec_inv {i : Instr} {s t : State} (hi : s.Inv) (h : exec i s = .next t) : t.Inv := by
  obtain ⟨u, e, rfl, hw⟩ := exec_ends h
  exact inv_idle (hw.inv (inv_idle hi rfl rfl)) rfl rfl

theorem engineTurn_inv {s t : State} (hi : s.Inv) (h : engineTurn s = .next t) : t.Inv := by
  simp only [engineTurn, engineMove] at h
  split at h
  · split at h
    · exact exec_inv hi h
    · cases h; exact inv_refuse hi _ _
  · cases h; exact hi

/-! ### Resets -/

/-- A reset machine over memories in their canonical form, inside their spaces. -/
theorem inv_csrReset (s : State) (lmWf : s.lm.wf = true) (lmData : ∀ c ∈ s.lm, dataAddr c.1 = true)
    (arenaWf : s.arena.wf = true) (arena32 : ∀ c ∈ s.arena, c.1 < 2 ^ 32) : (csrReset s).Inv where
  lmWf := lmWf
  lmData := lmData
  arenaWf := arenaWf
  arena32 := arena32
  curEven := getLsbD_zero_word 0
  endEven := getLsbD_zero_word 0
  startEven := getLsbD_zero_word 0
  cntrlC := zero_and_word _
  cbp := zero_and_word _
  elim := zero_and_word _
  costY := zero_and_word _
  qparam p := by cases p <;> exact zero_and_word _
  round p := by cases p <;> exact zero_and_word _
  running hb := nomatch hb

theorem loseArena_lm (s : State) : (loseArena s).lm = s.lm := by simp only [loseArena]; split <;> rfl

theorem loseArena_wf {s : State} (h : s.arena.wf = true) : (loseArena s).arena.wf = true := by
  simp only [loseArena]
  split
  · exact MemoryLaws.forget_wf _ _ _ h
  · exact h

theorem loseArena_mem {s : State} {c : Host.Cell} (h : c ∈ (loseArena s).arena) : c ∈ s.arena := by
  simp only [loseArena] at h
  split at h
  · exact List.mem_of_mem_filter h
  · exact h

theorem inv_hardReset {s : State} (hi : s.Inv) : (hardReset s).Inv := by
  have h : (csrReset { loseArena s with lm := [] }).Inv := inv_csrReset _ rfl (fun _ h => nomatch h)
    (loseArena_wf hi.arenaWf) fun c hc => hi.arena32 c (loseArena_mem hc)
  exact inv_idle h rfl rfl

/-! ### What a command writes are data addresses -/

/-- Consecutive addresses inside a data region of the map. -/
theorem region_data {r : Region} (hr : r ∈ lmMap) (hk : r.kind = .data) {b n : Nat} (h0 : r.first ≤ b)
    (h1 : b + n ≤ r.last + 1) : ∀ a ∈ addrs b n, dataAddr a = true := by
  intro a ha
  obtain ⟨hb, hn⟩ := mem_addrs.mp ha
  exact dataAddr_of_mem hr hk (by omega) (by omega)

theorem recAddrs_data {p : Plane} {n : Nat} (hn : n < p.nb) : ∀ a ∈ recAddrs p n, dataAddr a = true := by
  intro a ha
  obtain ⟨k, hk, rfl⟩ := List.mem_map.mp ha
  have hk := raster_lt16 hk
  refine rec_data (r := k / 4) hn (by omega) ?_ ?_ <;> simp only [sampleAddr] <;> omega

theorem coefBlock_data {p : Plane} {n : Nat} (hn : n < p.nb) : ∀ a ∈ addrs (coefAddr p n 0) 32, dataAddr a = true :=
  fun _ ha => coef_data hn (mem_addrs.mp ha).1 (mem_addrs.mp ha).2

theorem coefPlaneAddrs_data (p : Plane) : ∀ a ∈ coefPlaneAddrs p, dataAddr a = true := by
  intro a ha
  obtain ⟨n, hn, ha⟩ := List.mem_flatMap.mp ha
  exact coefBlock_data (planeBlocks_lt hn) a ha

theorem recPlaneAddrs_data (p : Plane) : ∀ a ∈ recPlaneAddrs p, dataAddr a = true := by
  cases p with
  | y => exact region_data (r := ⟨0x0800, 0x08FF, .data⟩) (by decide) rfl (by decide) (by decide)
  | cb => exact region_data (r := ⟨0x0900, 0x093F, .data⟩) (by decide) rfl (by decide) (by decide)
  | cr => exact region_data (r := ⟨0x0940, 0x097F, .data⟩) (by decide) rfl (by decide) (by decide)

theorem nnzPlaneAddrs_data (p : Plane) : ∀ a ∈ nnzPlaneAddrs p, dataAddr a = true := by cases p <;> decide

theorem dcLayerAddrs_data (p : Plane) : ∀ a ∈ dcLayerAddrs p, dataAddr a = true := by cases p <;> decide

theorem dcrecAddrs_data (p : Plane) : ∀ a ∈ dcrecAddrs p, dataAddr a = true := by cases p <;> decide

theorem dcsaveAddrs_data (p : Plane) : ∀ a ∈ dcsaveAddrs p, dataAddr a = true := by cases p <;> decide

theorem flag_data {b : Bool} {l : List Nat} (h : ∀ a ∈ l, dataAddr a = true) :
    ∀ a ∈ (if b then l else []), dataAddr a = true := by
  cases b with
  | true => exact h
  | false => intro a ha; cases ha

/-- What CODE_I16 and CODE_C8 write of a plane. -/
theorem dcPlane_data (p : Plane) (recon : Bool) :
    ∀ a ∈ dcsaveAddrs p ++ coefPlaneAddrs p ++ nnzPlaneAddrs p ++ dcLayerAddrs p
      ++ (if recon then dcrecAddrs p ++ recPlaneAddrs p else []), dataAddr a = true := by
  simp only [List.forall_mem_append]
  exact ⟨⟨⟨⟨dcsaveAddrs_data p, coefPlaneAddrs_data p⟩, nnzPlaneAddrs_data p⟩, dcLayerAddrs_data p⟩,
    flag_data (List.forall_mem_append.mpr ⟨dcrecAddrs_data p, recPlaneAddrs_data p⟩)⟩

/-- A legal command writes data addresses alone (20_memory.md R84). -/
theorem lmWritten_data {i : Instr} (hw : i.wf = true) : ∀ a ∈ lmWritten i, dataAddr a = true := by
  cases i with
  | nop => intro a ha; cases ha
  | ftq4 p n dcx =>
    have hn : n.val < p.nb := of_decide_eq_true hw
    simp only [lmWritten, List.forall_mem_append, List.forall_mem_singleton]
    refine ⟨⟨coefBlock_data hn, nnz_data hn⟩, flag_data fun a ha => ?_⟩
    obtain ⟨h0, h1⟩ := mem_addrs.mp ha
    exact dcsave_data hn h0 h1
  | fhq4 => exact dcLayerAddrs_data .y
  | fhq2 p => exact dcLayerAddrs_data p
  | ihs4 => exact dcrecAddrs_data .y
  | ihs2 p => exact dcrecAddrs_data p
  | iqtr4 p n _ => exact recAddrs_data (of_decide_eq_true hw)
  | iqtr4dc p n _ => exact recAddrs_data (of_decide_eq_true hw)
  | copy4 p n => exact recAddrs_data (of_decide_eq_true hw)
  | pack4 p n _ => exact List.forall_mem_singleton.mpr (nnz_data (of_decide_eq_true hw))
  | packdc p => exact List.forall_mem_singleton.mpr (nnzdc_data p)
  | mbBegin => show ∀ a ∈ addrs (nnzAddr .y 0) 27, _; decide
  | codeI16 recon _ => exact dcPlane_data .y recon
  | codeI4 n recon =>
    simp only [lmWritten, List.forall_mem_append, List.forall_mem_singleton]
    exact ⟨⟨coefBlock_data (p := .y) n.isLt, nnz_data (p := .y) n.isLt⟩, flag_data (recAddrs_data (p := .y) n.isLt)⟩
  | codeL16 _ recon _ =>
    simp only [lmWritten, List.forall_mem_append]
    exact ⟨⟨coefPlaneAddrs_data .y, nnzPlaneAddrs_data .y⟩, flag_data (recPlaneAddrs_data .y)⟩
  | codeC8 _ recon _ =>
    intro a ha
    obtain ⟨p, -, ha⟩ := List.mem_flatMap.mp ha
    exact dcPlane_data p recon a ha
  | reconY16 dc _ =>
    simp only [lmWritten, List.forall_mem_append]
    exact ⟨recPlaneAddrs_data .y, flag_data (dcrecAddrs_data .y)⟩
  | reconC8 _ =>
    intro a ha
    obtain ⟨p, -, ha⟩ := List.mem_flatMap.mp ha
    exact (List.forall_mem_append.mpr ⟨dcrecAddrs_data p, recPlaneAddrs_data p⟩) a ha

theorem scrambleFrom_wf (k : Nat) (l : List Nat) {m : Memory} (h : m.wf = true) : (scrambleFrom k l m).wf = true := by
  induction l generalizing m with
  | nil => exact h
  | cons a l ih => exact ih (MemoryLaws.write_wf _ _ _ h)

theorem scrambleFrom_data (k : Nat) {l : List Nat} {m : Memory} (hl : ∀ a ∈ l, dataAddr a = true)
    (h : ∀ c ∈ m, dataAddr c.1 = true) : ∀ c ∈ scrambleFrom k l m, dataAddr c.1 = true := by
  induction l generalizing m with
  | nil => exact h
  | cons a l ih =>
    obtain ⟨ha, hl⟩ := List.forall_mem_cons.mp hl
    refine ih hl fun c hc => ?_
    rcases MemoryLaws.write_addrs _ _ _ _ hc with hc | hc
    · rw [hc]; exact ha
    · exact h c hc

/-- The running command passed its issue checks, so its operands are legal. -/
theorem inv_running_wf {s : State} (hi : s.Inv) {i : Instr} (h : running s = some i) : i.wf = true := by
  simp only [running] at h
  split at h
  · rename_i hb
    obtain ⟨j, hd, hc⟩ := hi.running hb
    rw [hd] at h
    obtain rfl : j = i := Option.some.inj h
    exact wf_of_issueCheck hc
  · cases h

theorem inv_softReset {s : State} (hi : s.Inv) : (softReset s).Inv := by
  have hs : (scrambleLm s).lm.wf = true ∧ (∀ c ∈ (scrambleLm s).lm, dataAddr c.1 = true) ∧
      (scrambleLm s).arena = s.arena := by
    simp only [scrambleLm]
    split
    · exact ⟨hi.lmWf, hi.lmData, rfl⟩
    · rename_i i hr
      exact ⟨scrambleFrom_wf _ _ hi.lmWf, scrambleFrom_data _ (lmWritten_data (inv_running_wf hi hr)) hi.lmData, rfl⟩
  obtain ⟨hwf, hdata, harena⟩ := hs
  refine inv_csrReset _ ?_ ?_ (loseArena_wf (by rw [harena]; exact hi.arenaWf)) fun c hc => ?_
  · rw [loseArena_lm]; exact hwf
  · rw [loseArena_lm]; exact hdata
  · have := loseArena_mem hc
    rw [harena] at this
    exact hi.arena32 c this

/-! ### The host port -/

/-- A write to a plain register while idle keeps the hard-wired bits 0. -/
theorem inv_csrStore {s : State} (hi : s.Inv) (c : Csr) (v : Word) (hb : s.busy = false) : (csrStore c v s).Inv := by
  have off {P : Prop} (h : s.busy = true) : P := absurd (hb.symm.trans h) (by decide)
  have even : (v &&& 0xFFFFFFFE).getLsbD 0 = false := by simp
  have param : v &&& 0x00000F1F &&& 0xFFFFF0E0 = 0 := and_disjoint v (by decide)
  have round : v &&& 0x00FFFFFF &&& 0xFF000000 = 0 := and_disjoint v (by decide)
  cases c with
  | id | version | ctrl | status | cmd | mbStart | elim | costY | costC | cfg => exact hi
  | cntrlY | costAcc | thr | costLut0 | costLut1 | costLut2 | costLut3 => exact { hi with running := off }
  | arenaCur => exact { hi with curEven := even, running := off }
  | arenaEnd => exact { hi with endEven := even, running := off }
  | cntrlC => exact { hi with cntrlC := and_disjoint v (by decide), running := off }
  | cbp => exact { hi with cbp := and_disjoint v (by decide), running := off }
  | qparamY =>
    exact { hi with qparam := fun p => by cases p; exacts [param, hi.qparam .cb, hi.qparam .cr], running := off }
  | qparamCb =>
    exact { hi with qparam := fun p => by cases p; exacts [hi.qparam .y, param, hi.qparam .cr], running := off }
  | qparamCr =>
    exact { hi with qparam := fun p => by cases p; exacts [hi.qparam .y, hi.qparam .cb, param], running := off }
  | roundY =>
    exact { hi with round := fun p => by cases p; exacts [round, hi.round .cb, hi.round .cr], running := off }
  | roundCb =>
    exact { hi with round := fun p => by cases p; exacts [hi.round .y, round, hi.round .cr], running := off }
  | roundCr =>
    exact { hi with round := fun p => by cases p; exacts [hi.round .y, hi.round .cb, round], running := off }

theorem inv_writeCtrl {s : State} (hi : s.Inv) (v : Word) : (writeCtrl v s).Inv := by
  simp only [writeCtrl]
  split
  · exact inv_softReset hi
  · exact inv_same hi rfl fun h => ⟨h, rfl⟩

/-- A write to CMD starts a command that passed its issue checks, or none. -/
theorem inv_issue {s : State} (hi : s.Inv) (w : Word) : (issue w s).Inv := by
  simp only [issue]
  split
  · exact inv_record hi _ _
  · split
    · exact inv_refuse hi _ _
    · rename_i i hd
      split
      · exact inv_refuse hi _ _
      · rename_i hc
        have hp : (invPart (accept w s)).Inv := inv_invPart (s := s) hi
        exact inv_of_invPart hp fun _ => ⟨i, hd, (issueCheck_congr (s := s) rfl i).trans hc⟩

theorem inv_writeCsr {s : State} (hi : s.Inv) (a : Nat) (v : Word) : (writeCsr a v s).Inv := by
  simp only [writeCsr]
  split
  · exact inv_writeCtrl hi v
  · exact inv_same hi rfl fun h => ⟨h, rfl⟩
  · exact inv_issue hi v
  · split
    · exact inv_record hi _ _
    · rename_i hb
      exact inv_csrStore hi _ v (by simpa using hb)
  · split
    · exact inv_record hi _ _
    · exact hi

/-- A legal access lies inside the one region its kind is of. -/
theorem legalRegion_some {w : Width} {a : Nat} {k : RegionKind} (h : legalRegion w a = some k) :
    ∃ r ∈ lmMap, r.kind = k ∧ r.first ≤ a ∧ a + w.bytes - 1 ≤ r.last := by
  simp only [legalRegion] at h
  split at h
  · cases h
  · split at h
    · cases h
    · rename_i r hr
      split at h
      · cases h
      · have hp := List.find?_some hr
        simp only [Bool.and_eq_true, decide_eq_true_eq] at hp
        exact ⟨r, List.mem_of_find?_eq_some hr, Option.some.inj h, hp.1, hp.2⟩

theorem dataBytes_length (w : Width) (v : Word) : (dataBytes w v).length = w.bytes := by cases w <;> rfl

theorem inv_writeLm {s : State} (hi : s.Inv) {w : Width} {a : Nat} (v : Word) (hr : legalRegion w a = some .data) :
    (writeLm w a v s).Inv := by
  simp only [writeLm]
  split
  · exact inv_record hi _ _
  · rename_i hb
    obtain ⟨r, hm, hk, h0, h1⟩ := legalRegion_some hr
    have hw : Work ⟨0, fun _ => True, fun _ => 0⟩ s (s.putBytes a (dataBytes w v)) :=
      work_putBytes _ _ _ _ (fun x hx0 hx1 => dataAddr_of_mem hm hk (by omega) (by rw [dataBytes_length] at hx1; omega))
        fun _ _ _ => trivial
    exact inv_idle (hw.inv (inv_idle hi rfl rfl)) rfl (by simpa using hb)

theorem inv_answer {s : State} (hi : s.Inv) (e : Bool) (d : Word) : (answer e d s).Inv :=
  inv_same hi rfl fun h => ⟨h, rfl⟩

theorem inv_hostWrite {s : State} (hi : s.Inv) (w : Width) (a : Nat) (v : Word) : (hostWrite w a v s).Inv := by
  simp only [hostWrite]
  split
  · exact inv_answer hi _ _
  · exact inv_writeCsr (inv_answer hi _ _) a v
  · rename_i hr
    exact inv_writeLm (inv_answer hi _ _) v hr
  · simp only [writeReserved]
    split
    · exact inv_record (inv_answer hi _ _) _ _
    · exact inv_answer hi _ _

theorem inv_answerFree {s : State} (hi : s.Inv) (w : Width) : (answerFree w s).Inv :=
  inv_same hi rfl fun h => ⟨h, rfl⟩

theorem inv_readCsr {s : State} (hi : s.Inv) (a : Nat) : (readCsr a s).Inv := by
  simp only [readCsr]
  split
  · exact inv_answer hi _ _
  · split
    · exact inv_answer hi _ _
    · split
      · exact inv_answerFree hi _
      · exact inv_answer hi _ _

/-- A read of local memory that answers changes the port's answer alone. -/
theorem readLm_next {w : Width} {a : Nat} {s t : State} (h : readLm w a s = .next t) : ∃ d, t = answer false d s := by
  simp only [readLm] at h
  split at h
  · exact ⟨_, (Host.Outcome.next.inj h).symm⟩
  · cases h
  · rename_i he
    obtain ⟨x, hx, -⟩ := readAll_onlyUninit (fun x => lmByte_onlyUninit x s) _ he
    cases hx

theorem hostRead_inv {s t : State} (hi : s.Inv) {w : Width} {a : Nat} (h : hostRead w a s = .next t) : t.Inv := by
  simp only [hostRead] at h
  split at h
  · cases h; exact inv_answer hi _ _
  · cases h; exact inv_readCsr hi a
  · split at h
    · cases h; exact inv_answerFree hi _
    · obtain ⟨d, rfl⟩ := readLm_next h
      exact inv_answer hi _ _
  · cases h
    split
    · exact inv_answerFree hi _
    · exact inv_answer hi _ _

theorem hostAccess_inv {s t : State} (hi : s.Inv) {a : HostAccess} (h : hostAccess a s = .next t) : t.Inv := by
  cases a with
  | write w addr v => cases h; exact inv_hostWrite hi w _ v
  | read w addr => exact hostRead_inv hi h

/-! ### What a command leaves unchanged -/

/-- Of the registers only CMD and STATUS read CMD, BUSY, DONE and ERR. -/
theorem csrValue_withStatus {c : Csr} (hc : c ≠ .cmd) (hs : c ≠ .status) (w : Word) (b d : Bool)
    (e : Option ErrorRecord) (s : State) : csrValue c (withStatus w b d e s) = csrValue c s := by
  cases c with
  | cmd => exact absurd rfl hc
  | status => exact absurd rfl hs
  | _ => rfl

end Laws

/-- Settles O16: no memory byte is listed and every hard-wired bit is 0. -/
theorem resetMeetsInvariant : Obligations.ResetMeetsInvariant :=
  Laws.inv_csrReset State.reset rfl (fun _ h => nomatch h) rfl fun _ h => nomatch h

/-- Settles O17, by the agent that moves: the engine, the host or the reset input. -/
theorem stepKeepsInvariant : Obligations.StepKeepsInvariant := by
  intro s t hi h
  have rest (l : List Event) : { s with pending := l }.Inv := Laws.inv_same hi rfl fun hb => ⟨hb, rfl⟩
  simp only [step] at h
  split at h
  · exact Laws.engineTurn_inv hi h
  · exact Laws.engineTurn_inv (rest _) h
  · exact Laws.hostAccess_inv (rest _) h
  · cases h
    exact Laws.inv_hardReset (rest _)

/-- Settles O13: every end of a command, its refusal and its overflow included, stays in the command's scope. -/
theorem commandFrame : Obligations.CommandFrame := by
  intro i s t h
  obtain ⟨u, e, rfl, hw⟩ := Laws.exec_ends h
  have pending : u.pending = s.pending := by simpa [Laws.unchangedPart] using congrArg State.pending hw.kept
  have resp : u.resp = s.resp := by simpa [Laws.unchangedPart] using congrArg State.resp hw.kept
  have free : u.free = s.free := by simpa [Laws.unchangedPart] using congrArg State.free hw.kept
  have accepted {c : Csr} (hc : c ≠ .cmd) (hs : c ≠ .status) : csrValue c (accept (encode i) s) = csrValue c s :=
    Laws.csrValue_withStatus hc hs (encode i) true s.done s.err s
  refine ⟨hw.frame, fun c hc hs => ?_, pending, resp, free⟩
  rw [Laws.csrValue_withStatus hc hs, ← accepted hc hs]
  exact hw.regs c

end Sys2Proof.Machine
end

section
/-! PROOFS. The registers behind the host port: what a read and a write of a register's offset do, the layout of STATUS,
the reset values, and the statements `StatusLayoutAndInterrupt`, `RegisterWrites`, `ResetValues`, `StatusAndCtrlWrites`
and `RegisterReadsAndFields`. -/

namespace Sys2Proof.Machine

namespace Laws

open Sys2Proof.Claims

/-! ### Fields of a word -/

/-- Bit `j` of a field is the bit of the word at its place. -/
theorem testBit_bits (w : Word) {hi lo j : Nat} (h : lo + j ≤ hi) : (bits w hi lo).testBit j = w.getLsbD (lo + j) := by
  rw [bits, Nat.testBit_mod_two_pow, Nat.testBit_shiftRight]
  simp [BitVec.getLsbD, show j < hi - lo + 1 by omega]

/-- The bits of an empty field are 0. -/
theorem getLsbD_of_bits_zero {w : Word} {hi lo i : Nat} (h : bits w hi lo = 0) (h0 : lo ≤ i) (h1 : i ≤ hi) :
    w.getLsbD i = false := by
  have := testBit_bits w (hi := hi) (lo := lo) (j := i - lo) (by omega)
  rw [h, Nat.zero_testBit, show lo + (i - lo) = i by omega] at this
  exact this.symm

/-- A word whose bits are 0 wherever the mask has a 1. -/
theorem and_eq_zero_of_bits {w m : Word} (h : ∀ i, i < 32 → m.getLsbD i = true → w.getLsbD i = false) : w &&& m = 0 := by
  refine BitVec.eq_of_getLsbD_eq fun i hi => ?_
  rw [BitVec.getLsbD_and, getLsbD_zero_word]
  cases hm : m.getLsbD i with
  | true => rw [h i hi hm]; rfl
  | false => exact Bool.and_false _

/-- A field as a quotient and remainder. -/
theorem bits_eq (w : Word) (hi lo : Nat) : bits w hi lo = w.toNat / 2 ^ lo % 2 ^ (hi - lo + 1) := by
  rw [bits, Nat.shiftRight_eq_div_pow]

theorem getLsbD_eq_decide (w : Word) (i : Nat) : w.getLsbD i = decide (w.toNat / 2 ^ i % 2 = 1) :=
  Nat.testBit_eq_decide_div_mod_eq

/-! ### STATUS -/

/-- STATUS as a number: its flags, ERR_CODE at bit 8 and ERR_OPCODE at bit 16, both 0 when no error is recorded. -/
theorem statusWord_toNat (s : State) :
    ∃ code op, code < 16 ∧ op < 256 ∧
      (statusWord s).toNat = s.busy.toNat + 2 * s.done.toNat + 4 * s.err.isSome.toNat + 8 * s.irq.toNat
        + 256 * code + 65536 * op ∧
      (s.err = none → code = 0 ∧ op = 0) ∧
      ∀ e, s.err = some e → code = errorNumber e.code ∧ op = e.opcode.toNat := by
  have b0 := Bool.toNat_lt s.busy
  have b1 := Bool.toNat_lt s.done
  have b2 := Bool.toNat_lt s.err.isSome
  have b3 := Bool.toNat_lt s.irq
  cases he : s.err with
  | none =>
    refine ⟨0, 0, by decide, by decide, ?_, fun _ => ⟨rfl, rfl⟩, fun _ h => by cases h⟩
    rw [he] at b2
    simp only [statusWord, he, BitVec.toNat_ofNat]
    omega
  | some e =>
    have hv : e.code.value = errorNumber e.code := by cases e.code <;> rfl
    have hc : errorNumber e.code < 16 := by cases e.code <;> decide
    have ho := e.opcode.isLt
    refine ⟨errorNumber e.code, e.opcode.toNat, hc, ho, ?_, fun h => absurd h (Option.some_ne_none e), fun _ h => ?_⟩
    · rw [he] at b2
      simp only [statusWord, he, BitVec.toNat_ofNat, hv]
      omega
    · cases h; exact ⟨rfl, rfl⟩

theorem irq_iff (s : State) :
    s.irq = true ↔ (s.done = true ∧ s.irqDoneEn = true) ∨ (s.err.isSome = true ∧ s.irqErrEn = true) := by
  simp only [State.irq, Bool.or_eq_true, Bool.and_eq_true]

end Laws

/-- Settles O21, from STATUS as a number. -/
theorem statusLayoutAndInterrupt : Obligations.StatusLayoutAndInterrupt := by
  intro s
  obtain ⟨code, op, hc, ho, hn, hnone, hsome⟩ := Laws.statusWord_toNat s
  have b0 := Bool.toNat_lt s.busy
  have b1 := Bool.toNat_lt s.done
  have b2 := Bool.toNat_lt s.err.isSome
  have b3 := Bool.toNat_lt s.irq
  have flag {i : Nat} {b : Bool} (h : (statusWord s).toNat / 2 ^ i % 2 = b.toNat) : (statusWord s).getLsbD i = b := by
    rw [Laws.getLsbD_eq_decide, h]
    cases b <;> rfl
  have hcode : bits (statusWord s) 11 8 = code := by rw [Laws.bits_eq]; omega
  have hop : bits (statusWord s) 23 16 = op := by rw [Laws.bits_eq]; omega
  refine ⟨flag (by omega), flag (by omega), flag (by omega), flag (by omega), fun h => ?_, fun e h => ?_, ?_,
    Laws.irq_iff s⟩
  · obtain ⟨rfl, rfl⟩ := hnone h
    exact ⟨hcode, hop⟩
  · obtain ⟨rfl, rfl⟩ := hsome e h
    exact ⟨hcode, hop⟩
  · have reserved : ∀ i, i < 32 → (0xFF00F0F0 : Word).getLsbD i = true →
        4 ≤ i ∧ i ≤ 7 ∨ 12 ≤ i ∧ i ≤ 15 ∨ 24 ≤ i ∧ i ≤ 31 := by decide
    have low : bits (statusWord s) 7 4 = 0 := by rw [Laws.bits_eq]; omega
    have mid : bits (statusWord s) 15 12 = 0 := by rw [Laws.bits_eq]; omega
    have high : bits (statusWord s) 31 24 = 0 := by rw [Laws.bits_eq]; omega
    refine Laws.and_eq_zero_of_bits fun i hi hm => ?_
    rcases reserved i hi hm with ⟨h0, h1⟩ | ⟨h0, h1⟩ | ⟨h0, h1⟩
    · exact Laws.getLsbD_of_bits_zero low h0 h1
    · exact Laws.getLsbD_of_bits_zero mid h0 h1
    · exact Laws.getLsbD_of_bits_zero high h0 h1

namespace Laws

open Sys2Proof.Claims

/-! ### Accesses to a register's offset -/

theorem legalRegion_csr (c : Csr) : legalRegion .w32 (csrOffset c) = some .csr := by cases c <;> decide

theorem csrAt_offset (c : Csr) : csrAt (csrOffset c) = some c := by cases c <;> rfl

theorem csrValue_answer (c : Csr) (e : Bool) (d : Word) (s : State) : csrValue c (answer e d s) = csrValue c s := by
  cases c <;> rfl

theorem hostWrite_csr (c : Csr) (v : Word) (s : State) :
    hostWrite .w32 (csrOffset c) v s = writeCsr (csrOffset c) v (answer false 0 s) := by
  simp only [hostWrite, legalRegion_csr]

theorem hostRead_csr (c : Csr) (s : State) : hostRead .w32 (csrOffset c) s = .next (readCsr (csrOffset c) s) := by
  simp only [hostRead, legalRegion_csr]

/-- While idle a write to a register other than CTRL, STATUS and CMD stores in it. -/
theorem hostWrite_plain {c : Csr} (v : Word) {s : State} (hb : s.busy = false) (h0 : c ≠ .ctrl) (h1 : c ≠ .status)
    (h2 : c ≠ .cmd) : hostWrite .w32 (csrOffset c) v s = csrStore c v (answer false 0 s) := by
  have idle : (answer false 0 s).busy = false := hb
  rw [hostWrite_csr, writeCsr, csrAt_offset]
  split
  · rename_i h; exact absurd (Option.some.inj h) h0
  · rename_i h; exact absurd (Option.some.inj h) h1
  · rename_i h; exact absurd (Option.some.inj h) h2
  · rename_i h
    obtain rfl := Option.some.inj h
    simp only [idle, Bool.false_eq_true, if_false]
  · rename_i h; cases h

/-- A read of a register the running command does not write gives its value. -/
theorem hostRead_value {c : Csr} {s : State} (h : ∀ i, running s = some i → c ∉ csrsWritten i) :
    hostRead .w32 (csrOffset c) s = .next { s with resp := ⟨false, csrValue c s⟩ } := by
  rw [hostRead_csr, readCsr, csrAt_offset]
  cases hr : running s with
  | none => rfl
  | some i => simp only [h i hr, if_false]; rfl

theorem running_idle {s : State} (hb : s.busy = false) : running s = none := by
  simp only [running, hb, Bool.false_eq_true, if_false]

theorem running_decoded {s : State} (hb : s.busy = true) {i : Instr} (hd : decode s.cmd = .ok i) : running s = some i := by
  simp only [running, hb, if_true, hd]

/-- The registers commands write are those R83 lists. -/
theorem csrsWritten_busyList (i : Instr) : ∀ c ∈ csrsWritten i, c ∈ busyList := by
  cases i with
  | reconY16 dc border =>
    have all : ∀ dc : Bool, ∀ c ∈ (if dc then [Csr.cntrlY] else []), c ∈ busyList := by decide
    exact all dc
  | _ => simp only [csrsWritten]; decide

/-- A command may change the registers it writes. -/
theorem csrChanged_of_written (i : Instr) : ∀ c ∈ csrsWritten i, csrChanged i c ≠ 0 := by
  cases i with
  | codeI4 n recon =>
    have all : ∀ n : Fin 16, ∀ c ∈ [Csr.arenaCur, .cntrlY, .cbp], i4Changed n.val c ≠ 0 := by decide
    exact all n
  | reconY16 dc border =>
    have all : ∀ dc : Bool, ∀ c ∈ (if dc then [Csr.cntrlY] else []), (if dc then promoteYChanged c else 0) ≠ 0 := by
      decide
    exact all dc
  | _ => simp only [csrsWritten, csrChanged]; decide

/-! ### Registers that store -/

theorem and_ones (w : Word) : w &&& 0xFFFFFFFF = w := BitVec.and_allOnes

/-- A stored register holds the written bits it has. -/
theorem csrValue_csrStore {c : Csr} {m : Word} (hm : storedBits c = some m) (v : Word) (s : State) :
    csrValue c (csrStore c v s) = v &&& m := by
  cases c with
  | id | version | ctrl | status | cmd | mbStart | elim | costY | costC | cfg => cases hm
  | cntrlY | costAcc | thr | costLut0 | costLut1 | costLut2 | costLut3 => cases hm; exact (and_ones v).symm
  | arenaCur | arenaEnd | cntrlC | cbp | qparamY | roundY | qparamCb | roundCb | qparamCr | roundCr => cases hm; rfl

/-- A read-only register ignores a write. -/
theorem csrStore_readOnly {c : Csr} (hm : storedBits c = none) (v : Word) (s : State) : csrStore c v s = s := by
  cases c with
  | id | version | ctrl | status | cmd | mbStart | elim | costY | costC | cfg => rfl
  | _ => cases hm

/-- A store in one register leaves the others. -/
theorem csrValue_csrStore_ne {c d : Csr} (h : d ≠ c) (v : Word) (s : State) :
    csrValue d (csrStore c v s) = csrValue d s := by
  cases c <;> cases d <;> first | rfl | exact absurd rfl h

/-- What a write to a plain register leaves: memory and the model's own fields. -/
theorem csrStore_rest (c : Csr) (v : Word) (s : State) :
    (csrStore c v s).lm = s.lm ∧ (csrStore c v s).arena = s.arena ∧ (csrStore c v s).pending = s.pending ∧
      (csrStore c v s).free = s.free ∧ (csrStore c v s).resp = s.resp := by
  cases c <;> exact ⟨rfl, rfl, rfl, rfl, rfl⟩

/-! ### Empty offsets and fields -/

/-- The CSR region holds nothing from 0x6C on. -/
theorem csrAt_empty : ∀ a ∈ [0x6C, 0x70, 0x74, 0x78, 0x7C], legalRegion .w32 a = some .csr ∧ csrAt a = none := by decide

/-- An entry of the cost table is a byte of one of its four registers. -/
theorem costLut_eq (s : State) {e : Nat} (he : e < 16) : costLut s e =
    (([s.costLut0, s.costLut1, s.costLut2, s.costLut3].getD (e / 4) 0).toNat / 256 ^ (e % 4)) % 256 := by
  have hq : e / 4 = 0 ∨ e / 4 = 1 ∨ e / 4 = 2 ∨ e / 4 = 3 := by omega
  have shift (w : Word) : w.toNat >>> (8 * (e % 4)) = w.toNat / 256 ^ (e % 4) := by
    rw [Nat.shiftRight_eq_div_pow, Nat.pow_mul]
  rcases hq with hq | hq | hq | hq <;> simp only [costLut, hq, shift] <;> rfl

/-! ### Resets -/

/-- A reset register reads its reset value, CFG apart. -/
theorem csrValue_csrReset {c : Csr} {v : Word} (hv : resetValue c = some v) (s : State) : csrValue c (csrReset s) = v := by
  cases c <;> cases hv <;> rfl

theorem csrValue_hardReset (c : Csr) (s : State) : csrValue c (hardReset s) = csrValue c (csrReset (loseArena s)) := by
  cases c <;> rfl

theorem loseArena_cfg (s : State) : (loseArena s).invTmpWrap16 = s.invTmpWrap16 := by
  simp only [loseArena]; split <;> rfl

theorem scrambleLm_cfg (s : State) : (scrambleLm s).invTmpWrap16 = s.invTmpWrap16 := by
  simp only [scrambleLm]; split <;> rfl

/-- A soft reset of an idle machine leaves local memory. -/
theorem softReset_lm {s : State} (hb : s.busy = false) : (softReset s).lm = s.lm := by
  simp only [softReset, scrambleLm, running_idle hb]
  exact loseArena_lm s

end Laws

/-- Settles O27: a plain register stores, a read-only one ignores the write. -/
theorem registerWrites : Obligations.RegisterWrites := by
  intro c v s hb h0 h1 h2
  obtain ⟨lm, arena, pending, free, resp⟩ := Laws.csrStore_rest c v (answer false 0 s)
  rw [Laws.hostWrite_plain v hb h0 h1 h2]
  refine ⟨fun m hm => Laws.csrValue_csrStore hm v _, fun hm => ?_, fun d hd => ?_, lm, arena, pending, free, resp⟩
  · rw [Laws.csrStore_readOnly hm, Laws.csrValue_answer]
  · rw [Laws.csrValue_csrStore_ne hd, Laws.csrValue_answer]

/-- Settles O18: both resets end in `csrReset`. -/
theorem resetValues : Obligations.ResetValues := by
  refine ⟨fun c v hv => Laws.csrValue_csrReset hv State.reset, rfl, fun _ => rfl, fun s => ⟨fun c v hv => ⟨?_, ?_⟩, ?_, ?_,
    rfl, rfl, fun _ => rfl, Laws.softReset_lm⟩⟩
  · rw [Laws.csrValue_hardReset, Laws.csrValue_csrReset hv]
  · exact Laws.csrValue_csrReset hv _
  · exact congrArg (BitVec.ofNat 32 ·.toNat) (Laws.loseArena_cfg s)
  · exact congrArg (BitVec.ofNat 32 ·.toNat) ((Laws.loseArena_cfg _).trans (Laws.scrambleLm_cfg s))

/-- Settles O22, from the writes with side effects. -/
theorem statusAndCtrlWrites : Obligations.StatusAndCtrlWrites := by
  intro v s
  have status : hostWrite .w32 0x000C v s = writeStatus v (answer false 0 s) := Laws.hostWrite_csr .status v s
  have ctrl (h : v.getLsbD 31 = false) : hostWrite .w32 0x0008 v s =
      { s with irqDoneEn := v.getLsbD 0, irqErrEn := v.getLsbD 1, resp := ⟨false, 0⟩ } := by
    refine (Laws.hostWrite_csr .ctrl v s).trans ?_
    show writeCtrl v (answer false 0 s) = _
    simp only [writeCtrl, h, Bool.false_eq_true, if_false]
    rfl
  refine ⟨status, ctrl, fun h1 h2 => ?_, fun h h0 h1 => ?_⟩
  · rw [status]
    simp only [writeStatus, State.irq, h1, h2, if_true, Bool.not_true, Bool.and_false, Option.isSome_none,
      Bool.false_and, Bool.or_false]
  · rw [ctrl h]
    simp only [State.irq, h0, h1, Bool.and_false, Bool.or_false]

/-- Settles O28: the reads of the registers and of the empty offsets, and the fields as quotients. -/
theorem registerReadsAndFields : Obligations.RegisterReadsAndFields := by
  intro s
  refine ⟨fun hb c => ?_, fun c hc => ?_, fun i c hb hd hc => ?_, fun hb a v ha => ?_, ?_, ?_, ?_, ?_,
    fun e => Laws.costLut_eq s, fun p => ⟨?_, ?_, ?_⟩⟩
  · exact Laws.hostRead_value fun i hr => nomatch (Laws.running_idle hb).symm.trans hr
  · exact Laws.hostRead_value fun i _ hw => hc (Laws.csrsWritten_busyList i c hw)
  · refine Laws.hostRead_value fun j hr hw => ?_
    obtain rfl := Option.some.inj ((Laws.running_decoded hb hd).symm.trans hr)
    exact Laws.csrChanged_of_written i c hw hc
  · obtain ⟨hl, hn⟩ := Laws.csrAt_empty a ha
    refine ⟨?_, ?_⟩
    · simp only [hostRead, hl, readCsr, hn, answer]
    · simp only [hostWrite, hl, writeCsr, hn, answer, hb, Bool.false_eq_true, if_false]
  all_goals exact (Laws.bits_eq _ _ _).trans (by norm_num)

end Sys2Proof.Machine
end

section
/-! PROOFS. MB_BEGIN and the control bits of a block: the statements `MbBeginResult` and `ControlBitsOfABlock`. -/

namespace Sys2Proof.Machine

namespace Laws

open Sys2Proof.Claims

/-! ### MB_BEGIN (43_macroblock.md R231) -/

/-- `s` with the registers of a macroblock cleared, MB_START the cursor, and the bytes `bs` over the counts. -/
def macroblockBegun (s : State) (bs : List Byte) : State :=
  { s with
    mbStart := s.arenaCur
    cntrlY := 0
    cntrlC := 0
    cbp := 0
    elim := 0
    costY := 0
    costC := 0
    costAcc := 0
    lm := s.lm.writeBytes (nnzAddr .y 0) bs }

theorem mbBegin_eq (s : State) : mbBegin s = .ok (macroblockBegun s (List.replicate 27 0)) := by
  rw [mbBegin]
  generalize List.replicate 27 (0 : Byte) = bs
  rfl

theorem exec_mbBegin (s : State) :
    exec .mbBegin s = .next (macroblockBegun (completed .mbBegin s) (List.replicate 27 0)) := by
  rw [exec_eq]
  simp only [command, show issueCheck .mbBegin s = none from rfl, stepsOf, mbBegin_eq, finish]
  generalize List.replicate 27 (0 : Byte) = bs
  rfl

/-- The counts of the sub-blocks are the 24 bytes from 0x1400 on. -/
theorem nnzAddr_range {p : Plane} {n : Nat} (hn : n < p.nb) : 0x1400 ≤ nnzAddr p n ∧ nnzAddr p n < 0x1418 := by
  cases p <;> simp only [nnzAddr, Plane.nb] at * <;> omega

/-- The counts of the DC layers are the three bytes after them. -/
theorem nnzdcAddr_range (p : Plane) : 0x1418 ≤ nnzdcAddr p ∧ nnzdcAddr p < 0x141B := by cases p <;> decide

/-- Every byte from 0x1400 to 0x141A is a count. -/
theorem count_of_range {a : Nat} (h0 : 0x1400 ≤ a) (h1 : a < 0x141B) :
    (∃ p n, n < p.nb ∧ a = nnzAddr p n) ∨ ∃ p, a = nnzdcAddr p := by
  by_cases hy : a < 0x1410
  · exact .inl ⟨.y, a - 0x1400, by simp only [Plane.nb]; omega, by simp only [nnzAddr]; omega⟩
  by_cases hcb : a < 0x1414
  · exact .inl ⟨.cb, a - 0x1410, by simp only [Plane.nb]; omega, by simp only [nnzAddr]; omega⟩
  by_cases hcr : a < 0x1418
  · exact .inl ⟨.cr, a - 0x1414, by simp only [Plane.nb]; omega, by simp only [nnzAddr]; omega⟩
  · have last : a = 0x1418 ∨ a = 0x1419 ∨ a = 0x141A := by omega
    rcases last with rfl | rfl | rfl
    · exact .inr ⟨.y, rfl⟩
    · exact .inr ⟨.cb, rfl⟩
    · exact .inr ⟨.cr, rfl⟩

/-- A count after MB_BEGIN is 0. -/
theorem lmSample_begun (s : State) {a : Nat} (h0 : 0x1400 ≤ a) (h1 : a < 0x141B) :
    lmSample a (macroblockBegun s (List.replicate 27 0)) = .ok 0 := by
  have hr := MemoryLaws.read_writeBytes_at s.lm (nnzAddr .y 0) (a - 0x1400) (List.replicate 27 0)
    (by rw [List.length_replicate]; omega)
  rw [List.getElem_replicate, show nnzAddr .y 0 + (a - 0x1400) = a by simp only [nnzAddr]; omega] at hr
  simp only [lmSample, lmByte, macroblockBegun, hr]
  rfl

/-- MB_BEGIN leaves every byte that is no count. -/
theorem read_begun_out (s : State) {bs : List Byte} (hl : bs.length = 27) {a : Nat} (h : a < 0x1400 ∨ 0x141B ≤ a) :
    (macroblockBegun s bs).lm.read a = s.lm.read a :=
  MemoryLaws.read_writeBytes_out _ _ _ _ (by rw [hl]; simp only [nnzAddr]; omega)

/-- A word with a field-free opcode is legal only when every other bit is 0 (30_encoding.md R116 (a), (b)). -/
theorem low_of_unusedClear {w : Word} {op : Byte} (h : unusedClear ⟨op, false, false, false, false, false, false⟩ w = true) :
    w.toNat % 2 ^ 24 = 0 := by
  simp only [unusedClear, fdcOf, felOf, frcOf, fbdOf, bits_eq, getLsbD_eq_decide, Bool.false_or, Bool.and_eq_true,
    beq_iff_eq, Bool.not_eq_true', decide_eq_false_iff_not] at h
  omega

/-- The only legal word with MB_BEGIN's opcode is the opcode alone. -/
theorem mbBegin_word {w : Word} (hop : bits w 31 24 = 0x20) (hne : w ≠ 0x20000000) :
    decode w = .reject .illegalField := by
  have hrow : opRow (opOf w) = some ⟨0x20, false, false, false, false, false, false⟩ := by
    rw [opOf, hop]
    rfl
  have hclear : ¬ unusedClear ⟨0x20, false, false, false, false, false, false⟩ w = true := fun h => by
    have low := low_of_unusedClear h
    rw [bits_eq] at hop
    exact hne (BitVec.eq_of_toNat_eq (by rw [show (0x20000000 : Word).toNat = 0x20000000 from rfl]; omega))
  simp only [decode, hrow, hclear, Bool.false_eq_true, if_false]

/-! ### Control bits (43_macroblock.md R246) -/

/-- Clearing a bit clears that bit alone. -/
theorem getLsbD_clrBit (x : Word) {b i : Nat} (hi : i < 32) :
    (clrBit x b).getLsbD i = true ↔ x.getLsbD i = true ∧ i ≠ b := by
  simp only [clrBit, BitVec.getLsbD_and, BitVec.getLsbD_not, BitVec.getLsbD_ofNat, Nat.testBit_two_pow, hi, decide_true,
    Bool.true_and, Bool.and_eq_true, Bool.not_eq_true', decide_eq_false_iff_not]
  exact and_congr_right fun _ => not_congr eq_comm

/-- A bit set where a condition holds. -/
theorem getLsbD_setIf (c : Prop) [Decidable c] (x : Word) {b i : Nat} (hi : i < 32) :
    (if c then setBit x b else x).getLsbD i = true ↔ x.getLsbD i = true ∨ (c ∧ i = b) := by
  split
  · rename_i h; simp [getLsbD_setBit x hi, h]
  · rename_i h; simp [h]

/-- The levels at positions 1 to 15. -/
theorem any_ac_level (lv : Nat → Int) :
    ((raster.map lv).drop 1).any (· ≠ 0) = true ↔ ∃ k, 1 ≤ k ∧ k < 16 ∧ lv k ≠ 0 := by
  have mem : ∀ k, k ∈ raster.drop 1 ↔ 1 ≤ k ∧ k < 16 := fun k => by
    simp only [raster, List.drop_succ_cons, List.drop_zero, List.mem_cons, List.not_mem_nil, or_false]
    omega
  rw [← List.map_drop]
  simp only [List.any_map, List.any_eq_true, mem, Function.comp_apply, decide_eq_true_eq, and_assoc]

/-- SETBITS changes the block's two control bits, and to what its levels say. -/
theorem getLsbD_levelBits (n : Nat) (lv : Nat → Int) (w : Word) {i : Nat} (hi : i < 32) :
    (levelBits n (raster.map lv) w).getLsbD i = true ↔
      (w.getLsbD i = true ∧ i ≠ acBit .y n ∧ i ≠ dcBit .y n) ∨
        ((∃ k, 1 ≤ k ∧ k < 16 ∧ lv k ≠ 0) ∧ i = acBit .y n) ∨ (lv 0 ≠ 0 ∧ i = dcBit .y n) := by
  have zero : (raster.map lv).getD 0 0 = lv 0 := rfl
  simp only [levelBits, zero]
  rw [getLsbD_setIf _ _ hi, getLsbD_setIf _ _ hi, any_ac_level, getLsbD_clrBit _ hi, getLsbD_clrBit _ hi]
  simp only [and_assoc, or_assoc]

end Laws

/-- Settles O48, from what MB_BEGIN leaves and the one legal word of its opcode. -/
theorem mbBeginResult : Obligations.MbBeginResult := by
  refine ⟨fun s => ⟨_, Laws.exec_mbBegin s, fun p n hn => ?_, fun p => ?_, fun a hz hd => ?_, ?_⟩, fun w =>
    Laws.mbBegin_word⟩
  · have := Laws.nnzAddr_range hn
    exact Laws.lmSample_begun _ (by omega) (by omega)
  · have := Laws.nnzdcAddr_range p
    exact Laws.lmSample_begun _ (by omega) (by omega)
  · refine Laws.read_begun_out _ List.length_replicate ?_
    by_contra h
    rcases Laws.count_of_range (a := a) (by omega) (by omega) with ⟨p, n, hn, he⟩ | ⟨p, he⟩
    · exact hz p n hn he
    · exact hd p he
  · generalize List.replicate 27 (0 : Byte) = bs
    rfl

/-- Settles O49, bit by bit. -/
theorem controlBitsOfABlock : Obligations.ControlBitsOfABlock := by
  intro n lv w hn
  refine ⟨?_, ?_, fun b h0 h1 => ?_⟩
  · rw [Laws.getLsbD_levelBits n lv w (by omega)]
    have : 31 - n ≠ dcBit .y n := by simp only [dcBit]; omega
    simp [acBit, this]
  · rw [Laws.getLsbD_levelBits n lv w (by omega)]
    have : 15 - n ≠ acBit .y n := by simp only [acBit]; omega
    simp [dcBit, this]
  · by_cases hb : b < 32
    · rw [Bool.eq_iff_iff, Laws.getLsbD_levelBits n lv w hb]
      simp [acBit, dcBit, h0, h1]
    · rw [BitVec.getLsbD_of_ge _ _ (by omega), BitVec.getLsbD_of_ge _ _ (by omega)]

end Sys2Proof.Machine
end

section
/-! PROOFS. What the coding commands share: what a sub-block holds, its record with its count and cost, its elimination,
and FTQ4's levels from the state a command began at. -/

namespace Sys2Proof.Machine

namespace Laws

open Sys2Proof.Claims

/-! ### The bytes of a sub-block -/

/-- The byte is of the levels or the count of sub-block `n` of plane `p`. -/
def BlockByte (p : Plane) (n a : Nat) : Prop := a = nnzAddr p n ∨ (coefAddr p n 0 ≤ a ∧ a < coefAddr p n 0 + 32)

/-- Sub-blocks share no byte (10_state.md R57). -/
theorem blockByte_unique {p q : Plane} {m n a : Nat} (hm : m < p.nb) (hn : n < q.nb) (h : BlockByte p m a)
    (h' : BlockByte q n a) : p = q ∧ m = n := by
  cases p <;> cases q <;>
    simp only [BlockByte, coefAddr, nnzAddr, Plane.nb, reduceCtorEq, true_and, false_and] at * <;> (repeat' split at *) <;>
    omega

/-- A sub-block's levels and count stand from COEF on. -/
theorem blockByte_ge {p : Plane} {n a : Nat} (h : BlockByte p n a) : 0x1000 ≤ a := by
  have := nnzAddr_count p n
  have := coefAddr_ge p n 0
  rcases h with rfl | h <;> omega

/-- From `s` to `t` the bytes of sub-block `n` of plane `p` stayed. -/
def SameBlock (p : Plane) (n : Nat) (s t : State) : Prop := ∀ a, BlockByte p n a → t.lm.read a = s.lm.read a

theorem SameBlock.trans {p : Plane} {n : Nat} {s t u : State} (h : SameBlock p n s t) (k : SameBlock p n t u) :
    SameBlock p n s u := fun a ha => (k a ha).trans (h a ha)

/-- Sub-block `n` of plane `p` holds the levels `lv` and their count. -/
structure BlockHolds (p : Plane) (n : Nat) (lv : Nat → Int) (t : State) : Prop where
  coef : ∀ k, k < 16 → coef p n k t = .ok (lv k)
  nnz : nnz p n t = .ok (countNonzero (raster.map lv))

theorem coef_same {p : Plane} {n k : Nat} {s t : State} (h : SameBlock p n s t) (hk : k < 16) :
    coef p n k t = coef p n k s := by
  have ha := coefAddr_add p n k
  exact lmSigned_congr (h _ (.inr (by omega))) (h _ (.inr (by omega)))

theorem BlockHolds.same {p : Plane} {n : Nat} {lv : Nat → Int} {s t : State} (h : BlockHolds p n lv s)
    (hs : SameBlock p n s t) : BlockHolds p n lv t where
  coef k hk := (coef_same hs hk).trans (h.coef k hk)
  nnz := (lmSample_congr (hs _ (.inl rfl))).trans h.nnz

/-! ### Elimination of sub-blocks -/

theorem countNonzero_zeros : countNonzero (raster.map fun _ => 0) = 0 := by decide

theorem zeroBlock_eq (p : Plane) (n : Nat) (s : State) :
    zeroBlock p n s = (s.putNnz p n 0).putSigned (coefAddr p n 0) (raster.map fun _ => 0) := rfl

theorem read_zeroBlock_out {p : Plane} {n a : Nat} (s : State) (h : ¬ BlockByte p n a) :
    (zeroBlock p n s).lm.read a = s.lm.read a := by
  simp only [BlockByte, not_or] at h
  obtain ⟨hz, hc⟩ := h
  rw [zeroBlock_eq]
  exact (read_putSigned_out _ _ _ _ (by rw [map_raster_length]; omega)).trans (read_putByte_ne _ _ hz)

theorem zeroBlock_holds {p : Plane} {n : Nat} (hn : n < p.nb) (s : State) :
    BlockHolds p n (fun _ => 0) (zeroBlock p n s) where
  coef k hk := by
    have := lmSigned_putRaster (s.putNnz p n 0) (coefAddr p n 0) (f := fun _ => 0) hk rfl
    rwa [← coefAddr_add] at this
  nnz := by
    have hz := nnzAddr_count p n
    have hc := coefAddr_lt hn (show 15 < 16 by decide)
    have ha := coefAddr_add p n 15
    rw [countNonzero_zeros, ← lmSample_putByte s (nnzAddr p n) 0 (by decide), zeroBlock_eq]
    exact lmSample_congr (read_putSigned_out _ _ _ _ (by rw [map_raster_length]; omega))

/-- Elimination of the sub-blocks `ns` changes their bytes alone. -/
theorem zeroBlocks_out (p : Plane) (ns : List Nat) (s : State) :
    LmChange s (zeroBlocks p ns s) ∧
      ∀ a, (∀ n ∈ ns, ¬ BlockByte p n a) → (zeroBlocks p ns s).lm.read a = s.lm.read a := by
  induction ns generalizing s with
  | nil => exact ⟨LmChange.refl s, fun _ _ => rfl⟩
  | cons n ns ih =>
    obtain ⟨hlm, hout⟩ := ih (zeroBlock p n s)
    refine ⟨LmChange.trans ⟨_, rfl⟩ hlm, fun a ha => ?_⟩
    obtain ⟨hn, hns⟩ := List.forall_mem_cons.mp ha
    exact (hout a hns).trans (read_zeroBlock_out s hn)

/-- Another sub-block stays through the elimination of `ns`. -/
theorem zeroBlocks_same {p q : Plane} {ns : List Nat} (hns : ∀ n ∈ ns, n < p.nb) {m : Nat} (hm : m < q.nb)
    (h : q = p → m ∉ ns) (s : State) : SameBlock q m s (zeroBlocks p ns s) := fun a ha =>
  (zeroBlocks_out p ns s).2 a fun n hn hb => by
    obtain ⟨rfl, rfl⟩ := blockByte_unique hm (hns n hn) ha hb
    exact h rfl hn

/-- An eliminated sub-block has no level. -/
theorem zeroBlocks_hold {p : Plane} {ns : List Nat} (hns : ∀ n ∈ ns, n < p.nb) (s : State) :
    ∀ n ∈ ns, BlockHolds p n (fun _ => 0) (zeroBlocks p ns s) := by
  induction ns generalizing s with
  | nil => intro n hn; cases hn
  | cons m ns ih =>
    obtain ⟨hm, hrest⟩ := List.forall_mem_cons.mp hns
    have hend : ∀ n ∈ ns, BlockHolds p n (fun _ => 0) (zeroBlocks p (m :: ns) s) := ih hrest (zeroBlock p m s)
    refine List.forall_mem_cons.mpr ⟨?_, hend⟩
    by_cases hmem : m ∈ ns
    · exact hend m hmem
    · exact (zeroBlock_holds hm s).same (zeroBlocks_same hrest hm (fun _ => hmem) _)

/-! ### Cost and room of a record -/

/-- One turn of the cost loop: the cost so far and the run (42_pack.md R203). -/
def costStep (lut : Nat → Nat) (large : Nat) (acc : Nat × Nat) (v : Int) : Nat × Nat :=
  if v = 0 then (acc.1, acc.2 + 1) else if v.natAbs = 1 then (acc.1 + lut acc.2, 0) else (acc.1 + large, 0)

/-- The cost loop adds the cost of the values from the run it begins with. -/
theorem foldl_costStep (lut : Nat → Nat) (large : Nat) (vs : List Int) (c run : Nat) :
    (vs.foldl (costStep lut large) (c, run)).1 = c + costFrom lut large run vs := by
  induction vs generalizing c run with
  | nil => rfl
  | cons v vs ih =>
    rw [List.foldl_cons, costFrom]
    by_cases hv : v = 0
    · rw [if_pos hv, ← ih]
      simp only [costStep, hv, if_true]
    · by_cases h1 : v.natAbs = 1
      · rw [if_neg hv, if_pos h1, ← Nat.add_assoc, ← ih]
        simp only [costStep, hv, h1, if_true, if_false]
      · rw [if_neg hv, if_neg h1, ← Nat.add_assoc, ← ih]
        simp only [costStep, hv, h1, if_false]

theorem costLoop_eq (lut : Nat → Nat) (large : Nat) (vs : List Int) :
    (costLoop lut large vs).1 = costFrom lut large 0 vs :=
  (foldl_costStep lut large vs 0 0).trans (Nat.zero_add _)

theorem HostKept.thr {s t : State} (h : HostKept s t) : t.thr = s.thr := h.csr (c := .thr) (by decide)

theorem HostKept.costs {s t : State} (h : HostKept s t) : costLut t = costLut s ∧ largeCost t = largeCost s := by
  have l0 : t.costLut0 = s.costLut0 := h.csr (c := .costLut0) (by decide)
  have l1 : t.costLut1 = s.costLut1 := h.csr (c := .costLut1) (by decide)
  have l2 : t.costLut2 = s.costLut2 := h.csr (c := .costLut2) (by decide)
  have l3 : t.costLut3 = s.costLut3 := h.csr (c := .costLut3) (by decide)
  exact ⟨funext fun r => by simp only [costLut, l0, l1, l2, l3], congrArg (bits · 31 24) h.thr⟩

theorem HostKept.scanCost {s t : State} (h : HostKept s t) (vs : List Int) : scanCost t vs = scanCost s vs := by
  simp only [Claims.scanCost, h.costs]

/-- The scan of a block's record (42_pack.md R200). -/
def scanOf (ac : Bool) (lv : Nat → Int) : List Int := (zigzag.drop (scanStart ac)).map lv

theorem scanOf_length (ac : Bool) (lv : Nat → Int) : scanStart ac + (scanOf ac lv).length = 16 := by
  rw [scanOf, List.length_map]
  cases ac <;> rfl

/-- From `s` to `t` the record of sub-block `n` with levels `lv` was appended and its count stored; `r` is EMIT's answer. -/
structure RecordWritten (p : Plane) (n : Nat) (ac : Bool) (lv : Nat → Int) (r : Emitted) (s t : State) : Prop where
  record : AppendedAll (recordOf (scanStart ac) (scanOf ac lv)) s t
  count : r.nnz = countNonzero (scanOf ac lv)
  cost : r.cost = scanCost s (scanOf ac lv)
  fixed : ∃ m a c, t = { s with lm := m, arena := a, arenaCur := c }
  frame : ∀ a, a ≠ nnzAddr p n → t.lm.read a = s.lm.read a
  nnz : nnz p n t = .ok (countNonzero (scanOf ac lv))

theorem emitCoef_written {p : Plane} {n : Nat} {ac : Bool} {lv : Nat → Int} {s t : State} {r : Emitted}
    (hc : ∀ k, k < 16 → coef p n k s = .ok (lv k)) (h : emitCoef p n ac s = .ok (r, t)) :
    RecordWritten p n ac lv r s t := by
  obtain ⟨vs, u, hvs, hu, rfl⟩ := emitCoef_cases h
  obtain rfl : vs = scanOf ac lv :=
    Except.ok.inj (hvs.symm.trans (readAll_ok fun k hk => hc k (zigzag_lt (List.mem_of_mem_drop hk))))
  have hlen := scanOf_length ac lv
  obtain ⟨hrec, hr, hfix⟩ := emit_appends hlen.le hu
  have hcost : r.cost = costFrom (costLut s) (largeCost s) 0 (scanOf ac lv) := by
    rcases emit_cases (scanStart ac) (scanOf ac lv) s with ⟨-, he⟩ | ⟨-, he⟩
    · exact nomatch he.symm.trans hu
    · obtain ⟨rfl, -⟩ := Prod.mk.inj (Except.ok.inj (he.symm.trans hu))
      rfl
  have hlm : u.lm = s.lm := by rw [hfix]
  have hle := countNonzero_le (scanOf ac lv)
  exact
    { record := hrec
      count := hr
      cost := by rw [Claims.scanCost, costLoop_eq, hcost]
      fixed := ⟨_, u.arena, u.arenaCur, by rw [hfix]; rfl⟩
      frame := fun a ha => by rw [← hlm]; exact read_putByte_ne u _ ha
      nnz := by rw [← hr]; exact lmSample_putByte u _ _ (by omega) }

theorem RecordWritten.hostKept {p : Plane} {n : Nat} {ac : Bool} {lv : Nat → Int} {r : Emitted} {s t : State}
    (h : RecordWritten p n ac lv r s t) : HostKept s t := by
  obtain ⟨m, a, c, rfl⟩ := h.fixed
  exact ⟨rfl, fun x hx => h.frame x (by have := nnzAddr_count p n; omega)⟩

/-- The record of a sub-block leaves the others. -/
theorem RecordWritten.same {p q : Plane} {m n : Nat} {ac : Bool} {lv : Nat → Int} {r : Emitted} {s t : State}
    (h : RecordWritten p n ac lv r s t) (hn : n < p.nb) (hm : m < q.nb) (hne : q = p → m ≠ n) : SameBlock q m s t := by
  refine fun a ha => h.frame a fun he => ?_
  obtain ⟨rfl, rfl⟩ := blockByte_unique hm hn ha (.inl he)
  exact hne rfl rfl

/-- A sub-block holds its levels after its record, which counts all of them. -/
theorem RecordWritten.holds {p : Plane} {n : Nat} {ac : Bool} {lv : Nat → Int} {r : Emitted} {s t : State}
    (h : RecordWritten p n ac lv r s t) (hn : n < p.nb) (hc : ∀ k, k < 16 → coef p n k s = .ok (lv k))
    (hcount : countNonzero (scanOf ac lv) = countNonzero (raster.map lv)) : BlockHolds p n lv t where
  coef k hk := by
    have hz := nnzAddr_count p n
    have ha := coefAddr_lt hn hk
    rw [← hc k hk]
    exact lmSigned_congr (h.frame _ (by omega)) (h.frame _ (by omega))
  nnz := by rw [← hcount]; exact h.nnz

/-- A rewind to where the records began (20_memory.md R93). -/
theorem appendedAll_rewind {bs : List Byte} {s t u : State} (h : AppendedAll bs s t) (ha : u.arena = t.arena)
    (hc : u.arenaCur = s.arenaCur) : AppendedAll [] s u :=
  ⟨by rw [hc]; rfl, fun _ hj => absurd hj (Nat.not_lt_zero _), fun a hlt => by rw [ha]; exact h.2.2 a hlt⟩

/-! ### FTQ4 from the state a command began at -/

/-- What a block is transformed into is fixed by its sixteen levels. -/
theorem Transformed.relevel {p : Plane} {n : Nat} {dcx : Bool} {s : State} {dc : Int} {lv lv' : Nat → Int}
    (h : Transformed p n dcx s dc lv) (he : ∀ k, k < 16 → lv k = lv' k) : Transformed p n dcx s dc lv' := by
  obtain ⟨res, hres, hdc, hl⟩ := h
  exact ⟨res, hres, hdc, fun k hk => by rw [← he k hk]; exact hl k hk⟩

/-- FTQ4, run after steps that kept what the host loads, stores what it computes from the state they began at. -/
theorem ftq4_from {p : Plane} {n : Nat} {dcx : Bool} {s u v : State} {dc : Int} {lv : Nat → Int}
    (ht : Transformed p n dcx s dc lv) (hk : HostKept s u) (hn : n < p.nb) (h : ftq4 p n dcx u = .ok v) :
    v = ftStored p n dcx dc lv u :=
  Except.ok.inj (h.symm.trans (ftq4_of_transformed (ht.congr hk hn)))

/-- The levels FTQ4 as a command gives are those the block is transformed into. -/
theorem transformed_of_gives {p : Plane} {n : Fin 16} {dcx : Bool} {s : State} {lv : Nat → Int} (hn : n.val < p.nb)
    (h : Ftq4Gives p n dcx s lv) : ∃ dc, Transformed p n dcx s dc lv := by
  obtain ⟨u, hu, hlv⟩ := h
  have hw : (Instr.ftq4 p n dcx).wf = true := decide_eq_true hn
  cases exec_cases (.ftq4 p n dcx) 0 s with
  | refused code hc he =>
    simp [issueCheck, hw, qparamOk, qpDivRead] at hc
  | completed v _ hs _ he =>
    obtain ⟨dc, lv', ht, rfl⟩ := ftq4_stores hs
    obtain rfl := Host.Outcome.next.inj (he.symm.trans hu)
    refine ⟨dc, (ht.congr (hostKept_accept _ s).symm hn).relevel fun k hk => ?_⟩
    have := ht.coef_stored hn (accept (encode (.ftq4 p n dcx)) s) hk
    exact Except.ok.inj (this.symm.trans ((coef_complete _ _ _ _).symm.trans (hlv k hk)))
  | overflowed v _ _ hk _ he => exact absurd (show ~~~ (0 : Word) = 0 from hk) (by decide)
  | stopped a _ _ he => cases he.symm.trans hu

/-- FTQ4 leaves its sub-block's levels and their count. -/
theorem Transformed.holds {p : Plane} {n : Nat} {dcx : Bool} {s : State} {dc : Int} {lv : Nat → Int}
    (h : Transformed p n dcx s dc lv) (hn : n < p.nb) (u : State) :
    BlockHolds p n lv (ftStored p n dcx dc lv u) where
  coef _ := h.coef_stored hn u
  nnz := lmSample_putByte _ _ _ (countNonzero_raster_lt lv)

/-- FTQ4 keeps what the host loads. -/
theorem ftStored_hostKept {p : Plane} {n : Nat} (hn : n < p.nb) (dcx : Bool) (dc : Int) (lv : Nat → Int) (u : State) :
    HostKept u (ftStored p n dcx dc lv u) := by
  refine (ftStored_lmChange p n dcx dc lv u).hostKept fun a ha => read_ftStored_out _ _ _ _ _ _ ?_ ?_ ?_
  · have := coefAddr_ge p n 0; omega
  · have := dcsaveAddr_range hn; omega
  · have := nnzAddr_count p n; omega

/-- FTQ4 on one sub-block leaves the others. -/
theorem ftStored_same {p q : Plane} {m n : Nat} (hn : n < p.nb) (hm : m < q.nb) (h : q = p → m ≠ n) (dcx : Bool) (dc : Int)
    (lv : Nat → Int) (u : State) : SameBlock q m u (ftStored p n dcx dc lv u) := by
  intro a ha
  have out : ¬ BlockByte p n a := fun hb => by
    obtain ⟨rfl, rfl⟩ := blockByte_unique hm hn ha hb
    exact h rfl rfl
  simp only [BlockByte, not_or] at out
  refine read_ftStored_out _ _ _ _ _ _ (by omega) ?_ out.1
  have := dcsaveAddr_range hn
  rcases ha with rfl | ha
  · have := nnzAddr_count q m; omega
  · have := coefAddr_lt hm (show 15 < 16 by decide)
    have := coefAddr_add q m 15
    omega

end Laws

end Sys2Proof.Machine
end

section
/-! PROOFS. The coding part of CODE_L16 (43_macroblock.md R242 to R244): its blocks, its groups with their elimination,
and the macroblock's elimination (`L16Coded`). -/

namespace Sys2Proof.Machine

namespace Laws

open Sys2Proof.Claims

/-! ### What is coded and what is lost -/

/-- The levels `lv` are those FTQ4 gives the luma sub-blocks from `s`. -/
def LumaLevels (s : State) (lv : Nat → Nat → Int) : Prop := ∀ n, n < 16 → ∃ dc, Transformed .y n false s dc (lv n)

/-- The cost of an 8x8 group. -/
def groupCost (s : State) (lv : Nat → Nat → Int) (g : Nat) : Nat :=
  sumOver (fun n => scanCost s (zigzag.map (lv n))) (groupBlocks g)

/-- With ELIM a group is lost when its cost is below THR_B8. -/
def groupLost (elim : Bool) (s : State) (lv : Nat → Nat → Int) (g : Nat) : Bool :=
  elim && decide (groupCost s lv g < thrB8 s)

/-- What a group adds to the macroblock's cost. -/
def keptCost (elim : Bool) (s : State) (lv : Nat → Nat → Int) (g : Nat) : Nat :=
  if groupLost elim s lv g then 0 else groupCost s lv g

/-- With ELIM the macroblock is lost when the surviving groups cost less than THR_MB. -/
def mbLost (elim : Bool) (s : State) (lv : Nat → Nat → Int) : Bool :=
  elim && decide (sumOver (keptCost elim s lv) [0, 1, 2, 3] < thrMb s)

/-- The levels of a block after its group's elimination. -/
def groupLevels (elim : Bool) (s : State) (lv : Nat → Nat → Int) (n : Nat) : Nat → Int :=
  if groupLost elim s lv (groupOf n) then fun _ => 0 else lv n

/-- The records a group leaves. -/
def groupRecords (elim : Bool) (s : State) (lv : Nat → Nat → Int) (g : Nat) : List Byte :=
  if groupLost elim s lv g then [] else (groupBlocks g).flatMap fun n => recordOf 0 (zigzag.map (lv n))

theorem groupOf_of_mem {g n : Nat} (hg : g < 4) (hn : n ∈ groupBlocks g) : groupOf n = g := by
  have all : ∀ g, g < 4 → ∀ n ∈ groupBlocks g, groupOf n = g := by decide
  exact all g hg n hn

theorem mem_groupBlocks {n : Nat} (hn : n < 16) : n ∈ groupBlocks (groupOf n) := by
  have all : ∀ n, n < 16 → n ∈ groupBlocks (groupOf n) := by decide
  exact all n hn

/-! ### What a luma sub-block holds -/

/-- Luma sub-block `n` holds the levels `lv`, their count and the control bits they give. -/
structure LumaBlock (n : Nat) (lv : Nat → Int) (t : State) : Prop where
  holds : BlockHolds .y n lv t
  ac : t.cntrlY.getLsbD (31 - n) = true ↔ ∃ k, 1 ≤ k ∧ k < 16 ∧ lv k ≠ 0
  dc : t.cntrlY.getLsbD (15 - n) = true ↔ lv 0 ≠ 0

/-- From `s` to `t` luma sub-block `n` kept its bytes and its control bits. -/
structure SameLuma (n : Nat) (s t : State) : Prop where
  bytes : SameBlock .y n s t
  ac : t.cntrlY.getLsbD (31 - n) = s.cntrlY.getLsbD (31 - n)
  dc : t.cntrlY.getLsbD (15 - n) = s.cntrlY.getLsbD (15 - n)

theorem SameLuma.trans {n : Nat} {s t u : State} (h : SameLuma n s t) (k : SameLuma n t u) : SameLuma n s u :=
  ⟨h.bytes.trans k.bytes, k.ac.trans h.ac, k.dc.trans h.dc⟩

theorem LumaBlock.same {n : Nat} {lv : Nat → Int} {s t : State} (h : LumaBlock n lv s) (k : SameLuma n s t) :
    LumaBlock n lv t where
  holds := h.holds.same k.bytes
  ac := by rw [k.ac]; exact h.ac
  dc := by rw [k.dc]; exact h.dc

theorem LumaBlock.withCostY {n : Nat} {lv : Nat → Int} {t : State} (h : LumaBlock n lv t) (w : Word) :
    LumaBlock n lv { t with costY := w } := h.same ⟨fun _ _ => rfl, rfl, rfl⟩

/-- A sub-block without levels and control bits. -/
theorem LumaBlock.empty {n : Nat} {t : State} (h : BlockHolds .y n (fun _ => 0) t)
    (hac : t.cntrlY.getLsbD (31 - n) = false) (hdc : t.cntrlY.getLsbD (15 - n) = false) :
    LumaBlock n (fun _ => 0) t where
  holds := h
  ac := by simp [hac]
  dc := by simp [hdc]

/-- From `s` to `t` the luma sub-blocks `ns` took the levels `d`, the others and what the host loads stayed. -/
structure BlocksCoded (d : Nat → Nat → Int) (ns : List Nat) (s t : State) : Prop where
  host : HostKept s t
  coded : ∀ n ∈ ns, LumaBlock n (d n) t
  other : ∀ n, n < 16 → n ∉ ns → SameLuma n s t

theorem BlocksCoded.nil (d : Nat → Nat → Int) (s : State) : BlocksCoded d [] s s where
  host := HostKept.refl s
  coded _ hn := nomatch hn
  other _ _ _ := ⟨fun _ _ => rfl, rfl, rfl⟩

theorem BlocksCoded.append {d : Nat → Nat → Int} {ns ms : List Nat} {s t u : State} (h : BlocksCoded d ns s t)
    (k : BlocksCoded d ms t u) (hns : ∀ n ∈ ns, n < 16) : BlocksCoded d (ns ++ ms) s u where
  host := h.host.trans k.host
  coded n hn := by
    by_cases hm : n ∈ ms
    · exact k.coded n hm
    · have hn : n ∈ ns := (List.mem_append.mp hn).resolve_right hm
      exact (h.coded n hn).same (k.other n (hns n hn) hm)
  other n hn hmem := by
    simp only [List.mem_append, not_or] at hmem
    exact (h.other n hn hmem.1).trans (k.other n hn hmem.2)

/-- Sub-blocks coded and then coded over. -/
theorem BlocksCoded.over {d e : Nat → Nat → Int} {ns ms : List Nat} {s t u : State} (h : BlocksCoded d ns s t)
    (k : BlocksCoded e ms t u) (hsub : ∀ n ∈ ns, n ∈ ms) : BlocksCoded e ms s u where
  host := h.host.trans k.host
  coded := k.coded
  other n hn hmem := (h.other n hn fun hm => hmem (hsub n hm)).trans (k.other n hn hmem)

theorem BlocksCoded.relevel {d e : Nat → Nat → Int} {ns : List Nat} {s t : State} (h : BlocksCoded d ns s t)
    (he : ∀ n ∈ ns, d n = e n) : BlocksCoded e ns s t where
  host := h.host
  coded n hn := he n hn ▸ h.coded n hn
  other := h.other

/-- Luma sub-blocks zeroed, after a change of registers from `u` to `v` that cleared their control bits. -/
theorem zeroLuma_coded {ns : List Nat} (hns : ∀ n ∈ ns, n < 16) {u v : State} (hpart : hostPart v = hostPart u)
    (hlm : v.lm = u.lm)
    (hclear : ∀ n ∈ ns, v.cntrlY.getLsbD (31 - n) = false ∧ v.cntrlY.getLsbD (15 - n) = false)
    (hstay : ∀ n, n < 16 → n ∉ ns → v.cntrlY.getLsbD (31 - n) = u.cntrlY.getLsbD (31 - n) ∧
      v.cntrlY.getLsbD (15 - n) = u.cntrlY.getLsbD (15 - n)) :
    BlocksCoded (fun _ _ => 0) ns u (zeroBlocks .y ns v) := by
  obtain ⟨⟨m, hm⟩, hout⟩ := zeroBlocks_out .y ns v
  have hcntrl : (zeroBlocks .y ns v).cntrlY = v.cntrlY := by rw [hm]
  refine ⟨⟨?_, fun a ha => ?_⟩, fun n hn => ?_, fun n hn hmem => ?_⟩
  · rw [hm]; exact hpart
  · rw [hout a fun n _ hb => by have := blockByte_ge hb; omega, hlm]
  · obtain ⟨hac, hdc⟩ := hclear n hn
    exact LumaBlock.empty (zeroBlocks_hold hns v n hn) (hcntrl ▸ hac) (hcntrl ▸ hdc)
  · obtain ⟨hac, hdc⟩ := hstay n hn hmem
    have bytes : SameBlock .y n v (zeroBlocks .y ns v) := zeroBlocks_same hns hn (fun _ => hmem) v
    exact ⟨fun a ha => by rw [bytes a ha, hlm], hcntrl ▸ hac, hcntrl ▸ hdc⟩

/-! ### One sub-block -/

theorem l16Block_cases {n c : Nat} {s t : State} (h : l16Block n s = .ok (c, t)) :
    ∃ u r v, ftq4 .y n false s = .ok u ∧ emitCoef .y n false u = .ok (r, v) ∧ setBits n v = .ok t ∧ c = r.cost := by
  simp only [l16Block] at h
  split at h
  · cases h
  · rename_i u hu
    split at h
    · cases h
    · rename_i r v hv
      split at h
      · cases h
      · rename_i w hw
        cases h
        exact ⟨u, r, v, hu, hv, hw, rfl⟩

theorem setBits_stores {n : Nat} {lv : Nat → Int} {s t : State} (hc : ∀ k, k < 16 → coef .y n k s = .ok (lv k))
    (h : setBits n s = .ok t) : t = { s with cntrlY := levelBits n (raster.map lv) s.cntrlY } := by
  simp only [setBits, readAll_ok fun k hk => hc k (raster_lt16 hk)] at h
  exact (Except.ok.inj h).symm

/-- SETBITS on a control word, at the bits of the sub-block and of another. -/
theorem levelBits_block (n : Nat) (lv : Nat → Int) (w : Word) (hn : n < 16) :
    ((levelBits n (raster.map lv) w).getLsbD (31 - n) = true ↔ ∃ k, 1 ≤ k ∧ k < 16 ∧ lv k ≠ 0) ∧
      ((levelBits n (raster.map lv) w).getLsbD (15 - n) = true ↔ lv 0 ≠ 0) ∧
      ∀ b, b ≠ 31 - n → b ≠ 15 - n → (levelBits n (raster.map lv) w).getLsbD b = w.getLsbD b :=
  controlBitsOfABlock n lv w hn

/-- One sub-block coded: levels, count, control bits, record, cost. -/
theorem l16Block_coded {lv : Nat → Nat → Int} {n c : Nat} {s0 s t : State} (hl : LumaLevels s0 lv) (hk : HostKept s0 s)
    (hn : n < 16) (h : l16Block n s = .ok (c, t)) :
    BlocksCoded lv [n] s t ∧ AppendedAll (recordOf 0 (zigzag.map (lv n))) s t ∧
      c = scanCost s0 (zigzag.map (lv n)) ∧ t.cbp = s.cbp ∧ t.elim = s.elim := by
  obtain ⟨u, r, v, hu, hv, ht, rfl⟩ := l16Block_cases h
  obtain ⟨dc, htr⟩ := hl n hn
  obtain rfl := ftq4_from htr hk hn hu
  have hku := ftStored_hostKept (p := .y) hn false dc (lv n) s
  have hcoef := (htr.holds hn s).coef
  have hw := emitCoef_written hcoef hv
  have hholds := hw.holds hn hcoef (countNonzero_zigzag (lv n))
  obtain rfl := setBits_stores hholds.coef ht
  obtain ⟨hac, hdc, hbits⟩ := levelBits_block n (lv n) v.cntrlY hn
  obtain ⟨m, hm⟩ := ftStored_lmChange .y n false dc (lv n) s
  obtain ⟨m', a, cur, hfix⟩ := hw.fixed
  have hcntrl : v.cntrlY = s.cntrlY := by rw [hfix, hm]
  refine ⟨⟨(hku.trans hw.hostKept).trans ⟨rfl, fun _ _ => rfl⟩, ?_, fun j hj hmem => ?_⟩, ?_, ?_, by rw [hfix, hm],
    by rw [hfix, hm]⟩
  · rintro j hj
    obtain rfl := List.mem_singleton.mp hj
    exact ⟨hholds.same fun _ _ => rfl, hac, hdc⟩
  · have hne : j ≠ n := fun he => hmem (List.mem_singleton.mpr he)
    have bytes : SameBlock .y j s v :=
      (ftStored_same (p := .y) hn hj (fun _ => hne) false dc (lv n) s).trans (hw.same hn hj fun _ => hne)
    refine ⟨bytes, ?_, ?_⟩
    · rw [← hcntrl]; exact hbits _ (by omega) (by omega)
    · rw [← hcntrl]; exact hbits _ (by omega) (by omega)
  · have still : AppendedAll [] s (ftStored .y n false dc (lv n) s) := appendedAll_nil (by rw [hm]) (by rw [hm])
    have all : AppendedAll ([] ++ recordOf 0 (zigzag.map (lv n))) s v := appendedAll_trans still hw.record
    exact all
  · rw [hw.cost, (hk.trans hku).scanCost]
    rfl

/-- Sub-blocks coded in order. -/
theorem l16Blocks_coded {lv : Nat → Nat → Int} {s0 : State} (hl : LumaLevels s0 lv) (ns : List Nat) {c : Nat} {s t : State}
    (hk : HostKept s0 s) (hns : ∀ n ∈ ns, n < 16) (h : l16Blocks ns s = .ok (c, t)) :
    BlocksCoded lv ns s t ∧ AppendedAll (ns.flatMap fun n => recordOf 0 (zigzag.map (lv n))) s t ∧
      c = sumOver (fun n => scanCost s0 (zigzag.map (lv n))) ns ∧ t.cbp = s.cbp ∧ t.elim = s.elim := by
  induction ns generalizing s c with
  | nil => cases h; exact ⟨BlocksCoded.nil lv _, appendedAll_nil rfl rfl, rfl, rfl, rfl⟩
  | cons n ns ih =>
    obtain ⟨hn, hns⟩ := List.forall_mem_cons.mp hns
    simp only [l16Blocks] at h
    split at h
    · cases h
    · rename_i c1 u hu
      split at h
      · cases h
      · rename_i cs v hv
        cases h
        obtain ⟨hone, hrec, rfl, hcbp, helim⟩ := l16Block_coded hl hk hn hu
        obtain ⟨hrest, hrecs, rfl, hcbp', helim'⟩ := ih (hk.trans hone.host) hns hv
        refine ⟨hone.append hrest (by simpa using hn), ?_, rfl, hcbp'.trans hcbp, helim'.trans helim⟩
        rw [List.flatMap_cons]
        exact appendedAll_trans hrec hrecs

/-! ### Groups -/

/-- From `s` to `t` the groups `gs` were coded and the cheap ones eliminated; `c` is what they add to the macroblock's
cost. -/
structure GroupsCoded (elim : Bool) (s0 : State) (lv : Nat → Nat → Int) (gs : List Nat) (c : Nat) (s t : State) :
    Prop where
  blocks : BlocksCoded (groupLevels elim s0 lv) (gs.flatMap groupBlocks) s t
  records : AppendedAll (gs.flatMap (groupRecords elim s0 lv)) s t
  cost : c = sumOver (keptCost elim s0 lv) gs
  cbp : ∀ i, i < 32 → (t.cbp.getLsbD i = true ↔ s.cbp.getLsbD i = true ∨
    ∃ g ∈ gs, i = g ∧ ∃ n ∈ groupBlocks g, ∃ k, k < 16 ∧ groupLevels elim s0 lv n k ≠ 0)
  elimBits : ∀ i, i < 32 → (t.elim.getLsbD i = true ↔ s.elim.getLsbD i = true ∨
    ∃ g ∈ gs, i = g ∧ groupLost elim s0 lv g = true)

theorem l16Group_cases {elim : Bool} {g c : Nat} {s t : State} (h : l16Group elim g s = .ok (c, t)) :
    ∃ gc u, l16Blocks (groupBlocks g) s = .ok (gc, u) ∧
      (((elim && decide (gc < thrB8 u)) = true ∧ c = 0 ∧ t = eliminateGroup g s.arenaCur u) ∨
        ((elim && decide (gc < thrB8 u)) = false ∧ c = gc ∧
          ∃ counts, readAll (fun n => nnz .y n u) (groupBlocks g) = .ok counts ∧
            t = { u with cbp := if counts.any (· > 0) then setBit u.cbp g else u.cbp })) := by
  simp only [l16Group] at h
  split at h
  · cases h
  · rename_i gc u hu
    refine ⟨gc, u, hu, ?_⟩
    split at h
    · rename_i hlost
      cases h
      exact .inl ⟨hlost, rfl, rfl⟩
    · rename_i hkept
      split at h
      · cases h
      · rename_i counts hcs
        cases h
        refine .inr ⟨by simpa using hkept, rfl, counts, hcs, ?_⟩
        split <;> rfl

/-- Clearing control bits clears those of the listed sub-blocks alone. -/
theorem getLsbD_clrBothBits (p : Plane) (ns : List Nat) (w : Word) {i : Nat} (hi : i < 32) :
    (clrBothBits p ns w).getLsbD i = true ↔ w.getLsbD i = true ∧ ∀ n ∈ ns, i ≠ acBit p n ∧ i ≠ dcBit p n := by
  induction ns generalizing w with
  | nil => simp [clrBothBits]
  | cons n ns ih =>
    rw [clrBothBits, ih, getLsbD_clrBit _ hi, getLsbD_clrBit _ hi, List.forall_mem_cons, and_assoc, and_assoc, and_assoc]

/-- A group's elimination: its sub-blocks are empty, the others stay. -/
theorem eliminateGroup_coded (g : Nat) (start : Word) (u : State) :
    BlocksCoded (fun _ _ => 0) (groupBlocks g) u (eliminateGroup g start u) ∧
      ∃ m w, eliminateGroup g start u = { u with lm := m, arenaCur := start, cntrlY := w, elim := setBit u.elim g } := by
  have hlt : ∀ n ∈ groupBlocks g, n < 16 := fun n hn => groupBlocks_lt hn
  have bit {i : Nat} (hi : i < 32) := getLsbD_clrBothBits .y (groupBlocks g) u.cntrlY hi
  refine ⟨zeroLuma_coded hlt rfl rfl (fun n hn => ?_) fun n hn hmem => ?_, ?_⟩
  · have hn16 := hlt n hn
    constructor
    · exact Bool.eq_false_iff.mpr fun h => (((bit (by omega)).mp h).2 n hn).1 rfl
    · exact Bool.eq_false_iff.mpr fun h => (((bit (by omega)).mp h).2 n hn).2 rfl
  · have apart : ∀ m ∈ groupBlocks g, m < 16 ∧ m ≠ n := fun m hm => ⟨hlt m hm, fun he => hmem (he ▸ hm)⟩
    constructor
    · refine Bool.eq_iff_iff.mpr ((bit (by omega)).trans (and_iff_left fun m hm => ?_))
      have := apart m hm
      simp only [acBit, dcBit]; omega
    · refine Bool.eq_iff_iff.mpr ((bit (by omega)).trans (and_iff_left fun m hm => ?_))
      have := apart m hm
      simp only [acBit, dcBit]; omega
  · obtain ⟨⟨m, hm⟩, -⟩ := zeroBlocks_out .y (groupBlocks g) { u with
      arenaCur := start, cntrlY := clrBothBits .y (groupBlocks g) u.cntrlY, elim := setBit u.elim g }
    exact ⟨m, _, hm⟩

theorem HostKept.thrB8 {s t : State} (h : HostKept s t) : thrB8 t = thrB8 s := congrArg (bits · 7 0) h.thr

theorem HostKept.thrMb {s t : State} (h : HostKept s t) : thrMb t = thrMb s := congrArg (bits · 15 8) h.thr

/-- A count of the group's blocks is positive exactly when one of them has a level. -/
theorem any_count {d : Nat → Nat → Int} {ns : List Nat} {t : State} (h : ∀ n ∈ ns, LumaBlock n (d n) t) {counts : List Nat}
    (hc : readAll (fun n => nnz .y n t) ns = .ok counts) :
    counts.any (· > 0) = true ↔ ∃ n ∈ ns, ∃ k, k < 16 ∧ d n k ≠ 0 := by
  obtain rfl := Except.ok.inj (hc.symm.trans (readAll_ok fun n hn => (h n hn).holds.nnz))
  simp only [List.any_map, List.any_eq_true, Function.comp_apply, decide_eq_true_eq, gt_iff_lt, countNonzero_pos]

/-- A group coded and lost. -/
theorem GroupsCoded.lost {elim : Bool} {lv : Nat → Nat → Int} {g : Nat} {s0 s u : State} (hg : g < 4)
    (hlost : groupLost elim s0 lv g = true) (hblocks : BlocksCoded lv (groupBlocks g) s u) {bs : List Byte}
    (hrec : AppendedAll bs s u) (hcbp : u.cbp = s.cbp) (helim : u.elim = s.elim) :
    GroupsCoded elim s0 lv [g] 0 s (eliminateGroup g s.arenaCur u) := by
  obtain ⟨hzero, m, w, he⟩ := eliminateGroup_coded g s.arenaCur u
  have levels {n : Nat} (hn : n ∈ groupBlocks g) : groupLevels elim s0 lv n = fun _ => 0 := by
    simp only [groupLevels, groupOf_of_mem hg hn, hlost, if_true]
  exact
    { blocks := by
        rw [List.flatMap_singleton]
        exact (hblocks.over hzero fun n hn => hn).relevel fun n hn => (levels hn).symm
      records := by
        rw [List.flatMap_singleton, groupRecords, hlost, if_pos rfl]
        exact appendedAll_rewind hrec (by rw [he]) (by rw [he])
      cost := by simp [sumOver, keptCost, hlost]
      cbp := fun i hi => by
        rw [he]
        simp only [hcbp, List.mem_singleton, exists_eq_left]
        refine (or_iff_left ?_).symm
        rintro ⟨-, n, hn, k, hk, hne⟩
        exact hne (congrFun (levels hn) k)
      elimBits := fun i hi => by
        rw [he]
        simp only [helim, getLsbD_setBit _ hi, List.mem_singleton, exists_eq_left, hlost, and_true] }

/-- A group coded and kept. -/
theorem GroupsCoded.kept {elim : Bool} {lv : Nat → Nat → Int} {g : Nat} {s0 s u : State} (hg : g < 4)
    (hkept : groupLost elim s0 lv g = false) (hblocks : BlocksCoded lv (groupBlocks g) s u)
    (hrec : AppendedAll ((groupBlocks g).flatMap fun n => recordOf 0 (zigzag.map (lv n))) s u) (hcbp : u.cbp = s.cbp)
    (helim : u.elim = s.elim) {counts : List Nat} (hcs : readAll (fun n => nnz .y n u) (groupBlocks g) = .ok counts) :
    GroupsCoded elim s0 lv [g] (groupCost s0 lv g) s
      { u with cbp := if counts.any (· > 0) then setBit u.cbp g else u.cbp } := by
  have levels {n : Nat} (hn : n ∈ groupBlocks g) : lv n = groupLevels elim s0 lv n := by
    simp only [groupLevels, groupOf_of_mem hg hn, hkept, Bool.false_eq_true, if_false]
  have hblocks := hblocks.relevel fun n hn => levels hn
  have hany := any_count hblocks.coded hcs
  exact
    { blocks := by
        rw [List.flatMap_singleton]
        exact
          { host := hblocks.host.trans ⟨rfl, fun _ _ => rfl⟩
            coded := fun n hn => (hblocks.coded n hn).same ⟨fun _ _ => rfl, rfl, rfl⟩
            other := fun n hn hm => (hblocks.other n hn hm).trans ⟨fun _ _ => rfl, rfl, rfl⟩ }
      records := by
        rw [List.flatMap_singleton, groupRecords, hkept, if_neg (by decide)]
        exact hrec
      cost := by simp [sumOver, keptCost, hkept]
      cbp := fun i hi => by
        simp only [getLsbD_setIf _ _ hi, hany, hcbp, List.mem_singleton, exists_eq_left, and_comm]
      elimBits := fun i _ => by
        simp only [helim, List.mem_singleton, exists_eq_left, hkept, Bool.false_eq_true, and_false, or_false] }

/-- One group coded, and eliminated where its cost says so. -/
theorem l16Group_coded {elim : Bool} {lv : Nat → Nat → Int} {g c : Nat} {s0 s t : State} (hl : LumaLevels s0 lv)
    (hk : HostKept s0 s) (hg : g < 4) (h : l16Group elim g s = .ok (c, t)) : GroupsCoded elim s0 lv [g] c s t := by
  obtain ⟨gc, u, hu, hcase⟩ := l16Group_cases h
  obtain ⟨hblocks, hrec, rfl, hcbp, helim⟩ := l16Blocks_coded hl _ hk (fun n hn => groupBlocks_lt hn) hu
  have hthr : (elim && decide (groupCost s0 lv g < thrB8 u)) = groupLost elim s0 lv g := by
    rw [groupLost, (hk.trans hblocks.host).thrB8]
  rcases hcase with ⟨hlost, rfl, rfl⟩ | ⟨hkept, rfl, counts, hcs, rfl⟩
  · exact GroupsCoded.lost hg (hthr ▸ hlost) hblocks hrec hcbp helim
  · exact GroupsCoded.kept hg (hthr ▸ hkept) hblocks hrec hcbp helim hcs

theorem GroupsCoded.nil (elim : Bool) (s0 : State) (lv : Nat → Nat → Int) (s : State) : GroupsCoded elim s0 lv [] 0 s s where
  blocks := BlocksCoded.nil _ s
  records := appendedAll_nil rfl rfl
  cost := rfl
  cbp _ _ := by simp
  elimBits _ _ := by simp

theorem GroupsCoded.cons {elim : Bool} {s0 : State} {lv : Nat → Nat → Int} {g : Nat} {gs : List Nat} {c cs : Nat}
    {s t u : State} (h : GroupsCoded elim s0 lv [g] c s t) (k : GroupsCoded elim s0 lv gs cs t u) :
    GroupsCoded elim s0 lv (g :: gs) (c + cs) s u where
  blocks := by
    have := h.blocks.append k.blocks fun n hn => by
      rw [List.flatMap_singleton] at hn
      exact groupBlocks_lt hn
    rwa [List.flatMap_singleton, ← List.flatMap_cons] at this
  records := by
    have := appendedAll_trans h.records k.records
    rwa [List.flatMap_singleton, ← List.flatMap_cons] at this
  cost := by simp [h.cost, k.cost, sumOver]
  cbp i hi := by
    rw [k.cbp i hi, h.cbp i hi, or_assoc]
    simp only [List.exists_mem_cons_iff, List.not_mem_nil, false_and, exists_false, or_false]
  elimBits i hi := by
    rw [k.elimBits i hi, h.elimBits i hi, or_assoc]
    simp only [List.exists_mem_cons_iff, List.not_mem_nil, false_and, exists_false, or_false]

/-- Groups coded in order. -/
theorem l16Groups_coded {elim : Bool} {lv : Nat → Nat → Int} {s0 : State} (hl : LumaLevels s0 lv) (gs : List Nat) {c : Nat}
    {s t : State} (hk : HostKept s0 s) (hgs : ∀ g ∈ gs, g < 4) (h : l16Groups elim gs s = .ok (c, t)) :
    GroupsCoded elim s0 lv gs c s t := by
  induction gs generalizing s c with
  | nil => cases h; exact GroupsCoded.nil elim s0 lv _
  | cons g gs ih =>
    obtain ⟨hg, hgs⟩ := List.forall_mem_cons.mp hgs
    simp only [l16Groups] at h
    split at h
    · cases h
    · rename_i c1 u hu
      split at h
      · cases h
      · rename_i cs v hv
        cases h
        have hone := l16Group_coded hl hk hg hu
        exact hone.cons (ih (hk.trans hone.blocks.host) hgs hv)

/-! ### The macroblock -/

/-- A block is kept when neither its group nor the macroblock is lost. -/
def blockKept (elim : Bool) (s : State) (lv : Nat → Nat → Int) (n : Nat) : Bool :=
  !groupLost elim s lv (groupOf n) && !mbLost elim s lv

/-- The levels CODE_L16 leaves in a block. -/
def keptLevels (elim : Bool) (s : State) (lv : Nat → Nat → Int) (n : Nat) : Nat → Int :=
  if blockKept elim s lv n then lv n else fun _ => 0

/-- What CODE_L16 leaves in `t` when it ran from `s` with the levels `lv`: levels, counts and control bits of the surviving
blocks, ELIM, CBP_L, COST_Y and the records. -/
structure L16Coded (elim : Bool) (s : State) (lv : Nat → Nat → Int) (t : State) : Prop where
  block : ∀ n, n < 16 → LumaBlock n (keptLevels elim s lv n) t
  elimGroup : ∀ g, g < 4 → t.elim.getLsbD g = groupLost elim s lv g
  elimMb : t.elim.getLsbD 4 = mbLost elim s lv
  cbp : ∀ g, g < 4 → (t.cbp.getLsbD g = true ↔
    ∃ n k, n < 16 ∧ k < 16 ∧ groupOf n = g ∧ keptLevels elim s lv n k ≠ 0)
  costY : t.costY.toNat = sumOver (keptCost elim s lv) [0, 1, 2, 3]
  records : AppendedAll ((blkOrder.filter (blockKept elim s lv)).flatMap fun n => recordOf 0 (zigzag.map (lv n))) s t

/-- The records of the groups are those of the blocks that survive their group. -/
theorem groupRecords_eq (elim : Bool) (s : State) (lv : Nat → Nat → Int) :
    [0, 1, 2, 3].flatMap (groupRecords elim s lv) =
      (blkOrder.filter fun n => !groupLost elim s lv (groupOf n)).flatMap fun n => recordOf 0 (zigzag.map (lv n)) := by
  rw [show blkOrder = [0, 1, 2, 3].flatMap groupBlocks by decide, List.filter_flatMap, List.flatMap_assoc]
  refine List.flatMap_congr fun g hg => ?_
  have hg : g < 4 := by simp only [List.mem_cons, List.not_mem_nil, or_false] at hg; omega
  have alike : (groupBlocks g).filter (fun n => !groupLost elim s lv (groupOf n)) =
      (groupBlocks g).filter fun _ => !groupLost elim s lv g :=
    List.filter_congr fun n hn => by rw [groupOf_of_mem hg hn]
  rw [groupRecords, alike]
  cases groupLost elim s lv g <;> simp

/-- The registers CODE_L16 clears before its first block. -/
def l16Start (s : State) : State := { s with cntrlY := 0, cbp := withCbpL s.cbp 0, elim := clrLumaElim s.elim }

theorem l16Code_cases {elim : Bool} {s t : State} (h : l16Code elim s = .ok t) :
    ∃ c u, l16Groups elim [0, 1, 2, 3] (l16Start s) = .ok (c, u) ∧
      t = { (if elim && decide (c < thrMb u) then eliminateMb s.arenaCur u else u) with costY := BitVec.ofNat 32 c } := by
  simp only [l16Code] at h
  split at h
  · cases h
  · rename_i c u hu
    exact ⟨c, u, hu, (Except.ok.inj h).symm⟩

theorem withCbpL_empty_bit (cbp : Word) {g : Nat} (hg : g < 4) : (withCbpL cbp 0).getLsbD g = false := by
  have mask : ∀ g, g < 4 → (0xFFFFFFF0 : Word).getLsbD g = false := by decide
  rw [withCbpL_empty, BitVec.getLsbD_and, mask g hg, Bool.and_false]

theorem clrLumaElim_bit (w : Word) {i : Nat} (hi : i < 5) : (clrLumaElim w).getLsbD i = false := by
  have mask : ∀ i, i < 5 → (0xFFFFFFE0 : Word).getLsbD i = false := by decide
  rw [clrLumaElim, BitVec.getLsbD_and, mask i hi, Bool.and_false]

theorem mem_groups {g : Nat} : g ∈ [0, 1, 2, 3] ↔ g < 4 := by
  simp only [List.mem_cons, List.not_mem_nil, or_false]; omega

theorem mem_allBlocks {n : Nat} (hn : n < 16) : n ∈ [0, 1, 2, 3].flatMap groupBlocks :=
  List.mem_flatMap.mpr ⟨groupOf n, mem_groups.mpr (groupOf_lt hn), mem_groupBlocks hn⟩

/-- The ELIM bits of the groups after all four. -/
theorem GroupsCoded.elim_eq {elim : Bool} {lv : Nat → Nat → Int} {c : Nat} {s u : State}
    (h : GroupsCoded elim s lv [0, 1, 2, 3] c (l16Start s) u) :
    (∀ g, g < 4 → u.elim.getLsbD g = groupLost elim s lv g) ∧ u.elim.getLsbD 4 = false := by
  have bit {i : Nat} (hi : i < 5) := h.elimBits i (by omega)
  have start {i : Nat} (hi : i < 5) : (l16Start s).elim.getLsbD i = false := clrLumaElim_bit s.elim hi
  constructor
  · refine fun g hg => Bool.eq_iff_iff.mpr ((bit (by omega)).trans ?_)
    simp only [start (show g < 5 by omega), Bool.false_eq_true, false_or]
    exact ⟨fun ⟨_, _, he, hl⟩ => he ▸ hl, fun hl => ⟨g, mem_groups.mpr hg, rfl, hl⟩⟩
  · refine Bool.eq_false_iff.mpr fun h4 => ?_
    rcases (bit (by decide)).mp h4 with h4 | ⟨g, hg, he, -⟩
    · exact Bool.false_ne_true ((start (by decide)).symm.trans h4)
    · have := mem_groups.mp hg; omega

/-- All groups coded and the macroblock kept. -/
theorem GroupsCoded.mbKept {elim : Bool} {lv : Nat → Nat → Int} {c : Nat} {s u : State}
    (h : GroupsCoded elim s lv [0, 1, 2, 3] c (l16Start s) u) (hkept : mbLost elim s lv = false) (hc : c < 65536) :
    L16Coded elim s lv { u with costY := BitVec.ofNat 32 c } := by
  have levels (n : Nat) : groupLevels elim s lv n = keptLevels elim s lv n := by
    simp only [groupLevels, keptLevels, blockKept, hkept]
    cases groupLost elim s lv (groupOf n) <;> rfl
  obtain ⟨hgroup, hmb⟩ := h.elim_eq
  exact
    { block := fun n hn => levels n ▸ (h.blocks.coded n (mem_allBlocks hn)).withCostY _
      elimGroup := hgroup
      elimMb := hmb.trans hkept.symm
      cbp := fun g hg => by
        have start : (l16Start s).cbp.getLsbD g = false := withCbpL_empty_bit s.cbp hg
        refine (h.cbp g (by omega)).trans ?_
        rw [start]
        constructor
        · rintro (hf | ⟨g, hg, rfl, n, hn, k, hk, hne⟩)
          · exact absurd hf Bool.false_ne_true
          · exact ⟨n, k, groupBlocks_lt hn, hk, groupOf_of_mem (mem_groups.mp hg) hn, levels n ▸ hne⟩
        · rintro ⟨n, k, hn, hk, rfl, hne⟩
          exact .inr ⟨_, mem_groups.mpr hg, rfl, n, mem_groupBlocks hn, k, hk, (levels n).symm ▸ hne⟩
      costY := by
        rw [← h.cost]
        exact (BitVec.toNat_ofNat c 32).trans (Nat.mod_eq_of_lt (by omega))
      records := by
        have := h.records
        rw [groupRecords_eq] at this
        have filter : (blkOrder.filter (blockKept elim s lv)) =
            blkOrder.filter fun n => !groupLost elim s lv (groupOf n) :=
          List.filter_congr fun n _ => by simp only [blockKept, hkept, Bool.not_false, Bool.and_true]
        rw [filter]
        exact this }

/-- The macroblock's elimination: no luma sub-block has a level. -/
theorem eliminateMb_coded (start : Word) (u : State) :
    BlocksCoded (fun _ _ => 0) raster u (eliminateMb start u) ∧
      ∃ m, eliminateMb start u =
        { u with lm := m, arenaCur := start, cntrlY := 0, cbp := withCbpL u.cbp 0, elim := setBit u.elim 4 } := by
  refine ⟨zeroLuma_coded (fun n hn => raster_lt16 hn) rfl rfl (fun n _ => ?_)
    (fun n hn hmem => absurd (mem_raster hn) hmem), (zeroBlocks_out .y raster _).1⟩
  exact ⟨getLsbD_zero_word _, getLsbD_zero_word _⟩

/-- All groups coded and the macroblock eliminated. -/
theorem GroupsCoded.mbLost {elim : Bool} {lv : Nat → Nat → Int} {c : Nat} {s u : State}
    (h : GroupsCoded elim s lv [0, 1, 2, 3] c (l16Start s) u) (hlost : mbLost elim s lv = true) (hc : c < 65536) :
    L16Coded elim s lv { eliminateMb s.arenaCur u with costY := BitVec.ofNat 32 c } := by
  have none (n : Nat) : blockKept elim s lv n = false := by
    simp only [blockKept, hlost, Bool.not_true, Bool.and_false]
  have levels (n : Nat) : keptLevels elim s lv n = fun _ => 0 := by rw [keptLevels, none, if_neg Bool.false_ne_true]
  obtain ⟨hzero, m, he⟩ := eliminateMb_coded s.arenaCur u
  obtain ⟨hgroup, -⟩ := h.elim_eq
  have helim : (eliminateMb s.arenaCur u).elim = setBit u.elim 4 := by rw [he]
  have hcbp : (eliminateMb s.arenaCur u).cbp = withCbpL u.cbp 0 := by rw [he]
  exact
    { block := fun n hn => by
        rw [levels]
        exact (hzero.coded n (mem_raster hn)).withCostY _
      elimGroup := fun g hg => by
        rw [← hgroup g hg]
        refine (congrArg (BitVec.getLsbD · g) helim).trans (Bool.eq_iff_iff.mpr ?_)
        rw [getLsbD_setBit _ (by omega)]
        exact or_iff_left (by omega)
      elimMb := by
        rw [hlost]
        exact (congrArg (BitVec.getLsbD · 4) helim).trans ((getLsbD_setBit _ (by decide)).mpr (.inr rfl))
      cbp := fun g hg => by
        refine ⟨fun hset => ?_, ?_⟩
        · have clear := (congrArg (BitVec.getLsbD · g) hcbp).trans (withCbpL_empty_bit u.cbp hg)
          exact absurd (clear.symm.trans hset) Bool.false_ne_true
        · rintro ⟨n, k, -, -, -, hne⟩
          exact absurd (congrFun (levels n) k) hne
      costY := by
        rw [← h.cost]
        exact (BitVec.toNat_ofNat c 32).trans (Nat.mod_eq_of_lt (by omega))
      records := by
        have empty : blkOrder.filter (blockKept elim s lv) = [] := by simp [none]
        rw [empty]
        exact appendedAll_rewind (s := l16Start s) h.records (by rw [he]) (by rw [he]; rfl) }

/-- The coding part of CODE_L16. -/
theorem l16Code_coded {elim : Bool} {lv : Nat → Nat → Int} {s t : State} (hl : LumaLevels s lv)
    (h : l16Code elim s = .ok t) : L16Coded elim s lv t := by
  obtain ⟨c, u, hu, rfl⟩ := l16Code_cases h
  have hc : c ≤ 16320 * 4 := l16Groups_cost hu
  have hg := l16Groups_coded hl _ (s := l16Start s) ⟨rfl, fun _ _ => rfl⟩ (fun g => mem_groups.mp) hu
  have hthr : (elim && decide (c < thrMb u)) = mbLost elim s lv := by
    have kept : HostKept (l16Start s) u := hg.blocks.host
    rw [mbLost, ← hg.cost, kept.thrMb]
    rfl
  rw [hthr]
  cases hlost : mbLost elim s lv with
  | false => exact hg.mbKept hlost (by omega)
  | true => exact hg.mbLost hlost (by omega)

end Laws

end Sys2Proof.Machine
end

section
/-! PROOFS. CODE_L16 as a whole (43_macroblock.md R242), and the statement `InterLumaSoundness`. -/

namespace Sys2Proof.Machine

namespace Laws

open Sys2Proof.Claims

/-! ### Every luma sub-block CODE_L16 coded has levels -/

/-- FTQ4 gives luma sub-block `n` levels from `s`. -/
def HasLevels (s : State) (n : Nat) : Prop := ∃ dc lv, Transformed .y n false s dc lv

theorem l16Block_levels {n c : Nat} {s0 s t : State} (hk : HostKept s0 s) (hn : n < 16) (h : l16Block n s = .ok (c, t)) :
    HostKept s0 t ∧ HasLevels s0 n := by
  have hw := (l16Block_worksP (l16Scope false false false 0) s hn).ok h
  obtain ⟨u, -, -, hu, -⟩ := l16Block_cases h
  obtain ⟨dc, lv, htr, -⟩ := ftq4_stores hu
  exact ⟨hk.trans (hw.hostKept (lmWritten_ge _)), dc, lv, htr.congr hk.symm hn⟩

theorem l16Blocks_levels (ns : List Nat) {c : Nat} {s0 s t : State} (hk : HostKept s0 s) (hns : ∀ n ∈ ns, n < 16)
    (h : l16Blocks ns s = .ok (c, t)) : HostKept s0 t ∧ ∀ n ∈ ns, HasLevels s0 n := by
  induction ns generalizing s c with
  | nil => cases h; exact ⟨hk, fun n hn => nomatch hn⟩
  | cons n ns ih =>
    obtain ⟨hn, hns⟩ := List.forall_mem_cons.mp hns
    simp only [l16Blocks] at h
    split at h
    · cases h
    · rename_i c1 u hu
      split at h
      · cases h
      · rename_i cs v hv
        cases h
        obtain ⟨hku, hone⟩ := l16Block_levels hk hn hu
        obtain ⟨hkv, hrest⟩ := ih hku hns hv
        exact ⟨hkv, List.forall_mem_cons.mpr ⟨hone, hrest⟩⟩

theorem l16Groups_levels {elim : Bool} (gs : List Nat) {c : Nat} {s0 s t : State} (hk : HostKept s0 s)
    (hgs : ∀ g ∈ gs, g < 4) (h : l16Groups elim gs s = .ok (c, t)) :
    ∀ g ∈ gs, ∀ n ∈ groupBlocks g, HasLevels s0 n := by
  induction gs generalizing s c with
  | nil => exact fun g hg => nomatch hg
  | cons g gs ih =>
    obtain ⟨hg, hgs⟩ := List.forall_mem_cons.mp hgs
    simp only [l16Groups] at h
    split at h
    · cases h
    · rename_i c1 u hu
      split at h
      · cases h
      · rename_i cs v hv
        cases h
        obtain ⟨gc, w, hw, -⟩ := l16Group_cases hu
        have hku := ((l16Group_worksP (l16Scope false false false 0) elim s hg).ok hu).hostKept (lmWritten_ge _)
        refine List.forall_mem_cons.mpr ⟨?_, ih (hk.trans hku) hgs hv⟩
        exact (l16Blocks_levels _ hk (fun n hn => groupBlocks_lt hn) hw).2

theorem l16Code_levels {elim : Bool} {s t : State} (h : l16Code elim s = .ok t) : ∃ lv, LumaLevels s lv := by
  obtain ⟨c, u, hu, -⟩ := l16Code_cases h
  have start : HostKept s (l16Start s) := ⟨rfl, fun _ _ => rfl⟩
  have total : ∀ n, ∃ lv, n < 16 → ∃ dc, Transformed .y n false s dc lv := fun n => by
    by_cases hn : n < 16
    · obtain ⟨dc, lv, htr⟩ := l16Groups_levels _ start (fun g => mem_groups.mp) hu (groupOf n)
        (mem_groups.mpr (groupOf_lt hn)) n (mem_groupBlocks hn)
      exact ⟨lv, fun _ => ⟨dc, htr⟩⟩
    · exact ⟨fun _ => 0, fun h => absurd h hn⟩
  choose lv hlv using total
  exact ⟨lv, hlv⟩

/-! ### Reconstruction and the whole command -/

/-- Reconstruction keeps what CODE_L16 coded. -/
theorem L16Coded.recon {elim border : Bool} {s t u : State} {lv : Nat → Nat → Int} (h : L16Coded elim s lv t)
    (hu : reconY16 false border t = .ok u) : L16Coded elim s lv u := by
  have hw := (reconY16_works (reconYScope false border 0) border t).ok hu
  have stays : ∀ a, 0x1000 ≤ a → u.lm.read a = t.lm.read a := fun a ha => hw.frame a fun hm => by
    rcases List.mem_append.mp hm with hm | hm
    · have := mem_recPlane_y.mp hm; omega
    · cases hm
  have arena : u.arena = t.arena := hw.still fun hk => absurd (all_kept.symm.trans hk) (by decide)
  have cur : u.arenaCur = t.arenaCur := hw.csr (c := .arenaCur) all_kept
  have cntrl : u.cntrlY = t.cntrlY := hw.csr (c := .cntrlY) all_kept
  have elims : u.elim = t.elim := hw.csr (c := .elim) all_kept
  exact
    { block := fun n hn => (h.block n hn).same ⟨fun a ha => stays a (blockByte_ge ha), by rw [cntrl], by rw [cntrl]⟩
      elimGroup := elims ▸ h.elimGroup
      elimMb := elims ▸ h.elimMb
      cbp := (show u.cbp = t.cbp from hw.csr (c := .cbp) all_kept) ▸ h.cbp
      costY := (show u.costY = t.costY from hw.csr (c := .costY) all_kept) ▸ h.costY
      records := by simpa using appendedAll_trans h.records (appendedAll_nil arena cur) }

theorem codeL16_cases {elim recon border : Bool} {s t : State} (h : codeL16 elim recon border s = .ok t) :
    ∃ u, l16Code elim s = .ok u ∧ (t = u ∨ reconY16 false border u = .ok t) := by
  simp only [codeL16] at h
  split at h
  · cases h
  · rename_i u hu
    refine ⟨u, hu, ?_⟩
    cases recon with
    | false => exact .inl (Except.ok.inj h).symm
    | true => exact .inr h

/-- CODE_L16 codes, with and without reconstruction. -/
theorem codeL16_coded {elim recon border : Bool} {lv : Nat → Nat → Int} {s t : State} (hl : LumaLevels s lv)
    (h : codeL16 elim recon border s = .ok t) : L16Coded elim s lv t := by
  obtain ⟨u, hu, rfl | hr⟩ := codeL16_cases h
  · exact l16Code_coded hl hu
  · exact (l16Code_coded hl hu).recon hr

/-- A CODE_L16 that ended normally: its steps, from the accepted state, in their scope. -/
theorem codeL16_ends {elim recon border : Bool} {s t : State} (h : exec (.codeL16 elim recon border) s = .next t)
    (hn : EndsNormally (.codeL16 elim recon border) s) :
    ∃ u, t = complete u ∧ codeL16 elim recon border (accept (encode (.codeL16 elim recon border)) s) = .ok u ∧
      Work (scopeOf (.codeL16 elim recon border) 0) (accept (encode (.codeL16 elim recon border)) s) u := by
  obtain ⟨hc, u, hs, he⟩ := endsNormally_exec hn
  cases h.symm.trans he
  exact ⟨u, rfl, hs, (stepsOf_works _ 0 _ (wf_of_issueCheck hc)).ok hs⟩

/-! ### What CODE_L16 coded, in terms of the levels -/

theorem keptLevels_eq (elim : Bool) (s : State) (lv : Nat → Nat → Int) (n k : Nat) :
    keptLevels elim s lv n k = if blockKept elim s lv n then lv n k else 0 := by
  rw [keptLevels]
  split <;> rfl

theorem keptLevels_ne {elim : Bool} {s : State} {lv : Nat → Nat → Int} {n k : Nat} :
    keptLevels elim s lv n k ≠ 0 ↔ blockKept elim s lv n = true ∧ lv n k ≠ 0 := by
  rw [keptLevels_eq]
  split
  · rename_i h; simp [h]
  · rename_i h; simp [h]

/-- A group that was lost has no level left. -/
theorem keptLevels_lost {elim : Bool} {s : State} {lv : Nat → Nat → Int} {n : Nat}
    (h : groupLost elim s lv (groupOf n) = true) (k : Nat) : keptLevels elim s lv n k = 0 := by
  rw [keptLevels_eq, blockKept, h]
  rfl

theorem thrB8_eq (s : State) : thrB8 s = s.thr.toNat % 256 := by
  simp [thrB8, bits_eq]

theorem thrMb_eq (s : State) : thrMb s = s.thr.toNat / 256 % 256 := bits_eq s.thr 15 8

/-- The count of a block's surviving levels. -/
theorem countNonzero_kept (elim : Bool) (s : State) (lv : Nat → Nat → Int) (n : Nat) :
    countNonzero (raster.map (keptLevels elim s lv n)) =
      if blockKept elim s lv n then countNonzero (zigzag.map (lv n)) else 0 := by
  rw [keptLevels]
  split
  · exact (countNonzero_zigzag (lv n)).symm
  · exact countNonzero_zeros

/-- What a CODE_L16 that ended normally codes and eliminates, in terms of FTQ4. -/
theorem codeL16_result : CodeL16Result := by
  intro elim recon border s t lv h hend hgives
  obtain ⟨u, rfl, hs, hw⟩ := codeL16_ends h hend
  have hk := hostKept_accept (encode (.codeL16 elim recon border)) s
  have hl : LumaLevels (accept (encode (.codeL16 elim recon border)) s) lv := fun n hn => by
    obtain ⟨dc, htr⟩ := transformed_of_gives (p := .y) (n := ⟨n, hn⟩) hn (hgives ⟨n, hn⟩)
    exact ⟨dc, htr.congr hk hn⟩
  have hcoded := codeL16_coded hl hs
  intro scan cost lost mbCost mbLost kept
  generalize ha : accept (encode (.codeL16 elim recon border)) s = a at *
  have hthr : s.thr = a.thr := by rw [← ha]; rfl
  have hcost : cost = groupCost a lv := by rw [← ha]; rfl
  have hlost : lost = groupLost elim a lv := funext fun g => by
    rw [groupLost, thrB8_eq, ← hthr, ← hcost]
  have hmbCost : mbCost = sumOver (keptCost elim a lv) [0, 1, 2, 3] := by
    rw [show mbCost = sumOver (fun g => if lost g then 0 else cost g) [0, 1, 2, 3] from rfl, hlost, hcost]
    rfl
  have hmbLost : mbLost = Laws.mbLost elim a lv := by
    rw [Laws.mbLost, thrMb_eq, ← hthr, ← hmbCost]
  have hkept : kept = blockKept elim a lv := funext fun n => by
    rw [blockKept, ← hlost, ← hmbLost]
  clear_value kept mbLost mbCost lost
  subst hkept hmbLost hmbCost hlost
  refine ⟨fun n hn => ?_, fun g hg => ⟨hcoded.elimGroup g hg, (hcoded.cbp g hg).trans ?_⟩, hcoded.elimMb, hcoded.costY,
    ?_, ?_, ?_, fun x hx => ?_, ?_⟩
  · obtain ⟨⟨hcoef, hnnz⟩, hac, hdc⟩ := hcoded.block n hn
    refine ⟨fun k hk => ?_, ?_, hac.trans ?_, hdc.trans keptLevels_ne⟩
    · rw [← keptLevels_eq]; exact hcoef k hk
    · rw [← countNonzero_kept]; exact hnnz
    · simp only [keptLevels_ne]
      exact ⟨fun ⟨k, h1, h16, hb, hne⟩ => ⟨hb, k, h1, h16, hne⟩, fun ⟨hb, k, h1, h16, hne⟩ => ⟨k, h1, h16, hb, hne⟩⟩
  · simp only [keptLevels_ne]
  · subst ha; exact hcoded.records
  · subst ha
    rw [show (0xFFFFFFF0 : Word) = ~~~0x0000000F by decide]
    exact hw.regs .cbp
  · subst ha
    rw [show (0xFFFFFFE0 : Word) = ~~~0x0000001F by decide]
    exact hw.regs .elim
  · subst ha; exact hw.frame x hx
  · subst ha
    have e := eq_of_unchangedPart hw.kept
    have start : u.mbStart = s.mbStart := hw.csr (c := .mbStart) all_kept
    have cntrlC : u.cntrlC = s.cntrlC := hw.csr (c := .cntrlC) all_kept
    have costC : u.costC = s.costC := hw.csr (c := .costC) all_kept
    have costAcc : u.costAcc = s.costAcc := hw.csr (c := .costAcc) all_kept
    rw [start, cntrlC, costC, costAcc] at e
    exact congrArg complete e

end Laws

/-- Settles O58, from what the stages of CODE_L16 leave (`Laws.L16Coded`). -/
theorem interLumaSoundness : Obligations.InterLumaSoundness := by
  refine ⟨fun elim recon border s t h hend => ?_, Laws.codeL16_result⟩
  obtain ⟨u, rfl, hs, hw⟩ := Laws.codeL16_ends h hend
  obtain ⟨v, hv, -⟩ := Laws.codeL16_cases hs
  obtain ⟨lv, hl⟩ := Laws.l16Code_levels hv
  have hcoded := Laws.codeL16_coded hl hs
  refine ⟨fun n hn => ?_, fun g hg => ⟨(hcoded.cbp g hg).trans ?_, fun hlost => ?_⟩, fun helim => ?_⟩
  · obtain ⟨⟨hcoef, hnnz⟩, hac, hdc⟩ := hcoded.block n hn
    exact ⟨_, hcoef, hac, hdc, hnnz⟩
  · constructor
    · rintro ⟨n, k, hn, hk, hgn, hne⟩
      exact ⟨n, _, hn, hgn, (hcoded.block n hn).holds.nnz, Laws.countNonzero_pos.mpr ⟨k, hk, hne⟩⟩
    · rintro ⟨n, v, hn, hgn, hv, hpos⟩
      obtain rfl := Except.ok.inj ((hcoded.block n hn).holds.nnz.symm.trans hv)
      obtain ⟨k, hk, hne⟩ := Laws.countNonzero_pos.mp hpos
      exact ⟨n, k, hn, hk, hgn, hne⟩
  · refine Bool.eq_false_iff.mpr fun hset => ?_
    obtain ⟨n, k, -, -, rfl, hne⟩ := (hcoded.cbp g hg).mp hset
    exact hne (Laws.keptLevels_lost ((hcoded.elimGroup _ hg).symm.trans hlost) k)
  · subst helim
    have mask : ∀ i, i < 32 → (0x0000001F : Word).getLsbD i = true → i < 4 ∨ i = 4 := by decide
    refine Laws.and_eq_zero_of_bits fun i hi hm => ?_
    rcases mask i hi hm with h4 | rfl
    · exact hcoded.elimGroup i h4
    · exact hcoded.elimMb

end Sys2Proof.Machine
end

section
/-! PROOFS. The DC stages of CODE_C8 (43_macroblock.md R250): the forward transform of the eight blocks, the two DC layers,
their control bits and their records (`DcCoded`). -/

namespace Sys2Proof.Machine

namespace Laws

open Sys2Proof.Claims

/-! ### The chroma planes -/

theorem isChroma_of_ne {p : Plane} (hp : p ≠ .y) : p.isChroma = true := by
  cases p with
  | y => exact absurd rfl hp
  | cb => rfl
  | cr => rfl

theorem chroma_nb {p : Plane} (hp : p ≠ .y) : p.nb = 4 := by
  cases p with
  | y => exact absurd rfl hp
  | cb => rfl
  | cr => rfl

theorem forall_chroma {P : Plane → Prop} (hb : P .cb) (hr : P .cr) : ∀ p, p ≠ .y → P p := fun p hp => by
  cases p with
  | y => exact absurd rfl hp
  | cb => exact hb
  | cr => exact hr

/-- A choice for each chroma plane. -/
theorem exists_chroma {α : Type} [Inhabited α] {P : Plane → α → Prop} (h : ∀ p, p ≠ .y → ∃ a, P p a) :
    ∃ f : Plane → α, ∀ p, p ≠ .y → P p (f p) := by
  have total : ∀ p, ∃ a, p ≠ .y → P p a := fun p => by
    by_cases hp : p = .y
    · exact ⟨default, fun hne => absurd hp hne⟩
    · obtain ⟨a, ha⟩ := h p hp
      exact ⟨a, fun _ => ha⟩
  choose f hf using total
  exact ⟨f, hf⟩

theorem mem_quad {n : Nat} : n ∈ [0, 1, 2, 3] ↔ n < 4 := mem_groups

theorem quad_lt {p : Plane} {n : Nat} (hn : n < 4) : n < p.nb := four_lt (mem_quad.mpr hn)

/-- A step of each chroma plane, Cb first. -/
theorem runAll_chroma {f : Plane → State → Except Stop State} {s t : State} (h : runAll f [.cb, .cr] s = .ok t) :
    ∃ u, f .cb s = .ok u ∧ f .cr u = .ok t := by
  simp only [runAll] at h
  split at h
  · cases h
  · rename_i u hu
    split at h
    · cases h
    · rename_i v hv
      cases h
      exact ⟨u, hu, hv⟩

/-! ### Where the chroma DCs stand -/

/-- The byte is of the DC layer of plane `p` or its count. -/
def LayerByte (p : Plane) (a : Nat) : Prop := a = nnzdcAddr p ∨ (dccoefAddr p 0 ≤ a ∧ a < dccoefAddr p 0 + 2 * p.nb)

/-- The DC layers share no byte (10_state.md R57). -/
theorem layerByte_unique {p q : Plane} {a : Nat} (h : LayerByte p a) (h' : LayerByte q a) : p = q := by
  cases p <;> cases q <;>
    simp only [LayerByte, nnzdcAddr, dccoefAddr, dcOffset, Plane.idx, Plane.nb, reduceCtorEq] at * <;> omega

theorem layerByte_range {p : Plane} {a : Nat} (h : LayerByte p a) : (0x1300 ≤ a ∧ a < 0x1340) ∨ 0x1418 ≤ a := by
  cases p <;> simp only [LayerByte, nnzdcAddr, dccoefAddr, dcOffset, Plane.idx, Plane.nb] at * <;> omega

theorem blockByte_range {p : Plane} {n a : Nat} (hn : n < p.nb) (h : BlockByte p n a) :
    a < 0x1300 ∨ (0x1400 ≤ a ∧ a < 0x1418) := by
  have := coefAddr_lt hn (show 15 < 16 by decide)
  have := coefAddr_add p n 15
  have : nnzAddr p n < 0x1418 := by cases p <;> simp only [nnzAddr, Plane.nb] at * <;> omega
  have := nnzAddr_count p n
  rcases h with rfl | h <;> omega

theorem dcsaveAddr_apart {p q : Plane} {m n : Nat} (hm : m < p.nb) (hn : n < q.nb) (h : p = q → m ≠ n) :
    dcsaveAddr p m + 2 ≤ dcsaveAddr q n ∨ dcsaveAddr q n + 2 ≤ dcsaveAddr p m := by
  cases p <;> cases q <;> simp only [dcsaveAddr, dcOffset, Plane.nb, reduceCtorEq, forall_const] at * <;> omega

/-- A saved DC stays while the bytes of DCSAVE do. -/
theorem dcsave_same {p : Plane} {n : Nat} (hn : n < p.nb) {s t : State}
    (h : ∀ a, 0x1340 ≤ a → a < 0x1370 → t.lm.read a = s.lm.read a) : dcsave p n t = dcsave p n s := by
  have := dcsaveAddr_range hn
  exact lmSigned_congr (h _ (by omega) (by omega)) (h _ (by omega) (by omega))

/-! ### The forward transform of the eight blocks -/

/-- `dc` and `lv` are the DCs and levels FTQ4 gives the chroma sub-blocks from `s`. -/
def ChromaLevels (s : State) (dc : Plane → Nat → Int) (lv : Plane → Nat → Nat → Int) : Prop :=
  ∀ p, p ≠ .y → ∀ n, n < 4 → Transformed p n true s (dc p n) (lv p n)

/-- The chroma sub-blocks in the order they are transformed. -/
def chromaBlocks : List (Plane × Nat) :=
  [(.cb, 0), (.cb, 1), (.cb, 2), (.cb, 3), (.cr, 0), (.cr, 1), (.cr, 2), (.cr, 3)]

theorem mem_chromaBlocks {x : Plane × Nat} : x ∈ chromaBlocks ↔ x.1 ≠ .y ∧ x.2 < 4 := by
  obtain ⟨p, n⟩ := x
  cases p <;> simp [chromaBlocks] <;> omega

/-- Both planes transformed, as one run over the eight blocks. -/
theorem forward_chromaBlocks {s t : State} (h : runAll c8Forward [.cb, .cr] s = .ok t) :
    runAll (fun x => ftq4 x.1 x.2 true) chromaBlocks s = .ok t := by
  obtain ⟨u, hu, ht⟩ := runAll_chroma h
  rw [show chromaBlocks = [(.cb, 0), (.cb, 1), (.cb, 2), (.cb, 3)] ++ [(.cr, 0), (.cr, 1), (.cr, 2), (.cr, 3)] from rfl,
    runAll_append, show runAll (fun x : Plane × Nat => ftq4 x.1 x.2 true) [(.cb, 0), (.cb, 1), (.cb, 2), (.cb, 3)] s =
      .ok u from hu]
  exact ht

/-- Chroma sub-block `n` of plane `p` holds in `u` what FTQ4 computes for it from `s`. -/
def ChromaDone (s : State) (x : Plane × Nat) (u : State) : Prop :=
  ∃ dc lv, Transformed x.1 x.2 true s dc lv ∧ dcsave x.1 x.2 u = .ok dc ∧ BlockHolds x.1 x.2 lv u

/-- FTQ4 on another sub-block leaves what a sub-block holds. -/
theorem ChromaDone.stored {s u : State} {x y : Plane × Nat} (h : ChromaDone s x u) (hx : x.2 < x.1.nb) (hy : y.2 < y.1.nb)
    (hne : x ≠ y) (dc : Int) (lv : Nat → Int) : ChromaDone s x (ftStored y.1 y.2 true dc lv u) := by
  obtain ⟨dc', lv', ht, hd, hb⟩ := h
  have apart : x.1 = y.1 → x.2 ≠ y.2 := fun hp hn => hne (Prod.ext hp hn)
  refine ⟨dc', lv', ht, ?_, hb.same (ftStored_same hy hx apart true dc lv u)⟩
  have hdx := dcsaveAddr_range hx
  have hcy := coefAddr_lt hy (show 15 < 16 by decide)
  have hcy0 := coefAddr_add y.1 y.2 15
  have hzy := nnzAddr_count y.1 y.2
  have hd2 := dcsaveAddr_apart hx hy apart
  rw [← hd]
  exact lmSigned_congr (read_ftStored_out _ _ _ _ _ _ (by omega) (by omega) (by omega))
    (read_ftStored_out _ _ _ _ _ _ (by omega) (by omega) (by omega))

/-- FTQ4 on every chroma sub-block. -/
theorem chroma_forward {s t : State} (h : runAll c8Forward [.cb, .cr] s = .ok t) :
    LmChange s t ∧ HostKept s t ∧ ∀ x ∈ chromaBlocks, ChromaDone s x t := by
  have inPlane {x : Plane × Nat} (hx : x ∈ chromaBlocks) : x.2 < x.1.nb := quad_lt (mem_chromaBlocks.mp hx).2
  have := runAll_holds (I := fun u => LmChange s u ∧ HostKept s u) (D := ChromaDone s) (fun x hx u v hu hv => ?_)
    (forward_chromaBlocks h) ⟨LmChange.refl s, HostKept.refl s⟩
  · obtain ⟨⟨hlm, hk⟩, hdone⟩ := this
    exact ⟨hlm, hk, hdone⟩
  · obtain ⟨hlm, hk⟩ := hu
    obtain ⟨dc, lv, ht, rfl⟩ := ftq4_stores hv
    refine ⟨⟨hlm.trans (ftStored_lmChange _ _ _ _ _ _), hk.trans (ftStored_hostKept (inPlane hx) _ _ _ _)⟩, ?_,
      fun y hy hold => ?_⟩
    · exact ⟨dc, lv, ht.congr hk.symm (inPlane hx), ht.dcsave_stored (inPlane hx) u, ht.holds (inPlane hx) u⟩
    · by_cases he : y = x
      · subst he
        exact ⟨dc, lv, ht.congr hk.symm (inPlane hx), ht.dcsave_stored (inPlane hx) u, ht.holds (inPlane hx) u⟩
      · exact hold.stored (inPlane hy) (inPlane hx) he dc lv

/-- FTQ4's DC and sixteen levels are determined by the state. -/
theorem Transformed.unique {p : Plane} {n : Nat} {dcx : Bool} {s : State} {dc dc' : Int} {lv lv' : Nat → Int}
    (h : Transformed p n dcx s dc lv) (h' : Transformed p n dcx s dc' lv') : dc = dc' ∧ ∀ k, k < 16 → lv k = lv' k := by
  obtain ⟨res, hres, rfl, hl⟩ := h
  obtain ⟨res', hres', rfl, hl'⟩ := h'
  obtain rfl := Except.ok.inj (hres.symm.trans hres')
  exact ⟨rfl, fun k hk => Except.ok.inj ((hl k hk).symm.trans (hl' k hk))⟩

theorem BlockHolds.relevel {p : Plane} {n : Nat} {lv lv' : Nat → Int} {t : State} (h : BlockHolds p n lv t)
    (he : ∀ k, k < 16 → lv k = lv' k) : BlockHolds p n lv' t where
  coef k hk := he k hk ▸ h.coef k hk
  nnz := by
    rw [← show raster.map lv = raster.map lv' from List.map_congr_left fun k hk => he k (raster_lt16 hk)]
    exact h.nnz

/-- The blocks hold the levels of the state the transform began at. -/
theorem ChromaDone.holds {s u : State} {p : Plane} {n : Nat} {dc : Int} {lv : Nat → Int} (h : ChromaDone s (p, n) u)
    (ht : Transformed p n true s dc lv) : dcsave p n u = .ok dc ∧ BlockHolds p n lv u := by
  obtain ⟨dc', lv', ht', hd, hb⟩ := h
  obtain ⟨rfl, he⟩ := ht'.unique ht
  exact ⟨hd, hb.relevel he⟩

theorem chromaLevels_of_done {s u : State} (h : ∀ x ∈ chromaBlocks, ChromaDone s x u) : ∃ dc lv, ChromaLevels s dc lv := by
  have total : ∀ p n, ∃ dc lv, p ≠ .y → n < 4 → Transformed p n true s dc lv := fun p n => by
    by_cases hx : (p, n) ∈ chromaBlocks
    · obtain ⟨dc, lv, ht, -⟩ := h _ hx
      exact ⟨dc, lv, fun _ _ => ht⟩
    · exact ⟨0, fun _ => 0, fun hp hn => absurd (mem_chromaBlocks.mpr ⟨hp, hn⟩) hx⟩
  choose dc lv ht using total
  exact ⟨dc, lv, fun p hp n hn => ht p n hp hn⟩

/-! ### FHQ2 (40_forward.md R160) -/

/-- `dl` are the levels of the DC layer of chroma plane `p` FHQ2 computes from the DCs `dc`. -/
def QuadOf (p : Plane) (s : State) (dc dl : Nat → Int) : Prop :=
  ∀ k, k < 4 → fhq2Level p (h2 (quadOfList ([0, 1, 2, 3].map dc))) s k = .ok (dl k)

/-- The DC layer of chroma plane `p` in `t` is `dl`, with its count. -/
structure QuadHolds (p : Plane) (dl : Nat → Int) (t : State) : Prop where
  dccoef : ∀ k, k < 4 → dccoef p k t = .ok (dl k)
  nnzdc : nnzdc p t = .ok (countNonzero ([0, 1, 2, 3].map dl))

theorem QuadHolds.same {p : Plane} (hp : p ≠ .y) {dl : Nat → Int} {s t : State} (h : QuadHolds p dl s)
    (hf : ∀ a, LayerByte p a → t.lm.read a = s.lm.read a) : QuadHolds p dl t where
  dccoef k hk := by
    have ha : dccoefAddr p k = dccoefAddr p 0 + 2 * k := rfl
    have := chroma_nb hp
    rw [← h.dccoef k hk]
    exact lmSigned_congr (hf _ (.inr (by omega))) (hf _ (.inr (by omega)))
  nnzdc := (lmSample_congr (hf _ (.inl rfl))).trans h.nnzdc

theorem QuadHolds.complete {p : Plane} {dl : Nat → Int} {s : State} (h : QuadHolds p dl s) :
    QuadHolds p dl (complete s) := ⟨h.dccoef, h.nnzdc⟩

/-- `s` with the results of FHQ2 stored. -/
def quadStored (p : Plane) (dl : Nat → Int) (s : State) : State :=
  (s.putSigned (dccoefAddr p 0) ([0, 1, 2, 3].map dl)).putNnzdc p (countNonzero ([0, 1, 2, 3].map dl))

theorem fhq2_stores {p : Plane} {s t : State} {dc : Nat → Int} (hd : ∀ n, n < 4 → dcsave p n s = .ok (dc n))
    (h : fhq2 p s = .ok t) : ∃ dl, QuadOf p s dc dl ∧ t = quadStored p dl s := by
  simp only [fhq2, readAll_ok fun n hn => hd n (mem_quad.mp hn)] at h
  split at h
  · cases h
  · rename_i levels hl
    obtain ⟨dl, hdl, rfl⟩ := readAll_values hl
    cases h
    exact ⟨dl, fun k hk => hdl k (mem_quad.mpr hk), rfl⟩

theorem fhq2_of_quad {p : Plane} {s : State} {dc dl : Nat → Int} (hd : ∀ n, n < 4 → dcsave p n s = .ok (dc n))
    (h : QuadOf p s dc dl) : fhq2 p s = .ok (quadStored p dl s) := by
  simp only [fhq2, readAll_ok fun n hn => hd n (mem_quad.mp hn), readAll_ok fun k hk => h k (mem_quad.mp hk)]
  rfl

theorem QuadOf.congr {p : Plane} {s t : State} {dc dl : Nat → Int} (h : QuadOf p s dc dl) (hk : HostKept s t) :
    QuadOf p t dc dl := by
  intro k hk4
  rw [← h k hk4]
  simp only [fhq2Level, hk.qbits, hk.roundOff, hk.quantAt p (show 0 < 16 by decide)]

theorem countNonzero_quad_lt (f : Nat → Int) : countNonzero ([0, 1, 2, 3].map f) < 256 :=
  Nat.lt_of_le_of_lt (countNonzero_le _) (by rw [List.length_map]; decide)

/-- The layer after FHQ2 stored it. -/
theorem QuadOf.stored {p : Plane} (hp : p ≠ .y) {s : State} {dc dl : Nat → Int} (h : QuadOf p s dc dl) (u : State) :
    QuadHolds p dl (quadStored p dl u) where
  dccoef k hk := by
    have value : ([0, 1, 2, 3].map dl)[k]'hk = dl k := by
      have all : ∀ j (h : j < 4), [0, 1, 2, 3][j]'h = j := by decide
      rw [List.getElem_map]
      exact congrArg dl (all k hk)
    have hr := lmSigned_putSigned u (dccoefAddr p 0) k ([0, 1, 2, 3].map dl) hk
    rw [value, quantAt_trunc (h k hk)] at hr
    have ha : dccoefAddr p k = dccoefAddr p 0 + 2 * k := rfl
    have apart : dccoefAddr p k + 1 < nnzdcAddr p := by
      cases p <;> simp only [dccoefAddr, dcOffset, nnzdcAddr, Plane.idx] <;> omega
    rw [← ha] at hr
    rw [← hr]
    exact lmSigned_congr (read_putByte_ne _ _ (by omega)) (read_putByte_ne _ _ (by omega))
  nnzdc := lmSample_putByte _ _ _ (countNonzero_quad_lt dl)

theorem quadStored_lmChange (p : Plane) (dl : Nat → Int) (s : State) : LmChange s (quadStored p dl s) :=
  (lmChange_putSigned _ _ _).trans (lmChange_putByte _ _ _)

/-- FHQ2 leaves every byte outside the DC layer and its count. -/
theorem read_quadStored_out {p : Plane} (hp : p ≠ .y) (dl : Nat → Int) (s : State) {a : Nat} (h : ¬ LayerByte p a) :
    (quadStored p dl s).lm.read a = s.lm.read a := by
  have := chroma_nb hp
  simp only [LayerByte, not_or] at h
  obtain ⟨hz, hl⟩ := h
  have hlen : ([0, 1, 2, 3].map dl).length = 4 := rfl
  exact (read_putByte_ne _ _ hz).trans (read_putSigned_out _ _ _ _ (by omega))

theorem dcsave_accept (p : Plane) (n : Nat) (w : Word) (s : State) : dcsave p n (accept w s) = dcsave p n s := rfl

/-- FHQ2 as a command leaves what it computes. -/
theorem exec_fhq2 {p : Plane} (hp : p ≠ .y) {s : State} {dc dl : Nat → Int} (hd : ∀ n, n < 4 → dcsave p n s = .ok (dc n))
    (h : QuadOf p s dc dl) : ∃ u, exec (.fhq2 p) s = .next u ∧ QuadHolds p dl u := by
  have hw : (Instr.fhq2 p).wf = true := isChroma_of_ne hp
  have hc : issueCheck (.fhq2 p) s = none := by
    simp only [issueCheck, hw, show qparamOk (.fhq2 p) s = true from rfl]; rfl
  have ha : QuadOf p (accept (encode (.fhq2 p)) s) dc dl := h.congr (hostKept_accept _ s)
  have hda : ∀ n, n < 4 → dcsave p n (accept (encode (.fhq2 p)) s) = .ok (dc n) := fun n hn =>
    (dcsave_accept p n _ s).trans (hd n hn)
  refine ⟨complete (quadStored p dl (accept (encode (.fhq2 p)) s)), ?_, (ha.stored hp _).complete⟩
  rw [exec_eq]
  simp only [command, hc, stepsOf, fhq2_of_quad hda ha, finish]

/-- FHQ2 on both chroma planes. -/
theorem chroma_layers {s t : State} {dc : Plane → Nat → Int}
    (hd : ∀ p, p ≠ .y → ∀ n, n < 4 → dcsave p n s = .ok (dc p n)) (h : runAll fhq2 [.cb, .cr] s = .ok t) :
    LmChange s t ∧ (∀ a, (∀ p, ¬ LayerByte p a) → t.lm.read a = s.lm.read a) ∧
      ∃ dl : Plane → Nat → Int, ∀ p, p ≠ .y → QuadOf p s (dc p) (dl p) ∧ QuadHolds p (dl p) t := by
  obtain ⟨u, hu, ht⟩ := runAll_chroma h
  have hb : Plane.cb ≠ .y := by decide
  have hr : Plane.cr ≠ .y := by decide
  obtain ⟨db, hdb, rfl⟩ := fhq2_stores (hd .cb hb) hu
  have outb {a : Nat} (ha : ¬ LayerByte .cb a) := read_quadStored_out hb db s ha
  have hlb := quadStored_lmChange .cb db s
  have hkb : HostKept s (quadStored .cb db s) := hlb.hostKept fun a ha => outb fun h => by
    have := layerByte_range h; omega
  have hsave : ∀ n, n < 4 → dcsave .cr n (quadStored .cb db s) = .ok (dc .cr n) := fun n hn => by
    rw [← hd .cr hr n hn]
    exact dcsave_same (quad_lt hn) fun a h0 h1 => outb fun h => by have := layerByte_range h; omega
  obtain ⟨dr, hdr, rfl⟩ := fhq2_stores hsave ht
  have outr {a : Nat} (ha : ¬ LayerByte .cr a) := read_quadStored_out hr dr (quadStored .cb db s) ha
  refine ⟨hlb.trans (quadStored_lmChange .cr dr _), fun a ha => (outr (ha .cr)).trans (outb (ha .cb)),
    exists_chroma (P := fun p dl => QuadOf p s (dc p) dl ∧ QuadHolds p dl _)
      (forall_chroma ⟨db, hdb, ?_⟩ ⟨dr, hdr.congr hkb.symm, hdr.stored hr _⟩)⟩
  exact (hdb.stored hb s).same hb fun a ha => outr fun h => absurd (layerByte_unique ha h) (by decide)

/-! ### The DC bits (10_state.md R41) -/

theorem dcBit_lt (p : Plane) (n : Nat) : dcBit p n < 16 := by
  cases p <;> simp only [dcBit] <;> omega

/-- The AC bit stands in the upper half at the place of the DC bit in the lower. -/
theorem acBit_eq (p : Plane) {n : Nat} (hn : n < 4) : acBit p n = dcBit p n + 16 := by
  cases p <;> simp only [acBit, dcBit] <;> omega

theorem dcBit_unique {p q : Plane} (hp : p ≠ .y) (hq : q ≠ .y) {m n : Nat} (hm : m < 4) (hn : n < 4)
    (h : dcBit p m = dcBit q n) : p = q ∧ m = n := by
  cases p <;> cases q <;> simp only [dcBit, ne_eq, reduceCtorEq, not_true_eq_false, true_and, false_and] at * <;> omega

theorem acBit_unique {p q : Plane} (hp : p ≠ .y) (hq : q ≠ .y) {m n : Nat} (hm : m < 4) (hn : n < 4)
    (h : acBit p m = acBit q n) : p = q ∧ m = n := by
  rw [acBit_eq p hm, acBit_eq q hn] at h
  exact dcBit_unique hp hq hm hn (by omega)

/-- The DC bits of the sub-blocks of a chroma plane whose value is not 0 set. -/
def quadBits (p : Plane) (f : Nat → Int) (w : Word) : Word := setDcBits p 0 ([0, 1, 2, 3].map f) w

theorem getLsbD_quadBits (p : Plane) (f : Nat → Int) (w : Word) {i : Nat} (hi : i < 32) :
    (quadBits p f w).getLsbD i = true ↔
      w.getLsbD i = true ∨ ∃ n, n < 4 ∧ f n ≠ 0 ∧ i = dcBit p n := by
  have value : ∀ j (h : j < ([0, 1, 2, 3].map f).length), ([0, 1, 2, 3].map f)[j] = f j := fun j h => by
    have all : ∀ j (h : j < 4), [0, 1, 2, 3][j]'h = j := by decide
    rw [List.getElem_map]
    exact congrArg f (all j h)
  rw [quadBits, getLsbD_setDcBits _ _ _ _ hi]
  refine or_congr_right ⟨?_, ?_⟩
  · rintro ⟨j, hj, hne, he⟩
    rw [value] at hne
    exact ⟨j, hj, hne, by rw [he, Nat.zero_add]⟩
  · rintro ⟨n, hn, hne, he⟩
    exact ⟨n, hn, by rwa [value], by rw [he, Nat.zero_add]⟩

theorem planeBlocks_chroma {p : Plane} (hp : p ≠ .y) : planeBlocks p = [0, 1, 2, 3] := by
  cases p with
  | y => exact absurd rfl hp
  | cb => rfl
  | cr => rfl

theorem putCntrl_chroma {p : Plane} (hp : p ≠ .y) (f : Word → Word) (s : State) :
    s.putCntrl p (f (cntrl p s)) = { s with cntrlC := f s.cntrlC } := by
  cases p with
  | y => exact absurd rfl hp
  | cb => rfl
  | cr => rfl

theorem setQuadBits_stores {p : Plane} (hp : p ≠ .y) {dl : Nat → Int} {s t : State} (hl : QuadHolds p dl s)
    (h : setLayerBits p s = .ok t) : t = { s with cntrlC := quadBits p dl s.cntrlC } := by
  simp only [setLayerBits, planeBlocks_chroma hp, readAll_ok fun k hk => hl.dccoef k (mem_quad.mp hk)] at h
  rw [← putCntrl_chroma hp (quadBits p dl) s]
  exact (Except.ok.inj h).symm

/-- The DC bits both layers set. -/
def layerBits (dl : Plane → Nat → Int) (w : Word) : Word :=
  quadBits .cr (dl .cr) (quadBits .cb (dl .cb) w)

theorem getLsbD_layerBits (dl : Plane → Nat → Int) (w : Word) {i : Nat} (hi : i < 32) :
    (layerBits dl w).getLsbD i = true ↔
      w.getLsbD i = true ∨ ∃ p n, p ≠ .y ∧ n < 4 ∧ dl p n ≠ 0 ∧ i = dcBit p n := by
  rw [layerBits, getLsbD_quadBits _ _ _ hi, getLsbD_quadBits _ _ _ hi, or_assoc]
  refine or_congr_right ⟨?_, ?_⟩
  · rintro (⟨n, h⟩ | ⟨n, h⟩)
    · exact ⟨.cb, n, by decide, h⟩
    · exact ⟨.cr, n, by decide, h⟩
  · rintro ⟨p, n, hp, h⟩
    cases p with
    | y => exact absurd rfl hp
    | cb => exact .inl ⟨n, h⟩
    | cr => exact .inr ⟨n, h⟩

theorem chroma_layerBits {dl : Plane → Nat → Int} {s t : State} (hl : ∀ p, p ≠ .y → QuadHolds p (dl p) s)
    (h : runAll setLayerBits [.cb, .cr] s = .ok t) : t = { s with cntrlC := layerBits dl s.cntrlC } := by
  obtain ⟨u, hu, ht⟩ := runAll_chroma h
  obtain rfl := setQuadBits_stores (by decide) (hl .cb (by decide)) hu
  have stays : QuadHolds .cr (dl .cr) { s with cntrlC := quadBits .cb (dl .cb) s.cntrlC } :=
    (hl .cr (by decide)).same (by decide) fun _ _ => rfl
  rw [setQuadBits_stores (by decide) stays ht, layerBits]

/-! ### The DC records -/

/-- The record of a chroma DC layer. -/
def dcRecord (dl : Nat → Int) : List Byte := recordOf 0 ([0, 1, 2, 3].map dl)

/-- From `s` to `t` the records `bs` were appended and at most counts of DC layers stored. -/
structure LayersWritten (bs : List Byte) (s t : State) : Prop where
  records : AppendedAll bs s t
  fixed : ∃ m a c, t = { s with lm := m, arena := a, arenaCur := c }
  frame : ∀ a, (∀ p, ¬ LayerByte p a) → t.lm.read a = s.lm.read a

theorem LayersWritten.trans {bs cs : List Byte} {s t u : State} (h : LayersWritten bs s t) (k : LayersWritten cs t u) :
    LayersWritten (bs ++ cs) s u where
  records := appendedAll_trans h.records k.records
  fixed := by
    obtain ⟨_, _, _, rfl⟩ := h.fixed
    obtain ⟨m, a, c, rfl⟩ := k.fixed
    exact ⟨m, a, c, rfl⟩
  frame a ha := (k.frame a ha).trans (h.frame a ha)

theorem dcScan_chroma {p : Plane} (hp : p ≠ .y) : dcScan p = [0, 1, 2, 3] := by
  cases p with
  | y => exact absurd rfl hp
  | cb => rfl
  | cr => rfl

theorem c8DcRecord_writes {p : Plane} (hp : p ≠ .y) {dl : Plane → Nat → Int} {s t : State}
    (hl : ∀ q, q ≠ .y → QuadHolds q (dl q) s) (h : c8DcRecord p s = .ok t) :
    LayersWritten (dcRecord (dl p)) s t ∧ ∀ q, q ≠ .y → QuadHolds q (dl q) t := by
  simp only [c8DcRecord] at h
  split at h
  · cases h
  · rename_i r v hv
    cases h
    obtain ⟨vs, u, hvs, hu, rfl⟩ := emitDc_cases hv
    rw [dcScan_chroma hp] at hvs
    obtain rfl : vs = [0, 1, 2, 3].map (dl p) :=
      Except.ok.inj (hvs.symm.trans (readAll_ok fun k hk => (hl p hp).dccoef k (mem_quad.mp hk)))
    obtain ⟨hrec, hr, hfix⟩ := emit_appends (start := 0) (by rw [List.length_map]; decide) hu
    have hlm : u.lm = s.lm := by rw [hfix]
    have out {a : Nat} (ha : a ≠ nnzdcAddr p) : (u.putNnzdc p r.nnz).lm.read a = s.lm.read a := by
      rw [← hlm]; exact read_putByte_ne u _ ha
    refine ⟨⟨hrec, ⟨_, u.arena, u.arenaCur, by rw [hfix]; rfl⟩, fun a ha => out fun he => ha p (.inl he)⟩,
      fun q hq => ?_⟩
    by_cases hqp : q = p
    · subst hqp
      refine ⟨fun k hk => ?_, ?_⟩
      · have apart : dccoefAddr q k + 1 < nnzdcAddr q := by
          cases q <;> simp only [dccoefAddr, dcOffset, nnzdcAddr, Plane.idx] <;> omega
        rw [← (hl q hq).dccoef k hk]
        exact lmSigned_congr (out (by omega)) (out (by omega))
      · rw [hr]
        exact lmSample_putByte u _ _ (countNonzero_quad_lt _)
    · exact (hl q hq).same hq fun a ha => out fun he => hqp (layerByte_unique ha (.inl he))

theorem chroma_dcRecords {dl : Plane → Nat → Int} {s t : State} (hl : ∀ p, p ≠ .y → QuadHolds p (dl p) s)
    (h : runAll c8DcRecord [.cb, .cr] s = .ok t) :
    LayersWritten (dcRecord (dl .cb) ++ dcRecord (dl .cr)) s t ∧ ∀ p, p ≠ .y → QuadHolds p (dl p) t := by
  obtain ⟨u, hu, ht⟩ := runAll_chroma h
  obtain ⟨hb, hlu⟩ := c8DcRecord_writes (by decide) hl hu
  obtain ⟨hr, hlt⟩ := c8DcRecord_writes (by decide) hlu ht
  exact ⟨hb.trans hr, hlt⟩

/-! ### The DC stages together -/

/-- What CODE_C8 has done in `t` when its DC records are written, having begun at `s`. -/
structure DcCoded (s : State) (dc : Plane → Nat → Int) (lv : Plane → Nat → Nat → Int) (dl : Plane → Nat → Int)
    (t : State) : Prop where
  host : HostKept s t
  quad : ∀ p, p ≠ .y → QuadOf p s (dc p) (dl p)
  block : ∀ p, p ≠ .y → ∀ n, n < 4 → BlockHolds p n (lv p n) t
  save : ∀ p, p ≠ .y → ∀ n, n < 4 → dcsave p n t = .ok (dc p n)
  layer : ∀ p, p ≠ .y → QuadHolds p (dl p) t
  cntrl : t.cntrlC = layerBits dl 0
  elim : t.elim = clrChromaElim s.elim
  cbp : t.cbp = s.cbp
  records : AppendedAll (dcRecord (dl .cb) ++ dcRecord (dl .cr)) s t

theorem c8Dc_cases {s t : State} (h : c8Dc s = .ok t) :
    ∃ u v w, runAll c8Forward [.cb, .cr] s = .ok u ∧ runAll fhq2 [.cb, .cr] u = .ok v ∧
      runAll setLayerBits [.cb, .cr] { v with cntrlC := 0, elim := clrChromaElim v.elim } = .ok w ∧
      runAll c8DcRecord [.cb, .cr] w = .ok t := by
  simp only [c8Dc] at h
  split at h
  · cases h
  · rename_i u hu
    split at h
    · cases h
    · rename_i v hv
      split at h
      · cases h
      · rename_i w hw
        exact ⟨u, v, w, hu, hv, hw, h⟩

/-- CODE_C8 gives every chroma sub-block a DC and levels. -/
theorem c8Dc_levels {s t : State} (h : c8Dc s = .ok t) : ∃ dc lv, ChromaLevels s dc lv := by
  obtain ⟨u, -, -, hu, -⟩ := c8Dc_cases h
  exact chromaLevels_of_done (chroma_forward hu).2.2

theorem c8Dc_coded {dc : Plane → Nat → Int} {lv : Plane → Nat → Nat → Int} {s t : State} (hl : ChromaLevels s dc lv)
    (h : c8Dc s = .ok t) : ∃ dl, DcCoded s dc lv dl t := by
  obtain ⟨u, v, w, hu, hv, hw, ht⟩ := c8Dc_cases h
  obtain ⟨hlu, hku, hdone⟩ := chroma_forward hu
  have block (p : Plane) (hp : p ≠ .y) (n : Nat) (hn : n < 4) : dcsave p n u = .ok (dc p n) ∧ BlockHolds p n (lv p n) u :=
    (hdone _ (mem_chromaBlocks.mpr ⟨hp, hn⟩)).holds (hl p hp n hn)
  obtain ⟨hlv, hframe, dl, hdl⟩ := chroma_layers (fun p hp n hn => (block p hp n hn).1) hv
  have hlayer (p : Plane) (hp : p ≠ .y) : QuadHolds p (dl p) { v with cntrlC := 0, elim := clrChromaElim v.elim } :=
    (hdl p hp).2.same hp fun _ _ => rfl
  obtain rfl := chroma_layerBits hlayer hw
  have hlayer' (p : Plane) (hp : p ≠ .y) :
      QuadHolds p (dl p) { v with cntrlC := layerBits dl 0, elim := clrChromaElim v.elim } :=
    (hdl p hp).2.same hp fun _ _ => rfl
  obtain ⟨hrec, hend⟩ := chroma_dcRecords hlayer' ht
  have out {a : Nat} (ha : ∀ p, ¬ LayerByte p a) : t.lm.read a = u.lm.read a := (hrec.frame a ha).trans (hframe a ha)
  obtain ⟨m, rfl⟩ := hlu.trans hlv
  obtain ⟨m', a, c, rfl⟩ := hrec.fixed
  refine ⟨dl,
    { host := ⟨rfl, fun a ha => (out fun p h => ?_).trans (hku.below a ha)⟩
      quad := fun p hp => (hdl p hp).1.congr hku.symm
      block := fun p hp n hn => (block p hp n hn).2.same fun a ha => out fun q h => ?_
      save := fun p hp n hn => (dcsave_same (quad_lt hn) fun a h0 h1 => out fun q h => ?_).trans (block p hp n hn).1
      layer := hend
      cntrl := rfl
      elim := rfl
      cbp := rfl
      records := hrec.records }⟩
  · have := layerByte_range h; omega
  · have := layerByte_range h; have := blockByte_range (quad_lt hn) ha; omega
  · have := layerByte_range h; omega

end Laws

end Sys2Proof.Machine
end

section
/-! PROOFS. The AC stages of CODE_C8 (43_macroblock.md R250, R253): the AC records of a plane and its elimination
(`PlaneCoded`), and the coding part as a whole (`C8Coded`). -/

namespace Sys2Proof.Machine

namespace Laws

open Sys2Proof.Claims

/-! ### The AC record of one sub-block -/

/-- From `s` to `t` the AC records of the sub-blocks `ns` of chroma plane `p` with levels `lv` were appended, and their
counts and AC bits set. -/
structure AcWritten (p : Plane) (lv : Nat → Nat → Int) (ns : List Nat) (s t : State) : Prop where
  fixed : ∃ m a c w, t = { s with lm := m, arena := a, arenaCur := c, cntrlC := w }
  frame : ∀ a, (∀ n ∈ ns, a ≠ nnzAddr p n) → t.lm.read a = s.lm.read a
  block : ∀ n ∈ ns, BlockHolds p n (lv n) t
  records : AppendedAll (ns.flatMap fun n => recordOf 1 (acScan (lv n))) s t
  bits : ∀ i, i < 32 → (t.cntrlC.getLsbD i = true ↔
    s.cntrlC.getLsbD i = true ∨ ∃ n ∈ ns, (∃ k, k < 16 ∧ lv n k ≠ 0) ∧ i = acBit p n)

theorem AcWritten.nil (p : Plane) (lv : Nat → Nat → Int) (s : State) : AcWritten p lv [] s s where
  fixed := ⟨_, _, _, _, rfl⟩
  frame _ _ := rfl
  block _ h := nomatch h
  records := appendedAll_nil rfl rfl
  bits _ _ := by simp

theorem AcWritten.hostKept {p : Plane} {lv : Nat → Nat → Int} {ns : List Nat} {s t : State} (h : AcWritten p lv ns s t) :
    HostKept s t := by
  obtain ⟨_, _, _, _, rfl⟩ := h.fixed
  exact ⟨rfl, fun a ha => h.frame a fun n _ => by have := nnzAddr_count p n; omega⟩

/-- The records of other sub-blocks leave a sub-block. -/
theorem AcWritten.same {p q : Plane} {lv : Nat → Nat → Int} {ns : List Nat} {s t : State} (h : AcWritten p lv ns s t)
    (hns : ∀ n ∈ ns, n < p.nb) {m : Nat} (hm : m < q.nb) (hne : q = p → m ∉ ns) : SameBlock q m s t := by
  refine fun a ha => h.frame a fun n hn he => ?_
  obtain ⟨rfl, rfl⟩ := blockByte_unique hm (hns n hn) ha (.inl he)
  exact hne rfl hn

theorem AcWritten.cons {p : Plane} {lv : Nat → Nat → Int} {n : Nat} {ns : List Nat} {s t u : State}
    (h : AcWritten p lv [n] s t) (k : AcWritten p lv ns t u) (hn : n < p.nb) (hns : ∀ m ∈ ns, m < p.nb) :
    AcWritten p lv (n :: ns) s u where
  fixed := by
    obtain ⟨_, _, _, _, rfl⟩ := h.fixed
    obtain ⟨m, a, c, w, rfl⟩ := k.fixed
    exact ⟨m, a, c, w, rfl⟩
  frame a ha := by
    obtain ⟨hone, hrest⟩ := List.forall_mem_cons.mp ha
    exact (k.frame a hrest).trans (h.frame a (by simpa using hone))
  block := by
    refine List.forall_mem_cons.mpr ⟨?_, k.block⟩
    by_cases hm : n ∈ ns
    · exact k.block n hm
    · exact (h.block n (by simp)).same (k.same hns hn fun _ => hm)
  records := by
    have := appendedAll_trans h.records k.records
    rw [List.flatMap_singleton] at this
    rw [List.flatMap_cons]
    exact this
  bits i hi := by
    rw [k.bits i hi, h.bits i hi, or_assoc]
    simp only [List.exists_mem_cons_iff, List.not_mem_nil, false_and, exists_false, or_false]

theorem emitAc_cases {p : Plane} (hp : p ≠ .y) {n : Nat} {s t : State} {r : Emitted} (h : emitAc p n s = .ok (r, t)) :
    ∃ v, emitCoef p n true s = .ok (r, v) ∧
      t = { v with cntrlC := if 0 < r.nnz then setBit v.cntrlC (acBit p n) else v.cntrlC } := by
  simp only [emitAc] at h
  split at h
  · cases h
  · rename_i r' v hv
    cases h
    refine ⟨v, hv, ?_⟩
    split
    · exact putCntrl_chroma hp (setBit · (acBit p n)) v
    · rfl

theorem emitAc_written {p : Plane} (hp : p ≠ .y) {lv : Nat → Nat → Int} {n : Nat} (hn : n < p.nb) {s t : State} {r : Emitted}
    (hb : BlockHolds p n (lv n) s) (hz : lv n 0 = 0) (h : emitAc p n s = .ok (r, t)) :
    AcWritten p lv [n] s t ∧ r.cost = scanCost s (acScan (lv n)) := by
  obtain ⟨v, hv, rfl⟩ := emitAc_cases hp h
  have hw := emitCoef_written hb.coef hv
  have hcount : r.nnz = countNonzero (raster.map (lv n)) := hw.count.trans (countNonzero_acScan hz)
  have hholds : BlockHolds p n (lv n) v := hw.holds hn hb.coef (countNonzero_acScan hz)
  obtain ⟨m, a, c, hfix⟩ := hw.fixed
  have hcntrl : v.cntrlC = s.cntrlC := by rw [hfix]
  exact
    ⟨{ fixed := by rw [hfix]; exact ⟨_, _, _, _, rfl⟩
       frame := fun a ha => hw.frame a (ha n (List.mem_singleton_self n))
       block := fun j hj => by
        obtain rfl := List.mem_singleton.mp hj
        exact hholds.same fun _ _ => rfl
       records := by rw [List.flatMap_singleton]; exact hw.record
       bits := fun i hi => by
        simp only [getLsbD_setIf _ _ hi, hcount, countNonzero_pos, hcntrl, List.mem_singleton, exists_eq_left] }, hw.cost⟩

/-- The AC records of the sub-blocks `ns`, and the sum of their costs. -/
theorem emitAcs_written {p : Plane} (hp : p ≠ .y) {lv : Nat → Nat → Int} {s0 : State} (ns : List Nat) {s t : State}
    {any : Bool} {cost : Nat} (hk : HostKept s0 s) (hn : ∀ n ∈ ns, n < p.nb) (hb : ∀ n ∈ ns, BlockHolds p n (lv n) s)
    (hz : ∀ n ∈ ns, lv n 0 = 0) (hd : ns.Nodup) (h : emitAcs p ns s = .ok ((any, cost), t)) :
    AcWritten p lv ns s t ∧ cost = sumOver (fun n => scanCost s0 (acScan (lv n))) ns := by
  induction ns generalizing s any cost with
  | nil => cases h; exact ⟨AcWritten.nil p lv _, rfl⟩
  | cons n ns ih =>
    obtain ⟨hn, hns⟩ := List.forall_mem_cons.mp hn
    obtain ⟨hb, hbs⟩ := List.forall_mem_cons.mp hb
    obtain ⟨hz, hzs⟩ := List.forall_mem_cons.mp hz
    obtain ⟨hnot, hd⟩ := List.nodup_cons.mp hd
    simp only [emitAcs] at h
    split at h
    · cases h
    · rename_i r u hu
      split at h
      · cases h
      · rename_i any' cost' v hv
        cases h
        obtain ⟨hone, hcost⟩ := emitAc_written hp hn hb hz hu
        have stay : ∀ m ∈ ns, BlockHolds p m (lv m) u := fun m hm => (hbs m hm).same (hone.same (by simpa using hn)
          (hns m hm) fun _ he => hnot (List.mem_singleton.mp he ▸ hm))
        obtain ⟨hrest, rfl⟩ := ih (hk.trans hone.hostKept) hns stay hzs hd hv
        refine ⟨hone.cons hrest hn hns, ?_⟩
        rw [hcost, hk.scanCost]
        rfl

/-! ### A plane and its elimination -/

/-- The cost of a plane's AC levels. -/
def planeCost (s : State) (lv : Nat → Nat → Int) : Nat := sumOver (fun n => scanCost s (acScan (lv n))) [0, 1, 2, 3]

/-- With ELIM a plane is lost when its cost is below THR_C. -/
def planeLost (elim : Bool) (s : State) (lv : Nat → Nat → Int) : Bool := elim && decide (planeCost s lv < thrC s)

/-- The levels CODE_C8 leaves in a block of a plane. -/
def planeLevels (elim : Bool) (s : State) (lv : Nat → Nat → Int) (n : Nat) : Nat → Int :=
  if planeLost elim s lv then fun _ => 0 else lv n

/-- The AC records a plane leaves. -/
def planeRecords (elim : Bool) (s : State) (lv : Nat → Nat → Int) : List Byte :=
  if planeLost elim s lv then [] else [0, 1, 2, 3].flatMap fun n => recordOf 1 (acScan (lv n))

/-- From `s` to `t` the AC levels of chroma plane `p` were coded and, when their cost `c` is low, eliminated. -/
structure PlaneCoded (elim : Bool) (s0 : State) (p : Plane) (lv : Nat → Nat → Int) (c : Nat) (s t : State) : Prop where
  host : HostKept s t
  block : ∀ n, n < 4 → BlockHolds p n (planeLevels elim s0 lv n) t
  frame : ∀ a, (∀ n, n < 4 → ¬ BlockByte p n a) → t.lm.read a = s.lm.read a
  ac : ∀ n, n < 4 → (t.cntrlC.getLsbD (acBit p n) = true ↔
    (planeLost elim s0 lv = false ∧ s.cntrlC.getLsbD (acBit p n) = true) ∨ ∃ k, k < 16 ∧ planeLevels elim s0 lv n k ≠ 0)
  bits : ∀ i, i < 32 → (∀ n, n < 4 → i ≠ acBit p n) → t.cntrlC.getLsbD i = s.cntrlC.getLsbD i
  elimBits : ∀ i, i < 32 → (t.elim.getLsbD i = true ↔
    s.elim.getLsbD i = true ∨ (planeLost elim s0 lv = true ∧ i = 4 + p.idx))
  cbp : t.cbp = s.cbp
  cost : c = planeCost s0 lv
  records : AppendedAll (planeRecords elim s0 lv) s t

theorem HostKept.thrC {s t : State} (h : HostKept s t) : thrC t = thrC s := congrArg (bits · 23 16) h.thr

/-- Clearing AC bits clears those of the listed sub-blocks alone. -/
theorem getLsbD_clrAcBits (p : Plane) (ns : List Nat) (w : Word) {i : Nat} (hi : i < 32) :
    (clrAcBits p ns w).getLsbD i = true ↔ w.getLsbD i = true ∧ ∀ n ∈ ns, i ≠ acBit p n := by
  induction ns generalizing w with
  | nil => simp [clrAcBits]
  | cons n ns ih => rw [clrAcBits, ih, getLsbD_clrBit _ hi, List.forall_mem_cons, and_assoc]

/-- A plane's elimination changes its sub-blocks, its AC bits, its ELIM bit and the cursor. -/
theorem eliminatePlane_fixed (p : Plane) (start : Word) (s : State) :
    (∃ m, eliminatePlane p start s = { s with
      lm := m, arenaCur := start, cntrlC := clrAcBits p [0, 1, 2, 3] s.cntrlC, elim := setBit s.elim (4 + p.idx) }) ∧
      (∀ a, (∀ n, n < 4 → ¬ BlockByte p n a) → (eliminatePlane p start s).lm.read a = s.lm.read a) ∧
      ∀ n, n < 4 → BlockHolds p n (fun _ => 0) (eliminatePlane p start s) := by
  obtain ⟨hlm, hout⟩ := zeroBlocks_out p [0, 1, 2, 3] { s with
    arenaCur := start, cntrlC := clrAcBits p [0, 1, 2, 3] s.cntrlC, elim := setBit s.elim (4 + p.idx) }
  exact ⟨hlm, fun a ha => hout a fun n hn => ha n (mem_quad.mp hn),
    fun n hn => zeroBlocks_hold (fun n hn => four_lt hn) _ n (mem_quad.mpr hn)⟩

theorem c8Ac_cases {elim : Bool} {p : Plane} {c : Nat} {s t : State} (h : c8Ac elim p s = .ok (c, t)) :
    ∃ any u, emitAcs p [0, 1, 2, 3] s = .ok ((any, c), u) ∧
      t = if elim && decide (c < thrC u) then eliminatePlane p s.arenaCur u else u := by
  simp only [c8Ac] at h
  split at h
  · cases h
  · rename_i any cost u hu
    cases h
    exact ⟨any, u, hu, rfl⟩

/-- A plane kept. -/
theorem PlaneCoded.kept {elim : Bool} {p : Plane} {lv : Nat → Nat → Int} {s0 s t : State} (hp : p ≠ .y)
    (hw : AcWritten p lv [0, 1, 2, 3] s t) (hkept : planeLost elim s0 lv = false) :
    PlaneCoded elim s0 p lv (planeCost s0 lv) s t := by
  have levels (n : Nat) : planeLevels elim s0 lv n = lv n := by rw [planeLevels, hkept, if_neg Bool.false_ne_true]
  obtain ⟨m, a, c, w, hfix⟩ := hw.fixed
  exact
    { host := hw.hostKept
      block := fun n hn => by rw [levels]; exact hw.block n (mem_quad.mpr hn)
      frame := fun a ha => hw.frame a fun n hn he => ha n (mem_quad.mp hn) (.inl he)
      ac := fun n hn => by
        have := dcBit_lt p n
        have := acBit_eq p hn
        rw [levels, hkept, hw.bits _ (by omega)]
        refine or_congr (and_iff_right rfl).symm ⟨?_, fun hne => ⟨n, mem_quad.mpr hn, hne, rfl⟩⟩
        rintro ⟨j, hj, hne, he⟩
        obtain ⟨-, rfl⟩ := acBit_unique hp hp hn (mem_quad.mp hj) he
        exact hne
      bits := fun i hi hne => Bool.eq_iff_iff.mpr ((hw.bits i hi).trans (or_iff_left
        fun ⟨n, hn, _, he⟩ => hne n (mem_quad.mp hn) he))
      elimBits := fun i _ => by simp [hfix, hkept]
      cbp := by rw [hfix]
      cost := rfl
      records := by
        rw [planeRecords, hkept, if_neg Bool.false_ne_true]
        exact hw.records }

/-- A plane lost. -/
theorem PlaneCoded.lost {elim : Bool} {p : Plane} {lv : Nat → Nat → Int} {s0 s u : State}
    (hw : AcWritten p lv [0, 1, 2, 3] s u) (hlost : planeLost elim s0 lv = true) :
    PlaneCoded elim s0 p lv (planeCost s0 lv) s (eliminatePlane p s.arenaCur u) := by
  have levels (n : Nat) : planeLevels elim s0 lv n = fun _ => 0 := by rw [planeLevels, hlost, if_pos rfl]
  obtain ⟨m, a, c, w, hfix⟩ := hw.fixed
  obtain ⟨⟨m', he⟩, hout, hzero⟩ := eliminatePlane_fixed p s.arenaCur u
  have frame (a : Nat) (ha : ∀ n, n < 4 → ¬ BlockByte p n a) : (eliminatePlane p s.arenaCur u).lm.read a = s.lm.read a :=
    (hout a ha).trans (hw.frame a fun n hn he => ha n (mem_quad.mp hn) (.inl he))
  have cleared {i : Nat} (hi : i < 32) : (eliminatePlane p s.arenaCur u).cntrlC.getLsbD i = true ↔
      u.cntrlC.getLsbD i = true ∧ ∀ n ∈ [0, 1, 2, 3], i ≠ acBit p n := by
    rw [he]; exact getLsbD_clrAcBits p [0, 1, 2, 3] u.cntrlC hi
  exact
    { host := ⟨by rw [he, hfix]; rfl, fun a ha => frame a fun n _ hb => by have := blockByte_ge hb; omega⟩
      block := fun n hn => by rw [levels]; exact hzero n hn
      frame := frame
      ac := fun n hn => by
        have := dcBit_lt p n
        have := acBit_eq p hn
        rw [cleared (by omega), levels, hlost]
        constructor
        · exact fun h => absurd rfl (h.2 n (mem_quad.mpr hn))
        · rintro (h | ⟨k, -, hne⟩)
          · exact absurd h.1 (by decide)
          · exact absurd rfl hne
      bits := fun i hi hne => by
        refine Bool.eq_iff_iff.mpr ((cleared hi).trans ?_)
        rw [hw.bits i hi]
        have none : ¬ ∃ n ∈ [0, 1, 2, 3], (∃ k, k < 16 ∧ lv n k ≠ 0) ∧ i = acBit p n :=
          fun ⟨n, hn, _, he⟩ => hne n (mem_quad.mp hn) he
        rw [or_iff_left none]
        exact and_iff_left fun n hn => hne n (mem_quad.mp hn)
      elimBits := fun i hi => by
        have hu : u.elim = s.elim := by rw [hfix]
        rw [he, hlost, ← hu]
        simp only [getLsbD_setBit _ hi, true_and]
      cbp := by rw [he, hfix]
      cost := rfl
      records := by
        rw [planeRecords, hlost, if_pos rfl]
        exact appendedAll_rewind hw.records (by rw [he]) (by rw [he]) }

/-- The AC stage of one plane. -/
theorem c8Ac_coded {elim : Bool} {p : Plane} (hp : p ≠ .y) {lv : Nat → Nat → Int} {c : Nat} {s0 s t : State}
    (hk : HostKept s0 s) (hb : ∀ n, n < 4 → BlockHolds p n (lv n) s) (hz : ∀ n, n < 4 → lv n 0 = 0)
    (h : c8Ac elim p s = .ok (c, t)) : PlaneCoded elim s0 p lv c s t := by
  obtain ⟨any, u, hu, rfl⟩ := c8Ac_cases h
  obtain ⟨hw, rfl⟩ := emitAcs_written hp [0, 1, 2, 3] hk (fun n hn => four_lt hn) (fun n hn => hb n (mem_quad.mp hn))
    (fun n hn => hz n (mem_quad.mp hn)) (by decide) hu
  have hthr : (elim && decide (planeCost s0 lv < thrC u)) = planeLost elim s0 lv := by
    rw [planeLost, (hk.trans hw.hostKept).thrC]
  change PlaneCoded elim s0 p lv (planeCost s0 lv) s (if elim && decide (planeCost s0 lv < thrC u) then _ else u)
  rw [hthr]
  cases hlost : planeLost elim s0 lv with
  | false => exact PlaneCoded.kept hp hw hlost
  | true => exact PlaneCoded.lost hw hlost

/-! ### What the AC stage of a plane does to its own bits and to the rest -/

section
variable {elim : Bool} {p q : Plane} {lv : Nat → Nat → Int} {c : Nat} {s0 s t : State} (h : PlaneCoded elim s0 p lv c s t)
include h

theorem PlaneCoded.sameBlock (hne : q ≠ p) {n : Nat} (hn : n < 4) : SameBlock q n s t := fun a ha =>
  h.frame a fun _ hm hb => hne (blockByte_unique (quad_lt hn) (quad_lt hm) ha hb).1

theorem PlaneCoded.out {a : Nat} (ha : (0x1300 ≤ a ∧ a < 0x1400) ∨ 0x1418 ≤ a) : t.lm.read a = s.lm.read a :=
  h.frame a fun _ hm hb => by have := blockByte_range (quad_lt hm) hb; omega

theorem PlaneCoded.ac_own {n : Nat} (hn : n < 4) (hclear : s.cntrlC.getLsbD (acBit p n) = false) :
    t.cntrlC.getLsbD (acBit p n) = true ↔ ∃ k, k < 16 ∧ planeLevels elim s0 lv n k ≠ 0 := by
  rw [h.ac n hn, hclear]
  exact or_iff_right fun hb => absurd hb.2 Bool.false_ne_true

theorem PlaneCoded.ac_other (hp : p ≠ .y) (hq : q ≠ .y) (hne : q ≠ p) {n : Nat} (hn : n < 4) :
    t.cntrlC.getLsbD (acBit q n) = s.cntrlC.getLsbD (acBit q n) := by
  have := dcBit_lt q n
  have := acBit_eq q hn
  exact h.bits _ (by omega) fun _ hm he => hne (acBit_unique hq hp hn hm he).1

theorem PlaneCoded.dc_bit (q : Plane) (n : Nat) : t.cntrlC.getLsbD (dcBit q n) = s.cntrlC.getLsbD (dcBit q n) := by
  have := dcBit_lt q n
  exact h.bits _ (by omega) fun m hm he => by have := acBit_eq p hm; omega

theorem PlaneCoded.elim_own (hclear : s.elim.getLsbD (4 + p.idx) = false) :
    t.elim.getLsbD (4 + p.idx) = planeLost elim s0 lv := by
  have := Sys2Proof.Laws.ReservedZero.idx_lt p
  refine Bool.eq_iff_iff.mpr ((h.elimBits _ (by omega)).trans ?_)
  rw [hclear]
  exact ⟨fun hb => (hb.resolve_left Bool.false_ne_true).1, fun hl => .inr ⟨hl, rfl⟩⟩

theorem PlaneCoded.elim_other (hne : q ≠ p) : t.elim.getLsbD (4 + q.idx) = s.elim.getLsbD (4 + q.idx) := by
  have := Sys2Proof.Laws.ReservedZero.idx_lt q
  refine Bool.eq_iff_iff.mpr ((h.elimBits _ (by omega)).trans (or_iff_left fun hb => hne ?_))
  revert hb
  cases p <;> cases q <;> simp [Plane.idx]

end

/-! ### The coding part -/

/-- The counts of the blocks of a plane, as CHROMA_CBP reads them. -/
def planeCounts (elim : Bool) (s : State) (lv : Nat → Nat → Int) : List Nat :=
  [0, 1, 2, 3].map fun n => countNonzero (raster.map (planeLevels elim s lv n))

/-- The count of a DC layer. -/
def layerCount (dl : Nat → Int) : Nat := countNonzero ([0, 1, 2, 3].map dl)

/-- What the coding of both chroma planes leaves in `t` when it began at `s`. -/
structure PlanesCoded (elim : Bool) (s : State) (dc : Plane → Nat → Int) (lv : Plane → Nat → Nat → Int)
    (dl : Plane → Nat → Int) (t : State) : Prop where
  quad : ∀ p, p ≠ .y → QuadOf p s (dc p) (dl p)
  block : ∀ p, p ≠ .y → ∀ n, n < 4 → BlockHolds p n (planeLevels elim s (lv p) n) t
  save : ∀ p, p ≠ .y → ∀ n, n < 4 → dcsave p n t = .ok (dc p n)
  layer : ∀ p, p ≠ .y → QuadHolds p (dl p) t
  ac : ∀ p, p ≠ .y → ∀ n, n < 4 →
    (t.cntrlC.getLsbD (acBit p n) = true ↔ ∃ k, k < 16 ∧ planeLevels elim s (lv p) n k ≠ 0)
  elimBit : ∀ p, p ≠ .y → t.elim.getLsbD (4 + p.idx) = planeLost elim s (lv p)
  records : AppendedAll (dcRecord (dl .cb) ++ dcRecord (dl .cr) ++ planeRecords elim s (lv .cb) ++
    planeRecords elim s (lv .cr)) s t

/-- A DC bit of `t` tells whether the level of the DC layer is not 0. -/
def LayerBits (dl : Plane → Nat → Int) (t : State) : Prop :=
  ∀ p, p ≠ .y → ∀ n, n < 4 → (t.cntrlC.getLsbD (dcBit p n) = true ↔ dl p n ≠ 0)

/-- What the coding part of CODE_C8 leaves in `t` when it ran from `s`. -/
structure C8Coded (elim : Bool) (s : State) (dc : Plane → Nat → Int) (lv : Plane → Nat → Nat → Int)
    (dl : Plane → Nat → Int) (t : State) : Prop extends PlanesCoded elim s dc lv dl t where
  cbp : t.cbp = withChromaCbp s.cbp (layerCount (dl .cb)) (layerCount (dl .cr)) (planeCounts elim s (lv .cb))
    (planeCounts elim s (lv .cr))
  costC : t.costC.toNat = planeCost s (lv .cb) + 65536 * planeCost s (lv .cr)

/-- A plane's cost fits its half of COST_C (10_state.md R45). -/
theorem planeCost_lt (s : State) (lv : Nat → Nat → Int) : planeCost s lv < 65536 := by
  have one (n : Nat) : scanCost s (acScan (lv n)) ≤ 3825 := by
    rw [Claims.scanCost, costLoop_eq]
    exact costFrom_le (costLut_le s) (largeCost_le s) _ 0
  have := one 0
  have := one 1
  have := one 2
  have := one 3
  simp only [planeCost, sumOver, List.map_cons, List.map_nil, List.sum_cons, List.sum_nil]
  omega

theorem c8Code_cases {elim : Bool} {s t : State} (h : c8Code elim s = .ok t) :
    ∃ u cb v cr w, c8Dc s = .ok u ∧ c8Ac elim .cb u = .ok (cb, v) ∧ c8Ac elim .cr v = .ok (cr, w) ∧
      chromaCbp { w with costC := BitVec.ofNat 32 (cb + 2 ^ 16 * cr) } = .ok t := by
  simp only [c8Code] at h
  split at h
  · cases h
  · rename_i u hu
    split at h
    · cases h
    · rename_i cb v hv
      split at h
      · cases h
      · rename_i cr w hw
        exact ⟨u, cb, v, cr, w, hu, hv, hw, h⟩

/-- The control bits when the DC layers have set theirs. -/
theorem DcCoded.bits {s : State} {dc : Plane → Nat → Int} {lv : Plane → Nat → Nat → Int} {dl : Plane → Nat → Int}
    {t : State} (h : DcCoded s dc lv dl t) {p : Plane} (hp : p ≠ .y) {n : Nat} (hn : n < 4) :
    t.cntrlC.getLsbD (acBit p n) = false ∧ (t.cntrlC.getLsbD (dcBit p n) = true ↔ dl p n ≠ 0) := by
  have hlt := dcBit_lt p n
  have hac := acBit_eq p hn
  have bit {i : Nat} (hi : i < 32) : t.cntrlC.getLsbD i = true ↔
      ∃ p n, p ≠ .y ∧ n < 4 ∧ dl p n ≠ 0 ∧ i = dcBit p n := by
    rw [h.cntrl, getLsbD_layerBits dl 0 hi]
    exact or_iff_right fun hz => absurd ((getLsbD_zero_word i).symm.trans hz) Bool.false_ne_true
  constructor
  · refine Bool.eq_false_iff.mpr fun hset => ?_
    obtain ⟨q, m, -, -, -, he⟩ := (bit (by omega)).mp hset
    have := dcBit_lt q m
    omega
  · refine (bit (by omega)).trans ⟨?_, fun hne => ⟨p, n, hp, hn, hne, rfl⟩⟩
    rintro ⟨q, m, hq, hm, hne, he⟩
    obtain ⟨rfl, rfl⟩ := dcBit_unique hp hq hn hm he
    exact hne

theorem clrChromaElim_bit (w : Word) {p : Plane} (hp : p ≠ .y) : (clrChromaElim w).getLsbD (4 + p.idx) = false := by
  have mask : ∀ p : Plane, p ≠ .y → (0xFFFFFF9F : Word).getLsbD (4 + p.idx) = false :=
    forall_chroma (P := fun p => (0xFFFFFF9F : Word).getLsbD (4 + p.idx) = false) (by decide) (by decide)
  rw [clrChromaElim, BitVec.getLsbD_and, mask p hp, Bool.and_false]

theorem PlanesCoded.of_stages {elim : Bool} {dc : Plane → Nat → Int} {lv : Plane → Nat → Nat → Int}
    {dl : Plane → Nat → Int} {cb cr : Nat} {s u v w : State} (hu : DcCoded s dc lv dl u)
    (hb : PlaneCoded elim s .cb (lv .cb) cb u v) (hr : PlaneCoded elim s .cr (lv .cr) cr v w) :
    PlanesCoded elim s dc lv dl w ∧ LayerBits dl w ∧ w.cbp = s.cbp := by
  have ne : Plane.cb ≠ .cr := by decide
  have hcb : Plane.cb ≠ .y := by decide
  have hcr : Plane.cr ≠ .y := by decide
  have out {a : Nat} (ha : (0x1300 ≤ a ∧ a < 0x1400) ∨ 0x1418 ≤ a) : w.lm.read a = u.lm.read a :=
    (hr.out ha).trans (hb.out ha)
  have start {p : Plane} (hp : p ≠ .y) : u.elim.getLsbD (4 + p.idx) = false := by
    rw [hu.elim]; exact clrChromaElim_bit s.elim hp
  exact
    ⟨{ quad := hu.quad
       block := forall_chroma (fun n hn => (hb.block n hn).same (hr.sameBlock ne hn)) hr.block
       save := fun p hp n hn =>
        (dcsave_same (quad_lt hn) fun a h0 h1 => out (by omega)).trans (hu.save p hp n hn)
       layer := fun p hp => (hu.layer p hp).same hp fun a ha => out (by have := layerByte_range ha; omega)
       ac := forall_chroma
        (fun n hn => by
          rw [hr.ac_other hcr hcb ne hn]
          exact hb.ac_own hn (hu.bits hcb hn).1)
        (fun n hn => hr.ac_own hn ((hb.ac_other hcb hcr ne.symm hn).trans (hu.bits hcr hn).1))
       elimBit := forall_chroma ((hr.elim_other ne).trans (hb.elim_own (start hcb)))
        (hr.elim_own ((hb.elim_other ne.symm).trans (start hcr)))
       records := appendedAll_trans (appendedAll_trans hu.records hb.records) hr.records },
      fun p hp n hn => by
        rw [hr.dc_bit, hb.dc_bit]
        exact (hu.bits hp hn).2,
      hr.cbp.trans (hb.cbp.trans hu.cbp)⟩

/-- COST_C and CBP written after both planes. -/
theorem PlanesCoded.finish {elim : Bool} {dc : Plane → Nat → Int} {lv : Plane → Nat → Nat → Int}
    {dl : Plane → Nat → Int} {s w t : State} (h : PlanesCoded elim s dc lv dl w) (hcbp : w.cbp = s.cbp)
    (ht : chromaCbp { w with costC := BitVec.ofNat 32 (planeCost s (lv .cb) + 2 ^ 16 * planeCost s (lv .cr)) } = .ok t) :
    C8Coded elim s dc lv dl t ∧ t.cntrlC = w.cntrlC := by
  have hb := planeCost_lt s (lv .cb)
  have hr := planeCost_lt s (lv .cr)
  generalize hcost : planeCost s (lv .cb) + 2 ^ 16 * planeCost s (lv .cr) = cost at ht
  have layer (p : Plane) (hp : p ≠ .y) : nnzdc p { w with costC := BitVec.ofNat 32 cost } = .ok (layerCount (dl p)) :=
    (h.layer p hp).nnzdc
  have counts (p : Plane) (hp : p ≠ .y) :
      readAll (fun n => nnz p n { w with costC := BitVec.ofNat 32 cost }) [0, 1, 2, 3] =
        .ok (planeCounts elim s (lv p)) :=
    readAll_ok fun n hn => (h.block p hp n (mem_quad.mp hn)).nnz
  simp only [chromaCbp, layer .cb (by decide), layer .cr (by decide), counts .cb (by decide), counts .cr (by decide)] at ht
  cases ht
  exact
    ⟨{ quad := h.quad
       block := fun p hp n hn => (h.block p hp n hn).same fun _ _ => rfl
       save := h.save
       layer := fun p hp => (h.layer p hp).same hp fun _ _ => rfl
       ac := h.ac
       elimBit := h.elimBit
       cbp := by rw [← hcbp]
       costC := (BitVec.toNat_ofNat cost 32).trans (by omega)
       records := h.records }, rfl⟩

/-- The coding part of CODE_C8 codes; its DC bits are those of the DC layers. -/
theorem c8Code_coded {elim : Bool} {dc : Plane → Nat → Int} {lv : Plane → Nat → Nat → Int} {s t : State}
    (hl : ChromaLevels s dc lv) (h : c8Code elim s = .ok t) :
    ∃ dl, C8Coded elim s dc lv dl t ∧ LayerBits dl t := by
  obtain ⟨u, cb, v, cr, w, hu, hv, hw, ht⟩ := c8Code_cases h
  obtain ⟨dl, hu⟩ := c8Dc_coded hl hu
  have hcb : Plane.cb ≠ .y := by decide
  have hcr : Plane.cr ≠ .y := by decide
  have hb := c8Ac_coded hcb hu.host (hu.block .cb hcb) (fun n hn => (hl .cb hcb n hn).level_zero) hv
  have stay (n : Nat) (hn : n < 4) : BlockHolds .cr n (lv .cr n) v :=
    (hu.block .cr hcr n hn).same (hb.sameBlock (by decide) hn)
  have hr := c8Ac_coded hcr (hu.host.trans hb.host) stay (fun n hn => (hl .cr hcr n hn).level_zero) hw
  obtain rfl := hb.cost
  obtain rfl := hr.cost
  obtain ⟨hcoded, hbits, hcbp⟩ := PlanesCoded.of_stages hu hb hr
  obtain ⟨hcoded, hcntrl⟩ := hcoded.finish hcbp ht
  exact ⟨dl, hcoded, by rw [LayerBits, hcntrl]; exact hbits⟩

end Laws

end Sys2Proof.Machine
end

section
/-! PROOFS. Reconstruction keeps what CODE_C8 coded and promotes its DC bits (43_macroblock.md R257, R260); CODE_C8 as a
whole, and the statement `ChromaSoundness`. -/

namespace Sys2Proof.Machine

namespace Laws

open Sys2Proof.Claims

/-! ### Reconstruction of chroma -/

theorem mem_dcrec_chroma {p : Plane} (hp : p ≠ .y) {a : Nat} (h : a ∈ dcrecAddrs p) : 0x13A0 ≤ a ∧ a < 0x13B0 := by
  have h := mem_addrs.mp h
  cases p with
  | y => exact absurd rfl hp
  | cb => simp only [dcrecAddr, dcOffset, Plane.nb] at h; omega
  | cr => simp only [dcrecAddr, dcOffset, Plane.nb] at h; omega

theorem mem_recPlane_lt {p : Plane} {a : Nat} (h : a ∈ recPlaneAddrs p) : a < 0x1000 := by
  have h := mem_addrs.mp h
  cases p <;> simp [sampleAddr, recBase, planeOffset, planeWidth, row0, col0, Plane.nb] at h <;> omega

/-- Promotion of a chroma plane sets the DC bit of each sub-block whose DCREC is not 0. -/
theorem promote_chroma {p : Plane} (hp : p ≠ .y) {s t : State} (h : promote p s = .ok t) :
    ∃ f : Nat → Int, (∀ n, n < 4 → dcrec p n s = .ok (f n)) ∧ t = { s with cntrlC := quadBits p f s.cntrlC } := by
  simp only [promote, planeBlocks_chroma hp] at h
  split at h
  · cases h
  · rename_i recs hr
    obtain ⟨f, hf, rfl⟩ := readAll_values hr
    exact ⟨f, fun n hn => hf n (mem_quad.mpr hn),
      (Except.ok.inj h).symm.trans (putCntrl_chroma hp (quadBits p f) s)⟩

/-- IHS2 and promotion of a chroma plane: its DCRECs, its DC bits, and what stays. -/
theorem reconCDc_promotes {p : Plane} (hp : p ≠ .y) {s t : State} (h : reconCDc p s = .ok t) :
    ∃ f : Nat → Int, (∀ n, n < 4 → dcrec p n t = .ok (f n)) ∧ t.cntrlC = quadBits p f s.cntrlC ∧
      ∀ a, a ∉ dcrecAddrs p → t.lm.read a = s.lm.read a := by
  simp only [reconCDc] at h
  split at h
  · cases h
  · rename_i u hu
    have hw := (ihs2_works (lmScope (dcrecAddrs p)) s (isChroma_of_ne hp) fun a ha => ha).ok hu
    obtain ⟨f, hf, rfl⟩ := promote_chroma hp h
    have cntrl : u.cntrlC = s.cntrlC := hw.csr (c := .cntrlC) rfl
    exact ⟨f, hf, congrArg (quadBits p f) cntrl, hw.frame⟩

theorem reconC8_cases {border : Bool} {s t : State} (h : reconC8 border s = .ok t) :
    ∃ u m w, runAll reconCDc [.cb, .cr] s = .ok u ∧ reconPlane .cb m true u = .ok w ∧ reconPlane .cr m true w = .ok t := by
  simp only [reconC8] at h
  split at h
  · cases h
  · rename_i u hu
    split at h
    · cases h
    · rename_i w hw
      exact ⟨u, _, w, hu, hw, h⟩

/-- The reconstruction of a plane keeps CNTRL_C and every buffer from COEF on. -/
theorem reconPlane_stays {p : Plane} {m : Word} {f : Bool} {s t : State} (h : reconPlane p m f s = .ok t) :
    t.cntrlC = s.cntrlC ∧ ∀ a, 0x1000 ≤ a → t.lm.read a = s.lm.read a := by
  have hw := (reconPlane_works (lmScope (recPlaneAddrs p)) p m f s fun a ha => ha).ok h
  exact ⟨hw.csr (c := .cntrlC) rfl, fun a ha => hw.frame a fun hm => by have := mem_recPlane_lt hm; omega⟩

/-- DCREC of a sub-block stays while its two bytes do. -/
theorem dcrec_same {p : Plane} {n : Nat} {s t : State}
    (h : ∀ a, dcrecAddr p n ≤ a → a < dcrecAddr p n + 2 → t.lm.read a = s.lm.read a) : dcrec p n t = dcrec p n s :=
  lmSigned_congr (h _ (by omega) (by omega)) (h _ (by omega) (by omega))

/-- The values of Cb and those of Cr as values of a plane. -/
def byPlane (fb fr : Nat → Int) : Plane → Nat → Int
  | .y => fb
  | .cb => fb
  | .cr => fr

/-- After reconstruction the DC bits are those it began with and those of the DCRECs that are not 0. -/
theorem reconC8_promotes {border : Bool} {s t : State} (h : reconC8 border s = .ok t) :
    ∃ f : Plane → Nat → Int, (∀ p, p ≠ .y → ∀ n, n < 4 → dcrec p n t = .ok (f p n)) ∧
      t.cntrlC = layerBits f s.cntrlC := by
  obtain ⟨v, m, w, hv, hw, ht⟩ := reconC8_cases h
  obtain ⟨u, hu, hv⟩ := runAll_chroma hv
  obtain ⟨fb, hfb, hcb, -⟩ := reconCDc_promotes (by decide) hu
  obtain ⟨fr, hfr, hcr, hframe⟩ := reconCDc_promotes (by decide) hv
  obtain ⟨hcw, hlw⟩ := reconPlane_stays hw
  obtain ⟨hct, hlt⟩ := reconPlane_stays ht
  have stays {a : Nat} (ha : 0x1000 ≤ a) : t.lm.read a = v.lm.read a := (hlt a ha).trans (hlw a ha)
  have above (p : Plane) (n : Nat) : 0x1000 ≤ dcrecAddr p n := by simp only [dcrecAddr]; omega
  have cbStays (n : Nat) (hn : n < 4) : dcrec .cb n v = .ok (fb n) := by
    rw [← hfb n hn]
    refine dcrec_same fun a h0 h1 => hframe a fun hm => ?_
    have := mem_addrs.mp hm
    simp only [dcrecAddr, dcOffset, Plane.nb] at *
    omega
  have after (p : Plane) (n : Nat) : dcrec p n t = dcrec p n v :=
    dcrec_same fun a h0 _ => stays (Nat.le_trans (above p n) h0)
  refine ⟨byPlane fb fr, forall_chroma (fun n hn => (after .cb n).trans (cbStays n hn))
    fun n hn => (after .cr n).trans (hfr n hn), ?_⟩
  rw [hct, hcw, hcr, hcb]
  rfl

/-- Reconstruction keeps what CODE_C8 coded. -/
theorem C8Coded.recon {elim border : Bool} {s t u : State} {dc : Plane → Nat → Int} {lv : Plane → Nat → Nat → Int}
    {dl : Plane → Nat → Int} (h : C8Coded elim s dc lv dl t) (hu : reconC8 border t = .ok u) :
    C8Coded elim s dc lv dl u := by
  have hw := (reconC8_works (reconCScope border 0) border t).ok hu
  have stays : ∀ a, 0x1000 ≤ a → a < 0x13A0 ∨ 0x13B0 ≤ a → u.lm.read a = t.lm.read a := fun a h0 h1 =>
    hw.frame a fun hm => by
      obtain ⟨p, hp, hm⟩ := List.mem_flatMap.mp hm
      have hne : p ≠ .y := fun he => by subst he; exact absurd hp (by decide)
      rcases List.mem_append.mp hm with hm | hm
      · have := mem_dcrec_chroma hne hm; omega
      · have := mem_recPlane_lt hm; omega
  have arena : u.arena = t.arena := hw.still fun hk => absurd (all_kept.symm.trans hk) (by decide)
  have cur : u.arenaCur = t.arenaCur := hw.csr (c := .arenaCur) all_kept
  have elims : u.elim = t.elim := hw.csr (c := .elim) all_kept
  obtain ⟨f, -, hcntrl⟩ := reconC8_promotes hu
  exact
    { quad := h.quad
      block := fun p hp n hn => (h.block p hp n hn).same fun a ha =>
        stays a (blockByte_ge ha) (by have := blockByte_range (quad_lt hn) ha; omega)
      save := fun p hp n hn =>
        (dcsave_same (quad_lt hn) fun a h0 h1 => stays a (by omega) (by omega)).trans (h.save p hp n hn)
      layer := fun p hp => (h.layer p hp).same hp fun a ha => by
        have := layerByte_range ha
        exact stays a (by omega) (by omega)
      ac := fun p hp n hn => by
        have := dcBit_lt p n
        have := acBit_eq p hn
        rw [hcntrl, getLsbD_layerBits f _ (by omega), or_iff_left]
        · exact h.ac p hp n hn
        · rintro ⟨q, m, -, -, -, he⟩
          have := dcBit_lt q m
          omega
      elimBit := elims ▸ h.elimBit
      cbp := (show u.cbp = t.cbp from hw.csr (c := .cbp) all_kept).trans h.cbp
      costC := (show u.costC = t.costC from hw.csr (c := .costC) all_kept) ▸ h.costC
      records := by simpa using appendedAll_trans h.records (appendedAll_nil arena cur) }

/-! ### CODE_C8 -/

theorem codeC8_cases {elim recon border : Bool} {s t : State} (h : codeC8 elim recon border s = .ok t) :
    ∃ u, c8Code elim s = .ok u ∧ ((recon = false ∧ t = u) ∨ (recon = true ∧ reconC8 border u = .ok t)) := by
  simp only [codeC8] at h
  split at h
  · cases h
  · rename_i u hu
    refine ⟨u, hu, ?_⟩
    cases recon with
    | false => exact .inl ⟨rfl, (Except.ok.inj h).symm⟩
    | true => exact .inr ⟨rfl, h⟩

/-- CODE_C8 codes, with and without reconstruction; its DC bits are those of the DC layers, promoted with RECON. -/
theorem codeC8_coded {elim recon border : Bool} {dc : Plane → Nat → Int} {lv : Plane → Nat → Nat → Int} {s t : State}
    (hl : ChromaLevels s dc lv) (h : codeC8 elim recon border s = .ok t) :
    ∃ dl, C8Coded elim s dc lv dl t ∧ ∀ p, p ≠ .y → ∀ n, n < 4 → (t.cntrlC.getLsbD (dcBit p n) = true ↔
      dl p n ≠ 0 ∨ (recon = true ∧ ∃ q, dcrec p n t = .ok q ∧ q ≠ 0)) := by
  obtain ⟨u, hu, hrest⟩ := codeC8_cases h
  obtain ⟨dl, hcoded, hbits⟩ := c8Code_coded hl hu
  rcases hrest with ⟨rfl, rfl⟩ | ⟨rfl, ht⟩
  · exact ⟨dl, hcoded, fun p hp n hn => by simpa using hbits p hp n hn⟩
  · obtain ⟨f, hf, hcntrl⟩ := reconC8_promotes ht
    refine ⟨dl, hcoded.recon ht, fun p hp n hn => ?_⟩
    have := dcBit_lt p n
    rw [hcntrl, getLsbD_layerBits f _ (by omega), hbits p hp n hn, hf p hp n hn]
    refine or_congr_right ⟨?_, ?_⟩
    · rintro ⟨q, m, hq, hm, hne, he⟩
      obtain ⟨rfl, rfl⟩ := dcBit_unique hp hq hn hm he
      exact ⟨rfl, _, rfl, hne⟩
    · rintro ⟨-, q, hq, hne⟩
      exact ⟨p, n, hp, hn, by rwa [Except.ok.inj hq], rfl⟩

/-- A CODE_C8 that ended normally: its steps, from the accepted state, in their scope. -/
theorem codeC8_ends {elim recon border : Bool} {s t : State} (h : exec (.codeC8 elim recon border) s = .next t)
    (hn : EndsNormally (.codeC8 elim recon border) s) :
    ∃ u, t = complete u ∧ codeC8 elim recon border (accept (encode (.codeC8 elim recon border)) s) = .ok u ∧
      Work (scopeOf (.codeC8 elim recon border) 0) (accept (encode (.codeC8 elim recon border)) s) u := by
  obtain ⟨hc, u, hs, he⟩ := endsNormally_exec hn
  cases h.symm.trans he
  exact ⟨u, rfl, hs, (stepsOf_works _ 0 _ (wf_of_issueCheck hc)).ok hs⟩

/-! ### What CODE_C8 coded, in terms of the levels -/

theorem thrC_eq (s : State) : thrC s = s.thr.toNat / 65536 % 256 := bits_eq s.thr 23 16

theorem planeLevels_eq (elim : Bool) (s : State) (lv : Nat → Nat → Int) (n k : Nat) :
    planeLevels elim s lv n k = if planeLost elim s lv then 0 else lv n k := by
  rw [planeLevels]
  split <;> rfl

theorem planeLevels_ne {elim : Bool} {s : State} {lv : Nat → Nat → Int} {n k : Nat} :
    planeLevels elim s lv n k ≠ 0 ↔ planeLost elim s lv = false ∧ lv n k ≠ 0 := by
  rw [planeLevels_eq]
  cases planeLost elim s lv <;> simp

/-- The count of a block's surviving levels. -/
theorem countNonzero_plane {elim : Bool} {s : State} {lv : Nat → Nat → Int} {n : Nat} (hz : lv n 0 = 0) :
    countNonzero (raster.map (planeLevels elim s lv n)) =
      if planeLost elim s lv then 0 else countNonzero (acScan (lv n)) := by
  rw [planeLevels]
  split
  · exact countNonzero_zeros
  · exact (countNonzero_acScan hz).symm

theorem chromaLevels_of_gives {s : State} {lv : Plane → Nat → Nat → Int}
    (h : ∀ p (n : Fin 16), p ≠ .y → n.val < 4 → Ftq4Gives p n true s (lv p n)) : ∃ dc, ChromaLevels s dc lv := by
  have total : ∀ p n, ∃ dc, p ≠ .y → n < 4 → Transformed p n true s dc (lv p n) := fun p n => by
    by_cases hpn : p ≠ .y ∧ n < 4
    · obtain ⟨hp, hn⟩ := hpn
      obtain ⟨dc, ht⟩ := transformed_of_gives (n := ⟨n, by omega⟩) (quad_lt hn) (h p ⟨n, by omega⟩ hp hn)
      exact ⟨dc, fun _ _ => ht⟩
    · exact ⟨0, fun hp hn => absurd ⟨hp, hn⟩ hpn⟩
  choose dc ht using total
  exact ⟨dc, fun p hp n hn => ht p n hp hn⟩

theorem ChromaLevels.congr {s t : State} {dc : Plane → Nat → Int} {lv : Plane → Nat → Nat → Int}
    (h : ChromaLevels s dc lv) (hk : HostKept s t) : ChromaLevels t dc lv :=
  fun p hp n hn => (h p hp n hn).congr hk (quad_lt hn)

/-- What a CODE_C8 that ended normally codes and eliminates, in terms of FTQ4 and FHQ2. -/
theorem codeC8_result : CodeC8Result := by
  intro elim recon border s t lv h hend hgives
  obtain ⟨u, rfl, hs, hw⟩ := codeC8_ends h hend
  obtain ⟨dc, hl⟩ := chromaLevels_of_gives hgives
  obtain ⟨dl, hcoded, -⟩ := codeC8_coded (hl.congr (hostKept_accept _ s)) hs
  intro scan cost lost acRecords
  generalize ha : accept (encode (.codeC8 elim recon border)) s = a at *
  have hthr : s.thr = a.thr := by rw [← ha]; rfl
  have hcost : cost = fun p => planeCost a (lv p) := by rw [← ha]; rfl
  have hlost : lost = fun p => planeLost elim a (lv p) := funext fun p => by
    rw [planeLost, thrC_eq, ← hthr, ← congrFun hcost p]
  have hrecords : acRecords = fun p => planeRecords elim a (lv p) := by
    rw [show acRecords = fun p => if lost p then [] else [0, 1, 2, 3].flatMap fun n => recordOf 1 (scan p n) from rfl,
      hlost]
    rfl
  clear_value acRecords lost cost
  subst hrecords hlost hcost
  have hsaved (p : Plane) (hp : p ≠ .y) (n : Nat) (hn : n < 4) : dcsave p n (complete u) = .ok (dc p n) :=
    hcoded.save p hp n hn
  have hkept : HostKept a (complete u) := (hw.hostKept (lmWritten_ge _)).trans (hostKept_complete u)
  refine ⟨fun p n hp hn => ⟨fun k hk => ?_, ?_, (hcoded.ac p hp n hn).trans ?_, ?_⟩, hcoded.elimBit, hcoded.costC,
    ⟨dl, fun p hp => ?_, ?_⟩, ?_, ?_, fun x hx => ?_, ?_⟩
  · rw [← planeLevels_eq]
    exact (hcoded.block p hp n hn).coef k hk
  · rw [show scan p n = acScan (lv p n) from rfl, ← countNonzero_plane (hl p hp n hn).level_zero]
    exact (hcoded.block p hp n hn).nnz
  · simp only [planeLevels_ne]
    exact ⟨fun ⟨k, hk, hkept, hne⟩ => ⟨hkept, k, hk, hne⟩, fun ⟨hkept, k, hk, hne⟩ => ⟨k, hk, hkept, hne⟩⟩
  · obtain ⟨v, hv, hdc, -⟩ := exec_ftq4 (hl p hp n hn) (quad_lt hn)
    exact ⟨v, hv, (hsaved p hp n hn).trans hdc.symm⟩
  · obtain ⟨v, hv, hq⟩ := exec_fhq2 hp (hsaved p hp) ((hcoded.quad p hp).congr hkept)
    exact ⟨v, hv, (hcoded.layer p hp).nnzdc.trans hq.nnzdc.symm,
      fun k hk => ⟨hq.dccoef k hk, (hcoded.layer p hp).dccoef k hk⟩⟩
  · subst ha
    exact hcoded.records
  · subst ha
    rw [show (0xFFFFFF0F : Word) = ~~~0x000000F0 by decide]
    exact hw.regs .cbp
  · subst ha
    rw [show (0xFFFFFF9F : Word) = ~~~0x00000060 by decide]
    exact hw.regs .elim
  · subst ha
    exact hw.frame x hx
  · subst ha
    have e := eq_of_unchangedPart hw.kept
    have start : u.mbStart = s.mbStart := hw.csr (c := .mbStart) all_kept
    have cntrlY : u.cntrlY = s.cntrlY := hw.csr (c := .cntrlY) all_kept
    have costY : u.costY = s.costY := hw.csr (c := .costY) all_kept
    have costAcc : u.costAcc = s.costAcc := hw.csr (c := .costAcc) all_kept
    rw [start, cntrlY, costY, costAcc] at e
    exact congrArg complete e

end Laws

/-- Settles O60, from what the stages of CODE_C8 leave (`Laws.C8Coded`). -/
theorem chromaSoundness : Obligations.ChromaSoundness := by
  refine ⟨fun elim recon border s t h hend => ?_, Laws.codeC8_result⟩
  obtain ⟨u, rfl, hs, hw⟩ := Laws.codeC8_ends h hend
  obtain ⟨v, hv, -⟩ := Laws.codeC8_cases hs
  obtain ⟨w, -, -, -, -, hw, -⟩ := Laws.c8Code_cases hv
  obtain ⟨dc, lv, hl⟩ := Laws.c8Dc_levels hw
  obtain ⟨dl, hcoded, hbits⟩ := Laws.codeC8_coded hl hs
  refine ⟨fun p n hp hn => ⟨_, dl p n, (hcoded.block p hp n hn).coef, (hcoded.layer p hp).dccoef n hn, ?_,
    (hcoded.block p hp n hn).nnz, hcoded.ac p hp n hn, hbits p hp n hn, fun helim k _ => ?_⟩, fun helim => ?_,
    ⟨_, _, _, _, (hcoded.layer .cb (by decide)).nnzdc, (hcoded.layer .cr (by decide)).nnzdc, ?_, ?_, hcoded.cbp⟩⟩
  · rw [Laws.planeLevels_eq, (hl p hp n hn).level_zero, ite_self]
  · rw [Laws.planeLevels_eq, ← hcoded.elimBit p hp]
    exact if_pos helim
  · subst helim
    have mask : ∀ i, i < 32 → (0x00000060 : Word).getLsbD i = true → i = 5 ∨ i = 6 := by decide
    refine Laws.and_eq_zero_of_bits fun i hi hm => ?_
    rcases mask i hi hm with rfl | rfl
    · exact hcoded.elimBit .cb (by decide)
    · exact hcoded.elimBit .cr (by decide)
  · exact Laws.readAll_ok fun n hn => (hcoded.block .cb (by decide) n (Laws.mem_quad.mp hn)).nnz
  · exact Laws.readAll_ok fun n hn => (hcoded.block .cr (by decide) n (Laws.mem_quad.mp hn)).nnz

end Sys2Proof.Machine
end

section
/-! PROOFS. `exec` seen from its caller: from the port's acceptance of a word, from the list of moves, and its arena
discipline; the statements `StepRunsTheDecodedCommand`, `IssueThenEngineIsExec`, `CommandsStopOnlyAtUnwrittenBytes` and
`ArenaDiscipline`. -/

namespace Sys2Proof.Machine

namespace Laws

/-! ### The issue checks (30_encoding.md R116, R117) -/

/-- A legal command whose QP_DIV are in range passes its issue checks. -/
theorem issueCheck_eq_none {i : Instr} {s : State} (hw : i.wf = true) (hq : ∀ p ∈ qpDivRead i, qpDiv p s ≤ 8) :
    issueCheck i s = none := by
  have hok : qparamOk i s = true := List.all_eq_true.mpr fun p hp => decide_eq_true (hq p hp)
  simp only [issueCheck, hw, hok, Bool.not_true, Bool.false_eq_true, if_false]

/-- The decoder answers legal commands alone. -/
theorem wf_of_decode {w : Word} {i : Instr} (h : decode w = .ok i) : i.wf = true := by
  simp only [decode] at h
  split at h
  · cases h
  · split at h
    · split at h
      · split at h
        · cases h; assumption
        · cases h
      · cases h
    · cases h

/-- While idle, the word of a command that passes its issue checks is accepted (60_exceptions.md R283). -/
theorem issue_accepts {w : Word} {i : Instr} {s : State} (hb : s.busy = false) (hd : decode w = .ok i)
    (hc : issueCheck i s = none) : issue w s = accept w s := by
  simp only [issue, hb, hd, hc, Bool.false_eq_true, if_false]

/-- The command reads neither CMD nor BUSY as its acceptance finds them. -/
theorem exec_accept {i : Instr} {s : State} (hc : issueCheck i s = none) (w : Word) : exec i (accept w s) = exec i s := by
  have hc' : issueCheck i (accept w s) = none := (issueCheck_congr (s := s) rfl i).trans hc
  simp only [exec_eq, command, hc, hc']
  rfl

/-! ### The engine's turn -/

theorem engineTurn_idle {s : State} (hb : s.busy = false) : engineTurn s = .next s := by
  simp only [engineTurn, hb, Bool.false_eq_true, if_false]

theorem engineTurn_runs {s : State} {i : Instr} (hb : s.busy = true) (hd : decode s.cmd = .ok i) :
    engineTurn s = exec i s := by
  simp only [engineTurn, hb, if_true, engineMove, hd]

theorem step_empty {s : State} (h : s.pending = []) : step s = engineTurn s := by
  simp only [step, h]

theorem step_engine {s : State} {rest : List Event} (h : s.pending = .engine :: rest) :
    step s = engineTurn { s with pending := rest } := by
  simp only [step, h]

theorem step_host {s : State} {a : HostAccess} {rest : List Event} (h : s.pending = .host a :: rest) :
    step s = hostAccess a { s with pending := rest } := by
  simp only [step, h]

theorem step_hardReset {s : State} {rest : List Event} (h : s.pending = .hardReset :: rest) :
    step s = .next (hardReset { s with pending := rest }) := by
  simp only [step, h]

/-! ### The arena (20_memory.md R90) -/

/-- However a command ends, arena and cursor are what its steps left, inside any base the cursor stood at. -/
theorem exec_arena {i : Instr} {s t : State} (base : Nat) (h : exec i s = .next t) :
    ∃ u, t.arena = u.arena ∧ t.arenaCur = u.arenaCur ∧ Work (scopeOf i base) (accept (encode i) s) u := by
  cases exec_cases i base s with
  | refused code _ he =>
    cases he.symm.trans h
    exact ⟨accept (encode i) s, StateLaws.record_arena .., StateLaws.record_arenaCur .., Work.refl _ _⟩
  | completed u _ _ hw he =>
    cases he.symm.trans h
    exact ⟨u, rfl, rfl, hw⟩
  | overflowed u _ _ _ hw he =>
    cases he.symm.trans h
    exact ⟨u, StateLaws.record_arena .., StateLaws.record_arenaCur .., hw⟩
  | stopped a _ _ he => cases he.symm.trans h

end Laws

/-- Settles O8, by the move that stands first in the list. -/
theorem stepRunsTheDecodedCommand : Obligations.StepRunsTheDecodedCommand := by
  refine ⟨fun s i hp hb hd => ?_, fun s w i hw hd => ?_, fun s hp hb => ?_, fun s rest =>
    ⟨fun i hp hb hd => ?_, fun hp hb => ?_, fun a hp => Laws.step_host hp, fun hp => Laws.step_hardReset hp⟩⟩
  · exact (Laws.step_empty hp).trans (Laws.engineTurn_runs hb hd)
  · have fetched : s.withFetchWord 32 w =
        { s with cmd := BitVec.ofNat 32 w, busy := true, pending := .engine :: s.pending } := by
      rw [State.withFetchWord, Nat.mod_eq_of_lt hw]
    rw [fetched]
    exact (Laws.step_engine rfl).trans (Laws.engineTurn_runs rfl hd)
  · exact (Laws.step_empty hp).trans (Laws.engineTurn_idle hb)
  · exact (Laws.step_engine hp).trans (Laws.engineTurn_runs hb hd)
  · exact (Laws.step_engine hp).trans (Laws.engineTurn_idle hb)

/-- Settles O9: the port accepts the word, and the command does not read what acceptance changed. -/
theorem issueThenEngineIsExec : Obligations.IssueThenEngineIsExec := by
  intro s w i rest hb hp hd hq
  have hc (v : State) (h : Laws.invPart v = Laws.invPart s) : issueCheck i v = none :=
    (Laws.issueCheck_congr h i).trans (Laws.issueCheck_eq_none (Laws.wf_of_decode hd) hq)
  refine ⟨accept w { s with pending := .engine :: rest, resp := ⟨false, 0⟩ }, ?_, rfl, ?_⟩
  · have accepted : issue w { s with pending := .engine :: rest, resp := ⟨false, 0⟩ } = _ :=
      Laws.issue_accepts hb hd (hc _ rfl)
    rw [Laws.step_host hp, ← accepted]
    exact congrArg Host.Outcome.next (Laws.hostWrite_csr .cmd w _)
  · have taken : step (accept w { s with pending := .engine :: rest, resp := ⟨false, 0⟩ }) =
        engineTurn (accept w { s with pending := rest, resp := ⟨false, 0⟩ }) := Laws.step_engine rfl
    rw [taken, Laws.engineTurn_runs (StateLaws.accept_busy w _) hd]
    exact Laws.exec_accept (s := { s with pending := rest, resp := ⟨false, 0⟩ }) (hc _ rfl) w

/-- Settles O11, by the cases of `exec`. -/
theorem commandsStopOnlyAtUnwrittenBytes : Obligations.CommandsStopOnlyAtUnwrittenBytes := by
  intro i s
  cases Laws.exec_cases i 0 s with
  | refused code _ he => exact .inl ⟨_, he⟩
  | completed t _ _ _ he => exact .inl ⟨_, he⟩
  | overflowed t _ _ _ _ he => exact .inl ⟨_, he⟩
  | stopped a _ ha he => exact .inr ⟨a, he, ha⟩

/-- Settles O14: the cursor at acceptance is the base the command's steps do not write below. -/
theorem arenaDiscipline : Obligations.ArenaDiscipline := by
  intro i s t h
  obtain ⟨u, harena, hcur, hw⟩ := Laws.exec_arena s.arenaCur.toNat h
  obtain ⟨hge, hframe⟩ := hw.arena (Nat.le_refl _)
  rw [harena, hcur]
  exact ⟨hframe, hge, hw.curEnd⟩

end Sys2Proof.Machine
end

section
/-! PROOFS. The host port: which accesses are legal, what a write and a read can change, and that local memory reads
back; the statements `IllegalAccessRefused`, `HostReadsHaveNoSideEffect`, `LocalMemoryReadsBack` and
`WritesWhileBusy`. -/

namespace Sys2Proof.Machine

namespace Laws

open Sys2Proof.Claims

/-! ### Legal accesses (20_memory.md R81, R84) -/

theorem bytes_pos (w : Width) : 0 < w.bytes := by cases w <;> decide

theorem bytes_le (w : Width) : w.bytes ≤ 4 := by cases w <;> decide

/-- The rows of the map do not overlap. -/
theorem region_unique {r r' : Region} (hr : r ∈ lmMap) (hr' : r' ∈ lmMap) {a : Nat} (h0 : r.first ≤ a) (h1 : a ≤ r.last)
    (h0' : r'.first ≤ a) (h1' : a ≤ r'.last) : r = r' := by
  have all : ∀ r ∈ lmMap, ∀ r' ∈ lmMap, r.first ≤ r'.last → r'.first ≤ r.last → r = r' := by decide
  exact all r hr r' hr' (h0.trans h1') (h0'.trans h1)

/-- The port performs an access exactly when it is aligned, inside a row of the map, and 4 bytes wide among the CSRs. -/
theorem legalRegion_iff {w : Width} {a : Nat} {k : RegionKind} : legalRegion w a = some k ↔
    a % w.bytes = 0 ∧ ∃ r ∈ lmMap, r.kind = k ∧ r.first ≤ a ∧ a + w.bytes - 1 ≤ r.last ∧ (r.kind = .csr → w = .w32) := by
  have hpos := bytes_pos w
  constructor
  · intro h
    simp only [legalRegion] at h
    split at h
    · cases h
    · rename_i hal
      split at h
      · cases h
      · rename_i r hr
        split at h
        · cases h
        · rename_i hw
          have hin := List.find?_some hr
          simp only [Bool.and_eq_true, decide_eq_true_eq] at hin
          exact ⟨not_not.mp hal, r, List.mem_of_find?_eq_some hr, Option.some.inj h, hin.1, hin.2,
            fun hk => not_not.mp fun hne => hw ⟨hk, hne⟩⟩
  · rintro ⟨hal, r, hr, rfl, h0, h1, hw⟩
    simp only [legalRegion, hal, ne_eq, not_true_eq_false, if_false]
    split
    · rename_i hnone
      have := List.find?_eq_none.mp hnone r hr
      simp [h0, h1] at this
    · rename_i r' hr'
      have hin := List.find?_some hr'
      simp only [Bool.and_eq_true, decide_eq_true_eq] at hin
      obtain rfl : r' = r := region_unique (List.mem_of_find?_eq_some hr') hr hin.1 (by omega) h0 (by omega)
      exact if_neg fun ⟨hk, hne⟩ => hne (hw hk)

theorem legalAccess_iff {w : Width} {a : Nat} : legalAccess w a ↔ ∃ k, legalRegion w a = some k := by
  simp only [legalRegion_iff]
  exact ⟨fun ⟨hal, r, hr, h0, h1, hw⟩ => ⟨_, hal, r, hr, rfl, h0, h1, hw⟩,
    fun ⟨_, hal, r, hr, _, h0, h1, hw⟩ => ⟨hal, r, hr, h0, h1, hw⟩⟩

theorem legalRegion_none {w : Width} {a : Nat} (h : ¬ legalAccess w a) : legalRegion w a = none :=
  Option.eq_none_iff_forall_ne_some.mpr fun k hk => h (legalAccess_iff.mpr ⟨k, hk⟩)

theorem dataAccess_iff {w : Width} {a : Nat} : dataAccess w a ↔ legalRegion w a = some .data := by
  rw [legalRegion_iff]
  exact ⟨fun ⟨hal, r, hr, hk, h0, h1⟩ => ⟨hal, r, hr, hk, h0, h1, fun hc => nomatch hk.symm.trans hc⟩,
    fun ⟨hal, r, hr, hk, h0, h1, _⟩ => ⟨hal, r, hr, hk, h0, h1⟩⟩

/-- An access among the CSRs is to a word of the CSR region. -/
theorem legalRegion_csr_aligned {w : Width} {a : Nat} (h : legalRegion w a = some .csr) : a % 4 = 0 := by
  obtain ⟨hal, r, -, hk, -, -, hw⟩ := legalRegion_iff.mp h
  obtain rfl := hw hk
  exact hal

/-- A word-aligned offset that holds a register is that register's offset (10_state.md R31 to R52). -/
theorem csrOffset_of_csrAt {a : Nat} {c : Csr} (hal : a % 4 = 0) (h : csrAt a = some c) : a = csrOffset c := by
  have all : ∀ k, k < 27 → ∀ c ∈ csrAt (4 * k), 4 * k = csrOffset c := by decide
  obtain ⟨k, rfl⟩ := Nat.dvd_of_mod_eq_zero hal
  have hk : k < 27 := by
    obtain ⟨hlt, -⟩ := List.getElem?_eq_some_iff.mp h
    rwa [Nat.mul_div_cancel_left k (by decide)] at hlt
  exact all k hk c h

/-! ### Host writes -/

theorem hostWrite_illegal {w : Width} {a : Nat} (h : legalRegion w a = none) (v : Word) (s : State) :
    hostWrite w a v s = { s with resp := ⟨true, 0⟩ } := by
  simp only [hostWrite, h, answer]

theorem loseArena_resp (s : State) : (loseArena s).resp = s.resp := by simp only [loseArena]; split <;> rfl

theorem scrambleLm_resp (s : State) : (scrambleLm s).resp = s.resp := by simp only [scrambleLm]; split <;> rfl

theorem writeCtrl_resp (v : Word) (s : State) : (writeCtrl v s).resp = s.resp := by
  simp only [writeCtrl]
  split
  · exact (loseArena_resp _).trans (scrambleLm_resp s)
  · rfl

theorem refuse_resp (w : Word) (code : ErrorCode) (s : State) : (refuse w code s).resp = s.resp :=
  StateLaws.record_resp ..

theorem issue_resp (w : Word) (s : State) : (issue w s).resp = s.resp := by
  simp only [issue]
  split
  · exact StateLaws.record_resp ..
  · split
    · exact refuse_resp ..
    · split
      · exact refuse_resp ..
      · rfl

theorem writeCsr_resp (a : Nat) (v : Word) (s : State) : (writeCsr a v s).resp = s.resp := by
  simp only [writeCsr]
  split
  · exact writeCtrl_resp v s
  · rfl
  · exact issue_resp v s
  · split
    · exact StateLaws.record_resp ..
    · exact (csrStore_rest _ v s).2.2.2.2
  · split
    · exact StateLaws.record_resp ..
    · rfl

/-- A legal write is answered without a bus error. -/
theorem hostWrite_resp {w : Width} {a : Nat} {k : RegionKind} (h : legalRegion w a = some k) (v : Word) (s : State) :
    (hostWrite w a v s).resp = ⟨false, 0⟩ := by
  cases k with
  | csr => simp only [hostWrite, h, writeCsr_resp, StateLaws.answer_resp]
  | data =>
    simp only [hostWrite, h, writeLm]
    split
    · exact StateLaws.record_resp ..
    · rfl
  | reserved =>
    simp only [hostWrite, h, writeReserved]
    split
    · exact StateLaws.record_resp ..
    · rfl

/-- While idle a write to a buffer or table stores the bytes of its width. -/
theorem hostWrite_data {w : Width} {a : Nat} (h : legalRegion w a = some .data) (v : Word) {s : State}
    (hb : s.busy = false) :
    hostWrite w a v s = { s with lm := s.lm.writeBytes a (dataBytes w v), resp := ⟨false, 0⟩ } := by
  have idle : ¬ (answer false 0 s).busy = true := Bool.eq_false_iff.mp hb
  simp only [hostWrite, h, writeLm, if_neg idle]
  rfl

/-- A state after an error, the port's answer given. -/
theorem record_answer (code : ErrorCode) (op : Byte) (s : State) :
    record code op (answer false 0 s) = { s with err := firstError s.err code op, resp := ⟨false, 0⟩ } := by
  rw [record_eq]
  rfl

/-- While a command runs, a write to a word of the CSR region other than CTRL, STATUS and CMD is lost. -/
theorem writeCsr_busy {a : Nat} (hal : a % 4 = 0) (h0 : a ≠ 0x0008) (h1 : a ≠ 0x000C) (h2 : a ≠ 0x0010) (v : Word)
    {s : State} (hb : s.busy = true) : writeCsr a v s = record .busyWrite (opOf s.cmd) s := by
  simp only [writeCsr, hb, if_true]
  split
  · rename_i h; exact absurd (csrOffset_of_csrAt hal h) h0
  · rename_i h; exact absurd (csrOffset_of_csrAt hal h) h1
  · rename_i h; exact absurd (csrOffset_of_csrAt hal h) h2
  · rfl
  · rfl

/-- While a command runs, a legal write elsewhere than to CTRL, STATUS and CMD records BUSY_WRITE and is lost
(60_exceptions.md R287). -/
theorem hostWrite_lost {w : Width} {a : Nat} (hl : legalAccess w a) (h0 : a ≠ 0x0008) (h1 : a ≠ 0x000C)
    (h2 : a ≠ 0x0010) (v : Word) {s : State} (hb : s.busy = true) :
    hostWrite w a v s = record .busyWrite (opOf s.cmd) (answer false 0 s) := by
  obtain ⟨k, hk⟩ := legalAccess_iff.mp hl
  cases k with
  | csr =>
    simp only [hostWrite, hk]
    exact writeCsr_busy (legalRegion_csr_aligned hk) h0 h1 h2 v (s := answer false 0 s) hb
  | data => simp only [hostWrite, hk, writeLm, StateLaws.answer_busy, StateLaws.answer_cmd, hb, if_true]
  | reserved => simp only [hostWrite, hk, writeReserved, StateLaws.answer_busy, StateLaws.answer_cmd, hb, if_true]

/-! ### Host reads -/

theorem hostRead_illegal {w : Width} {a : Nat} (h : legalRegion w a = none) (s : State) :
    hostRead w a s = .next { s with resp := ⟨true, 0⟩ } := by
  simp only [hostRead, h, answer]

/-- A read of local memory answers data, or stops at a byte of the access that has no value. -/
theorem readLm_cases (w : Width) (a : Nat) (s : State) : (∃ d, readLm w a s = .next (answer false d s)) ∨
    ∃ b, readLm w a s = .fault (.uninitRead b) ∧ a ≤ b ∧ b < a + w.bytes ∧ s.lm.read b = none := by
  simp only [readLm]
  split
  · exact .inl ⟨_, rfl⟩
  · rename_i b he
    obtain ⟨x, hx, hstop⟩ := readAll_error he
    simp only [lmByte] at hstop
    split at hstop
    · cases hstop
    · rename_i hnone
      cases hstop
      obtain ⟨h0, h1⟩ := mem_addrs.mp hx
      exact .inr ⟨_, rfl, h0, h1, hnone⟩
  · rename_i he
    obtain ⟨x, hx, -⟩ := readAll_onlyUninit (fun x => lmByte_onlyUninit x s) _ he
    cases hx

/-- A read of a register changes the port's answer and the counter of free values alone. -/
theorem readCsr_change (a : Nat) (s : State) : ∃ d f, readCsr a s = { s with resp := ⟨false, d⟩, free := f } := by
  simp only [readCsr]
  split
  · exact ⟨_, _, rfl⟩
  · split
    · exact ⟨_, _, rfl⟩
    · split <;> exact ⟨_, _, rfl⟩

/-- A legal read changes the port's answer and the counter of free values alone, or stops at a byte without a value, read
while idle. -/
theorem hostRead_cases {w : Width} {a : Nat} {k : RegionKind} (h : legalRegion w a = some k) (s : State) :
    (∃ d f, hostRead w a s = .next { s with resp := ⟨false, d⟩, free := f }) ∨
      (s.busy = false ∧ k = .data ∧
        ∃ b, hostRead w a s = .fault (.uninitRead b) ∧ a ≤ b ∧ b < a + w.bytes ∧ s.lm.read b = none) := by
  cases k with
  | csr =>
    obtain ⟨d, f, hr⟩ := readCsr_change a s
    exact .inl ⟨d, f, by simp only [hostRead, h, hr]⟩
  | data =>
    have hr : hostRead w a s = if s.busy then .next (answerFree w s) else readLm w a s := by simp only [hostRead, h]
    rw [hr]
    split
    · exact .inl ⟨_, _, rfl⟩
    · rename_i hb
      rcases readLm_cases w a s with ⟨d, hd⟩ | hstop
      · exact .inl ⟨d, s.free, hd⟩
      · exact .inr ⟨Bool.eq_false_iff.mpr hb, rfl, hstop⟩
  | reserved =>
    simp only [hostRead, h]
    split <;> exact .inl ⟨_, _, rfl⟩

/-! ### Bytes and data (20_memory.md R86) -/

theorem bytesData_lt (l : List Byte) : bytesData l < 256 ^ l.length := by
  induction l with
  | nil => decide
  | cons b l ih =>
    have := b.isLt
    rw [bytesData, List.length_cons, Nat.pow_succ]
    omega

/-- Byte `j` of the data is the `j`-th byte. -/
theorem bytesData_byte (l : List Byte) {j : Nat} (h : j < l.length) : bytesData l / 256 ^ j % 256 = l[j].toNat := by
  induction l generalizing j with
  | nil => exact absurd h (Nat.not_lt_zero j)
  | cons b l ih =>
    have hb : b.toNat < 256 := b.isLt
    cases j with
    | zero => simp only [bytesData, Nat.pow_zero, Nat.div_one, List.getElem_cons_zero]; omega
    | succ j =>
      have hq : (b.toNat + 256 * bytesData l) / 256 = bytesData l := by omega
      rw [bytesData, Nat.pow_succ', ← Nat.div_div_eq_div_mul, hq, ih (by simpa using h), List.getElem_cons_succ]

/-- The bytes of a word, put together again. -/
theorem bytesData_dataBytes (w : Width) (v : Word) : bytesData (dataBytes w v) = v.toNat % 2 ^ (8 * w.bytes) := by
  have := v.isLt
  cases w <;>
    simp only [dataBytes, bytesData, Width.bytes, BitVec.extractLsb'_toNat, Nat.shiftRight_eq_div_pow] <;> omega

/-- The data a read answers, from the bytes it reads. -/
def dataOf (w : Width) (b : Nat → Byte) : Word := BitVec.ofNat 32 (bytesData ((List.range w.bytes).map b))

theorem dataOf_toNat (w : Width) (b : Nat → Byte) :
    (dataOf w b).toNat = bytesData ((List.range w.bytes).map b) ∧ (dataOf w b).toNat < 2 ^ (8 * w.bytes) := by
  have hlt := bytesData_lt ((List.range w.bytes).map b)
  rw [List.length_map, List.length_range, show (256 : Nat) = 2 ^ 8 from rfl, ← Nat.pow_mul] at hlt
  have h32 : 2 ^ (8 * w.bytes) ≤ 2 ^ 32 := Nat.pow_le_pow_right (by decide) (by have := bytes_le w; omega)
  rw [dataOf, BitVec.toNat_ofNat, Nat.mod_eq_of_lt (hlt.trans_le h32)]
  exact ⟨rfl, hlt⟩

/-- Data bits `8*j + 7` down to `8*j` are byte `j`. -/
theorem dataOf_lane (w : Width) (b : Nat → Byte) {j : Nat} (hj : j < w.bytes) : (dataOf w b).extractLsb' (8 * j) 8 = b j := by
  refine BitVec.eq_of_toNat_eq ?_
  have hbyte := bytesData_byte ((List.range w.bytes).map b) (j := j) (by simpa using hj)
  rw [List.getElem_map, List.getElem_range] at hbyte
  rw [BitVec.extractLsb'_toNat, (dataOf_toNat w b).1, Nat.shiftRight_eq_div_pow, Nat.pow_mul]
  exact hbyte

/-- While idle a read of a buffer or table whose bytes have values answers them. -/
theorem hostRead_data {w : Width} {a : Nat} (h : legalRegion w a = some .data) {s : State} (hb : s.busy = false)
    {b : Nat → Byte} (hv : ∀ j, j < w.bytes → s.lm.read (a + j) = some (b j)) :
    hostRead w a s = .next (answer false (dataOf w b) s) := by
  have hbytes : readAll (fun x => lmByte x s) (addrs a w.bytes) = .ok ((addrs a w.bytes).map fun x => b (x - a)) := by
    refine readAll_ok fun x hx => ?_
    obtain ⟨h0, h1⟩ := mem_addrs.mp hx
    have := hv (x - a) (by omega)
    rw [Nat.add_sub_cancel' h0] at this
    simp only [lmByte, this]
  have hlist : (addrs a w.bytes).map (fun x => b (x - a)) = (List.range w.bytes).map b := by
    simp only [addrs, List.map_map]
    exact List.map_congr_left fun j _ => congrArg b (Nat.add_sub_cancel_left a j)
  simp only [hostRead, h, hb, Bool.false_eq_true, if_false, readLm, hbytes, hlist, dataOf]

/-- The bytes of a written word, by their place. -/
theorem dataBytes_range (w : Width) (v : Word) :
    (List.range w.bytes).map (fun j => (dataBytes w v).getD j 0) = dataBytes w v := by cases w <;> rfl

end Laws

/-- Settles O23, from the rows of the map. -/
theorem illegalAccessRefused : Obligations.IllegalAccessRefused := by
  intro w a v s
  refine ⟨fun h => ?_, fun h => ?_⟩
  · have hn := Laws.legalRegion_none h
    rw [Laws.hostWrite_illegal hn]
    exact ⟨rfl, rfl, Laws.hostRead_illegal hn s⟩
  · obtain ⟨k, hk⟩ := Laws.legalAccess_iff.mp h
    refine ⟨by rw [Laws.hostWrite_resp hk], fun t ht => ?_⟩
    rcases Laws.hostRead_cases hk s with ⟨d, f, hr⟩ | ⟨-, -, b, hr, -⟩
    · cases hr.symm.trans ht; rfl
    · cases hr.symm.trans ht

/-- Settles O24: a legal read ends in one of two ways, an illegal one in one. -/
theorem hostReadsHaveNoSideEffect : Obligations.HostReadsHaveNoSideEffect := by
  intro w a s
  cases hk : legalRegion w a with
  | none =>
    have hr := Laws.hostRead_illegal hk s
    exact ⟨fun t ht => by cases hr.symm.trans ht; rfl, .inl ⟨_, hr⟩⟩
  | some k =>
    rcases Laws.hostRead_cases hk s with ⟨d, f, hr⟩ | ⟨hb, rfl, b, hr, hstop⟩
    · exact ⟨fun t ht => by cases hr.symm.trans ht; rfl, .inl ⟨_, hr⟩⟩
    · exact ⟨fun t ht => (by cases hr.symm.trans ht), .inr ⟨hb, Laws.dataAccess_iff.mpr hk, b, hr, hstop⟩⟩

/-- Settles O25: the bytes of the written word are the bytes the read puts together. -/
theorem localMemoryReadsBack : Obligations.LocalMemoryReadsBack := by
  intro w a v s hb hd
  have hk := Laws.dataAccess_iff.mp hd
  have written := Laws.hostWrite_data hk v hb
  refine ⟨⟨_, Laws.hostRead_data hk ?_ (b := fun j => (dataBytes w v).getD j 0) fun j hj => ?_, ?_⟩, fun x hx => ?_, ?_,
    fun b hv => ⟨_, Laws.hostRead_data hk hb hv, rfl, fun j hj => Laws.dataOf_lane w b hj, (Laws.dataOf_toNat w b).2⟩⟩
  · rw [written]
    exact hb
  · have hj' : j < (dataBytes w v).length := by rwa [Laws.dataBytes_length]
    rw [written, MemoryLaws.read_writeBytes_at _ _ _ _ hj', List.getD_eq_getElem _ _ hj']
  · rw [StateLaws.answer_resp, Laws.dataOf, Laws.dataBytes_range, Laws.bytesData_dataBytes]
  · rw [written]
    exact MemoryLaws.read_writeBytes_out _ _ _ _ (by rwa [Laws.dataBytes_length])
  · rw [written]

/-- Settles O26, by the register or region written. -/
theorem writesWhileBusy : Obligations.WritesWhileBusy := by
  intro w a v s hb
  refine ⟨?_, Laws.hostWrite_csr .ctrl v s, Laws.hostWrite_csr .status v s, fun hl h0 h1 h2 => ?_, fun hl => ?_⟩
  · have refused : issue v (answer false 0 s) = record .cmdOverrun (opOf v) (answer false 0 s) := by
      simp only [issue, StateLaws.answer_busy, hb, if_true]
    rw [← Laws.record_answer, ← refused]
    exact Laws.hostWrite_csr .cmd v s
  · rw [Laws.hostWrite_lost hl h0 h1 h2 v hb, Laws.record_answer]
  · exact Laws.hostWrite_illegal (Laws.legalRegion_none hl) v s

end Sys2Proof.Machine
end

section
/-! PROOFS. What ends without a record: a record that does not fit, and the eliminations of a luma group, of the luma
macroblock and of a chroma plane; the statements `PackOverflow`, `LumaElimination` and `PlaneElimination`. -/

namespace Sys2Proof.Machine

namespace Laws

open Sys2Proof.Claims

/-! ### A record that does not fit (20_memory.md R91, 42_pack.md R205) -/

/-- EMIT of a record that would end beyond ARENA_END changes nothing. -/
theorem emit_overflows {start : Nat} {vs : List Int} {s : State} (hl : start + vs.length ≤ 16)
    (h : s.arenaEnd.toNat < s.arenaCur.toNat + recLen vs) : emit start vs s = .error (.raised .arenaOvf s) := by
  have hlen : recordLen start vs = recLen vs := by rw [recordLen, recLen, nnzOf_sig start vs hl]
  rcases emit_cases start vs s with ⟨-, he⟩ | ⟨hle, -⟩
  · exact he
  · omega

theorem scanOf_positions (ac : Bool) : ∀ k ∈ zigzag.drop (scanStart ac), k < 16 ∧ (ac = true → k ≠ 0) := by
  cases ac <;> decide

theorem coef_accept (p : Plane) (n k : Nat) (w : Word) (s : State) : coef p n k (accept w s) = coef p n k s := rfl

/-- The steps of an accepted PACK4 when its record does not fit. -/
theorem pack4_overflows {p : Plane} {n : Nat} {ac : Bool} {c : Nat → Int} {s : State} (w : Word)
    (hc : ∀ k, k < 16 → (ac = true → k ≠ 0) → coef p n k s = .ok (c k))
    (h : s.arenaEnd.toNat < s.arenaCur.toNat + recLen (scanOf ac c)) :
    pack4 p n ac (accept w s) = .error (.raised .arenaOvf (accept w s)) := by
  have hscan : coefScan p n (scanStart ac) (accept w s) = .ok (scanOf ac c) := readAll_ok fun k hk => by
    obtain ⟨hlt, hne⟩ := scanOf_positions ac k hk
    exact (coef_accept p n k w s).trans (hc k hlt hne)
  simp only [pack4, emitCoef, hscan, emit_overflows (s := accept w s) (scanOf_length ac c).le h]

theorem dcScan_eq (p : Plane) : dcScan p = if p = .y then zigzag else [0, 1, 2, 3] := by cases p <;> rfl

theorem dccoef_accept (p : Plane) (k : Nat) (w : Word) (s : State) : dccoef p k (accept w s) = dccoef p k s := rfl

/-- The steps of an accepted PACKDC when its record does not fit. -/
theorem packdc_overflows {p : Plane} {c : Nat → Int} {s : State} (w : Word)
    (hc : ∀ k, k < p.nb → dccoef p k s = .ok (c k))
    (h : s.arenaEnd.toNat < s.arenaCur.toNat + recLen ((dcScan p).map c)) :
    packdc p (accept w s) = .error (.raised .arenaOvf (accept w s)) := by
  have hscan : readAll (fun k => dccoef p k (accept w s)) (dcScan p) = .ok ((dcScan p).map c) :=
    readAll_ok fun k hk => (dccoef_accept p k w s).trans (hc k (dcScan_lt hk))
  have hl : 0 + ((dcScan p).map c).length ≤ 16 := by
    rw [List.length_map, dcScan_length, Nat.zero_add]
    exact nb_le p
  simp only [packdc, emitDc, hscan, emit_overflows (s := accept w s) hl h]

/-- A command whose steps overflow before they change anything records the error and completes. -/
theorem exec_overflow {i : Instr} {s : State} (hc : issueCheck i s = none)
    (hs : stepsOf i (accept (encode i) s) = .error (.raised .arenaOvf (accept (encode i) s))) :
    exec i s = .next { completed i s with err := firstError s.err .arenaOvf (opOf (encode i)) } := by
  simp only [exec_eq, command, hc, hs, finish]
  exact congrArg Host.Outcome.next (complete_record_eq (s := accept (encode i) s) rfl .arenaOvf (opOf (encode i)))

theorem opOf_pack4 (p : Plane) (n : Fin 16) (ac : Bool) : opOf (encode (.pack4 p n ac)) = 0x10 :=
  Sys2Proof.Laws.ReservedZero.opOf_pack _ _ _ _ _ _ _ (Sys2Proof.Laws.ReservedZero.idx_lt p) n.isLt

theorem opOf_packdc (p : Plane) : opOf (encode (.packdc p)) = 0x11 :=
  Sys2Proof.Laws.ReservedZero.opOf_pack _ _ _ _ _ _ _ (Sys2Proof.Laws.ReservedZero.idx_lt p) (by decide)

theorem issueCheck_pack4 {p : Plane} {n : Fin 16} (hn : n.val < p.nb) (ac : Bool) (s : State) :
    issueCheck (.pack4 p n ac) s = none := issueCheck_eq_none (decide_eq_true hn) fun _ hq => nomatch hq

theorem issueCheck_packdc (p : Plane) (s : State) : issueCheck (.packdc p) s = none :=
  issueCheck_eq_none rfl fun _ hq => nomatch hq

/-! ### Elimination (43_macroblock.md R243, R244, R253) -/

/-- A byte that is neither the count of a sub-block nor one of its levels. -/
theorem not_blockByte {p : Plane} {n a : Nat} (h : a ≠ nnzAddr p n ∧ (a < coefAddr p n 0 ∨ coefAddr p n 0 + 32 ≤ a)) :
    ¬ BlockByte p n a := by
  obtain ⟨hz, hc⟩ := h
  rintro (h | ⟨h0, h1⟩)
  · exact hz h
  · omega

/-- An eliminated sub-block: its count and its levels are 0. -/
theorem BlockHolds.empty {p : Plane} {n : Nat} {t : State} (h : BlockHolds p n (fun _ => 0) t) :
    Machine.nnz p n t = .ok 0 ∧ ∀ k, k < 16 → Machine.coef p n k t = .ok 0 :=
  ⟨h.nnz.trans (by rw [countNonzero_zeros]), h.coef⟩

/-- Setting a bit, of every bit number. -/
theorem getLsbD_setBit_eq (x : Word) {b : Nat} (hb : b < 32) (i : Nat) :
    (setBit x b).getLsbD i = (decide (i = b) || x.getLsbD i) := by
  by_cases hi : i < 32
  · rw [Bool.eq_iff_iff, getLsbD_setBit x hi, Bool.or_eq_true, decide_eq_true_eq, or_comm]
  · rw [BitVec.getLsbD_of_ge _ _ (by omega), BitVec.getLsbD_of_ge _ _ (by omega), Bool.or_false]
    exact (decide_eq_false (by omega)).symm

/-- A group's elimination changes its sub-blocks, their control bits, its ELIM bit and the cursor. -/
theorem eliminateGroup_fixed (g : Nat) (start : Word) (s : State) :
    (∃ m, eliminateGroup g start s = { s with
      lm := m, arenaCur := start, cntrlY := clrBothBits .y (groupBlocks g) s.cntrlY, elim := setBit s.elim g }) ∧
      (∀ a, (∀ n ∈ groupBlocks g, ¬ BlockByte .y n a) → (eliminateGroup g start s).lm.read a = s.lm.read a) ∧
      ∀ n ∈ groupBlocks g, BlockHolds .y n (fun _ => 0) (eliminateGroup g start s) := by
  obtain ⟨hlm, hout⟩ := zeroBlocks_out .y (groupBlocks g) { s with
    arenaCur := start, cntrlY := clrBothBits .y (groupBlocks g) s.cntrlY, elim := setBit s.elim g }
  exact ⟨hlm, hout, zeroBlocks_hold (fun n hn => groupBlocks_lt hn) _⟩

/-- The macroblock's elimination changes the luma sub-blocks, CNTRL_Y, CBP_L, MB_ELIM and the cursor. -/
theorem eliminateMb_fixed (start : Word) (s : State) :
    (∃ m, eliminateMb start s = { s with
      lm := m, arenaCur := start, cntrlY := 0, cbp := withCbpL s.cbp 0, elim := setBit s.elim 4 }) ∧
      (∀ a, (∀ n ∈ raster, ¬ BlockByte .y n a) → (eliminateMb start s).lm.read a = s.lm.read a) ∧
      ∀ n ∈ raster, BlockHolds .y n (fun _ => 0) (eliminateMb start s) := by
  obtain ⟨hlm, hout⟩ := zeroBlocks_out .y raster { s with
    arenaCur := start, cntrlY := 0, cbp := withCbpL s.cbp 0, elim := setBit s.elim 4 }
  exact ⟨hlm, hout, zeroBlocks_hold (fun n hn => raster_lt hn) _⟩

/-- The luma sub-blocks whose control bits a group's elimination clears. -/
theorem clrBothBits_group {g n : Nat} (hg : g < 4) (hn : n < 16) (w : Word) :
    (groupOf n = g → (clrBothBits .y (groupBlocks g) w).getLsbD (31 - n) = false ∧
      (clrBothBits .y (groupBlocks g) w).getLsbD (15 - n) = false) ∧
    (groupOf n ≠ g → (clrBothBits .y (groupBlocks g) w).getLsbD (31 - n) = w.getLsbD (31 - n) ∧
      (clrBothBits .y (groupBlocks g) w).getLsbD (15 - n) = w.getLsbD (15 - n)) := by
  have bit {i : Nat} (hi : i < 32) := getLsbD_clrBothBits .y (groupBlocks g) w hi
  constructor
  · rintro rfl
    have hmem := mem_groupBlocks hn
    exact ⟨Bool.eq_false_iff.mpr fun h => (((bit (by omega)).mp h).2 n hmem).1 rfl,
      Bool.eq_false_iff.mpr fun h => (((bit (by omega)).mp h).2 n hmem).2 rfl⟩
  · intro hne
    have apart : ∀ m ∈ groupBlocks g, m < 16 ∧ m ≠ n := fun m hm =>
      ⟨groupBlocks_lt hm, fun he => hne (he ▸ groupOf_of_mem hg hm)⟩
    constructor <;>
      · refine Bool.eq_iff_iff.mpr ((bit (by omega)).trans (and_iff_left fun m hm => ?_))
        have := apart m hm
        simp only [acBit, dcBit]
        omega

end Laws

/-- Settles O47, from EMIT's answer to a record that does not fit. -/
theorem packOverflow : Obligations.PackOverflow := by
  refine ⟨fun p n ac s c hn hc h => ?_, fun p s c hc h => ?_, fun start vs s hl h => ?_⟩
  · rw [← Laws.opOf_pack4 p n ac]
    exact Laws.exec_overflow (Laws.issueCheck_pack4 hn ac s) (Laws.pack4_overflows _ hc h)
  · rw [← Laws.dcScan_eq] at h
    rw [← Laws.opOf_packdc p]
    exact Laws.exec_overflow (Laws.issueCheck_packdc p s) (Laws.packdc_overflows _ hc h)
  · exact Laws.emit_overflows hl (Nat.lt_of_lt_of_le s.arenaEnd.isLt h)

/-- Settles O53, from what the eliminations change and leave. -/
theorem lumaElimination : Obligations.LumaElimination := by
  refine ⟨fun g start s hg => ?_, fun start s => ?_⟩
  · obtain ⟨⟨m, hfix⟩, hout, hzero⟩ := Laws.eliminateGroup_fixed g start s
    have hcntrl : (eliminateGroup g start s).cntrlY = clrBothBits .y (groupBlocks g) s.cntrlY := by rw [hfix]
    have helim : (eliminateGroup g start s).elim = setBit s.elim g := by rw [hfix]
    refine ⟨by rw [hfix], fun n hn hgn => ?_, fun n hn hgn => ?_, fun b => ?_, fun a ha => hout a fun n hn => ?_⟩
    · obtain ⟨hnnz, hcoef⟩ := (hzero n (hgn ▸ Laws.mem_groupBlocks hn)).empty
      rw [hcntrl]
      exact ⟨hnnz, hcoef, (Laws.clrBothBits_group hg hn _).1 hgn⟩
    · rw [hcntrl]
      exact (Laws.clrBothBits_group hg hn _).2 hgn
    · rw [helim, Laws.getLsbD_setBit_eq _ (by omega)]
    · exact Laws.not_blockByte (ha n (Laws.groupBlocks_lt hn) (Laws.groupOf_of_mem hg hn))
  · obtain ⟨⟨m, hfix⟩, hout, hzero⟩ := Laws.eliminateMb_fixed start s
    refine ⟨?_, fun n hn => (hzero n (Laws.mem_raster hn)).empty, fun a ha => hout a fun n hn => ?_⟩
    · rw [hfix, Laws.withCbpL_empty]
      rfl
    · exact Laws.not_blockByte (ha n (Laws.raster_lt hn))

/-- Settles O54, from what the elimination of a plane changes and leaves. -/
theorem planeElimination : Obligations.PlaneElimination := by
  intro p start s hp
  obtain ⟨⟨m, hfix⟩, hout, hzero⟩ := Laws.eliminatePlane_fixed p start s
  have hcntrl : (eliminatePlane p start s).cntrlC = clrAcBits p [0, 1, 2, 3] s.cntrlC := by rw [hfix]
  have helim : (eliminatePlane p start s).elim = setBit s.elim (4 + p.idx) := by rw [hfix]
  have cleared {b : Nat} (hb : b < 32) := Laws.getLsbD_clrAcBits p [0, 1, 2, 3] s.cntrlC hb
  refine ⟨by rw [hfix], fun n hn => ?_, fun b hb => ?_, fun b => ?_, fun a ha => hout a fun n hn =>
    Laws.not_blockByte (ha n hn)⟩
  · obtain ⟨hnnz, hcoef⟩ := (hzero n hn).empty
    have hlt : acBit p n < 32 := by
      have := Laws.acBit_eq p hn
      have := Laws.dcBit_lt p n
      omega
    rw [hcntrl]
    exact ⟨hnnz, hcoef, Bool.eq_false_iff.mpr fun h => ((cleared hlt).mp h).2 n (Laws.mem_quad.mpr hn) rfl⟩
  · rw [hcntrl]
    by_cases hlt : b < 32
    · exact Bool.eq_iff_iff.mpr ((cleared hlt).trans (and_iff_left fun n hn => hb n (Laws.mem_quad.mp hn)))
    · rw [BitVec.getLsbD_of_ge _ _ (by omega), BitVec.getLsbD_of_ge _ _ (by omega)]
  · have := Sys2Proof.Laws.ReservedZero.idx_lt p
    rw [helim, Laws.getLsbD_setBit_eq _ (by omega)]

end Sys2Proof.Machine
end

section
/-! PROOFS. The command word: its fields, the round trip of decoder and encoder, which words are refused and why; the
statements `DecodeOfEncode`, `EncodeOfDecode`, `ReservedOpcodeRefused`, `IllegalFieldRefused`,
`LegalWordAcceptedOrBadQparam`, `WordsDecodeAsTheSpecSays` and `NopResult`. -/

namespace Sys2Proof.Machine

namespace Laws

open Sys2Proof.Claims Sys2Proof.Laws.ReservedZero
open Sys2Proof.Laws.ReservedZero (opOf_pack bits_pack_low idx_lt)

/-! ### Fields of a word (30_encoding.md R111) -/

theorem opOf_toNat (w : Word) : (opOf w).toNat = bits w 31 24 := by
  rw [opOf, BitVec.toNat_ofNat]
  exact Nat.mod_eq_of_lt (Nat.mod_lt _ (by decide))

theorem blkOf_val (w : Word) : (blkOf w).val = bits w 21 18 :=
  Nat.mod_eq_of_lt (Nat.mod_lt _ (by decide))

/-- The plane of a word is the one PL numbers. -/
theorem planeOf_eq_some {w : Word} {p : Plane} : planeOf w = some p ↔ bits w 23 22 = p.idx := by
  have hlt : bits w 23 22 < 4 := Nat.mod_lt _ (by decide)
  unfold planeOf
  generalize bits w 23 22 = k at hlt ⊢
  interval_cases k <;> cases p <;> decide

theorem bits_bit (w : Word) (i : Nat) : bits w i i = 1 ↔ w.getLsbD i = true := by
  rw [getLsbD_eq_decide, decide_eq_true_eq, bits_eq, Nat.sub_self, Nat.zero_add, pow_one]

/-! ### A word put together from its fields (30_encoding.md R118) -/

section Pack

variable {op pl blk : Nat} {a b c d : Bool}

/-- The opcode comes back. -/
theorem bits_pack_op (ho : op < 256) (hp : pl < 4) (hb : blk < 16) : bits (pack op pl blk a b c d) 31 24 = op := by
  rw [← opOf_toNat, opOf_pack _ _ _ _ _ _ _ hp hb, BitVec.toNat_ofNat, Nat.mod_eq_of_lt ho]

/-- The operand fields come back. -/
theorem fields_pack (hp : pl < 4) (hb : blk < 16) : bits (pack op pl blk a b c d) 23 22 = pl ∧
    bits (pack op pl blk a b c d) 21 18 = blk ∧ fdcOf (pack op pl blk a b c d) = a ∧
    felOf (pack op pl blk a b c d) = b ∧ frcOf (pack op pl blk a b c d) = c ∧ fbdOf (pack op pl blk a b c d) = d := by
  have := Bool.toNat_lt a
  have := Bool.toNat_lt b
  have := Bool.toNat_lt c
  have := Bool.toNat_lt d
  have low : (pack op pl blk a b c d).toNat % 2 ^ 24 = pl * 2 ^ 22 + blk * 2 ^ 18 + a.toNat * 2 ^ 17
      + b.toNat * 2 ^ 16 + c.toNat * 2 ^ 15 + d.toNat * 2 ^ 14 := by
    rw [pack, BitVec.toNat_ofNat]
    omega
  have flag {i : Nat} {x : Bool} (h : (pack op pl blk a b c d).toNat / 2 ^ i % 2 = x.toNat) :
      (pack op pl blk a b c d).getLsbD i = x := by
    rw [getLsbD_eq_decide, h]
    cases x <;> rfl
  refine ⟨?_, ?_, flag (by omega), flag (by omega), flag (by omega), flag (by omega)⟩ <;>
    · rw [bits_eq]
      omega

/-- The flag FRC, as a field of one bit. -/
theorem bits_pack_frc (hp : pl < 4) (hb : blk < 16) : bits (pack op pl blk a b c d) 15 15 = 1 ↔ c = true := by
  obtain ⟨-, -, -, -, hfrc, -⟩ := fields_pack (op := op) (a := a) (b := b) (c := c) (d := d) hp hb
  rw [bits_bit]
  exact Bool.eq_iff_iff.mp hfrc

end Pack

/-- A word whose bits 13:0 are 0 is put together from its fields. -/
theorem pack_fields {w : Word} (h : bits w 13 0 = 0) :
    pack (bits w 31 24) (bits w 23 22) (bits w 21 18) (fdcOf w) (felOf w) (frcOf w) (fbdOf w) = w := by
  have flag (i : Nat) : (w.getLsbD i).toNat = w.toNat / 2 ^ i % 2 := by
    rw [getLsbD_eq_decide]
    rcases Nat.mod_two_eq_zero_or_one (w.toNat / 2 ^ i) with h | h <;> rw [h] <;> rfl
  have hw := w.isLt
  apply BitVec.eq_of_toNat_eq
  simp only [pack, BitVec.toNat_ofNat, fdcOf, felOf, frcOf, fbdOf, flag, bits_eq] at h ⊢
  omega

/-! ### The opcode map (30_encoding.md R114, R115) -/

theorem definedOps_eq : definedOps = opRows.map (·.op.toNat) := rfl

/-- The row found for a word is a row of the map and holds its opcode. -/
theorem opRow_some {w : Word} {row : OpRow} (h : opRow (opOf w) = some row) :
    row ∈ opRows ∧ bits w 31 24 = row.op.toNat := by
  have hop : row.op = opOf w := by simpa using List.find?_some h
  exact ⟨List.mem_of_find?_eq_some h, by rw [hop, opOf_toNat]⟩

theorem opRow_eq_none {w : Word} : opRow (opOf w) = none ↔ bits w 31 24 ∉ definedOps := by
  rw [opRow, List.find?_eq_none, definedOps_eq, List.mem_map, not_exists]
  refine forall_congr' fun row => ?_
  rw [beq_iff_eq, BitVec.toNat_eq, opOf_toNat, not_and]

/-- A defined opcode has a row. -/
theorem exists_row {w : Word} (h : bits w 31 24 ∈ definedOps) : ∃ row, opRow (opOf w) = some row :=
  Option.ne_none_iff_exists'.mp fun hn => opRow_eq_none.mp hn h

/-- The fields a row marks "-" are 0 in a word, as propositions. -/
theorem unusedClear_iff {row : OpRow} {w : Word} : unusedClear row w = true ↔ absent w 13 0 ∧
    (row.pl = true ∨ absent w 23 22) ∧ (row.blk = true ∨ absent w 21 18) ∧ (row.fdc = true ∨ fdcOf w = false) ∧
    (row.fel = true ∨ felOf w = false) ∧ (row.frc = true ∨ frcOf w = false) ∧ (row.fbd = true ∨ fbdOf w = false) := by
  simp only [unusedClear, Bool.and_eq_true, Bool.or_eq_true, beq_iff_eq, Bool.not_eq_true', and_assoc, absent]

/-! ### What the decoder takes (30_encoding.md R116, R118) -/

theorem decode_eq_ok {w : Word} {i : Instr} : decode w = .ok i ↔
    ∃ row, opRow (opOf w) = some row ∧ unusedClear row w = true ∧ assemble w = some i ∧ i.wf = true := by
  cases hr : opRow (opOf w) with
  | none => simp [decode, hr]
  | some row =>
    cases hu : unusedClear row w with
    | false => simp [decode, hr, hu]
    | true =>
      cases ha : assemble w with
      | none => simp [decode, hr, hu, ha]
      | some j =>
        simp only [decode, hr, hu, ha, if_true, Option.some.injEq, exists_eq_left', true_and]
        cases hw : j.wf with
        | false => exact ⟨fun h => (nomatch h), fun ⟨hji, hi⟩ => by rw [hji, hi] at hw; cases hw⟩
        | true => exact ⟨fun h => (by cases h; exact ⟨rfl, hw⟩), fun ⟨hji, _⟩ => by rw [hji]; rfl⟩

/-- A word with a row of the map is taken, or refused for a field. -/
theorem decode_of_row {w : Word} {row : OpRow} (hr : opRow (opOf w) = some row) :
    (∃ i, decode w = .ok i) ∨ decode w = .reject .illegalField := by
  simp only [decode, hr]
  split
  · split
    · split
      · exact .inl ⟨_, rfl⟩
      · exact .inr rfl
    · exact .inr rfl
  · exact .inr rfl

/-! ### The word of a command -/

/-- A command's word has a row of the map and leaves the fields its row marks "-" at 0. -/
theorem unusedClear_encode (i : Instr) :
    ∃ row, opRow (opOf (encode i)) = some row ∧ unusedClear row (encode i) = true := by
  cases i <;>
    · refine ⟨_, by rw [encode, opOf_pack _ _ _ _ _ _ _ (by simp [idx_lt]) (by simp)]; rfl, ?_⟩
      simp [unusedClear, encode, bits_pack_low, fields_pack, idx_lt]

/-- The operands of a command come back from its word. -/
theorem assemble_encode (i : Instr) : assemble (encode i) = some i := by
  have plane {op n : Nat} {a b c d : Bool} (p : Plane) (hn : n < 16) : planeOf (pack op p.idx n a b c d) = some p :=
    planeOf_eq_some.mpr (fields_pack (idx_lt p) hn).1
  cases i <;> simp [assemble, encode, opOf_pack, plane, blkOf, fields_pack, idx_lt]

/-- The decoder takes the word of a legal command for that command. -/
theorem decode_encode {i : Instr} (h : i.wf = true) : decode (encode i) = .ok i := by
  obtain ⟨row, hrow, hclear⟩ := unusedClear_encode i
  exact decode_eq_ok.mpr ⟨row, hrow, hclear, assemble_encode i, h⟩

/-- The command assembled from a word with a row of the map has the word's fields, where those the row marks "-" are 0. -/
theorem encode_of_assemble (w : Word) : ∀ row ∈ opRows, bits w 31 24 = row.op.toNat →
    ∀ i, assemble w = some i → unusedClear row w = true → encode i =
      pack (bits w 31 24) (bits w 23 22) (bits w 21 18) (fdcOf w) (felOf w) (frcOf w) (fbdOf w) := by
  intro row hmem hop
  fin_cases hmem <;>
    simp only [assemble, opOf_toNat, hop, BitVec.reduceToNat, Option.map_eq_some_iff, planeOf_eq_some, Option.some.injEq,
      forall_exists_index, and_imp, forall_apply_eq_imp_iff₂, forall_eq'] <;>
    simp +contextual [unusedClear, encode, blkOf_val]

/-- A word the decoder takes is the word of the command it is taken for. -/
theorem encode_decode {w : Word} {i : Instr} (h : decode w = .ok i) : encode i = w := by
  obtain ⟨row, hr, hu, ha, -⟩ := decode_eq_ok.mp h
  obtain ⟨hmem, hop⟩ := opRow_some hr
  rw [encode_of_assemble w row hmem hop i ha hu]
  exact pack_fields (unusedClear_iff.mp hu).1

/-! ### Legal words (30_encoding.md R116) -/

/-- A field is empty when its lowest bit is 0 and the field above that bit is empty. -/
theorem absent_peel (w : Word) {hi lo : Nat} (h : lo < hi) :
    absent w hi lo ↔ w.getLsbD lo = false ∧ absent w hi (lo + 1) := by
  obtain ⟨m, rfl⟩ := Nat.exists_eq_add_of_lt h
  have hquot : w.toNat / 2 ^ (lo + 1) = w.toNat / 2 ^ lo / 2 := by rw [pow_succ, Nat.div_div_eq_div_mul]
  rw [absent, absent, getLsbD_eq_decide, decide_eq_false_iff_not, bits_eq, bits_eq, hquot,
    show lo + m + 1 - lo + 1 = (m + 1) + 1 by omega, show lo + m + 1 - (lo + 1) + 1 = m + 1 by omega, pow_succ' 2 (m + 1),
    Nat.mod_mul]
  omega

theorem absent_iff_bit (w : Word) (i : Nat) : absent w i i ↔ w.getLsbD i = false := by
  rw [absent, getLsbD_eq_decide, decide_eq_false_iff_not, bits_eq, Nat.sub_self]
  omega

/-- PL and BLK are both 0 when bits 23:18 are. -/
theorem absent_pl_blk (w : Word) : absent w 23 18 ↔ absent w 23 22 ∧ absent w 21 18 := by
  rw [absent, absent, absent, bits_eq, bits_eq, bits_eq]
  omega

/-- PL names one of the three planes. -/
theorem exists_plane_idx {k : Nat} : k < 3 ↔ ∃ p : Plane, k = p.idx := by
  constructor
  · intro h
    interval_cases k
    exacts [⟨.y, rfl⟩, ⟨.cb, rfl⟩, ⟨.cr, rfl⟩]
  · rintro ⟨p, rfl⟩
    cases p <;> decide

theorem exists_chroma_idx {k : Nat} : k = 1 ∨ k = 2 ↔ ∃ p : Plane, k = p.idx ∧ p.isChroma = true := by
  constructor
  · rintro (rfl | rfl)
    exacts [⟨.cb, rfl, rfl⟩, ⟨.cr, rfl, rfl⟩]
  · rintro ⟨p, rfl, hp⟩
    cases p <;> simp_all [Plane.idx, Plane.isChroma]

/-- A sub-block number of the plane PL names. -/
theorem exists_block_idx {k n : Nat} : k < 3 ∧ n < nbOf k ↔ ∃ p : Plane, k = p.idx ∧ n < p.nb := by
  have nb (p : Plane) : nbOf p.idx = p.nb := by cases p <;> rfl
  rw [exists_plane_idx]
  constructor
  · rintro ⟨⟨p, rfl⟩, hn⟩
    exact ⟨p, rfl, nb p ▸ hn⟩
  · rintro ⟨p, rfl, hn⟩
    exact ⟨⟨p, rfl⟩, (nb p).symm ▸ hn⟩

/-- The legal words with a defined opcode are those the decoder takes. In every row of the map, the empty ranges of
`legalFields` come apart into the flags, PL and BLK the row marks "-", and the existence of a plane whose command is
well formed becomes the bounds on PL and BLK. -/
theorem decode_ok_iff_legalFields {w : Word} (hd : bits w 31 24 ∈ definedOps) :
    (∃ i, decode w = .ok i) ↔ legalFields w := by
  obtain ⟨row, hr⟩ := exists_row hd
  obtain ⟨hmem, hop⟩ := opRow_some hr
  have hdec : (∃ i, decode w = .ok i) ↔ unusedClear row w = true ∧ ∃ i, assemble w = some i ∧ i.wf = true := by
    simp [decode_eq_ok, hr]
  rw [hdec, unusedClear_iff, legalFields, assemble, opOf_toNat]
  clear hd hr hdec
  fin_cases hmem <;>
    simp only [hop, BitVec.reduceToNat, Bool.false_eq_true, false_or, true_or, true_and, and_true, fdcOf, felOf, frcOf,
      fbdOf, absent_peel w (lo := 14), absent_peel w (lo := 15), absent_peel w (lo := 16), absent_peel w (lo := 17),
      Nat.reduceLT, Nat.reduceAdd, absent_iff_bit, bits_bit, absent_pl_blk, Option.map_eq_some_iff, planeOf_eq_some,
      Option.some.injEq, exists_eq_left', exists_exists_and_eq_and, Instr.wf, ← exists_plane_idx, ← exists_chroma_idx,
      ← exists_block_idx, decide_eq_true_eq, blkOf_val, Bool.or_eq_true, Bool.not_eq_true', ← Bool.not_eq_true] <;>
    tauto

/-- A defined opcode is refused for its fields alone. -/
theorem decode_illegalField {w : Word} (hd : bits w 31 24 ∈ definedOps) :
    decode w = .reject .illegalField ↔ ¬ legalFields w := by
  obtain ⟨row, hr⟩ := exists_row hd
  rw [← decode_ok_iff_legalFields hd]
  rcases decode_of_row hr with ⟨i, hi⟩ | hf
  · simp [hi]
  · simp [hf]

theorem decode_illegalOpcode {w : Word} : decode w = .reject .illegalOpcode ↔ bits w 31 24 ∉ definedOps := by
  rw [← opRow_eq_none]
  cases hr : opRow (opOf w) with
  | none => simp [decode, hr]
  | some row => rcases decode_of_row hr with ⟨i, hi⟩ | hf <;> simp [*]

/-! ### Issue while idle (60_exceptions.md R282, R283) -/

/-- A refusal while idle changes CMD, DONE and ERR alone, and ERR only where no error stands. -/
theorem refuse_idle {s : State} (hb : s.busy = false) (w : Word) (code : ErrorCode) :
    refuse w code s = { s with cmd := w, done := true, err := firstError s.err code (opOf w) } := by
  rw [refuse, complete_record_eq rfl, ← hb]
  rfl

/-- A word the decoder rejects is refused with the reason's code. -/
theorem issue_rejected {w : Word} {r : Reject} {s : State} (hb : s.busy = false) (hd : decode w = .reject r) :
    issue w s = { s with cmd := w, done := true, err := firstError s.err (Reject.code r) (opOf w) } := by
  rw [← refuse_idle hb]
  simp only [issue, hb, hd, Bool.false_eq_true, if_false]

/-- A command that reads a QP_DIV above 8 is refused as BAD_QPARAM (30_encoding.md R117). -/
theorem issue_badQparam {w : Word} {i : Instr} {s : State} (hb : s.busy = false) (hd : decode w = .ok i)
    (hq : ∃ p ∈ qpDivRead i, qpDiv p s > 8) :
    issue w s = { s with cmd := w, done := true, err := firstError s.err .badQparam (opOf w) } := by
  have hbad : qparamOk i s = false := by
    obtain ⟨p, hp, h8⟩ := hq
    exact List.all_eq_false.mpr ⟨p, hp, by simpa using h8⟩
  have hc : issueCheck i s = some .badQparam := by
    simp only [issueCheck, wf_of_decode hd, hbad, Bool.not_true, Bool.not_false, Bool.false_eq_true, if_false, if_true]
  rw [← refuse_idle hb]
  simp only [issue, hb, hd, hc, Bool.false_eq_true, if_false]

/-- The planes whose QP_DIV a command reads, by its word. -/
theorem planesRead_encode (i : Instr) : planesRead (encode i) = qpDivRead i := by
  cases i with
  | ihs2 p | iqtr4 p _ _ | iqtr4dc p _ _ =>
    cases p <;> simp [planesRead, encode, bits_pack_op, fields_pack, qpDivRead, Plane.idx]
  | _ => simp [planesRead, encode, bits_pack_op, bits_pack_frc, qpDivRead, idx_lt]

end Laws

/-- Settles O1, from the row and the operands of a command's word. -/
theorem decodeOfEncode : Obligations.DecodeOfEncode := fun _ h => Laws.decode_encode h

/-- Settles O2: the word is put together from its fields, and its command has the same fields. -/
theorem encodeOfDecode : Obligations.EncodeOfDecode := fun _ _ h => ⟨Laws.wf_of_decode h, Laws.encode_decode h⟩

/-- Settles O4: a reserved opcode is one without a row of the map. -/
theorem reservedOpcodeRefused : Obligations.ReservedOpcodeRefused := fun _ _ hb =>
  ⟨Laws.decode_illegalOpcode, fun h => Laws.issue_rejected hb (Laws.decode_illegalOpcode.mpr h)⟩

/-- Settles O5: the decoder takes the legal words of the defined opcodes and refuses the others for a field. -/
theorem illegalFieldRefused : Obligations.IllegalFieldRefused := fun _ _ hb hd =>
  ⟨Laws.decode_illegalField hd, fun h => Laws.issue_rejected hb ((Laws.decode_illegalField hd).mpr h)⟩

/-- Settles O6: a legal word is the word of its command, so it names the planes the command reads. -/
theorem legalWordAcceptedOrBadQparam : Obligations.LegalWordAcceptedOrBadQparam := by
  intro w s hb hd hl
  obtain ⟨i, hi⟩ := (Laws.decode_ok_iff_legalFields hd).mpr hl
  rw [← Laws.encode_decode hi, Laws.planesRead_encode i, Laws.encode_decode hi]
  exact ⟨Laws.issue_badQparam hb hi, fun hq =>
    Laws.issue_accepts hb hi (Laws.issueCheck_eq_none (Laws.wf_of_decode hi) hq)⟩

/-- Settles O3: each word is the word of its command. -/
theorem wordsDecodeAsTheSpecSays : Obligations.WordsDecodeAsTheSpecSays :=
  ⟨Laws.decode_encode (i := .nop) rfl, Laws.decode_encode (i := .ftq4 .cb 2 true) rfl,
    Laws.decode_encode (i := .ihs2 .cr) rfl, Laws.decode_encode (i := .pack4 .y 1 true) rfl,
    Laws.decode_encode (i := .codeL16 true true false) rfl, Laws.decode_encode (i := .reconY16 true true) rfl⟩

/-- Settles O34: NOP has no steps, and its opcode no fields. -/
theorem nopResult : Obligations.NopResult := by
  refine ⟨fun s => ?_, fun w hop hne => ?_⟩
  · have hc : issueCheck .nop s = none := Laws.issueCheck_eq_none rfl fun _ hp => nomatch hp
    rw [Laws.exec_eq, command, hc]
    rfl
  · refine (Laws.decode_illegalField (by rw [hop]; decide)).mpr fun hl => hne ?_
    obtain ⟨hlow, hfields⟩ := hl
    rw [hop] at hfields
    simp only [Claims.absent, Laws.bits_eq] at hlow hfields hop
    exact BitVec.eq_of_toNat_eq (by rw [BitVec.ofNat_eq_ofNat, BitVec.toNat_zero]; omega)

end Sys2Proof.Machine
end

section
/-! PROOFS. The forward kernels (40_forward.md R140 to R146): the transforms as matrix products, their range and their
squares, and the quantizer in its second form; the statements `QuantizerCorners`, `ForwardTransform` and
`HadamardTransforms`. -/

namespace Sys2Proof.Machine

namespace Laws

open Sys2Proof.Claims

/-! ### Four values and 4x4 blocks -/

@[simp] theorem quadAt_quadMap (f : α → β) (v : Quad α) (i : Nat) : quadAt (quadMap f v) i = f (quadAt v i) := by
  match i with
  | 0 => rfl
  | 1 => rfl
  | 2 => rfl
  | _ + 3 => rfl

@[simp] theorem quadAt_transpose (m : Mat α) (i j : Nat) :
    quadAt (quadAt (transpose m) i) j = quadAt (quadAt m j) i := by
  match i, j with
  | 0, 0 | 0, 1 | 0, 2 | 0, _ + 3 => rfl
  | 1, 0 | 1, 1 | 1, 2 | 1, _ + 3 => rfl
  | 2, 0 | 2, 1 | 2, 2 | 2, _ + 3 => rfl
  | _ + 3, 0 | _ + 3, 1 | _ + 3, 2 | _ + 3, _ + 3 => rfl

theorem matAt_rowCol (m : Mat α) (r : Nat) {c : Nat} (hc : c < 4) : matAt m (4 * r + c) = quadAt (quadAt m r) c := by
  rw [matAt, show (4 * r + c) / 4 = r by omega, show (4 * r + c) % 4 = c by omega]

theorem forall_lt_four {P : Nat → Prop} (h0 : P 0) (h1 : P 1) (h2 : P 2) (h3 : P 3) : ∀ i, i < 4 → P i := by
  intro i hi
  match i with
  | 0 => exact h0
  | 1 => exact h1
  | 2 => exact h2
  | 3 => exact h3

theorem quadAt_indexes : ∀ i, i < 4 → quadAt (⟨0, 1, 2, 3⟩ : Quad Nat) i = i := forall_lt_four rfl rfl rfl rfl

theorem quadAt_matOf (x : Nat → Nat → α) {r c : Nat} (hr : r < 4) (hc : c < 4) :
    quadAt (quadAt (matOf x) r) c = x r c := by
  rw [matOf, quadAt_quadMap, quadAt_quadMap, quadAt_indexes r hr, quadAt_indexes c hc]

theorem matOfList_raster (f : Nat → Int) : matOfList (raster.map f) = matOf fun r c => f (4 * r + c) := rfl

/-! ### Sums over an index 0 to 3 -/

theorem sum4_congr {f g : Nat → Int} (h : ∀ i, i < 4 → f i = g i) : sum4 f = sum4 g := by
  simp only [sum4, h 0 (by decide), h 1 (by decide), h 2 (by decide), h 3 (by decide)]

/-- The order of two sums does not matter. -/
theorem sum4_comm (a b : Nat → Int) (x : Nat → Nat → Int) :
    (sum4 fun j => a j * sum4 fun i => b i * x i j) = sum4 fun i => b i * sum4 fun j => a j * x i j := by
  simp only [sum4]; ring

theorem sum4_mul_left (a : Int) (m x : Nat → Int) : (sum4 fun i => m i * (a * x i)) = a * sum4 fun i => m i * x i := by
  simp only [sum4]; ring

/-! ### The two passes of a transform (40_forward.md R143, R145) -/

/-- The butterfly `b` is the product with the matrix `m`. -/
def IsProduct (m : Nat → Nat → Int) (b : Quad Int → Quad Int) : Prop :=
  ∀ v k, k < 4 → quadAt (b v) k = sum4 fun i => m k i * quadAt v i

theorem ftButterfly_isProduct : IsProduct cfMatrix ftButterfly := fun v => by
  refine forall_lt_four ?_ ?_ ?_ ?_ <;>
    simp only [quadAt, ftButterfly, sum4, cfMatrix, List.getD_cons_zero, List.getD_cons_succ] <;> ring

theorem hdButterfly_isProduct : IsProduct hmMatrix hdButterfly := fun v => by
  refine forall_lt_four ?_ ?_ ?_ ?_ <;>
    simp only [quadAt, hdButterfly, sum4, hmMatrix, List.getD_cons_zero, List.getD_cons_succ] <;> ring

/-- `M · X · M^T`, the rows first. -/
theorem sandwich_rows (m x : Nat → Nat → Int) (r c : Nat) :
    sandwich m x r c = sum4 fun i => m r i * sum4 fun j => m c j * x i j := by
  simp only [sandwich, sum4]; ring

theorem sandwich_congr (m : Nat → Nat → Int) {x y : Nat → Nat → Int} (h : ∀ i j, i < 4 → j < 4 → x i j = y i j)
    (r c : Nat) : sandwich m x r c = sandwich m y r c := by
  simp only [sandwich_rows]
  exact sum4_congr fun i hi => congrArg (m r i * ·) (sum4_congr fun j hj => congrArg (m c j * ·) (h i j hi hj))

/-- A butterfly on the rows, then on the columns, is `M · X · M^T`. -/
theorem quadAt_twoPasses {m : Nat → Nat → Int} {b : Quad Int → Quad Int} (hb : IsProduct m b) (x : Mat Int) {r c : Nat}
    (hr : r < 4) (hc : c < 4) :
    quadAt (quadAt (transpose (quadMap b (transpose (quadMap b x)))) r) c =
      sandwich m (fun i j => quadAt (quadAt x i) j) r c := by
  rw [quadAt_transpose, quadAt_quadMap, hb _ r hr, sandwich_rows]
  refine sum4_congr fun i _ => congrArg (m r i * ·) ?_
  rw [quadAt_transpose, quadAt_quadMap, hb _ c hc]

/-- The same of a block given by row and column. -/
theorem matAt_twoPasses {m : Nat → Nat → Int} {b : Quad Int → Quad Int} (hb : IsProduct m b) (x : Nat → Nat → Int)
    {r c : Nat} (hr : r < 4) (hc : c < 4) :
    matAt (transpose (quadMap b (transpose (quadMap b (matOf x))))) (4 * r + c) = sandwich m x r c := by
  rw [matAt_rowCol _ r hc, quadAt_twoPasses hb _ hr hc]
  exact sandwich_congr m (fun _ _ hi hj => quadAt_matOf x hi hj) r c

/-- The same at a raster index. -/
theorem matAt_twoPasses_raster {m : Nat → Nat → Int} {b : Quad Int → Quad Int} (hb : IsProduct m b)
    (x : Nat → Nat → Int) {k : Nat} (hk : k < 16) :
    matAt (transpose (quadMap b (transpose (quadMap b (matOf x))))) k = sandwich m x (k / 4) (k % 4) := by
  have h := matAt_twoPasses hb x (show k / 4 < 4 by omega) (show k % 4 < 4 by omega)
  rwa [Nat.div_add_mod] at h

theorem matAt_ft4 (x : Nat → Nat → Int) {r c : Nat} (hr : r < 4) (hc : c < 4) :
    matAt (ft4 (matOf x)) (4 * r + c) = sandwich cfMatrix x r c := matAt_twoPasses ftButterfly_isProduct x hr hc

theorem matAt_h4 (x : Nat → Nat → Int) {r c : Nat} (hr : r < 4) (hc : c < 4) :
    matAt (h4 (matOf x)) (4 * r + c) = sandwich hmMatrix x r c := matAt_twoPasses hdButterfly_isProduct x hr hc

theorem matAt_ft4_raster (x : Nat → Nat → Int) {k : Nat} (hk : k < 16) :
    matAt (ft4 (matOf x)) k = sandwich cfMatrix x (k / 4) (k % 4) :=
  matAt_twoPasses_raster ftButterfly_isProduct x hk

theorem matAt_h4_raster (x : Nat → Nat → Int) {k : Nat} (hk : k < 16) :
    matAt (h4 (matOf x)) k = sandwich hmMatrix x (k / 4) (k % 4) :=
  matAt_twoPasses_raster hdButterfly_isProduct x hk

theorem quadAt_h4 (m : Mat Int) {r c : Nat} (hr : r < 4) (hc : c < 4) :
    quadAt (quadAt (h4 m) r) c = sandwich hmMatrix (fun i j => quadAt (quadAt m i) j) r c :=
  quadAt_twoPasses hdButterfly_isProduct m hr hc

/-! ### The range of the forward transform (40_forward.md R144) -/

/-- `s(r)`: the sum of the magnitudes of a row of `Cf`. -/
def ftGain (r : Nat) : Nat := if r % 2 = 0 then 4 else 6

/-- One pass multiplies the magnitude by at most the gain of its row. -/
theorem natAbs_product_le {v : Nat → Int} {b : Nat} (hv : ∀ i, i < 4 → (v i).natAbs ≤ b) :
    ∀ r, r < 4 → (sum4 fun i => cfMatrix r i * v i).natAbs ≤ b * ftGain r := by
  have h0 := hv 0 (by decide)
  have h1 := hv 1 (by decide)
  have h2 := hv 2 (by decide)
  have h3 := hv 3 (by decide)
  refine forall_lt_four ?_ ?_ ?_ ?_ <;> simp [sum4, cfMatrix, ftGain] <;> omega

theorem natAbs_sandwich_le {x : Nat → Nat → Int} (hx : ∀ r c, r < 4 → c < 4 → (x r c).natAbs ≤ 255) {r c : Nat}
    (hr : r < 4) (hc : c < 4) : (sandwich cfMatrix x r c).natAbs ≤ 255 * ftGain r * ftGain c := by
  rw [sandwich_rows, Nat.mul_right_comm]
  exact natAbs_product_le (fun i hi => natAbs_product_le (fun j hj => hx i j hi hj) c hc) r hr

theorem ftGain_le (r : Nat) : ftGain r ≤ 6 := by
  rw [ftGain]; split <;> decide

/-- On a residual the transform fits in 16 bits. -/
theorem fits16_sandwich {x : Nat → Nat → Int} (hx : ∀ r c, r < 4 → c < 4 → (x r c).natAbs ≤ 255) {r c : Nat}
    (hr : r < 4) (hc : c < 4) : fits16 (sandwich cfMatrix x r c) := by
  have h := natAbs_sandwich_le hx hr hc
  have gain : 255 * ftGain r * ftGain c ≤ 255 * 6 * 6 :=
    Nat.mul_le_mul (Nat.mul_le_mul_left 255 (ftGain_le r)) (ftGain_le c)
  rw [fits16]
  omega

/-- Position 0 is the sum of the sixteen values. -/
theorem sandwich_cf_zero (x : Nat → Nat → Int) : sandwich cfMatrix x 0 0 = sum4 fun r => sum4 fun c => x r c := by
  simp only [sandwich, sum4, cfMatrix, List.getD_cons_zero, List.getD_cons_succ, Int.one_mul, Int.mul_one]

/-! ### The squares of the Hadamard transforms (40_forward.md R145, R146) -/

/-- `Hm · Hm = 4 I`. -/
theorem hm_hm (v : Nat → Int) :
    ∀ c, c < 4 → (sum4 fun j => hmMatrix c j * sum4 fun i => hmMatrix j i * v i) = 4 * v c := by
  refine forall_lt_four ?_ ?_ ?_ ?_ <;> simp only [sum4, hmMatrix, List.getD_cons_zero, List.getD_cons_succ] <;> ring

theorem sandwich_hm_hm (x : Nat → Nat → Int) {r c : Nat} (hr : r < 4) (hc : c < 4) :
    sandwich hmMatrix (sandwich hmMatrix x) r c = 16 * x r c := by
  have row (i : Nat) : (sum4 fun j => hmMatrix c j * sandwich hmMatrix x i j) =
      4 * sum4 fun k => hmMatrix i k * x k c := by
    simp only [sandwich_rows]
    rw [sum4_comm, ← sum4_mul_left]
    exact sum4_congr fun k _ => congrArg (hmMatrix i k * ·) (hm_hm (x k) c hc)
  rw [sandwich_rows]
  simp only [row]
  rw [sum4_mul_left, hm_hm (fun k => x k c) r hr]
  ring

/-- H4 of H4 is 16 times the block. -/
theorem quadAt_h4_h4 (m : Mat Int) {r c : Nat} (hr : r < 4) (hc : c < 4) :
    quadAt (quadAt (h4 (h4 m)) r) c = 16 * quadAt (quadAt m r) c := by
  rw [quadAt_h4 (h4 m) hr hc, sandwich_congr hmMatrix fun i j => quadAt_h4 m]
  exact sandwich_hm_hm _ hr hc

theorem quadAt_h2 (c : Quad Int) : ∀ k, k < 4 → quadAt (h2 c) k = hadamard2 (fun j => quadAt c j) k :=
  forall_lt_four rfl rfl rfl rfl

theorem quadAt_h2_h2 (c : Quad Int) : ∀ k, k < 4 → quadAt (h2 (h2 c)) k = 4 * quadAt c k := by
  refine forall_lt_four ?_ ?_ ?_ ?_ <;> simp only [h2, quadAt] <;> ring

/-! ### The quantizer (40_forward.md R140, R141) -/

theorem quant_eq_deadZone (x : Int) (sc th qb rd : Nat) : quant x sc th qb rd = deadZone x sc th qb rd := by
  rw [quant, deadZone, Nat.shiftRight_eq_div_pow, sign]

theorem sign_neg {x : Int} (h : x ≠ 0) : sign (-x) = -sign x := by
  rcases Int.lt_or_gt_of_ne h with h | h
  · rw [sign, sign, if_neg (by omega), if_pos h]; rfl
  · rw [sign, sign, if_pos (by omega), if_neg (by omega)]

theorem sign_ne_zero (x : Int) : sign x ≠ 0 := by
  rw [sign]; split <;> decide

theorem quant_below {x : Int} {th : Nat} (h : x.natAbs < th) (sc qb rd : Nat) : quant x sc th qb rd = 0 := if_pos h

theorem quant_above {x : Int} {th : Nat} (h : th ≤ x.natAbs) (sc qb rd : Nat) :
    quant x sc th qb rd = sign x * (((x.natAbs * sc + rd) / 2 ^ qb : Nat) : Int) := by
  rw [quant, if_neg (by omega), Nat.shiftRight_eq_div_pow]

theorem quant_neg {x : Int} (h : x ≠ 0) (sc th qb rd : Nat) : quant (-x) sc th qb rd = -quant x sc th qb rd := by
  by_cases hx : x.natAbs < th
  · rw [quant_below hx, quant_below (by rwa [Int.natAbs_neg]), Int.neg_zero]
  · have above := Nat.le_of_not_lt hx
    rw [quant_above above, quant_above (by rwa [Int.natAbs_neg]), Int.natAbs_neg, sign_neg h, Int.neg_mul]

theorem quant_zero (sc qb rd : Nat) : quant 0 sc 0 qb rd = ((rd / 2 ^ qb : Nat) : Int) := by
  rw [quant_above (Nat.zero_le _), Int.natAbs_zero, Nat.zero_mul, Nat.zero_add, show sign 0 = 1 from rfl, Int.one_mul]

/-- With no threshold a value is quantized to 0 exactly when its scaled magnitude is below one step. -/
theorem quant_eq_zero_iff (x : Int) (sc qb rd : Nat) : quant x sc 0 qb rd = 0 ↔ x.natAbs * sc + rd < 2 ^ qb := by
  rw [quant_above (Nat.zero_le _), Int.mul_eq_zero, or_iff_right (sign_ne_zero x), Int.natCast_eq_zero,
    Nat.div_eq_zero_iff, or_iff_right (Nat.two_pow_pos qb).ne']

end Laws

open Sys2Proof.Claims

/-- Settles O29: below the threshold the level is 0; above it the sign is put back on a quotient of naturals. -/
theorem quantizerCorners : Obligations.QuantizerCorners := by
  refine ⟨Laws.quant_eq_deadZone, fun x sc th qb rd h => Laws.quant_neg h sc th qb rd,
    fun x sc th qb rd h => Laws.quant_below h sc qb rd, fun sc qb rd => ⟨Laws.quant_zero sc qb rd, fun h h0 => ?_⟩,
    fun x sc qb rd _ => Laws.quant_eq_zero_iff x sc qb rd⟩
  have := (Laws.quant_eq_zero_iff 0 sc qb rd).mp h0
  omega

/-- Settles O30: each pass is the product with `Cf`, and multiplies magnitudes by at most the gain of its row. -/
theorem forwardTransform : Obligations.ForwardTransform := by
  refine fun x => ⟨fun r c => Laws.matAt_ft4 x, ?_, fun hx r c hr hc => ?_⟩
  · exact (Laws.matAt_ft4_raster x (by decide)).trans (Laws.sandwich_cf_zero x)
  · have hx : ∀ r c, r < 4 → c < 4 → (x r c).natAbs ≤ 255 := fun r c hr hc => by
      have := hx r c hr hc
      omega
    rw [Laws.matAt_ft4 x hr hc]
    exact ⟨Laws.natAbs_sandwich_le hx hr hc, Laws.fits16_sandwich hx hr hc⟩

/-- Settles O31: each pass is the product with `Hm`, whose square is 4. -/
theorem hadamardTransforms : Obligations.HadamardTransforms :=
  ⟨fun x _ _ => Laws.matAt_h4 x,
    fun m k hk => Laws.quadAt_h4_h4 m (show k / 4 < 4 by omega) (show k % 4 < 4 by omega),
    fun c k hk => ⟨Laws.quadAt_h2 c k hk, Laws.quadAt_h2_h2 c k hk⟩⟩

end Sys2Proof.Machine
end

section
/-! PROOFS. The forward commands from acceptance to completion (40_forward.md R150, R155, R160), and the completion of
every command; the statements `EveryCommandCompletes`, `Ftq4Result` and `FhqResults`. -/

namespace Sys2Proof.Machine

namespace Laws

open Sys2Proof.Claims

/-! ### From the steps of a command to its end -/

/-- A command that passes its issue checks and whose steps end normally completes with what they left. -/
theorem exec_completed {i : Instr} {s u : State} (hc : issueCheck i s = none)
    (hs : stepsOf i (accept (encode i) s) = .ok u) : exec i s = .next (complete u) := by
  simp only [exec_eq, command, hc, hs, finish]

/-- Of a command whose steps change local memory alone nothing but its "Writes", CMD, BUSY and DONE changes. -/
theorem exec_lmOnly {i : Instr} {s u : State} (hc : issueCheck i s = none)
    (hs : stepsOf i (accept (encode i) s) = .ok u) (hu : LmChange (accept (encode i) s) u) :
    exec i s = .next (complete u) ∧ LmOnly i s (complete u) := by
  have he := exec_completed hc hs
  obtain ⟨hframe, -⟩ := commandFrame i s _ he
  obtain ⟨m, rfl⟩ := hu
  exact ⟨he, rfl, hframe⟩

theorem issueCheck_ftq4 {p : Plane} {n : Fin 16} (hn : n.val < p.nb) (dcx : Bool) (s : State) :
    issueCheck (.ftq4 p n dcx) s = none := issueCheck_eq_none (decide_eq_true hn) fun _ hq => nomatch hq

theorem issueCheck_fhq4 (s : State) : issueCheck .fhq4 s = none := issueCheck_eq_none rfl fun _ hq => nomatch hq

theorem issueCheck_fhq2 {p : Plane} (hp : p.isChroma = true) (s : State) : issueCheck (.fhq2 p) s = none :=
  issueCheck_eq_none hp fun _ hq => nomatch hq

/-! ### FTQ4 (40_forward.md R150) -/

/-- A sample is below 256. -/
theorem lmSample_lt {a v : Nat} {s : State} (h : lmSample a s = .ok v) : v < 256 := by
  simp only [lmSample] at h
  split at h
  · cases h
  · rename_i b _
    cases h
    exact b.isLt

/-- The residual of a sub-block by row and column (40_forward.md R142). -/
def residualOf (src pr : Nat → Nat) (r c : Nat) : Int := (src (4 * r + c) : Int) - pr (4 * r + c)

/-- A coefficient is quantized as the spec's second form says. -/
theorem quantAt_ok {p : Plane} {k sc th : Nat} {s : State} (hsc : table tableScale p k s = .ok sc)
    (hth : table tableThresh p k s = .ok th) (qb rd : Nat) (x : Int) :
    quantAt p k qb rd x s = .ok (trunc16 (deadZone x sc th qb rd)) := by
  simp only [quantAt, hsc, hth, quant_eq_deadZone]

/-- The level FTQ4 stores at position `k` (40_forward.md R150). -/
def ftq4Level (dcx : Bool) (qb rd : Nat) (src pr sc th : Nat → Nat) (k : Nat) : Int :=
  if dcx = true ∧ k = 0 then 0 else levelOf qb rd src pr sc th k

section

variable {p : Plane} {n : Nat} {dcx : Bool} {s : State} {src pr sc th : Nat → Nat}
  (hsrc : ∀ k, k < 16 → srcSample p n (k / 4) (k % 4) s = .ok (src k))
  (hpr : ∀ k, k < 16 → predSample p n (k / 4) (k % 4) s = .ok (pr k))
  (hsc : ∀ k, k < 16 → (dcx = true → k ≠ 0) → table tableScale p k s = .ok (sc k))
  (hth : ∀ k, k < 16 → (dcx = true → k ≠ 0) → table tableThresh p k s = .ok (th k))

include hsrc hpr in
theorem residual_ok : residual p n s = .ok (raster.map fun k => (src k : Int) - pr k) :=
  readAll_ok fun k hk => by simp only [residualAt, hsrc k (raster_lt16 hk), hpr k (raster_lt16 hk)]

include hsrc hpr in
/-- A residual is from -255 to 255 (40_forward.md R142). -/
theorem natAbs_residualOf_le : ∀ r c, r < 4 → c < 4 → (residualOf src pr r c).natAbs ≤ 255 := by
  intro r c hr hc
  have hs := lmSample_lt (hsrc (4 * r + c) (by omega))
  have hp := lmSample_lt (hpr (4 * r + c) (by omega))
  rw [residualOf]
  omega

include hsc hth in
theorem ftLevel_ok {k : Nat} (hk : k < 16) : ftLevel p dcx (ft4 (matOf (residualOf src pr))) s k =
    .ok (ftq4Level dcx (qbits p s) (roundOff p s) src pr sc th k) := by
  by_cases h : dcx = true ∧ k = 0
  · rw [ftq4Level, if_pos h, ftLevel, if_pos (by simpa using h)]
  · have hr : dcx = true → k ≠ 0 := fun hd h0 => h ⟨hd, h0⟩
    rw [ftq4Level, if_neg h, ftLevel, if_neg (by simpa using h), quantAt_ok (hsc k hk hr) (hth k hk hr),
      matAt_ft4_raster _ hk]
    rfl

include hsrc hpr hsc hth in
/-- What FTQ4 computes: the DC is the sum of the residuals, which trunc16 never changes (40_forward.md R144). -/
theorem transformed_of_inputs : Transformed p n dcx s (sum4 fun r => sum4 fun c => residualOf src pr r c)
    (ftq4Level dcx (qbits p s) (roundOff p s) src pr sc th) := by
  refine ⟨_, residual_ok hsrc hpr, ?_, fun k hk => ?_⟩ <;> rw [matOfList_raster]
  · obtain ⟨hlo, hhi⟩ := fits16_sandwich (natAbs_residualOf_le hsrc hpr) (r := 0) (c := 0) (by decide) (by decide)
    have hdc := matAt_ft4_raster (residualOf src pr) (k := 0) (by decide)
    rw [← sandwich_cf_zero, ← trunc16_of_range hlo hhi]
    exact congrArg trunc16 hdc.symm
  · exact ftLevel_ok hsc hth hk

end

theorem BlockHolds.complete {p : Plane} {n : Nat} {lv : Nat → Int} {s : State} (h : BlockHolds p n lv s) :
    BlockHolds p n lv (complete s) := ⟨h.coef, h.nnz⟩

/-! ### FHQ4 and FHQ2 (40_forward.md R155, R160) -/

theorem shr_one (x : Int) : shr x 1 = x / 2 := by rw [shr, Int.shiftRight_eq_div_pow]; rfl

/-- The level FHQ4 and FHQ2 compute from a Hadamard sum (40_forward.md R155, R160). -/
def dcLevel (p : Plane) (s : State) (sc th : Nat) (x : Int) : Int :=
  trunc16 (deadZone x sc th (qbits p s + 1) (2 * roundOff p s))

theorem layerOf_tables {s : State} {sc th : Nat} (hsc : table tableScale .y 0 s = .ok sc)
    (hth : table tableThresh .y 0 s = .ok th) (dc : Nat → Int) :
    LayerOf s dc fun k => dcLevel .y s sc th (sandwich hmMatrix (fun r c => dc (4 * r + c)) (k / 4) (k % 4) / 2) := by
  intro k hk
  rw [fhq4Level, quantAt_ok hsc hth, matOfList_raster, matAt_h4_raster _ hk, shr_one]
  rfl

theorem quadOf_tables {p : Plane} {s : State} {sc th : Nat} (hsc : table tableScale p 0 s = .ok sc)
    (hth : table tableThresh p 0 s = .ok th) (dc : Nat → Int) :
    QuadOf p s dc fun k => dcLevel p s sc th (hadamard2 dc k) := by
  intro k hk
  have sum : hadamard2 (fun j => quadAt (quadOfList ([0, 1, 2, 3].map dc)) j) k = hadamard2 dc k := by
    simp only [hadamard2]; rfl
  rw [fhq2Level, quantAt_ok hsc hth, quadAt_h2 _ k hk, sum]
  rfl

theorem ne_luma_of_isChroma {p : Plane} (hp : p.isChroma = true) : p ≠ .y := fun h => by rw [h] at hp; cases hp

end Laws

open Sys2Proof.Claims

/-- Settles O10: the steps end normally inside the command's scope, with the records inside the room. -/
theorem everyCommandCompletes : Obligations.EveryCommandCompletes := by
  intro i s hw hq hr hroom
  have hc := Laws.issueCheck_eq_none hw hq
  obtain ⟨u, hs, hgrown, -⟩ := Laws.stepsOf_completes i (accept (encode i) s) hw hr hroom
  have hwork := (Laws.stepsOf_works i s.arenaCur.toNat (accept (encode i) s) hw).ok hs
  obtain ⟨hcur, harena⟩ := hwork.arena (Nat.le_refl _)
  have he := Laws.exec_completed hc hs
  obtain ⟨hframe, hregs, hpending, hresp, hfree⟩ := commandFrame i s _ he
  refine ⟨_, he, hwork.cmd, rfl, rfl, hwork.err, hframe, hregs, fun a ha => ?_, hcur, hgrown.cur, hpending, hresp,
    hfree⟩
  rcases ha with ha | ha
  · exact harena a (.inl ha)
  · exact hgrown.above a ha

/-- Settles O35, from what FTQ4 computes and the state that holds it. -/
theorem ftq4Result : Obligations.Ftq4Result := by
  intro p n dcx s src pr sc th hn hsrc hpr hsc hth
  have ht := Laws.transformed_of_inputs hsrc hpr hsc hth
  have hsteps := Laws.ftq4_of_transformed (ht.congr (Laws.hostKept_accept (encode (.ftq4 p n dcx)) s) hn)
  obtain ⟨he, hlm⟩ := Laws.exec_lmOnly (Laws.issueCheck_ftq4 hn dcx s) hsteps (Laws.ftStored_lmChange ..)
  have hb := (ht.holds hn (accept (encode (.ftq4 p n dcx)) s)).complete
  refine ⟨_, he, hb.coef, hb.nnz, fun hd => ?_, hlm⟩
  subst hd
  rw [Laws.dcsave_complete]
  exact ht.dcsave_stored hn _

/-- Settles O36, from what the two commands compute and the states that hold it. -/
theorem fhqResults : Obligations.FhqResults := by
  refine ⟨fun s dc sc th hd hsc hth => ?_, fun p s dc sc th hp hd hsc hth => ?_⟩
  · have hl := Laws.layerOf_tables hsc hth dc
    have hsteps := Laws.fhq4_of_layer (s := accept (encode .fhq4) s)
      (fun n hn => (Laws.dcsave_accept .y n _ s).trans (hd n hn)) (hl.congr (Laws.hostKept_accept _ s))
    obtain ⟨he, hlm⟩ := Laws.exec_lmOnly (Laws.issueCheck_fhq4 s) hsteps (Laws.layerStored_lmChange ..)
    refine ⟨_, he, fun k hk => ?_, ?_, hlm⟩
    · rw [Laws.dccoef_complete]
      exact hl.dccoef_stored _ hk
    · rw [Laws.nnzdc_complete]
      exact Laws.nnzdc_layerStored ..
  · have hl := Laws.quadOf_tables hsc hth dc
    have hsteps := Laws.fhq2_of_quad (s := accept (encode (.fhq2 p)) s)
      (fun n hn => (Laws.dcsave_accept p n _ s).trans (hd n hn)) (hl.congr (Laws.hostKept_accept _ s))
    obtain ⟨he, hlm⟩ := Laws.exec_lmOnly (Laws.issueCheck_fhq2 hp s) hsteps (Laws.quadStored_lmChange ..)
    have hq := (hl.stored (Laws.ne_luma_of_isChroma hp) (accept (encode (.fhq2 p)) s)).complete
    exact ⟨_, he, hq.dccoef, hq.nnzdc, hlm⟩

end Sys2Proof.Machine
end

section
/-! PROOFS. The inverse kernels (41_inverse.md R170 to R176): the scalings in their second forms, and the inverse
transform by row and column; the statements `InverseQuantizers` and `InverseTransform`. -/

namespace Sys2Proof.Machine

namespace Laws

open Sys2Proof.Claims

/-! ### The scalings (41_inverse.md R170 to R173) -/

theorem shr_eq_div (x : Int) (k : Nat) : shr x k = x / 2 ^ k := by rw [shr, Int.shiftRight_eq_div_pow]; rfl

/-- Scaled up by fewer places than down, only the division is left. -/
theorem shr_shl_of_le (x : Int) {a b : Nat} (h : a ≤ b) : shr (shl x a) b = x / 2 ^ (b - a) := by
  obtain ⟨k, rfl⟩ := Nat.exists_eq_add_of_le h
  rw [shr_eq_div, shl, Int.pow_add, Nat.add_sub_cancel_left, Int.mul_comm x]
  exact Int.mul_ediv_mul_of_pos _ _ (Int.pow_pos (by decide))

/-- Scaled up by more places than down, only the multiplication is left. -/
theorem shr_shl_of_ge (x : Int) {a b : Nat} (h : b ≤ a) : shr (shl x a) b = x * 2 ^ (a - b) := by
  obtain ⟨k, rfl⟩ := Nat.exists_eq_add_of_le h
  rw [shr_eq_div, shl, Int.pow_add, Nat.add_sub_cancel_left, Int.mul_left_comm]
  exact Int.mul_ediv_cancel_left _ (Int.pow_pos (by decide)).ne'

theorem dequant_eq_dequantFloor (qd isc wt : Nat) (c : Int) : dequant qd isc wt c = dequantFloor qd isc wt c := by
  by_cases h : qd < 4
  · rw [dequant, dequantFloor, if_pos h, if_pos h, shr_shl_of_le _ h.le]
  · rw [dequant, dequantFloor, if_neg h, if_neg h, shr_shl_of_ge _ (Nat.le_of_not_lt h), Int.add_zero]

theorem dcScale4_eq_lumaDcFloor (qd isc wt : Nat) (f : Int) : dcScale4 qd isc wt f = lumaDcFloor qd isc wt f := by
  by_cases h : qd < 6
  · rw [dcScale4, lumaDcFloor, if_pos h, if_pos h, shr_shl_of_le _ h.le]
  · rw [dcScale4, lumaDcFloor, if_neg h, if_neg h, shr_shl_of_ge _ (Nat.le_of_not_lt h), Int.add_zero]

theorem dcScale2_eq_chromaDcFloor (qd isc wt : Nat) (f : Int) : dcScale2 qd isc wt f = chromaDcFloor qd isc wt f :=
  shr_eq_div _ 5

/-- From QP_DIV 4 on the inverse quantizer is exact (41_inverse.md R171). -/
theorem dequant_exact {qd : Nat} (h : 4 ≤ qd) (isc wt : Nat) (c : Int) :
    dequant qd isc wt c = c * isc * wt * 2 ^ (qd - 4) := by
  rw [dequant_eq_dequantFloor, dequantFloor, if_neg (Nat.not_lt.mpr h)]

/-- A zero level dequantizes to 0: half a step rounds down to nothing (41_inverse.md R171). -/
theorem dequant_zero (qd isc wt : Nat) : dequant qd isc wt 0 = 0 := by
  by_cases h : qd < 4
  · have step : (2 : Int) ^ (3 - qd) < 2 ^ (4 - qd) := Int.pow_lt_pow_of_lt (by decide) (by omega)
    rw [dequant_eq_dequantFloor, dequantFloor, if_pos h, Int.zero_mul, Int.zero_mul, Int.zero_add]
    exact Int.ediv_eq_zero_of_lt (Int.pow_pos (by decide)).le step
  · rw [dequant_exact (Nat.le_of_not_lt h), Int.zero_mul, Int.zero_mul, Int.zero_mul]

theorem dequant_neg {qd : Nat} (h : 4 ≤ qd) (isc wt : Nat) (c : Int) :
    dequant qd isc wt (-c) = -dequant qd isc wt c := by
  rw [dequant_exact h, dequant_exact h, Int.neg_mul, Int.neg_mul, Int.neg_mul]

/-! ### The inverse transform (41_inverse.md R174, R176) -/

theorem wrapTmp_eq (wrap16 : Bool) : wrapTmp wrap16 = if wrap16 then trunc16 else id := by cases wrap16 <;> rfl

theorem wrapTmp_zero (wrap16 : Bool) : wrapTmp wrap16 0 = 0 := by cases wrap16 <;> rfl

theorem quadAt_invButterfly (wrap16 : Bool) (v : Quad Int) (j : Nat) :
    quadAt (invButterfly wrap16 v) j = ibOut (wrapTmp wrap16) (quadAt v) j := by
  simp only [invButterfly, ibOut, shr_one]
  match j with
  | 0 | 1 | 2 | _ + 3 => rfl

theorem ibOut_congr (w : Int → Int) {x y : Nat → Int} (h : ∀ i, i < 4 → x i = y i) (j : Nat) :
    ibOut w x j = ibOut w y j := by
  simp only [ibOut, h 0 (by decide), h 1 (by decide), h 2 (by decide), h 3 (by decide)]

/-- The rows, then the columns. -/
theorem quadAt_invTransform (wrap16 : Bool) (m : Mat Int) (r c : Nat) :
    quadAt (quadAt (invTransform wrap16 m) r) c =
      ibOut (wrapTmp wrap16) (fun i => ibOut (wrapTmp wrap16) (quadAt (quadAt m i)) c) r := by
  rw [invTransform, quadAt_transpose, quadAt_quadMap, quadAt_invButterfly]
  refine ibOut_congr _ (fun i _ => ?_) r
  rw [quadAt_transpose, quadAt_quadMap, quadAt_invButterfly]

theorem matAt_invTransform (wrap16 : Bool) (d : Nat → Int) (k : Nat) :
    matAt (invTransform wrap16 (matOfList (raster.map d))) k = inverse4 (wrapTmp wrap16) d (k / 4) (k % 4) := by
  rw [matAt, quadAt_invTransform, inverse4, matOfList_raster]
  exact ibOut_congr _ (fun i hi => ibOut_congr _ (fun j hj => quadAt_matOf _ hi hj) _) _

theorem reconSample_eq_sampleOf (v : Int) (pr : Nat) : reconSample v pr = sampleOf v pr := by
  rw [reconSample, shr_eq_div, sampleOf, clip8]
  omega

theorem getD_raster (f : Nat → α) {k : Nat} (hk : k < 16) (x : α) : (raster.map f).getD k x = f k := by
  rw [List.getD_eq_getElem _ _ (by rwa [map_raster_length]), map_raster_getElem]

/-- The sixteen samples of the inverse transform in raster order. -/
theorem it4_raster (wrap16 : Bool) (d : Nat → Int) (pr : Nat → Nat) :
    it4 wrap16 (raster.map d) (raster.map pr) =
      raster.map fun k => (sampleOf (inverse4 (wrapTmp wrap16) d (k / 4) (k % 4)) (pr k) : Int) := by
  refine List.map_congr_left fun k hk => ?_
  have sample : (raster.map pr).getD k 0 = pr k := getD_raster pr (raster_lt16 hk) 0
  rw [matAt_invTransform, reconSample_eq_sampleOf, sample]

/-! ### Both values of P_INV_TMP_WRAP16 (41_inverse.md R176) -/

/-- A butterfly whose eight values fit in 16 bits is the exact one. -/
theorem ibOut_trunc16 {d : Nat → Int} (h : ∀ x ∈ ibSums d, fits16 x) (j : Nat) : ibOut trunc16 d j = ibOut id d j := by
  have narrow : ∀ x ∈ ibSums d, trunc16 x = x := fun x hx => trunc16_of_range (h x hx).1 (h x hx).2
  simp only [ibSums, List.forall_mem_cons] at narrow
  obtain ⟨e0, e1, e2, e3, r0, r1, r2, r3, -⟩ := narrow
  match j with
  | 0 => rw [← r0]; simp only [ibOut, e0, e3, id]
  | 1 => rw [← r1]; simp only [ibOut, e1, e2, id]
  | 2 => rw [← r2]; simp only [ibOut, e1, e2, id]
  | j + 3 => rw [show ibOut id d (j + 3) = ibOut id d 3 from rfl, ← r3]; simp only [ibOut, e0, e3, id]

/-- Where no butterfly leaves 16 bits, the inverse transform is the exact one. -/
theorem inverse4_trunc16 {d : Nat → Int} (hrows : ∀ i, i < 4 → ∀ x ∈ ibSums fun j => d (4 * i + j), fits16 x)
    (hcols : ∀ c, c < 4 → ∀ x ∈ ibSums fun i => ibOut id (fun j => d (4 * i + j)) c, fits16 x) (r : Nat) {c : Nat}
    (hc : c < 4) : inverse4 trunc16 d r c = inverse4 id d r c :=
  (ibOut_congr trunc16 (fun i hi => ibOut_trunc16 (hrows i hi) c) r).trans (ibOut_trunc16 (hcols c hc) r)

end Laws

open Sys2Proof.Claims

/-- Settles O32: a shift up and a shift down leave one division or one multiplication. -/
theorem inverseQuantizers : Obligations.InverseQuantizers := by
  refine ⟨fun qd isc wt c => ⟨Laws.dequant_eq_dequantFloor qd isc wt c, Laws.dcScale4_eq_lumaDcFloor qd isc wt c,
    Laws.dcScale2_eq_chromaDcFloor qd isc wt c⟩, Laws.dequant_zero, fun qd isc wt c h => Laws.dequant_neg h isc wt c,
    fun isc wt c => Laws.dequant_exact (by decide) isc wt c, ?_⟩
  decide

/-- Settles O33: row `r` and column `c` of the two passes, and each butterfly exact where its values fit in 16 bits. -/
theorem inverseTransform : Obligations.InverseTransform := by
  refine fun d pr => ⟨fun wrap16 r c hr hc => ?_, fun hrows hcols => ?_⟩
  · rw [Laws.it4_raster, Laws.getD_raster _ (by omega), Laws.wrapTmp_eq, show (4 * r + c) / 4 = r by omega,
      show (4 * r + c) % 4 = c by omega]
  · rw [Laws.it4_raster, Laws.it4_raster]
    refine List.map_congr_left fun k _ => ?_
    rw [Laws.wrapTmp_eq, Laws.wrapTmp_eq]
    exact congrArg (fun v => (sampleOf v (pr k) : Int)) (Laws.inverse4_trunc16 hrows hcols _ (by omega))

end Sys2Proof.Machine
end

section
/-! PROOFS. The inverse commands (41_inverse.md R180, R183, R186, R189, R192): the samples a reconstruction path stores
as a function of what it reads, and the state that holds them; the statements `IhsResults`, `Iqtr4Result`,
`Iqtr4dcResult` and `Copy4Result`. -/

namespace Sys2Proof.Machine

namespace Laws

open Sys2Proof.Claims

/-! ### A sub-block of REC (10_state.md R55, R56) -/

theorem sampleAddr_col (base : Nat) (p : Plane) (n r c : Nat) :
    sampleAddr base p n r c = sampleAddr base p n r 0 + c := by
  simp only [sampleAddr]; omega

/-- The rows of a sub-block share no byte. -/
theorem sampleAddr_row_lt (base : Nat) (p : Plane) (n : Nat) {r r' : Nat} (h : r < r') :
    sampleAddr base p n r 0 + 4 ≤ sampleAddr base p n r' 0 := by
  cases p <;> simp only [sampleAddr, planeWidth] <;> omega

theorem read_recRow_own (p : Plane) (n : Nat) (f : Nat → Int) (m : Memory) {r c : Nat} (hr : r < 4) (hc : c < 4) :
    (recRow p n r (raster.map f) m).read (sampleAddr recBase p n r c) = some (BitVec.ofInt 8 (f (4 * r + c))) := by
  have len : c < ((((raster.map f).drop (4 * r)).take 4).map (BitVec.ofInt 8)).length := by
    simp only [List.length_map, List.length_take, List.length_drop, show raster.length = 16 from rfl]; omega
  rw [sampleAddr_col, recRow, MemoryLaws.read_writeBytes_at _ _ _ _ len, List.getElem_map, List.getElem_take,
    List.getElem_drop, map_raster_getElem]

theorem read_recRow_other (p : Plane) (n : Nat) (vs : List Int) (m : Memory) {r r' c : Nat} (h : r' ≠ r) (hc : c < 4) :
    (recRow p n r vs m).read (sampleAddr recBase p n r' c) = m.read (sampleAddr recBase p n r' c) := by
  have len : (((vs.drop (4 * r)).take 4).map (BitVec.ofInt 8)).length ≤ 4 := by
    rw [List.length_map]; exact List.length_take_le _ _
  rw [sampleAddr_col]
  refine MemoryLaws.read_writeBytes_out _ _ _ _ ?_
  rcases Nat.lt_or_gt_of_ne h with h | h
  · have := sampleAddr_row_lt recBase p n h; omega
  · have := sampleAddr_row_lt recBase p n h; omega

/-- Sixteen samples stored in raster order read back, each its low byte. -/
theorem read_putRec (s : State) (p : Plane) (n : Nat) (f : Nat → Int) {k : Nat} (hk : k < 16) :
    (s.putRec p n (raster.map f)).lm.read (sampleAddr recBase p n (k / 4) (k % 4)) = some (BitVec.ofInt 8 (f k)) := by
  have hc : k % 4 < 4 := by omega
  have rows : ∀ r, r < 4 → (s.putRec p n (raster.map f)).lm.read (sampleAddr recBase p n r (k % 4)) =
      some (BitVec.ofInt 8 (f (4 * r + k % 4))) := by
    refine forall_lt_four ?_ ?_ ?_ ?_ <;> rw [State.putRec]
    · rw [read_recRow_other _ _ _ _ (by decide) hc, read_recRow_other _ _ _ _ (by decide) hc,
        read_recRow_other _ _ _ _ (by decide) hc, read_recRow_own _ _ _ _ (by decide) hc]
    · rw [read_recRow_other _ _ _ _ (by decide) hc, read_recRow_other _ _ _ _ (by decide) hc,
        read_recRow_own _ _ _ _ (by decide) hc]
    · rw [read_recRow_other _ _ _ _ (by decide) hc, read_recRow_own _ _ _ _ (by decide) hc]
    · rw [read_recRow_own _ _ _ _ (by decide) hc]
  rw [rows _ (by omega), Nat.div_add_mod]

/-- `s` with the samples `g` stored in REC at sub-block `n`. -/
def recStored (p : Plane) (n : Nat) (g : Nat → Nat) (s : State) : State :=
  s.putRec p n (raster.map fun k => (g k : Int))

theorem recStored_congr (p : Plane) (n : Nat) {g h : Nat → Nat} (he : ∀ k, k < 16 → g k = h k) (s : State) :
    recStored p n g s = recStored p n h s :=
  congrArg (s.putRec p n) (List.map_congr_left fun k hk => congrArg Nat.cast (he k (raster_lt16 hk)))

theorem recIs_recStored (p : Plane) (n : Nat) {g : Nat → Nat} (hg : ∀ k, k < 16 → g k < 256) (s : State) :
    RecIs p n (recStored p n g s) g := by
  intro k hk
  simp only [lmSample, lmByte, recStored, read_putRec s p n _ hk, BitVec.ofInt_natCast, BitVec.toNat_ofNat]
  rw [Nat.mod_eq_of_lt (hg k hk)]

theorem recIs_complete {p : Plane} {n : Nat} {g : Nat → Nat} {s : State} (h : RecIs p n s g) :
    RecIs p n (complete s) g := h

theorem recStored_lmChange (p : Plane) (n : Nat) (g : Nat → Nat) (s : State) : LmChange s (recStored p n g s) :=
  ⟨_, rfl⟩

/-! ### The inputs of the paths -/

theorem HostKept.qpDiv {s t : State} (h : HostKept s t) (p : Plane) : qpDiv p t = qpDiv p s :=
  congrArg (bits · 11 8) (h.qparam p)

theorem HostKept.invTmpWrap16 {s t : State} (h : HostKept s t) : t.invTmpWrap16 = s.invTmpWrap16 := by
  have := congrArg State.invTmpWrap16 h.part
  exact this

theorem HostKept.predSample {s t : State} (h : HostKept s t) {p : Plane} {n k : Nat} (hn : n < p.nb) (hk : k < 16) :
    predSample p n (k / 4) (k % 4) t = predSample p n (k / 4) (k % 4) s :=
  lmSample_congr (h.below _ (sampleAddr_below (by decide) hn (by omega) (by omega)))

/-- The samples of the prediction are those of `predBlock`. -/
theorem predBlock_ok {p : Plane} {n : Nat} {s : State} {pr : Nat → Nat}
    (h : ∀ k, k < 16 → predSample p n (k / 4) (k % 4) s = .ok (pr k)) : predBlock p n s = .ok (raster.map pr) :=
  readAll_ok fun k hk => h k (raster_lt16 hk)

theorem withScales_ok {p : Plane} {k isc wt : Nat} {s : State} (hisc : table tableIscale p k s = .ok isc)
    (hwt : table tableWeight p k s = .ok wt) (f : Nat → Nat → Int) : withScales p k s f = .ok (f isc wt) := by
  simp only [withScales, hisc, hwt]

/-- A dequantized level, as the spec's second form says and cut by `w` (41_inverse.md R170, R176). -/
def dequantized (p : Plane) (s : State) (isc wt : Nat) (c : Int) : Int :=
  wrapTmp s.invTmpWrap16 (dequantFloor (qpDiv p s) isc wt c)

theorem dequantAt_ok {p : Plane} {n k isc wt : Nat} {c : Int} {s : State} (hc : coef p n k s = .ok c)
    (hisc : table tableIscale p k s = .ok isc) (hwt : table tableWeight p k s = .ok wt) :
    dequantAt p n k s = .ok (dequantized p s isc wt c) := by
  simp only [dequantAt, hc, withScales_ok hisc hwt, dequant_eq_dequantFloor, dequantized]

/-- Everywhere but at position 0 with DCSRC the input is the dequantized level (41_inverse.md R186). -/
theorem iqInput_dequantAt {dcsrc : Bool} {k : Nat} (h : dcsrc = true → k ≠ 0) (p : Plane) (n : Nat) (s : State) :
    iqInput p n dcsrc s k = dequantAt p n k s := if_neg (by simpa using h)

/-! ### The samples of the paths -/

/-- The samples of the full path (41_inverse.md R186). -/
def fullSamples (wrap16 : Bool) (d : Nat → Int) (pr : Nat → Nat) (k : Nat) : Nat :=
  sampleOf (inverse4 (wrapTmp wrap16) d (k / 4) (k % 4)) (pr k)

/-- The samples of the DC-only path (41_inverse.md R189). -/
def offsetSamples (q0 : Int) (pr : Nat → Nat) (k : Nat) : Nat := sampleOf q0 (pr k)

theorem sampleOf_lt (v : Int) (pr : Nat) : sampleOf v pr < 256 := by rw [sampleOf]; omega

section

variable {p : Plane} {n : Nat} {s : State} {pr : Nat → Nat}
  (hpr : ∀ k, k < 16 → predSample p n (k / 4) (k % 4) s = .ok (pr k))

include hpr

theorem iqtr4_of_inputs {dcsrc : Bool} {d : Nat → Int} (hd : ∀ k, k < 16 → iqInput p n dcsrc s k = .ok (d k)) :
    iqtr4 p n dcsrc s = .ok (recStored p n (fullSamples s.invTmpWrap16 d pr) s) := by
  simp only [iqtr4, readAll_ok fun k hk => hd k (raster_lt16 hk), predBlock_ok hpr, it4_raster]
  rfl

theorem iqtr4dc_of_inputs {dcsrc : Bool} {q0 : Int} (hq : iqInput p n dcsrc s 0 = .ok q0) :
    iqtr4dc p n dcsrc s = .ok (recStored p n (offsetSamples q0 pr) s) := by
  have sample (k : Nat) : clip8 (shr (q0 + 32) 6 + pr k) = sampleOf q0 (pr k) := reconSample_eq_sampleOf q0 (pr k)
  simp only [iqtr4dc, hq, predBlock_ok hpr]
  simp only [bind_pure_comp, List.map_eq_map, List.map_map, Function.comp_def, sample]
  rfl

theorem copy4_of_inputs : copy4 p n s = .ok (recStored p n pr s) := by
  simp only [copy4, predBlock_ok hpr, bind_pure_comp, List.map_eq_map, List.map_map]
  rfl

/-- A prediction sample is below 256. -/
theorem pred_lt {k : Nat} (hk : k < 16) : pr k < 256 := lmSample_lt (hpr k hk)

end

/-! ### From the steps to the end -/

/-- A command whose steps store the samples `g` in REC completes with them there. -/
theorem exec_recStored {i : Instr} {p : Plane} {n : Nat} {g : Nat → Nat} {s : State} (hc : issueCheck i s = none)
    (hs : stepsOf i (accept (encode i) s) = .ok (recStored p n g (accept (encode i) s)))
    (hg : ∀ k, k < 16 → g k < 256) : ∃ t, exec i s = .next t ∧ RecIs p n t g ∧ LmOnly i s t := by
  obtain ⟨he, hlm⟩ := exec_lmOnly hc hs (recStored_lmChange p n g _)
  exact ⟨_, he, recIs_complete (recIs_recStored p n hg _), hlm⟩

/-! ### Acceptance leaves the inputs -/

theorem qpDiv_accept (p : Plane) (w : Word) (s : State) : qpDiv p (accept w s) = qpDiv p s :=
  (hostKept_accept w s).qpDiv p

theorem table_accept (t : Nat) (p : Plane) (k : Nat) (w : Word) (s : State) :
    table t p k (accept w s) = table t p k s := rfl

theorem predSample_accept (p : Plane) (n r c : Nat) (w : Word) (s : State) :
    predSample p n r c (accept w s) = predSample p n r c s := rfl

theorem dcrec_accept (p : Plane) (n : Nat) (w : Word) (s : State) : dcrec p n (accept w s) = dcrec p n s := rfl

theorem dequantAt_accept (p : Plane) (n k : Nat) (w : Word) (s : State) :
    dequantAt p n k (accept w s) = dequantAt p n k s := by
  simp only [dequantAt, withScales, coef_accept, table_accept, qpDiv_accept, StateLaws.accept_invTmpWrap16]

theorem iqInput_accept (p : Plane) (n : Nat) (dcsrc : Bool) (k : Nat) (w : Word) (s : State) :
    iqInput p n dcsrc (accept w s) k = iqInput p n dcsrc s k := by
  simp only [iqInput, dcrec_accept, dequantAt_accept]

/-! ### The three paths as commands -/

section

variable {p : Plane} {n : Fin 16} {s : State} {pr : Nat → Nat} (hn : n.val < p.nb)
  (hpr : ∀ k, k < 16 → predSample p n (k / 4) (k % 4) s = .ok (pr k))

include hn hpr

theorem exec_iqtr4 {dcsrc : Bool} {d : Nat → Int} (hq : qpDiv p s ≤ 8)
    (hd : ∀ k, k < 16 → iqInput p n dcsrc s k = .ok (d k)) :
    ∃ t, exec (.iqtr4 p n dcsrc) s = .next t ∧ RecIs p n t (fullSamples s.invTmpWrap16 d pr) ∧
      LmOnly (.iqtr4 p n dcsrc) s t := by
  have hc := issueCheck_eq_none (i := .iqtr4 p n dcsrc) (decide_eq_true hn) (List.forall_mem_singleton.mpr hq)
  have hs := iqtr4_of_inputs (s := accept (encode (.iqtr4 p n dcsrc)) s)
    (fun k hk => (predSample_accept ..).trans (hpr k hk)) fun k hk => (iqInput_accept ..).trans (hd k hk)
  rw [StateLaws.accept_invTmpWrap16] at hs
  exact exec_recStored hc hs fun k _ => sampleOf_lt _ _

theorem exec_iqtr4dc {dcsrc : Bool} {q0 : Int} (hq : qpDiv p s ≤ 8) (hd : iqInput p n dcsrc s 0 = .ok q0) :
    ∃ t, exec (.iqtr4dc p n dcsrc) s = .next t ∧ RecIs p n t (offsetSamples q0 pr) ∧
      LmOnly (.iqtr4dc p n dcsrc) s t := by
  have hc := issueCheck_eq_none (i := .iqtr4dc p n dcsrc) (decide_eq_true hn) (List.forall_mem_singleton.mpr hq)
  have hs := iqtr4dc_of_inputs (s := accept (encode (.iqtr4dc p n dcsrc)) s)
    (fun k hk => (predSample_accept ..).trans (hpr k hk)) ((iqInput_accept ..).trans hd)
  exact exec_recStored hc hs fun k _ => sampleOf_lt _ _

theorem exec_copy4 : ∃ t, exec (.copy4 p n) s = .next t ∧ RecIs p n t pr ∧ LmOnly (.copy4 p n) s t := by
  have hc := issueCheck_eq_none (i := .copy4 p n) (s := s) (decide_eq_true hn) fun _ hm => nomatch hm
  have hs := copy4_of_inputs (p := p) (n := n) (s := accept (encode (.copy4 p n)) s)
    fun k hk => (predSample_accept ..).trans (hpr k hk)
  exact exec_recStored hc hs fun k => pred_lt hpr

end

/-! ### IHS4 and IHS2 (41_inverse.md R180, R183) -/

/-- Values stored in a plane's DCREC read back, each its low 16 bits. -/
theorem dcrec_putSigned (p : Plane) (s : State) (vs : List Int) {n : Nat} (h : n < vs.length) :
    dcrec p n (s.putSigned (dcrecAddr p 0) vs) = .ok (trunc16 vs[n]) := lmSigned_putSigned s (dcrecAddr p 0) n vs h

theorem dcrec_complete (p : Plane) (n : Nat) (s : State) : dcrec p n (complete s) = dcrec p n s := rfl

theorem map_quad_getElem (f : Nat → α) {k : Nat} (h : k < ([0, 1, 2, 3].map f).length) :
    ([0, 1, 2, 3].map f)[k] = f k := by
  have all : ∀ j (h : j < 4), [0, 1, 2, 3][j]'h = j := by decide
  rw [List.getElem_map]
  exact congrArg f (all k h)

theorem ihs4_of_layer {s : State} {dc : Nat → Int} {isc wt : Nat} (hd : ∀ k, k < 16 → dccoef .y k s = .ok (dc k))
    (hisc : table tableIscale .y 0 s = .ok isc) (hwt : table tableWeight .y 0 s = .ok wt) :
    ihs4 s = .ok (s.putSigned (dcrecAddr .y 0) (raster.map fun n =>
      trunc16 (lumaDcFloor (qpDiv .y s) isc wt (sandwich hmMatrix (fun r c => dc (4 * r + c)) (n / 4) (n % 4))))) := by
  simp only [ihs4, readAll_ok fun k hk => hd k (raster_lt16 hk), matOfList_raster]
  rw [readAll_ok fun n hn => by
    rw [withScales_ok hisc hwt, dcScale4_eq_lumaDcFloor, matAt_h4_raster _ (raster_lt16 hn)]]

theorem hadamard2_quadOfList (x : Nat → Int) (k : Nat) :
    hadamard2 (fun j => quadAt (quadOfList ([0, 1, 2, 3].map x)) j) k = hadamard2 x k := by
  simp only [hadamard2]; rfl

theorem ihs2_of_layer {p : Plane} {s : State} {dc : Nat → Int} {isc wt : Nat}
    (hd : ∀ k, k < 4 → dccoef p k s = .ok (dc k)) (hisc : table tableIscale p 0 s = .ok isc)
    (hwt : table tableWeight p 0 s = .ok wt) :
    ihs2 p s = .ok (s.putSigned (dcrecAddr p 0) ([0, 1, 2, 3].map fun n =>
      trunc16 (chromaDcFloor (qpDiv p s) isc wt (hadamard2 dc n)))) := by
  simp only [ihs2, readAll_ok fun k hk => hd k (mem_quad.mp hk)]
  rw [readAll_ok fun n hn => by
    rw [withScales_ok hisc hwt, dcScale2_eq_chromaDcFloor, quadAt_h2 _ n (mem_quad.mp hn), hadamard2_quadOfList]]

end Laws

open Sys2Proof.Claims

/-- Settles O37, from the values the two commands compute. -/
theorem ihsResults : Obligations.IhsResults := by
  refine ⟨fun s dc isc wt hq hd hisc hwt => ?_, fun p s dc isc wt hp hq hd hisc hwt => ?_⟩
  · have hc := Laws.issueCheck_eq_none (i := .ihs4) (s := s) rfl (List.forall_mem_singleton.mpr hq)
    have hs := Laws.ihs4_of_layer (s := accept (encode .ihs4) s)
      (fun k hk => (Laws.dccoef_accept .y k _ s).trans (hd k hk)) ((Laws.table_accept ..).trans hisc)
      ((Laws.table_accept ..).trans hwt)
    obtain ⟨he, hlm⟩ := Laws.exec_lmOnly hc hs (Laws.lmChange_putSigned ..)
    refine ⟨_, he, fun n hn => ?_, hlm⟩
    rw [Laws.dcrec_complete, Laws.dcrec_putSigned _ _ _ (by rwa [Laws.map_raster_length]), Laws.map_raster_getElem,
      Laws.trunc16_idem, Laws.qpDiv_accept]
  · have hc := Laws.issueCheck_eq_none (i := .ihs2 p) (s := s) hp (List.forall_mem_singleton.mpr hq)
    have hs := Laws.ihs2_of_layer (s := accept (encode (.ihs2 p)) s)
      (fun k hk => (Laws.dccoef_accept p k _ s).trans (hd k hk)) ((Laws.table_accept ..).trans hisc)
      ((Laws.table_accept ..).trans hwt)
    obtain ⟨he, hlm⟩ := Laws.exec_lmOnly hc hs (Laws.lmChange_putSigned ..)
    refine ⟨_, he, fun n hn => ?_, hlm⟩
    rw [Laws.dcrec_complete, Laws.dcrec_putSigned _ _ _ (by simpa using hn), Laws.map_quad_getElem,
      Laws.trunc16_idem, Laws.qpDiv_accept]

/-- Settles O38: the sixteen inputs of the inverse transform, and the samples it gives. -/
theorem iqtr4Result : Obligations.Iqtr4Result := by
  intro p n dcsrc s c q0 isc wt pr hn hq hc hisc hwt hdc hpr
  have inputs : ∀ k, k < 16 → iqInput p n dcsrc s k =
      .ok (if dcsrc = true ∧ k = 0 then q0 else Laws.dequantized p s (isc k) (wt k) (c k)) := fun k hk => by
    by_cases h : dcsrc = true ∧ k = 0
    · obtain ⟨rfl, rfl⟩ := h
      exact hdc rfl
    · have hr : dcsrc = true → k ≠ 0 := fun hd h0 => h ⟨hd, h0⟩
      rw [if_neg h, Laws.iqInput_dequantAt hr, Laws.dequantAt_ok (hc k hk hr) (hisc k hk hr) (hwt k hk hr)]
  rw [← Laws.wrapTmp_eq]
  exact Laws.exec_iqtr4 hn hpr hq inputs

/-- Settles O39: the one input, and the samples its offset gives. -/
theorem iqtr4dcResult : Obligations.Iqtr4dcResult := by
  intro p n dcsrc s q0 c isc wt pr hn hq hdc hlevel hpr
  have input : iqInput p n dcsrc s 0 = .ok q0 := by
    cases dcsrc with
    | true => exact hdc rfl
    | false =>
      obtain ⟨hc, hisc, hwt, rfl⟩ := hlevel rfl
      exact Laws.dequantAt_ok hc hisc hwt
  exact Laws.exec_iqtr4dc hn hpr hq input

/-- Settles O40: the samples are the prediction. -/
theorem copy4Result : Obligations.Copy4Result := fun _ _ _ _ hn hpr => Laws.exec_copy4 hn hpr

end Sys2Proof.Machine
end

section
/-! PROOFS. Where the reconstruction paths agree (41_inverse.md R189, R192), and that the order of two sub-blocks of a
plane does not matter (41_inverse.md R195); the statements `ReconstructionPathsAgree` and
`ReconstructionOrderUnobservable`. -/

namespace Sys2Proof.Machine

namespace Laws

open Sys2Proof.Claims

/-! ### What each path read and stored -/

theorem predBlock_values {p : Plane} {n : Nat} {s : State} {l : List Nat} (h : predBlock p n s = .ok l) :
    ∃ pr : Nat → Nat, (∀ k, k < 16 → predSample p n (k / 4) (k % 4) s = .ok (pr k)) ∧ l = raster.map pr := by
  obtain ⟨pr, hpr, hl⟩ := readAll_values h
  exact ⟨pr, fun k hk => hpr k (mem_raster hk), hl⟩

theorem iqtr4_stores {p : Plane} {n : Nat} {dcsrc : Bool} {s t : State} (h : iqtr4 p n dcsrc s = .ok t) :
    ∃ d pr, (∀ k, k < 16 → iqInput p n dcsrc s k = .ok (d k)) ∧
      (∀ k, k < 16 → predSample p n (k / 4) (k % 4) s = .ok (pr k)) ∧
      t = recStored p n (fullSamples s.invTmpWrap16 d pr) s := by
  have h' := h
  simp only [iqtr4] at h'
  split at h'
  · cases h'
  · rename_i l hl
    split at h'
    · cases h'
    · rename_i l' hl'
      obtain ⟨d, hd, -⟩ := readAll_values hl
      obtain ⟨pr, hpr, -⟩ := predBlock_values hl'
      have hd : ∀ k, k < 16 → iqInput p n dcsrc s k = .ok (d k) := fun k hk => hd k (mem_raster hk)
      exact ⟨d, pr, hd, hpr, Except.ok.inj (h.symm.trans (iqtr4_of_inputs hpr hd))⟩

theorem iqtr4dc_stores {p : Plane} {n : Nat} {dcsrc : Bool} {s t : State} (h : iqtr4dc p n dcsrc s = .ok t) :
    ∃ q0 pr, iqInput p n dcsrc s 0 = .ok q0 ∧ (∀ k, k < 16 → predSample p n (k / 4) (k % 4) s = .ok (pr k)) ∧
      t = recStored p n (offsetSamples q0 pr) s := by
  have h' := h
  simp only [iqtr4dc] at h'
  split at h'
  · cases h'
  · rename_i q0 hq
    split at h'
    · cases h'
    · rename_i l hl
      obtain ⟨pr, hpr, -⟩ := predBlock_values hl
      exact ⟨q0, pr, hq, hpr, Except.ok.inj (h.symm.trans (iqtr4dc_of_inputs hpr hq))⟩

theorem copy4_stores {p : Plane} {n : Nat} {s t : State} (h : copy4 p n s = .ok t) :
    ∃ pr, (∀ k, k < 16 → predSample p n (k / 4) (k % 4) s = .ok (pr k)) ∧ t = recStored p n pr s := by
  have h' := h
  simp only [copy4] at h'
  split at h'
  · cases h'
  · rename_i l hl
    obtain ⟨pr, hpr, -⟩ := predBlock_values hl
    exact ⟨pr, hpr, Except.ok.inj (h.symm.trans (copy4_of_inputs hpr))⟩

/-! ### The inputs where the paths agree -/

/-- A zero level is a zero input. -/
theorem dequantAt_zero {p : Plane} {n k : Nat} {s : State} {v : Int} (hc : coef p n k s = .ok 0)
    (h : dequantAt p n k s = .ok v) : v = 0 := by
  simp only [dequantAt, hc, withScales, dequant_zero, wrapTmp_zero] at h
  split at h
  · cases h
  · split at h
    · cases h
    · exact (Except.ok.inj h).symm

/-- Cut twice to 16 bits is cut once. -/
theorem wrapTmp_idem (wrap16 : Bool) (x : Int) : wrapTmp wrap16 (wrapTmp wrap16 x) = wrapTmp wrap16 x := by
  cases wrap16 with
  | false => rfl
  | true => exact trunc16_idem x

theorem lmSigned_range {a : Nat} {s : State} {v : Int} (h : lmSigned a s = .ok v) : -32768 ≤ v ∧ v ≤ 32767 := by
  simp only [lmSigned] at h
  split at h
  · cases h
  · rename_i b _
    cases h
    have := BitVec.toInt_lt (x := b)
    have := BitVec.le_toInt b
    omega

/-- Every input has been passed through `w` already: a level on its way in, DCREC as a 16-bit value. -/
theorem iqInput_wrapped {p : Plane} {n k : Nat} {dcsrc : Bool} {s : State} {v : Int}
    (h : iqInput p n dcsrc s k = .ok v) : wrapTmp s.invTmpWrap16 v = v := by
  simp only [iqInput] at h
  split at h
  · obtain ⟨h0, h1⟩ := lmSigned_range h
    rw [wrapTmp, trunc16_of_range h0 h1, ite_self]
  · simp only [dequantAt, withScales] at h
    split at h
    · cases h
    · split at h
      · cases h
      · split at h
        · cases h
        · cases h
          exact wrapTmp_idem _ _

/-- The butterfly on a first value alone, which `w` leaves as it is. -/
theorem ibOut_first {w : Int → Int} {x : Int} (hx : w x = x) (h0 : w 0 = 0) {d : Nat → Int} (hd0 : d 0 = x)
    (hd : ∀ i, 1 ≤ i → i < 4 → d i = 0) (j : Nat) : ibOut w d j = x := by
  simp only [ibOut, hd0, hd 1 (by decide) (by decide), hd 2 (by decide) (by decide), hd 3 (by decide) (by decide)]
  match j with
  | 0 | 1 | 2 | _ + 3 => simp [hx, h0]

/-- Without levels at positions 1 to 15 every output of the inverse transform is the DC. -/
theorem inverse4_dc {w : Int → Int} {d : Nat → Int} (hw : w (d 0) = d 0) (h0 : w 0 = 0)
    (hd : ∀ k, 1 ≤ k → k < 16 → d k = 0) (r c : Nat) : inverse4 w d r c = d 0 := by
  have firstRow : ibOut w (fun j => d (4 * 0 + j)) c = d 0 :=
    ibOut_first (d := fun j => d (4 * 0 + j)) hw h0 rfl (fun j _ _ => hd (4 * 0 + j) (by omega) (by omega)) c
  have row (i : Nat) (h1 : 1 ≤ i) (h4 : i < 4) : ibOut w (fun j => d (4 * i + j)) c = 0 :=
    ibOut_first h0 h0 (hd (4 * i + 0) (by omega) (by omega)) (fun j _ _ => hd (4 * i + j) (by omega) (by omega)) c
  exact ibOut_first hw h0 firstRow row r

/-- An offset that rounds to 0 leaves the prediction. -/
theorem sampleOf_small {q : Int} {v : Nat} (h0 : -32 ≤ q) (h1 : q ≤ 31) (hv : v < 256) : sampleOf q v = v := by
  rw [sampleOf]; omega

/-! ### Memories in canonical form -/

theorem read_of_below {a : Nat} {m : Memory} (h : ∀ c ∈ m, a < c.1) : Memory.read m a = none := by
  induction m with
  | nil => rfl
  | cons c m ih =>
    obtain ⟨hc, hm⟩ := List.forall_mem_cons.mp h
    rw [Memory.read, if_neg (by omega), ih hm]

/-- The first address of one of two canonical memories is not below that of the other when both read the same. -/
theorem head_not_lt {a a' : Nat} {b b' : Byte} {m m' : Memory} (h' : Memory.wf ((a', b') :: m') = true)
    (he : ∀ x, Memory.read ((a, b) :: m) x = Memory.read ((a', b') :: m') x) : ¬ a < a' := by
  intro hlt
  have none' : Memory.read ((a', b') :: m') a = none := read_of_below (List.forall_mem_cons.mpr
    ⟨hlt, fun c hc => hlt.trans (MemoryLaws.wf_lt_all _ _ h' c hc)⟩)
  have := (he a).trans none'
  simp [Memory.read] at this

/-- Canonical memories that read the same are the same. -/
theorem ext_of_wf {m m' : Memory} (h : m.wf = true) (h' : m'.wf = true)
    (he : ∀ x, Memory.read m x = Memory.read m' x) : m = m' := by
  induction m generalizing m' with
  | nil =>
    cases m' with
    | nil => rfl
    | cons c m' => have := he c.1; simp [Memory.read] at this
  | cons c m ih =>
    cases m' with
    | nil => have := he c.1; simp [Memory.read] at this
    | cons c' m' =>
      obtain ⟨a, b⟩ := c
      obtain ⟨a', b'⟩ := c'
      have ha : a = a' := by
        have := head_not_lt h' he
        have := head_not_lt h fun x => (he x).symm
        omega
      subst ha
      have hb : b = b' := by simpa [Memory.read] using he a
      have below : Memory.read m a = none := read_of_below (MemoryLaws.wf_lt_all _ _ h)
      have below' : Memory.read m' a = none := read_of_below (MemoryLaws.wf_lt_all _ _ h')
      rw [hb, ih ((MemoryLaws.wf_cons _ _).mp h).2 ((MemoryLaws.wf_cons _ _).mp h').2 fun x => ?_]
      by_cases hx : a = x
      · rw [← hx, below, below']
      · simpa [Memory.read, hx] using he x

/-! ### Reconstruction changes REC alone and does not read it (41_inverse.md R195) -/

/-- From `s` to `t` only bytes between PRED and COEF changed, where REC stands. -/
structure RecOnly (s t : State) : Prop where
  lm : LmChange s t
  read : ∀ a, a < 0x0800 ∨ 0x1000 ≤ a → t.lm.read a = s.lm.read a

theorem RecOnly.hostKept {s t : State} (h : RecOnly s t) : HostKept s t := h.lm.hostKept fun a ha => h.read a (.inl ha)

theorem RecOnly.symm {s t : State} (h : RecOnly s t) : RecOnly t s where
  lm := by
    obtain ⟨m, rfl⟩ := h.lm
    exact ⟨s.lm, rfl⟩
  read a ha := (h.read a ha).symm

theorem RecOnly.coef {s t : State} (h : RecOnly s t) (p : Plane) (n k : Nat) : coef p n k t = coef p n k s := by
  have := coefAddr_ge p n k
  exact lmSigned_congr (h.read _ (by omega)) (h.read _ (by omega))

theorem RecOnly.dcrec {s t : State} (h : RecOnly s t) (p : Plane) (n : Nat) : dcrec p n t = dcrec p n s :=
  dcrec_same fun a h0 _ => h.read a (by simp only [dcrecAddr] at h0; omega)

theorem RecOnly.iqInput {s t : State} (h : RecOnly s t) (p : Plane) (n : Nat) (dcsrc : Bool) {k : Nat} (hk : k < 16) :
    iqInput p n dcsrc t k = iqInput p n dcsrc s k := by
  simp only [Machine.iqInput, dequantAt, withScales, h.coef, h.dcrec, h.hostKept.qpDiv, h.hostKept.invTmpWrap16,
    h.hostKept.table p (show tableIscale < 4 by decide) hk, h.hostKept.table p (show tableWeight < 4 by decide) hk]

theorem recStored_work {p : Plane} {n : Nat} (hn : n < p.nb) (g : Nat → Nat) (s : State) :
    Work (lmScope (recAddrs p n)) s (recStored p n g s) := work_putRec _ s _ hn fun _ ha => ha

theorem recStored_recOnly {p : Plane} {n : Nat} (hn : n < p.nb) (g : Nat → Nat) (s : State) :
    RecOnly s (recStored p n g s) where
  lm := recStored_lmChange p n g s
  read a ha := (recStored_work hn g s).frame a fun hm => by
    have := recAddrs_ge p n a hm
    have := mem_recPlane_lt (recAddrs_plane hn hm)
    omega

/-- A reconstructed sub-block stores samples that every state with the same inputs gives it. -/
theorem recon1_stores {p : Plane} {m : Word} {f : Bool} {n : Nat} (hn : n < p.nb) {s t : State}
    (h : recon1 p m f n s = .ok t) :
    ∃ g, t = recStored p n g s ∧ ∀ u, RecOnly s u → recon1 p m f n u = .ok (recStored p n g u) := by
  simp only [recon1] at h ⊢
  split at h
  · rename_i hac
    obtain ⟨d, pr, hd, hpr, rfl⟩ := iqtr4_stores h
    refine ⟨_, rfl, fun u hu => ?_⟩
    rw [if_pos hac, iqtr4_of_inputs (fun k hk => (hu.hostKept.predSample hn hk).trans (hpr k hk))
      fun k hk => (hu.iqInput p n f hk).trans (hd k hk), hu.hostKept.invTmpWrap16]
  · rename_i hac
    split at h
    · rename_i hdc
      obtain ⟨q0, pr, hq, hpr, rfl⟩ := iqtr4dc_stores h
      refine ⟨_, rfl, fun u hu => ?_⟩
      rw [if_neg hac, if_pos hdc, iqtr4dc_of_inputs (fun k hk => (hu.hostKept.predSample hn hk).trans (hpr k hk))
        ((hu.iqInput p n f (by decide)).trans hq)]
    · rename_i hdc
      obtain ⟨pr, hpr, rfl⟩ := copy4_stores h
      refine ⟨_, rfl, fun u hu => ?_⟩
      rw [if_neg hac, if_neg hdc, copy4_of_inputs fun k hk => (hu.hostKept.predSample hn hk).trans (hpr k hk)]

/-! ### Two sub-blocks of a plane -/

/-- Sub-blocks of a plane share no sample. -/
theorem recAddrs_unique {p : Plane} {m n a : Nat} (hm : m < p.nb) (hn : n < p.nb) (h : a ∈ recAddrs p m)
    (h' : a ∈ recAddrs p n) : m = n := by
  obtain ⟨j, hj, rfl⟩ := List.mem_map.mp h
  obtain ⟨k, hk, he⟩ := List.mem_map.mp h'
  have := raster_lt16 hj
  have := raster_lt16 hk
  cases p <;> simp only [sampleAddr, planeOffset, planeWidth, row0, col0, Plane.nb] at * <;> omega

theorem read_recStored_out {p : Plane} {n a : Nat} (hn : n < p.nb) (h : a ∉ recAddrs p n) (g : Nat → Nat) (s : State) :
    (recStored p n g s).lm.read a = s.lm.read a := (recStored_work hn g s).frame a h

/-- What a sub-block's samples read does not depend on what stood there. -/
theorem read_recStored_own {p : Plane} {n a : Nat} (h : a ∈ recAddrs p n) (g : Nat → Nat) (s t : State) :
    (recStored p n g s).lm.read a = (recStored p n g t).lm.read a := by
  obtain ⟨k, hk, rfl⟩ := List.mem_map.mp h
  have read (u : State) := read_putRec u p n (fun k => (g k : Int)) (raster_lt16 hk)
  exact (read s).trans (read t).symm

theorem LmChange.eq_of_lm {s t u : State} (ht : LmChange s t) (hu : LmChange s u) (h : t.lm = u.lm) : t = u := by
  obtain ⟨m, rfl⟩ := ht
  obtain ⟨m', rfl⟩ := hu
  exact congrArg (fun l => { s with lm := l }) h

/-- Two sub-blocks of a plane stored in either order. -/
theorem recStored_comm {p : Plane} {m n : Nat} (hm : m < p.nb) (hn : n < p.nb) (hne : m ≠ n) (g h : Nat → Nat)
    {s : State} (hw : s.lm.wf = true) :
    recStored p n h (recStored p m g s) = recStored p m g (recStored p n h s) := by
  have wf {q : Plane} {j : Nat} (hj : j < q.nb) (i : Nat → Nat) {u : State} (hu : u.lm.wf = true) :
      (recStored q j i u).lm.wf = true := (recStored_work hj i u).lmWf hu
  have lm : (recStored p n h (recStored p m g s)).lm = (recStored p m g (recStored p n h s)).lm := by
    refine ext_of_wf (wf hn h (wf hm g hw)) (wf hm g (wf hn h hw)) fun a => ?_
    by_cases ha : a ∈ recAddrs p n
    · have hm' : a ∉ recAddrs p m := fun ha' => hne (recAddrs_unique hm hn ha' ha)
      rw [read_recStored_out hm hm', read_recStored_own ha h _ s]
    · rw [read_recStored_out hn ha]
      by_cases ha' : a ∈ recAddrs p m
      · exact read_recStored_own ha' g _ _
      · rw [read_recStored_out hm ha', read_recStored_out hm ha', read_recStored_out hn ha]
  exact ((recStored_lmChange p m g s).trans (recStored_lmChange p n h _)).eq_of_lm
    ((recStored_lmChange p n h s).trans (recStored_lmChange p m g _)) lm

end Laws

open Sys2Proof.Claims

/-- Settles O41, from what each path reads and stores. -/
theorem reconstructionPathsAgree : Obligations.ReconstructionPathsAgree := by
  refine fun p n dcsrc s t => ⟨fun hc h => ?_, fun q0 hq h0 h1 => ?_⟩
  · obtain ⟨d, pr, hd, hpr, rfl⟩ := Laws.iqtr4_stores h
    have zero : ∀ k, 1 ≤ k → k < 16 → d k = 0 := fun k h1 hk =>
      Laws.dequantAt_zero (hc k h1 hk) ((Laws.iqInput_dequantAt (fun _ => by omega) p n s).symm.trans (hd k hk))
    have first := hd 0 (by decide)
    rw [Laws.iqtr4dc_of_inputs hpr first]
    refine congrArg Except.ok (Laws.recStored_congr p n (fun k _ => ?_) s)
    rw [Laws.fullSamples, Laws.inverse4_dc (Laws.iqInput_wrapped first) (Laws.wrapTmp_zero _) zero, Laws.offsetSamples]
  · have same (pr : Nat → Nat) (hpr : ∀ k, k < 16 → predSample p n (k / 4) (k % 4) s = .ok (pr k)) :
        iqtr4dc p n dcsrc s = copy4 p n s := by
      rw [Laws.iqtr4dc_of_inputs hpr hq, Laws.copy4_of_inputs hpr]
      exact congrArg Except.ok
        (Laws.recStored_congr p n (fun k hk => Laws.sampleOf_small h0 h1 (Laws.pred_lt hpr hk)) s)
    constructor
    · intro h
      obtain ⟨_, pr, -, hpr, -⟩ := Laws.iqtr4dc_stores h
      rwa [← same pr hpr]
    · intro h
      obtain ⟨pr, hpr, -⟩ := Laws.copy4_stores h
      rwa [same pr hpr]

/-- Settles O42: the two sub-blocks' samples stand apart, and neither path reads what the other stores. -/
theorem reconstructionOrderUnobservable : Obligations.ReconstructionOrderUnobservable := by
  intro p m f n k s t u hw hn hk ht hu
  by_cases hne : n = k
  · subst hne
    exact ⟨t, ht, hu⟩
  · obtain ⟨g, rfl, hg⟩ := Laws.recon1_stores hn ht
    have only := Laws.recStored_recOnly hn g s
    obtain ⟨h, rfl, hh⟩ := Laws.recon1_stores hk hu
    refine ⟨Laws.recStored p k h s, hh s only.symm, ?_⟩
    rw [hg _ (Laws.recStored_recOnly hk h s), Laws.recStored_comm hn hk hne g h hw]

end Sys2Proof.Machine
end

section
/-! PROOFS. CODE_I4 when its record fits (43_macroblock.md R240): what its coding part leaves (`I4Coded`), the path its
levels choose (R246, R247), and the statement `CodeI4Result`. -/

namespace Sys2Proof.Machine

namespace Laws

open Sys2Proof.Claims

/-! ### A record that fits (42_pack.md R205) -/

/-- EMIT of a record that ends at or below ARENA_END appends it. -/
theorem emit_fits {start : Nat} {vs : List Int} {s : State} (hl : start + vs.length ≤ 16)
    (h : s.arenaCur.toNat + recLen vs ≤ s.arenaEnd.toNat) :
    ∃ r t, emit start vs s = .ok (r, t) ∧ Appended start vs s t := by
  have hlen : recordLen start vs = recLen vs := by rw [recordLen, recLen, nnzOf_sig start vs hl]
  have hhalves := recordHalves_length start vs hl
  obtain ⟨r, t, he, harena⟩ : ∃ r t, emit start vs s = .ok (r, t) ∧
      t.arena = s.arena.writeHalves s.arenaCur.toNat (recordHalves start vs) := by
    rcases emit_cases start vs s with ⟨hlt, -⟩ | ⟨-, he⟩
    · omega
    · exact ⟨_, _, he, rfl⟩
  obtain ⟨⟨hcur, hbytes, hbelow⟩, -, -⟩ := emit_appends hl he
  rw [recordOf_length hl, hlen] at hcur hbytes
  refine ⟨r, t, he, hbytes, fun a ha => ?_, hcur⟩
  rcases ha with ha | ha
  · exact hbelow a ha
  · rw [harena]
    exact MemoryLaws.read_writeHalves_out _ _ _ _ (.inr (by omega))

theorem emitCoef_fits {p : Plane} {n : Nat} {ac : Bool} {lv : Nat → Int} {s : State}
    (hc : ∀ k, k < 16 → coef p n k s = .ok (lv k))
    (h : s.arenaCur.toNat + recLen (scanOf ac lv) ≤ s.arenaEnd.toNat) :
    ∃ r t, emitCoef p n ac s = .ok (r, t) ∧ Appended (scanStart ac) (scanOf ac lv) s t := by
  have hscan : coefScan p n (scanStart ac) s = .ok (scanOf ac lv) :=
    readAll_ok fun k hk => hc k (scanOf_positions ac k hk).1
  obtain ⟨r, u, hu, happ⟩ := emit_fits (scanOf_length ac lv).le h
  exact ⟨r, u.putNnz p n r.nnz, by simp only [emitCoef, hscan, hu], happ⟩

/-! ### The coding part -/

/-- What the coding part of CODE_I4 leaves in `t` when it ran from `s` and FTQ4 gives the sub-block the levels `lv`. -/
structure I4Coded (n : Nat) (lv : Nat → Int) (s t : State) : Prop where
  holds : BlockHolds .y n lv t
  record : Appended 0 (zigzag.map lv) s t
  bits : t.cntrlY = levelBits n (raster.map lv) s.cntrlY
  cbp : t.cbp = if 0 < countNonzero (raster.map lv) then setBit s.cbp (groupOf n) else s.cbp
  host : HostKept s t
  fixed : ∃ m a c w b, t = { s with lm := m, arena := a, arenaCur := c, cntrlY := w, cbp := b }

theorem setBits_of_levels {n : Nat} {lv : Nat → Int} {s : State} (hc : ∀ k, k < 16 → coef .y n k s = .ok (lv k)) :
    setBits n s = .ok { s with cntrlY := levelBits n (raster.map lv) s.cntrlY } := by
  simp only [setBits, readAll_ok fun k hk => hc k (raster_lt16 hk)]

/-- The control bits, record, count and CBP bit of a sub-block that holds its levels, when the record fits. -/
theorem i4Code_coded {n : Nat} {dc : Int} {lv : Nat → Int} {s : State} (hn : n < 16)
    (ht : Transformed .y n false s dc lv) (hfit : s.arenaCur.toNat + recLen (zigzag.map lv) ≤ s.arenaEnd.toNat) :
    ∃ t, i4Code n s = .ok t ∧ I4Coded n lv s t := by
  have hforward := ftq4_of_transformed ht
  have hcoef : ∀ k, k < 16 → coef .y n k (ftStored .y n false dc lv s) = .ok (lv k) := (ht.holds (p := .y) hn s).coef
  have hhost := ftStored_hostKept (p := .y) hn false dc lv s
  obtain ⟨m, hm⟩ := ftStored_lmChange .y n false dc lv s
  rw [hm] at hforward hcoef hhost
  have hset := setBits_of_levels hcoef
  generalize hv : ({ s with lm := m, cntrlY := levelBits n (raster.map lv) s.cntrlY } : State) = v at hset
  have hcoef : ∀ k, k < 16 → coef .y n k v = .ok (lv k) := by subst hv; exact hcoef
  have hhost : HostKept s v := by subst hv; exact hhost.trans ⟨rfl, fun _ _ => rfl⟩
  obtain ⟨r, w, hw, happ⟩ := emitCoef_fits (ac := false) hcoef (by subst hv; exact hfit)
  have hwritten := emitCoef_written hcoef hw
  have hcount : r.nnz = countNonzero (raster.map lv) := hwritten.count.trans (countNonzero_zigzag lv)
  have hholds := hwritten.holds (p := .y) hn hcoef (countNonzero_zigzag lv)
  obtain ⟨hpart, hbelow⟩ := hhost.trans hwritten.hostKept
  obtain ⟨m', a, c, hfix⟩ := hwritten.fixed
  refine ⟨{ w with cbp := if 0 < countNonzero (raster.map lv) then setBit w.cbp (groupOf n) else w.cbp }, ?_, ?_⟩
  · simp only [i4Code, hforward, hset, hw, hcount]
    split <;> rfl
  · subst hv
    have hbits : w.cntrlY = levelBits n (raster.map lv) s.cntrlY := by rw [hfix]
    have hcbp : w.cbp = s.cbp := by rw [hfix]
    exact
      { holds := hholds.same fun _ _ => rfl
        record := happ
        bits := hbits
        cbp := by rw [hcbp]
        host := ⟨hpart, hbelow⟩
        fixed := ⟨m', a, c, _, _, by rw [hfix]⟩ }

/-! ### The path of a sub-block (43_macroblock.md R246, R247) -/

/-- What reconstruction from the control bits of the levels `lv` stores. -/
theorem recon1_of_levels {n : Nat} {s : State} {w : Word} {lv d : Nat → Int} {pr : Nat → Nat} (hn : n < 16)
    (hd : ∀ k, k < 16 → iqInput .y n false s k = .ok (d k))
    (hpr : ∀ k, k < 16 → predSample .y n (k / 4) (k % 4) s = .ok (pr k)) :
    ∃ g, recon1 .y (levelBits n (raster.map lv) w) false n s = .ok (recStored .y n g s) ∧ (∀ k, k < 16 → g k < 256) ∧
      ((∃ k, 1 ≤ k ∧ k < 16 ∧ lv k ≠ 0) → g = fullSamples s.invTmpWrap16 d pr) ∧
      ((∀ k, 1 ≤ k → k < 16 → lv k = 0) → lv 0 ≠ 0 → g = offsetSamples (d 0) pr) ∧
      ((∀ k, k < 16 → lv k = 0) → g = pr) := by
  obtain ⟨hac, hdc, -⟩ := levelBits_block n lv w hn
  rw [← show acBit .y n = 31 - n from rfl] at hac
  rw [← show dcBit .y n = 15 - n from rfl] at hdc
  by_cases hlevel : ∃ k, 1 ≤ k ∧ k < 16 ∧ lv k ≠ 0
  · refine ⟨fullSamples s.invTmpWrap16 d pr, ?_, fun k _ => sampleOf_lt _ _, fun _ => rfl, fun h0 => ?_, fun h0 => ?_⟩
    · rw [recon1, if_pos (hac.mpr hlevel), iqtr4_of_inputs hpr hd]
    · obtain ⟨k, h1, hk, hne⟩ := hlevel
      exact absurd (h0 k h1 hk) hne
    · obtain ⟨k, -, hk, hne⟩ := hlevel
      exact absurd (h0 k hk) hne
  · have hno : ¬ (levelBits n (raster.map lv) w).getLsbD (acBit .y n) = true := fun h => hlevel (hac.mp h)
    by_cases hfirst : lv 0 = 0
    · have hno' : ¬ (levelBits n (raster.map lv) w).getLsbD (dcBit .y n) = true := fun h => hdc.mp h hfirst
      refine ⟨_, ?_, fun k => pred_lt hpr, fun h => absurd h hlevel, fun _ h => absurd hfirst h, fun _ => rfl⟩
      rw [recon1, if_neg hno, if_neg hno', copy4_of_inputs hpr]
    · refine ⟨offsetSamples (d 0) pr, ?_, fun k _ => sampleOf_lt _ _, fun h => absurd h hlevel, fun _ _ => rfl, fun h =>
        absurd (h 0 (by decide)) hfirst⟩
      rw [recon1, if_neg hno, if_pos (hdc.mpr hfirst), iqtr4dc_of_inputs hpr (hd 0 (by decide))]

/-! ### CODE_I4 -/

theorem HostKept.dequantized {s t : State} (h : HostKept s t) (p : Plane) (isc wt : Nat) (c : Int) :
    dequantized p t isc wt c = dequantized p s isc wt c := by
  simp only [Laws.dequantized, h.qpDiv, h.invTmpWrap16]

theorem RecOnly.refl (s : State) : RecOnly s s := ⟨LmChange.refl s, fun _ _ => rfl⟩

theorem RecOnly.nnz {s t : State} (h : RecOnly s t) (p : Plane) (n : Nat) : nnz p n t = nnz p n s := by
  have := nnzAddr_count p n
  exact lmSample_congr (h.read _ (by omega))

theorem RecOnly.holds {s t : State} (h : RecOnly s t) {p : Plane} {n : Nat} {lv : Nat → Int}
    (hb : BlockHolds p n lv s) : BlockHolds p n lv t :=
  ⟨fun k hk => (h.coef p n k).trans (hb.coef k hk), (h.nnz p n).trans hb.nnz⟩

/-- REC at luma sub-block `n` in `t` is what its levels `lv`, its inputs `d` and its prediction `pr` give by the path of
43_macroblock.md R247. -/
structure PathTaken (n : Nat) (wrap16 : Bool) (lv d : Nat → Int) (pr : Nat → Nat) (t : State) : Prop where
  full : (∃ k, 1 ≤ k ∧ k < 16 ∧ lv k ≠ 0) → RecIs .y n t (fullSamples wrap16 d pr)
  offset : (∀ k, 1 ≤ k → k < 16 → lv k = 0) → lv 0 ≠ 0 → RecIs .y n t (offsetSamples (d 0) pr)
  copy : (∀ k, k < 16 → lv k = 0) → RecIs .y n t pr

section

variable {n : Nat} {lv : Nat → Int} {isc wt pr : Nat → Nat} {s s0 t : State} (hn : n < 16)
  (hpr : ∀ k, k < 16 → predSample .y n (k / 4) (k % 4) s0 = .ok (pr k))

include hn hpr

/-- The reconstruction part of CODE_I4, after its coding part, from what the host loaded in `s0`. -/
theorem I4Coded.recon (h : I4Coded n lv s t) (hk : HostKept s0 s)
    (hisc : ∀ k, k < 16 → table tableIscale .y k s0 = .ok (isc k))
    (hwt : ∀ k, k < 16 → table tableWeight .y k s0 = .ok (wt k)) :
    ∃ u, recon1 .y t.cntrlY false n t = .ok u ∧ RecOnly t u ∧
      PathTaken n s0.invTmpWrap16 lv (fun k => dequantized .y s0 (isc k) (wt k) (lv k)) pr u := by
  have host := hk.trans h.host
  have inputs : ∀ k, k < 16 → iqInput .y n false t k = .ok (dequantized .y s0 (isc k) (wt k) (lv k)) := fun k hk16 => by
    rw [iqInput_dequantAt (dcsrc := false) (fun hf => nomatch hf), dequantAt_ok (h.holds.coef k hk16)
      ((host.table .y (by decide) hk16).trans (hisc k hk16)) ((host.table .y (by decide) hk16).trans (hwt k hk16)),
      host.dequantized]
  obtain ⟨g, hg, hlt, hfull, hoffset, hcopy⟩ := recon1_of_levels (w := s.cntrlY) (lv := lv) hn inputs
    fun k hk16 => (host.predSample (p := .y) hn hk16).trans (hpr k hk16)
  rw [host.invTmpWrap16] at hfull
  have stored := recIs_recStored .y n hlt t
  exact ⟨_, by rw [h.bits, hg], recStored_recOnly (p := .y) hn g t,
    { full := fun hl => hfull hl ▸ stored
      offset := fun hl h0 => hoffset hl h0 ▸ stored
      copy := fun hl => hcopy hl ▸ stored }⟩

/-- CODE_I4 codes and, with RECON, reconstructs. -/
theorem codeI4_coded {recon : Bool} {dc : Int} (ht : Transformed .y n false s0 dc lv) (hk : HostKept s0 s)
    (hfit : s.arenaCur.toNat + recLen (zigzag.map lv) ≤ s.arenaEnd.toNat)
    (htables : recon = true → (∀ k, k < 16 → table tableIscale .y k s0 = .ok (isc k)) ∧
      ∀ k, k < 16 → table tableWeight .y k s0 = .ok (wt k)) :
    ∃ t u, codeI4 n recon s = .ok u ∧ I4Coded n lv s t ∧ RecOnly t u ∧ (recon = true →
      PathTaken n s0.invTmpWrap16 lv (fun k => dequantized .y s0 (isc k) (wt k) (lv k)) pr u) := by
  obtain ⟨t, hcode, hcoded⟩ := i4Code_coded hn (ht.congr (p := .y) hk hn) hfit
  cases recon with
  | false =>
    refine ⟨t, t, ?_, hcoded, RecOnly.refl t, fun h => nomatch h⟩
    simp only [codeI4, hcode, Bool.false_eq_true, if_false]
  | true =>
    obtain ⟨hisc, hwt⟩ := htables rfl
    obtain ⟨u, hu, honly, hpath⟩ := hcoded.recon hn hpr hk hisc hwt
    exact ⟨t, u, by simp only [codeI4, hcode, if_true, hu], hcoded, honly, fun _ => hpath⟩

end

/-- What a command `i` that coded luma sub-block `n` as CODE_I4 does leaves when it completes. -/
structure I4Ended (i : Instr) (n : Nat) (lv : Nat → Int) (s t : State) : Prop where
  holds : BlockHolds .y n lv t
  record : Appended 0 (zigzag.map lv) s t
  bits : t.cntrlY = levelBits n (raster.map lv) s.cntrlY
  cbp : t.cbp = if 0 < countNonzero (raster.map lv) then setBit s.cbp (groupOf n) else s.cbp
  fixed : t = { completed i s with
    arena := t.arena, arenaCur := t.arenaCur, cntrlY := t.cntrlY, cbp := t.cbp, lm := t.lm }

theorem I4Coded.ended {i : Instr} {n : Nat} {lv : Nat → Int} {s t u : State} (h : I4Coded n lv (accept (encode i) s) t)
    (hu : RecOnly t u) : I4Ended i n lv s (complete u) := by
  have holds := (hu.holds h.holds).complete
  obtain ⟨m', rfl⟩ := hu.lm
  exact
    { holds := holds
      record := h.record
      bits := h.bits
      cbp := h.cbp
      fixed := by
        obtain ⟨m, a, c, x, b, rfl⟩ := h.fixed
        rfl }

theorem issueCheck_codeI4 {n : Fin 16} {recon : Bool} {s : State} (h : recon = true → qpDiv .y s ≤ 8) :
    issueCheck (.codeI4 n recon) s = none := by
  cases recon with
  | false => exact issueCheck_eq_none rfl fun _ hq => nomatch hq
  | true => exact issueCheck_eq_none rfl (List.forall_mem_singleton.mpr (h rfl))

theorem ftq4Level_plain (qb rd : Nat) (src pr sc th : Nat → Nat) :
    ftq4Level false qb rd src pr sc th = levelOf qb rd src pr sc th :=
  funext fun _ => if_neg fun h => nomatch h.1

end Laws

open Sys2Proof.Claims

/-- Settles O56, from what the coding part leaves and the path the levels choose. -/
theorem codeI4Result : Obligations.CodeI4Result := by
  intro n recon s src pr sc th isc wt hsrc hpr hsc hth hrecon
  rw [← Laws.wrapTmp_eq]
  intro lv vs w d hfit
  have hc := Laws.issueCheck_codeI4 (n := n) fun h => (hrecon h).1
  have ht := Laws.transformed_of_inputs (dcx := false) hsrc hpr (fun k hk _ => hsc k hk) fun k hk _ => hth k hk
  rw [Laws.ftq4Level_plain] at ht
  have coded (w : Word) := Laws.codeI4_coded (recon := recon) n.isLt hpr ht (Laws.hostKept_accept w s) hfit
    fun h => (hrecon h).2
  obtain ⟨v, u, hsteps, hcoded, honly, hpath⟩ := coded (encode (.codeI4 n recon))
  have he := Laws.exec_completed hc hsteps
  obtain ⟨hframe, -⟩ := commandFrame _ s _ he
  have hend := hcoded.ended honly
  refine ⟨_, he, hend.holds.coef, ?_, hend.record, hend.bits, fun hl => ?_, fun hl => ?_, fun hr => ?_, hframe,
    hend.fixed⟩
  · rw [Laws.countNonzero_zigzag]
    exact hend.holds.nnz
  · exact hend.cbp.trans (if_pos (Laws.countNonzero_pos.mpr hl))
  · refine hend.cbp.trans (if_neg fun hpos => ?_)
    obtain ⟨k, hk, hne⟩ := Laws.countNonzero_pos.mp hpos
    exact hne (hl k hk)
  · obtain ⟨hfull, hoffset, hcopy⟩ := hpath hr
    exact ⟨fun hl => Laws.recIs_complete (hfull hl), fun hl h0 => Laws.recIs_complete (hoffset hl h0),
      fun hl => Laws.recIs_complete (hcopy hl)⟩

end Sys2Proof.Machine
end

section
/-! PROOFS. The scan of a record, its bitmap and its cost (42_pack.md R202, R203, R206), and the pack commands when the
record fits (R210, R215); the statements `BitmapCountAndCost`, `ScanRebuiltFromItsRecord`, `Pack4Result` and
`PackdcResult`. -/

namespace Sys2Proof.Machine

namespace Laws

open Sys2Proof.Claims

/-! ### The bitmap, bit by bit (42_pack.md R202) -/

/-- A scan that starts at position `start` has the bitmap of the scan from 0, moved up. -/
theorem sigFrom_shift (start : Nat) (vs : List Int) : sigFrom start vs = 2 ^ start * sigFrom 0 vs := by
  induction vs generalizing start with
  | nil => rfl
  | cons v vs ih =>
    rw [sigFrom, sigFrom, ih (start + 1), ih (0 + 1), mul_add, mul_ite, pow_zero, mul_one, mul_zero, zero_add, pow_one,
      pow_succ, mul_assoc]

theorem testBit_sigFrom_zero (vs : List Int) (j : Nat) : (sigFrom 0 vs).testBit j = true ↔ vs.getD j 0 ≠ 0 := by
  induction vs generalizing j with
  | nil => simp [sigFrom]
  | cons v vs ih =>
    have tail : sigFrom (0 + 1) vs = 2 * sigFrom 0 vs := sigFrom_shift 1 vs
    cases j with
    | zero =>
      rw [sigFrom, tail, Nat.testBit_zero, List.getD_cons_zero, decide_eq_true_iff]
      split <;> omega
    | succ j =>
      have half : ((if v ≠ 0 then 2 ^ 0 else 0) + 2 * sigFrom 0 vs) / 2 = sigFrom 0 vs := by split <;> omega
      rw [sigFrom, tail, Nat.testBit_succ, half, ih, List.getD_cons_succ]

theorem testBit_sigFrom (start : Nat) (vs : List Int) (j : Nat) :
    (sigFrom start vs).testBit j = true ↔ start ≤ j ∧ j < start + vs.length ∧ vs.getD (j - start) 0 ≠ 0 := by
  rw [sigFrom_shift, Nat.testBit_two_pow_mul, Bool.and_eq_true, decide_eq_true_iff, testBit_sigFrom_zero]
  refine and_congr_right fun hle => (and_iff_right_of_imp fun hne => ?_).symm
  by_contra hlt
  exact hne (List.getD_eq_default _ _ (by omega))

theorem sigFrom_lt (start : Nat) (vs : List Int) : sigFrom start vs < 2 ^ (start + vs.length) := by
  refine Nat.lt_pow_two_of_testBit _ fun j hj => Bool.eq_false_iff.mpr fun h => ?_
  obtain ⟨-, hlt, -⟩ := (testBit_sigFrom start vs j).mp h
  omega

/-- The non-zero values at the set bits of a bitmap that marks them, 0 elsewhere, are the scan (42_pack.md R206). -/
theorem rebuild_of_bits (sig start : Nat) (vs : List Int)
    (h : ∀ j, j < vs.length → (sig.testBit (start + j) = true ↔ vs.getD j 0 ≠ 0)) :
    rebuild sig (List.range' start vs.length) (vs.filter (· ≠ 0)) = vs := by
  induction vs generalizing start with
  | nil => rfl
  | cons v vs ih =>
    have first : sig.testBit start = true ↔ v ≠ 0 := h 0 (Nat.succ_pos _)
    have rest := ih (start + 1) fun j hj => by
      rw [Nat.add_right_comm]
      exact h (j + 1) (Nat.succ_lt_succ hj)
    rw [List.length_cons, List.range'_succ, rebuild]
    by_cases hv : v = 0
    · rw [if_neg fun hb => first.mp hb hv, List.filter_cons_of_neg (by simpa using hv), rest, hv]
    · rw [if_pos (first.mpr hv), List.filter_cons_of_pos (by simpa using hv), List.headD_cons, List.tail_cons, rest]

/-! ### The cost (42_pack.md R203) -/

theorem costFrom_zeros (lut : Nat → Nat) (large run m : Nat) : costFrom lut large run (List.replicate m 0) = 0 := by
  induction m generalizing run with
  | zero => rfl
  | succ m ih => rw [List.replicate_succ, costFrom, if_pos rfl, ih]

theorem costFrom_append_zeros (lut : Nat → Nat) (large run m : Nat) (vs : List Int) :
    costFrom lut large run (vs ++ List.replicate m 0) = costFrom lut large run vs := by
  induction vs generalizing run with
  | nil => exact costFrom_zeros lut large run m
  | cons v vs ih => rw [List.cons_append, costFrom, costFrom, ih, ih]

/-- Of the table only the entries of runs that can occur are read. -/
theorem costFrom_congr {lut lut' : Nat → Nat} (large : Nat) {run : Nat} {vs : List Int}
    (h : ∀ r, r < run + vs.length → lut' r = lut r) : costFrom lut' large run vs = costFrom lut large run vs := by
  induction vs generalizing run with
  | nil => rfl
  | cons v vs ih =>
    rw [List.length_cons] at h
    rw [costFrom, costFrom, ih fun r hr => h r (by omega), ih fun r hr => h r (by omega), h run (by omega)]

/-! ### A pack command whose record fits (42_pack.md R210, R215) -/

theorem emit_cost {start : Nat} {vs : List Int} {s t : State} {r : Emitted} (h : emit start vs s = .ok (r, t)) :
    r.cost = scanCost s vs := by
  rcases emit_cases start vs s with ⟨-, he⟩ | ⟨-, he⟩
  · exact nomatch he.symm.trans h
  · obtain ⟨rfl, -⟩ := Prod.mk.inj (Except.ok.inj (he.symm.trans h))
    exact (costLoop_eq _ _ vs).symm

/-- A command whose steps are EMIT, the count stored at `a` and the cost added completes with those effects alone. -/
theorem exec_packs {i : Instr} {start : Nat} {vs : List Int} {s : State} (a : Nat) (hc : issueCheck i s = none)
    (hl : start + vs.length ≤ 16) (hfit : s.arenaCur.toNat + recLen vs ≤ s.arenaEnd.toNat)
    (hs : ∀ r u, emit start vs (accept (encode i) s) = .ok (r, u) →
      stepsOf i (accept (encode i) s) = .ok ((u.putByte a (BitVec.ofNat 8 r.nnz)).addCost r.cost)) :
    ∃ t, exec i s = .next t ∧ Appended start vs s t ∧ lmSample a t = .ok (countNonzero vs) ∧
      t.costAcc = s.costAcc + BitVec.ofNat 32 (scanCost s vs) ∧
      (∀ x, x ≠ a → t.lm.read x = s.lm.read x) ∧
      t = { completed i s with arena := t.arena, arenaCur := t.arenaCur, costAcc := t.costAcc, lm := t.lm } := by
  obtain ⟨r, u, hu, happ⟩ := emit_fits (s := accept (encode i) s) hl hfit
  obtain ⟨-, hnnz, hfix⟩ := emit_appends hl hu
  have hlm : u.lm = s.lm := by rw [hfix]; rfl
  have hacc : u.costAcc = s.costAcc := by rw [hfix]; rfl
  have hcost : r.cost = scanCost s vs := (emit_cost hu).trans ((hostKept_accept _ s).scanCost vs)
  have hle := countNonzero_le vs
  refine ⟨_, exec_completed hc (hs r u hu), happ, ?_, ?_, fun x hx => ?_, ?_⟩
  · rw [hnnz]
    exact lmSample_putByte u a _ (by omega)
  · exact congrArg₂ (· + BitVec.ofNat 32 ·) hacc hcost
  · rw [← hlm]
    exact read_putByte_ne u _ hx
  · rw [hfix]
    rfl

theorem coefScan_accept {p : Plane} {n : Nat} {ac : Bool} {c : Nat → Int} {s : State} (w : Word)
    (hc : ∀ k, k < 16 → (ac = true → k ≠ 0) → coef p n k s = .ok (c k)) :
    coefScan p n (scanStart ac) (accept w s) = .ok (scanOf ac c) := readAll_ok fun k hk => by
  obtain ⟨hlt, hne⟩ := scanOf_positions ac k hk
  exact (coef_accept p n k w s).trans (hc k hlt hne)

/-- PACK4 of a scan its record fits for. -/
theorem pack4_of_emit {p : Plane} {n : Nat} {ac : Bool} {vs : List Int} {s u : State} {r : Emitted}
    (hscan : coefScan p n (scanStart ac) s = .ok vs) (h : emit (scanStart ac) vs s = .ok (r, u)) :
    pack4 p n ac s = .ok ((u.putNnz p n r.nnz).addCost r.cost) := by
  simp only [pack4, emitCoef, hscan, h]

theorem dcScan_accept {p : Plane} {c : Nat → Int} {s : State} (w : Word)
    (hc : ∀ k, k < p.nb → dccoef p k s = .ok (c k)) :
    readAll (fun k => dccoef p k (accept w s)) (dcScan p) = .ok ((dcScan p).map c) :=
  readAll_ok fun k hk => (dccoef_accept p k w s).trans (hc k (dcScan_lt hk))

/-- PACKDC of a layer its record fits for. -/
theorem packdc_of_emit {p : Plane} {vs : List Int} {s u : State} {r : Emitted}
    (hscan : readAll (fun k => dccoef p k s) (dcScan p) = .ok vs) (h : emit 0 vs s = .ok (r, u)) :
    packdc p s = .ok ((u.putNnzdc p r.nnz).addCost r.cost) := by
  simp only [packdc, emitDc, hscan, h]

theorem dcScan_map_length_le (p : Plane) (c : Nat → Int) : 0 + ((dcScan p).map c).length ≤ 16 := by
  rw [List.length_map, dcScan_length, Nat.zero_add]
  exact nb_le p

end Laws

open Sys2Proof.Claims

/-- Settles O43, from the bits of the bitmap and the recursion of the cost. -/
theorem bitmapCountAndCost : Obligations.BitmapCountAndCost := by
  refine ⟨fun start vs hl => ⟨Laws.testBit_sigFrom start vs, ?_, Laws.nnzOf_sig start vs hl, ?_⟩,
    fun lut large vs => ⟨(Laws.costLoop_eq lut large vs).symm,
      fun m => Laws.costFrom_append_zeros lut large 0 m vs, fun lut' h => Laws.costFrom_congr large fun r hr => ?_⟩⟩
  · exact (Laws.sigFrom_lt start vs).trans_le (Nat.pow_le_pow_right (by decide) hl)
  · have := Laws.countNonzero_le vs
    omega
  · exact h r (by omega)

/-- Settles O44: the bitmap marks the non-zero values. -/
theorem scanRebuiltFromItsRecord : Obligations.ScanRebuiltFromItsRecord := by
  intro start vs _
  rw [← List.range'_eq_map_range]
  refine Laws.rebuild_of_bits _ start vs fun j hj => (Laws.testBit_sigFrom start vs (start + j)).trans ?_
  rw [Nat.add_sub_cancel_left]
  exact (and_iff_right (Nat.le_add_right start j)).trans (and_iff_right (Nat.add_lt_add_left hj start))

/-- Settles O45: the steps of PACK4 are EMIT of the block's scan, NNZ and the cost. -/
theorem pack4Result : Obligations.Pack4Result := by
  intro p n ac s c hn hc start vs hfit
  exact Laws.exec_packs (nnzAddr p n) (Laws.issueCheck_pack4 hn ac s) (Laws.scanOf_length ac c).le hfit fun _ _ =>
    Laws.pack4_of_emit (Laws.coefScan_accept _ hc)

/-- Settles O46: the steps of PACKDC are EMIT of the layer's scan, NNZDC and the cost. -/
theorem packdcResult : Obligations.PackdcResult := by
  intro p s c hc
  rw [← Laws.dcScan_eq]
  intro vs hfit
  exact Laws.exec_packs (nnzdcAddr p) (Laws.issueCheck_packdc p s) (Laws.dcScan_map_length_le p c) hfit fun _ _ =>
    Laws.packdc_of_emit (Laws.dcScan_accept _ hc)

end Sys2Proof.Machine
end

section
/-! PROOFS. The paths of reconstruction and the border mask (43_macroblock.md R247, R258), promotion (R257) and the chroma
part of CBP (R254); the statements `PathSelectionAndBorderMask`, `Promotion` and `ChromaCbp`. -/

namespace Sys2Proof.Machine

namespace Laws

open Sys2Proof.Claims

/-! ### The control bits by plane number (10_state.md R40, R41) -/

theorem acBit_idx (p : Plane) (n : Nat) : acBit p n = 31 - 4 * (p.idx - 1) - n := by cases p <;> rfl

theorem dcBit_idx (p : Plane) (n : Nat) : dcBit p n = 15 - 4 * (p.idx - 1) - n := by cases p <;> rfl

/-! ### The three paths (43_macroblock.md R247) -/

section

variable {p : Plane} {m : Word} {n : Nat} (f : Bool) (s : State)

theorem recon1_full (h : m.getLsbD (acBit p n) = true) : recon1 p m f n s = iqtr4 p n f s := if_pos h

theorem recon1_dcOnly (h : m.getLsbD (acBit p n) = false) (hd : m.getLsbD (dcBit p n) = true) :
    recon1 p m f n s = iqtr4dc p n f s := (if_neg (Bool.eq_false_iff.mp h)).trans (if_pos hd)

theorem recon1_copy (h : m.getLsbD (acBit p n) = false) (hd : m.getLsbD (dcBit p n) = false) :
    recon1 p m f n s = copy4 p n s := (if_neg (Bool.eq_false_iff.mp h)).trans (if_neg (Bool.eq_false_iff.mp hd))

end

/-! ### The border mask (43_macroblock.md R258) -/

theorem getLsbD_masked (p : Plane) (w : Word) (b : Nat) :
    (masked p true w).getLsbD b = (w.getLsbD b && (borderMask p).getLsbD b) := BitVec.getLsbD_and

theorem borderMask_luma {n : Nat} (hn : n < 16) :
    (borderMask .y).getLsbD (31 - n) = decide (n ∈ [3, 7, 11, 12, 13, 14, 15]) ∧
      (borderMask .y).getLsbD (15 - n) = decide (n ∈ [3, 7, 11, 12, 13, 14, 15]) := by
  revert n; decide

theorem borderMask_chroma : ∀ p : Plane, p ≠ .y → ∀ n, n < 4 →
    (borderMask p).getLsbD (acBit p n) = decide (n ∈ [1, 2, 3]) ∧
      (borderMask p).getLsbD (dcBit p n) = decide (n ∈ [1, 2, 3]) := forall_chroma (by decide) (by decide)

/-! ### Promotion (43_macroblock.md R257) -/

theorem planeBlocks_getElem (p : Plane) {n : Nat} (h : n < (planeBlocks p).length) : (planeBlocks p)[n] = n := by
  revert n; cases p <;> decide

/-- Promotion of a plane whose DCRECs are `r`. -/
theorem promote_ok {p : Plane} {s : State} {r : Nat → Int} (h : ∀ n, n < p.nb → dcrec p n s = .ok (r n)) :
    promote p s = .ok (s.putCntrl p (setDcBits p 0 ((planeBlocks p).map r) (cntrl p s))) := by
  simp only [promote, readAll_ok fun n hn => h n (planeBlocks_lt hn)]

/-- The bits of a promoted word. -/
theorem getLsbD_promoted (p : Plane) (r : Nat → Int) (w : Word) (b : Nat) :
    (setDcBits p 0 ((planeBlocks p).map r) w).getLsbD b = true ↔
      w.getLsbD b = true ∨ ∃ n, n < p.nb ∧ b = dcBit p n ∧ r n ≠ 0 := by
  have length : ((planeBlocks p).map r).length = p.nb := (List.length_map _).trans (planeBlocks_length p)
  by_cases hb : b < 32
  · refine (getLsbD_setDcBits p 0 _ w hb).trans (or_congr_right ⟨?_, ?_⟩)
    · rintro ⟨n, hn, hne, rfl⟩
      rw [List.getElem_map, planeBlocks_getElem] at hne
      exact ⟨n, length ▸ hn, by rw [Nat.zero_add], hne⟩
    · rintro ⟨n, hn, rfl, hne⟩
      exact ⟨n, length.symm ▸ hn, by rwa [List.getElem_map, planeBlocks_getElem], by rw [Nat.zero_add]⟩
  · rw [BitVec.getLsbD_of_ge _ _ (by omega), BitVec.getLsbD_of_ge _ _ (by omega)]
    refine iff_of_false Bool.false_ne_true ?_
    rintro (h | ⟨n, -, rfl, -⟩)
    · exact Bool.false_ne_true h
    · have := dcBit_lt p n
      omega

theorem dcBit_injective {p : Plane} {m n : Nat} (hm : m < p.nb) (hn : n < p.nb) (h : dcBit p m = dcBit p n) : m = n := by
  cases p <;> simp only [dcBit, Plane.nb] at * <;> omega

/-! ### RECON_Y16 and RECON_C8, stage by stage (43_macroblock.md R256, R260) -/

/-- RECON_Y16 with a DC layer, the paths chosen from the promoted word. -/
theorem reconY16_dc_stages {border : Bool} {s t : State} (h : reconY16 true border s = .ok t) :
    ∃ u v, ihs4 s = .ok u ∧ promote .y u = .ok v ∧ reconPlane .y (masked .y border v.cntrlY) true v = .ok t := by
  simp only [reconY16, reconYDc, if_true] at h
  split at h
  · cases h
  · rename_i v hv
    split at hv
    · cases hv
    · rename_i u hu
      exact ⟨u, v, hu, hv, h⟩

/-- RECON_C8, the paths chosen from the word both planes' promotions left. -/
theorem reconC8_stages {border : Bool} {s t : State} (h : reconC8 border s = .ok t) :
    ∃ v u, runAll reconCDc [.cb, .cr] s = .ok v ∧ reconPlane .cb (masked .cb border v.cntrlC) true v = .ok u ∧
      reconPlane .cr (masked .cb border v.cntrlC) true u = .ok t := by
  simp only [reconC8] at h
  split at h
  · cases h
  · rename_i v hv
    split at h
    · cases h
    · rename_i u hu
      exact ⟨v, u, hv, hu, h⟩

theorem RecOnly.trans {s t u : State} (h : RecOnly s t) (k : RecOnly t u) : RecOnly s u :=
  ⟨h.lm.trans k.lm, fun a ha => (k.read a ha).trans (h.read a ha)⟩

/-- Reconstruction of a plane writes samples alone. -/
theorem reconPlane_recOnly {p : Plane} {m : Word} {f : Bool} {s t : State} (h : reconPlane p m f s = .ok t) :
    RecOnly s t := by
  refine (runAll_holds (I := RecOnly s) (D := fun _ _ => True) (fun n hn u v hu huv => ?_) h (RecOnly.refl s)).1
  obtain ⟨g, rfl, -⟩ := recon1_stores (planeBlocks_lt hn) huv
  exact ⟨hu.trans (recStored_recOnly (planeBlocks_lt hn) g u), trivial, fun _ _ _ => trivial⟩

/-! ### The chroma part of CBP (43_macroblock.md R254) -/

/-- A field of two bits, bit by bit. -/
theorem bits_two (w : Word) (lo : Nat) : bits w (lo + 1) lo = (w.getLsbD lo).toNat + 2 * (w.getLsbD (lo + 1)).toNat := by
  have half : w.toNat / 2 ^ (lo + 1) = w.toNat / 2 ^ lo / 2 := by rw [pow_succ, Nat.div_div_eq_div_mul]
  have toNat (x : Nat) : (decide (x % 2 = 1)).toNat = x % 2 := by
    rcases Nat.mod_two_eq_zero_or_one x with h | h <;> rw [h] <;> rfl
  rw [bits_eq, getLsbD_eq_decide, getLsbD_eq_decide, half, toNat, toNat, show lo + 1 - lo + 1 = 2 by omega]
  omega

/-- The value of CBP_C. -/
def cbpCode (ac dc : Bool) : Nat := if ac then 2 else if dc then 1 else 0

/-- CBP_C, NZ_CB and NZ_CR of a CBP put together from its kept bits and its three chroma fields. -/
theorem chromaFields (cbp : Word) (ac dc b r : Bool) :
    let w := (cbp &&& 0xFFFFFF0F) ||| BitVec.ofNat 32 (16 * cbpCode ac dc + 64 * b.toNat + 128 * r.toNat)
    bits w 5 4 = cbpCode ac dc ∧ w.getLsbD 6 = b ∧ w.getLsbD 7 = r := by
  intro w
  have kept : ∀ i, 4 ≤ i → i < 8 → w.getLsbD i =
      (BitVec.ofNat 32 (16 * cbpCode ac dc + 64 * b.toNat + 128 * r.toNat)).getLsbD i := fun i h4 h8 => by
    have clear : ∀ i, i < 8 → 4 ≤ i → (0xFFFFFF0F : Word).getLsbD i = false := by decide
    rw [BitVec.getLsbD_or, BitVec.getLsbD_and, clear i h8 h4, Bool.and_false, Bool.false_or]
  rw [bits_two w 4, kept 4 (by decide) (by decide), kept 5 (by decide) (by decide), kept 6 (by decide) (by decide),
    kept 7 (by decide) (by decide)]
  clear kept
  revert ac dc b r
  decide

/-- The chroma fields of CBP from the counts. -/
theorem withChromaCbp_fields (cbp : Word) (dcb dcr : Nat) (acb acr : List Nat) :
    bits (withChromaCbp cbp dcb dcr acb acr) 5 4 =
        cbpCode (acb.any (· > 0) || acr.any (· > 0)) (decide (dcb + dcr > 0)) ∧
      (withChromaCbp cbp dcb dcr acb acr).getLsbD 6 = (decide (dcb > 0) || acb.any (· > 0)) ∧
      (withChromaCbp cbp dcb dcr acb acr).getLsbD 7 = (decide (dcr > 0) || acr.any (· > 0)) := chromaFields cbp ..

theorem any_quad (f : Nat → Nat) : ([0, 1, 2, 3].map f).any (· > 0) = true ↔ ∃ n, n < 4 ∧ f n > 0 := by
  simp only [List.any_map, List.any_eq_true, mem_quad, Function.comp_apply, decide_eq_true_eq]

/-- CHROMA_CBP from the counts. -/
theorem chromaCbp_ok {s : State} {dcb dcr : Nat} {acb acr : Nat → Nat} (hdb : nnzdc .cb s = .ok dcb)
    (hdr : nnzdc .cr s = .ok dcr) (hb : ∀ n, n < 4 → nnz .cb n s = .ok (acb n))
    (hr : ∀ n, n < 4 → nnz .cr n s = .ok (acr n)) :
    chromaCbp s = .ok { s with
      cbp := withChromaCbp s.cbp dcb dcr ([0, 1, 2, 3].map acb) ([0, 1, 2, 3].map acr) } := by
  simp only [chromaCbp, hdb, hdr, readAll_ok fun n hn => hb n (mem_quad.mp hn), readAll_ok fun n hn => hr n (mem_quad.mp hn)]

end Laws

open Sys2Proof.Claims

/-- Settles O50: the branches of RECON1, and the two masks bit by bit. -/
theorem pathSelectionAndBorderMask : Obligations.PathSelectionAndBorderMask := by
  refine ⟨fun p m f n s _ => ?_, fun w => ⟨fun n hn b hb => ?_, fun p n hp hn b hb => ?_, fun _ => rfl⟩⟩
  · rw [← Laws.acBit_idx, ← Laws.dcBit_idx]
    exact ⟨Laws.recon1_full f s, Laws.recon1_dcOnly f s, Laws.recon1_copy f s⟩
  · obtain ⟨hac, hdc⟩ := Laws.borderMask_luma hn
    rw [Laws.getLsbD_masked]
    rcases hb with rfl | rfl
    · rw [hac]
    · rw [hdc]
  · obtain ⟨hac, hdc⟩ := Laws.borderMask_chroma p hp n hn
    rw [Laws.getLsbD_masked]
    rcases hb with rfl | rfl
    · rw [hac]
    · rw [hdc]

/-- Settles O51: the promoted word bit by bit; the paths are then chosen from the register, which reconstruction leaves. -/
theorem promotion : Obligations.Promotion := by
  refine ⟨fun p s r hr => ⟨_, Laws.promote_ok hr, fun n hn => ?_, fun b hb => ?_⟩, fun border s t h => ?_,
    fun border s t h => ?_⟩
  · refine (Laws.getLsbD_promoted p r _ _).trans (or_congr_right ⟨?_, fun hne => ⟨n, hn, rfl, hne⟩⟩)
    rintro ⟨m, hm, he, hne⟩
    rwa [Laws.dcBit_injective hn hm he]
  · refine Bool.eq_iff_iff.mpr ((Laws.getLsbD_promoted p r _ _).trans (or_iff_left ?_))
    rintro ⟨n, hn, he, -⟩
    exact hb n hn he
  · obtain ⟨u, v, hu, hv, ht⟩ := Laws.reconY16_dc_stages h
    obtain ⟨m, rfl⟩ := (Laws.reconPlane_recOnly ht).lm
    exact ⟨u, v, hu, hv, rfl, ht⟩
  · obtain ⟨v, u, hv, hu, ht⟩ := Laws.reconC8_stages h
    obtain ⟨m, rfl⟩ := (Laws.reconPlane_recOnly hu).lm
    obtain ⟨m', rfl⟩ := (Laws.reconPlane_recOnly ht).lm
    exact ⟨v, _, hv, rfl, hu, ht⟩

/-- Settles O55, from the three fields of the word CHROMA_CBP stores. -/
theorem chromaCbpResult : Obligations.ChromaCbp := by
  intro s dcb dcr acb acr hdb hdr hb hr
  obtain ⟨hcode, hcb, hcr⟩ := Laws.withChromaCbp_fields s.cbp dcb dcr ([0, 1, 2, 3].map acb) ([0, 1, 2, 3].map acr)
  refine ⟨_, Laws.chromaCbp_ok hdb hdr hb hr, Laws.withChromaCbp_keep _ _ _ _ _ (by decide), fun ⟨n, hn, hpos⟩ => ?_,
    fun hzero => ?_, ?_, ?_⟩
  · refine hcode.trans (if_pos (Bool.or_eq_true_iff.mpr ?_))
    exact hpos.imp (fun h => (Laws.any_quad acb).mpr ⟨n, hn, h⟩) fun h => (Laws.any_quad acr).mpr ⟨n, hn, h⟩
  · have none : ¬ (([0, 1, 2, 3].map acb).any (· > 0) || ([0, 1, 2, 3].map acr).any (· > 0)) = true := fun h => by
      rcases Bool.or_eq_true_iff.mp h with h | h
      · obtain ⟨n, hn, hpos⟩ := (Laws.any_quad acb).mp h
        exact Nat.ne_of_gt hpos (hzero n hn).1
      · obtain ⟨n, hn, hpos⟩ := (Laws.any_quad acr).mp h
        exact Nat.ne_of_gt hpos (hzero n hn).2
    refine hcode.trans ((if_neg none).trans ?_)
    simp only [decide_eq_true_eq]
  · rw [hcb, Bool.or_eq_true_iff, decide_eq_true_eq, Laws.any_quad]
  · rw [hcr, Bool.or_eq_true_iff, decide_eq_true_eq, Laws.any_quad]

end Sys2Proof.Machine
end

section
/-! PROOFS. RECON_Y16 and RECON_C8 in terms of the primitive commands (43_macroblock.md R256 to R260): what the
reconstruction steps read (`SameInputs`), and that they do the same from every state that agrees there. -/

namespace Sys2Proof.Machine

namespace Laws

open Sys2Proof.Claims

/-! ### What the reconstruction steps read -/

/-- `s` and `x` agree in everything the reconstruction steps read: what the host loads, and the buffers from COEF on. -/
structure SameInputs (s x : State) : Prop where
  host : HostKept s x
  read : ∀ a, 0x1000 ≤ a → x.lm.read a = s.lm.read a

theorem SameInputs.symm {s x : State} (h : SameInputs s x) : SameInputs x s :=
  ⟨h.host.symm, fun a ha => (h.read a ha).symm⟩

theorem SameInputs.trans {s x y : State} (h : SameInputs s x) (k : SameInputs x y) : SameInputs s y :=
  ⟨h.host.trans k.host, fun a ha => (k.read a ha).trans (h.read a ha)⟩

/-- States that differ in registers no host loads. -/
theorem SameInputs.of_lm {s x : State} (hp : hostPart x = hostPart s) (hl : x.lm = s.lm) : SameInputs s x :=
  ⟨⟨hp, fun _ _ => by rw [hl]⟩, fun _ _ => by rw [hl]⟩

theorem sameInputs_accept (w : Word) (s : State) : SameInputs s (accept w s) := .of_lm rfl rfl

theorem sameInputs_complete (s : State) : SameInputs s (complete s) := .of_lm rfl rfl

theorem sameInputs_cntrlY (w : Word) (s : State) : SameInputs s { s with cntrlY := w } := .of_lm rfl rfl

theorem sameInputs_cntrlC (w : Word) (s : State) : SameInputs s { s with cntrlC := w } := .of_lm rfl rfl

theorem RecOnly.sameInputs {s t : State} (h : RecOnly s t) : SameInputs s t := ⟨h.hostKept, fun a ha => h.read a (.inr ha)⟩

section

variable {s x : State} (h : SameInputs s x)

include h

theorem SameInputs.coef (p : Plane) (n k : Nat) : coef p n k x = coef p n k s := by
  have := coefAddr_ge p n k
  exact lmSigned_congr (h.read _ (by omega)) (h.read _ (by omega))

theorem SameInputs.dccoef (p : Plane) (k : Nat) : dccoef p k x = dccoef p k s :=
  lmSigned_congr (h.read _ (by simp only [dccoefAddr]; omega)) (h.read _ (by simp only [dccoefAddr]; omega))

theorem SameInputs.dcrec (p : Plane) (n : Nat) : dcrec p n x = dcrec p n s :=
  dcrec_same fun a h0 _ => h.read a (by simp only [dcrecAddr] at h0; omega)

theorem SameInputs.withScales (p : Plane) {k : Nat} (hk : k < 16) (f : Nat → Nat → Int) :
    withScales p k x f = withScales p k s f := by
  simp only [Machine.withScales, h.host.table p (show tableIscale < 4 by decide) hk,
    h.host.table p (show tableWeight < 4 by decide) hk]

theorem SameInputs.iqInput (p : Plane) (n : Nat) (dcsrc : Bool) {k : Nat} (hk : k < 16) :
    iqInput p n dcsrc x k = iqInput p n dcsrc s k := by
  simp only [Machine.iqInput, dequantAt, h.coef, h.dcrec, h.withScales p hk, h.host.qpDiv, h.host.invTmpWrap16]

end

/-! ### IHS4 and IHS2 -/

/-- A byte after a run of stores depends on what stood there alone. -/
theorem read_writeHalves_congr {m m' : Memory} {y : Nat} (h : m'.read y = m.read y) (a : Nat) (vs : List Half) :
    (m'.writeHalves a vs).read y = (m.writeHalves a vs).read y := by
  induction vs generalizing m m' a with
  | nil => exact h
  | cons v vs ih => exact ih (by simp only [Memory.writeHalf, MemoryLaws.read_write, h]) _

theorem SameInputs.putSigned {s x : State} (h : SameInputs s x) (a : Nat) (vs : List Int) :
    SameInputs (s.putSigned a vs) (x.putSigned a vs) where
  host := ⟨h.host.part, fun b hb => read_writeHalves_congr (h.host.below b hb) a _⟩
  read b hb := read_writeHalves_congr (h.read b hb) a _

/-- Steps that store 16-bit values at `a`, the same from every state with the same inputs. -/
def StoresAt (a : Nat) (f : State → Except Stop State) : Prop :=
  ∀ s t, f s = .ok t → ∃ vs, t = s.putSigned a vs ∧ ∀ x, SameInputs s x → f x = .ok (x.putSigned a vs)

theorem ihs4_storesAt : StoresAt (dcrecAddr .y 0) ihs4 := by
  intro s t h
  simp only [ihs4] at h
  split at h
  · cases h
  · rename_i dcs hdcs
    split at h
    · cases h
    · rename_i recs hrecs
      cases h
      refine ⟨recs, rfl, fun x hx => ?_⟩
      simp only [ihs4, hx.dccoef, hdcs, hx.withScales .y (show 0 < 16 by decide), hx.host.qpDiv, hrecs]

theorem ihs2_storesAt (p : Plane) : StoresAt (dcrecAddr p 0) (ihs2 p) := by
  intro s t h
  simp only [ihs2] at h
  split at h
  · cases h
  · rename_i dcs hdcs
    split at h
    · cases h
    · rename_i recs hrecs
      cases h
      refine ⟨recs, rfl, fun x hx => ?_⟩
      simp only [ihs2, hx.dccoef, hdcs, hx.withScales p (show 0 < 16 by decide), hx.host.qpDiv, hrecs]

/-- Such steps as a command of their own, from a state with the same inputs. -/
theorem exec_storesAt {i : Instr} {a : Nat} {s x t : State} (hf : StoresAt a (stepsOf i)) (hc : issueCheck i x = none)
    (hx : SameInputs s x) (h : stepsOf i s = .ok t) : ∃ y, exec i x = .next y ∧ SameInputs t y := by
  obtain ⟨vs, rfl, hsame⟩ := hf s t h
  have hacc := hx.trans (sameInputs_accept (encode i) x)
  exact ⟨_, exec_completed hc (hsame _ hacc), (hacc.putSigned a vs).trans (sameInputs_complete _)⟩

/-! ### The paths -/

/-- A reconstructed sub-block stores samples that every state with the same inputs gives it. -/
theorem recon1_stores_inputs {p : Plane} {m : Word} {f : Bool} {n : Nat} (hn : n < p.nb) {s t : State}
    (h : recon1 p m f n s = .ok t) : ∃ g, (∀ k, k < 16 → g k < 256) ∧ t = recStored p n g s ∧
      ∀ x, SameInputs s x → recon1 p m f n x = .ok (recStored p n g x) := by
  simp only [recon1] at h ⊢
  split at h
  · rename_i hac
    obtain ⟨d, pr, hd, hpr, rfl⟩ := iqtr4_stores h
    refine ⟨fullSamples s.invTmpWrap16 d pr, fun _ _ => sampleOf_lt _ _, rfl, fun x hx => ?_⟩
    rw [if_pos hac, iqtr4_of_inputs (fun k hk => (hx.host.predSample hn hk).trans (hpr k hk))
      fun k hk => (hx.iqInput p n f hk).trans (hd k hk), hx.host.invTmpWrap16]
  · rename_i hac
    split at h
    · rename_i hdc
      obtain ⟨q0, pr, hq, hpr, rfl⟩ := iqtr4dc_stores h
      refine ⟨offsetSamples q0 pr, fun _ _ => sampleOf_lt _ _, rfl, fun x hx => ?_⟩
      rw [if_neg hac, if_pos hdc, iqtr4dc_of_inputs (fun k hk => (hx.host.predSample hn hk).trans (hpr k hk))
        ((hx.iqInput p n f (by decide)).trans hq)]
    · rename_i hdc
      obtain ⟨pr, hpr, rfl⟩ := copy4_stores h
      refine ⟨_, fun _ => pred_lt hpr, rfl, fun x hx => ?_⟩
      rw [if_neg hac, if_neg hdc, copy4_of_inputs fun k hk => (hx.host.predSample hn hk).trans (hpr k hk)]

theorem pathCommand_eq (p : Plane) (m : Word) (f : Bool) (n : Fin 16) :
    pathCommand p m f n = if m.getLsbD (acBit p n) = true then .iqtr4 p n f
      else if m.getLsbD (dcBit p n) = true then .iqtr4dc p n f else .copy4 p n := by
  rw [acBit_idx, dcBit_idx, pathCommand]

/-- The steps of a path's command are those of RECON1. -/
theorem stepsOf_pathCommand (p : Plane) (m : Word) (f : Bool) (n : Fin 16) (s : State) :
    stepsOf (pathCommand p m f n) s = recon1 p m f n s := by
  rw [pathCommand_eq, recon1]
  split
  · rfl
  · split <;> rfl

theorem issueCheck_pathCommand {p : Plane} {n : Fin 16} {s : State} (hn : n.val < p.nb) (hq : qpDiv p s ≤ 8) (m : Word)
    (f : Bool) : issueCheck (pathCommand p m f n) s = none := by
  have reads : ∀ q ∈ [p], qpDiv q s ≤ 8 := List.forall_mem_singleton.mpr hq
  rw [pathCommand_eq]
  split
  · exact issueCheck_eq_none (decide_eq_true hn) reads
  · split
    · exact issueCheck_eq_none (decide_eq_true hn) reads
    · exact issueCheck_eq_none (decide_eq_true hn) fun _ hq => nomatch hq

/-! ### A plane reconstructed -/

/-- REC at sub-block `n` of `u` is what RECON1 stores there from every state with the inputs of `s`. -/
def PathDone (p : Plane) (m : Word) (f : Bool) (s : State) (n : Nat) (u : State) : Prop :=
  ∃ g, (∀ k, k < 16 → g k < 256) ∧ RecIs p n u g ∧ ∀ x, SameInputs s x → recon1 p m f n x = .ok (recStored p n g x)

theorem sample_mem_recAddrs (p : Plane) (n : Nat) {k : Nat} (hk : k < 16) :
    sampleAddr recBase p n (k / 4) (k % 4) ∈ recAddrs p n := List.mem_map.mpr ⟨k, mem_raster hk, rfl⟩

/-- Another sub-block's samples leave a reconstructed one as it is. -/
theorem PathDone.stored {p : Plane} {m : Word} {f : Bool} {s u : State} {n b : Nat} (h : PathDone p m f s b u)
    (hn : n < p.nb) (hb : b < p.nb) (hne : b ≠ n) (g : Nat → Nat) : PathDone p m f s b (recStored p n g u) := by
  obtain ⟨g', hlt, hrec, hpath⟩ := h
  refine ⟨g', hlt, fun k hk => (lmSample_congr ?_).trans (hrec k hk), hpath⟩
  exact read_recStored_out hn (fun ha => hne (recAddrs_unique hb hn (sample_mem_recAddrs p b hk) ha)) g u

theorem reconPlane_paths {p : Plane} {m : Word} {f : Bool} {s t : State} (h : reconPlane p m f s = .ok t) :
    ∀ n ∈ planeBlocks p, PathDone p m f s n t := by
  refine (runAll_holds (I := SameInputs s) (fun n hn u v hu huv => ?_) h (.of_lm rfl rfl)).2
  have hn := planeBlocks_lt hn
  obtain ⟨g, hlt, rfl, hpath⟩ := recon1_stores_inputs hn huv
  have own : PathDone p m f s n (recStored p n g u) :=
    ⟨g, hlt, recIs_recStored p n hlt u, fun x hx => hpath x (hu.symm.trans hx)⟩
  refine ⟨hu.trans (recStored_recOnly hn g u).sameInputs, own, fun b hb hdone => ?_⟩
  rcases eq_or_ne b n with rfl | hne
  · exact own
  · exact hdone.stored hn (planeBlocks_lt hb) hne g

/-- REC of a reconstructed plane is what the paths' commands leave, from every state with the same inputs. -/
theorem reconPlane_reconstructed {p : Plane} {m : Word} {f : Bool} {s t x : State} (h : reconPlane p m f s = .ok t)
    (hx : SameInputs s x) (hq : qpDiv p x ≤ 8) : Reconstructed p m f x t := by
  intro n hn
  obtain ⟨g, hlt, hrec, hpath⟩ := reconPlane_paths h n (mem_planeBlocks hn)
  obtain ⟨u, hu, hurec, -⟩ := exec_recStored (issueCheck_pathCommand hn hq m f)
    ((stepsOf_pathCommand p m f n _).trans (hpath _ (hx.trans (sameInputs_accept _ x)))) hlt
  exact ⟨u, hu, fun k hk => (hrec k hk).trans (hurec k hk).symm⟩

/-- A reconstructed plane stays so while its samples do. -/
theorem Reconstructed.same {p : Plane} {m : Word} {f : Bool} {x t u : State} (h : Reconstructed p m f x t)
    (hs : ∀ a ∈ recPlaneAddrs p, u.lm.read a = t.lm.read a) : Reconstructed p m f x u := by
  intro n hn
  obtain ⟨v, hv, hsame⟩ := h n hn
  exact ⟨v, hv, fun k hk => (lmSample_congr (hs _ (recAddrs_plane hn (sample_mem_recAddrs p n hk)))).trans (hsame k hk)⟩

/-! ### From a command's end to its steps -/

/-- A command that moves no cursor and passes its issue checks ends where its steps do. -/
theorem steps_of_exec {i : Instr} {s t : State} (hc : issueCheck i s = none) (hk : csrKept i .arenaCur ≠ 0)
    (h : exec i s = .next t) : ∃ u, stepsOf i (accept (encode i) s) = .ok u ∧ t = complete u := by
  cases exec_cases i 0 s with
  | refused code hr _ => exact nomatch hc.symm.trans hr
  | completed u _ hs _ he => exact ⟨u, hs, Host.Outcome.next.inj (h.symm.trans he)⟩
  | overflowed u _ _ hk' _ _ => exact absurd hk' hk
  | stopped a _ _ he => exact nomatch h.symm.trans he

/-- The issue checks of the reconstruction commands. -/
theorem issueCheck_reconY16 {s : State} (hq : qpDiv .y s ≤ 8) (dc border : Bool) :
    issueCheck (.reconY16 dc border) s = none := issueCheck_eq_none rfl (List.forall_mem_singleton.mpr hq)

theorem reconY16_keeps_cursor (dc border : Bool) : csrKept (.reconY16 dc border) .arenaCur ≠ 0 := by
  revert dc border; decide

/-! ### RECON_Y16 (43_macroblock.md R256) -/

/-- RECON_Y16 without a DC layer. -/
theorem reconY16_result_plain {border : Bool} {s u : State}
    (hu : reconPlane .y (masked .y border s.cntrlY) false (accept (encode (.reconY16 false border)) s) = .ok u)
    (hq : qpDiv .y s ≤ 8) :
    Reconstructed .y (masked .y border s.cntrlY) false s u ∧ SameInputs s u ∧
      complete u = { completed (.reconY16 false border) s with lm := u.lm } := by
  have acc := sameInputs_accept (encode (.reconY16 false border)) s
  refine ⟨reconPlane_reconstructed hu acc.symm hq, acc.trans (reconPlane_recOnly hu).sameInputs, ?_⟩
  obtain ⟨m, rfl⟩ := (reconPlane_recOnly hu).lm
  rfl

/-- RECON_Y16 with a DC layer: `v` is what IHS4 leaves, `f` the DCRECs there. -/
theorem reconY16_result_dc {border : Bool} {s u : State}
    (hu : reconY16 true border (accept (encode (.reconY16 true border)) s) = .ok u) (hq : qpDiv .y s ≤ 8) :
    ∃ v f, exec .ihs4 s = .next v ∧ SameInputs v u ∧ (∀ n, n < 16 → dcrec .y n v = .ok (f n)) ∧
      u.cntrlY = setDcBits .y 0 (raster.map f) s.cntrlY ∧
      Reconstructed .y (masked .y border u.cntrlY) true { v with cntrlY := u.cntrlY } u ∧
      complete u = { completed (.reconY16 true border) s with cntrlY := u.cntrlY, lm := u.lm } := by
  obtain ⟨a, b, ha, hb, hp⟩ := reconY16_dc_stages hu
  obtain ⟨v, hv, hav⟩ := exec_storesAt (i := .ihs4) ihs4_storesAt
    (issueCheck_eq_none rfl (List.forall_mem_singleton.mpr hq)) (sameInputs_accept _ s).symm ha
  have hqv : qpDiv .y v ≤ 8 := by rwa [(exec_hostKept hv).qpDiv]
  obtain ⟨f, hf, hpromoted⟩ := promote_stores hb
  have hbv : SameInputs b v := hpromoted ▸ (sameInputs_cntrlY _ a).symm.trans hav
  have cntrl : u.cntrlY = b.cntrlY := by
    obtain ⟨m, rfl⟩ := (reconPlane_recOnly hp).lm
    rfl
  refine ⟨v, f, hv, hbv.symm.trans (reconPlane_recOnly hp).sameInputs,
    fun n hn => (hav.dcrec .y n).trans (hf n hn), ?_, ?_, ?_⟩
  · obtain ⟨vs, rfl, -⟩ := ihs4_storesAt _ _ ha
    rw [cntrl, hpromoted]
    rfl
  · rw [cntrl]
    exact reconPlane_reconstructed hp (hbv.trans (sameInputs_cntrlY _ v)) hqv
  · obtain ⟨m, rfl⟩ := (reconPlane_recOnly hp).lm
    obtain ⟨vs, rfl, -⟩ := ihs4_storesAt _ _ ha
    rw [hpromoted]
    rfl

theorem reconY16_result : ReconY16Result := by
  intro dc border s t he hq
  obtain ⟨hframe, -⟩ := commandFrame _ s _ he
  obtain ⟨u, hu, rfl⟩ := steps_of_exec (issueCheck_reconY16 hq dc border) (reconY16_keeps_cursor dc border) he
  cases dc with
  | false =>
    obtain ⟨hrec, same, hfix⟩ := reconY16_result_plain (s := s) hu hq
    have cntrl : (complete u).cntrlY = s.cntrlY := by rw [hfix]; rfl
    refine ⟨s, fun _ => rfl, fun h => (nomatch h), fun n _ => same.dcrec .y n, fun b => ?_, ?_, hframe, ?_⟩
    · rw [cntrl]
      exact (or_iff_left fun h => (nomatch h.1)).symm
    · rw [cntrl]
      exact hrec
    · rw [cntrl]
      exact hfix
  | true =>
    obtain ⟨v, f, hv, same, hf, hcntrl, hrec, hfix⟩ := reconY16_result_dc hu hq
    refine ⟨v, fun h => (nomatch h), fun _ => hv, fun n _ => same.dcrec .y n, fun b => ?_, hrec, hframe, hfix⟩
    rw [show (complete u).cntrlY = _ from hcntrl]
    refine (getLsbD_promoted .y f s.cntrlY b).trans (or_congr_right ⟨?_, ?_⟩)
    · rintro ⟨n, hn, rfl, hne⟩
      exact ⟨rfl, n, f n, hn, rfl, hf n hn, hne⟩
    · rintro ⟨-, n, q, hn, rfl, hdc, hne⟩
      exact ⟨n, hn, rfl, fun h0 => hne ((Except.ok.inj (hdc.symm.trans (hf n hn))).trans h0)⟩

/-! ### RECON_C8 (43_macroblock.md R260) -/

/-- `t` differs from `s` in local memory and CNTRL_C alone. -/
def ChromaOnly (s t : State) : Prop := ∃ m w, t = { s with lm := m, cntrlC := w }

theorem ChromaOnly.trans {s t u : State} : ChromaOnly s t → ChromaOnly t u → ChromaOnly s u := by
  rintro ⟨_, _, rfl⟩ ⟨m, w, rfl⟩
  exact ⟨m, w, rfl⟩

theorem RecOnly.chromaOnly {s t : State} (h : RecOnly s t) : ChromaOnly s t := by
  obtain ⟨m, rfl⟩ := h.lm
  exact ⟨m, _, rfl⟩

/-- The inverse DC layer of a chroma plane is IHS2 on it, from every state with the same inputs. -/
theorem reconCDc_exec {p : Plane} (hp : p ≠ .y) {s t x : State} (h : reconCDc p s = .ok t) (hx : SameInputs s x)
    (hq : qpDiv p x ≤ 8) : ∃ y, exec (.ihs2 p) x = .next y ∧ SameInputs t y ∧ ChromaOnly s t := by
  simp only [reconCDc] at h
  split at h
  · cases h
  · rename_i u hu
    obtain ⟨y, hy, huy⟩ := exec_storesAt (i := .ihs2 p) (ihs2_storesAt p)
      (issueCheck_eq_none (isChroma_of_ne hp) (List.forall_mem_singleton.mpr hq)) hx hu
    obtain ⟨f, -, rfl⟩ := promote_chroma hp h
    obtain ⟨vs, rfl, -⟩ := ihs2_storesAt p _ _ hu
    exact ⟨y, hy, (sameInputs_cntrlC _ _).symm.trans huy, _, _, rfl⟩

/-- The samples of Cb stay when those of Cr are written. -/
theorem reconPlane_cr_keeps_cb {m : Word} {f : Bool} {s t : State} (h : reconPlane .cr m f s = .ok t) :
    ∀ a ∈ recPlaneAddrs .cb, t.lm.read a = s.lm.read a := fun a ha =>
  ((reconPlane_works (lmScope (recPlaneAddrs .cr)) .cr m f s fun _ h => h).ok h).frame a fun hr => by
    have hb := mem_addrs.mp ha
    have hr := mem_addrs.mp hr
    simp [sampleAddr, recBase, planeOffset, planeWidth, row0, col0, Plane.nb] at hb hr
    omega

/-- What the steps of RECON_C8 do, from a state with the inputs of `x`. -/
theorem reconC8_parts {border : Bool} {s x t : State} (h : reconC8 border s = .ok t) (hx : SameInputs s x)
    (hcb : qpDiv .cb x ≤ 8) (hcr : qpDiv .cr x ≤ 8) :
    ∃ u v, exec (.ihs2 .cb) x = .next u ∧ exec (.ihs2 .cr) u = .next v ∧ SameInputs v t ∧ ChromaOnly s t ∧
      ∀ p, p ≠ .y → Reconstructed p (masked .cb border t.cntrlC) true { v with cntrlC := t.cntrlC } t := by
  obtain ⟨b, c, hb, hc, ht⟩ := reconC8_stages h
  obtain ⟨a, ha, hb⟩ := runAll_chroma hb
  obtain ⟨u, hu, hau, only⟩ := reconCDc_exec (by decide) ha hx hcb
  have hostu := exec_hostKept hu
  obtain ⟨v, hv, hbv, only'⟩ := reconCDc_exec (by decide) hb hau (hostu.qpDiv .cr ▸ hcr)
  have host := hostu.trans (exec_hostKept hv)
  have recCb := reconPlane_recOnly hc
  have recCr := reconPlane_recOnly ht
  have cntrl : t.cntrlC = b.cntrlC := (reconPlane_stays ht).1.trans (reconPlane_stays hc).1
  have inputs := hbv.trans (sameInputs_cntrlC b.cntrlC v)
  refine ⟨u, v, hu, hv, hbv.symm.trans (recCb.trans recCr).sameInputs,
    ((only.trans only').trans recCb.chromaOnly).trans recCr.chromaOnly, ?_⟩
  rw [cntrl]
  exact forall_chroma
    (Reconstructed.same (reconPlane_reconstructed hc inputs (host.qpDiv .cb ▸ hcb)) (reconPlane_cr_keeps_cb ht))
    (reconPlane_reconstructed ht (recCb.sameInputs.symm.trans inputs) (host.qpDiv .cr ▸ hcr))

/-- The DC bits promotion of both planes leaves, in terms of the DCRECs. -/
theorem promoted_layerBits {s : State} {f : Plane → Nat → Int} (hf : ∀ p, p ≠ .y → ∀ n, n < 4 → dcrec p n s = .ok (f p n))
    (w : Word) (b : Nat) : (layerBits f w).getLsbD b = true ↔
      w.getLsbD b = true ∨ ∃ p n q, p ≠ .y ∧ n < 4 ∧ b = dcBit p n ∧ dcrec p n s = .ok q ∧ q ≠ 0 := by
  by_cases hb : b < 32
  · rw [getLsbD_layerBits f w hb]
    refine or_congr_right ⟨?_, ?_⟩
    · rintro ⟨p, n, hp, hn, hne, he⟩
      exact ⟨p, n, f p n, hp, hn, he, hf p hp n hn, hne⟩
    · rintro ⟨p, n, q, hp, hn, he, hq, hne⟩
      exact ⟨p, n, hp, hn, by rwa [Except.ok.inj ((hf p hp n hn).symm.trans hq)], he⟩
  · rw [BitVec.getLsbD_of_ge _ _ (by omega), BitVec.getLsbD_of_ge _ _ (by omega)]
    refine iff_of_false (by decide) ?_
    rintro (h | ⟨p, n, -, -, -, rfl, -⟩)
    · cases h
    · have := dcBit_lt p n
      omega

theorem issueCheck_reconC8 {s : State} (hcb : qpDiv .cb s ≤ 8) (hcr : qpDiv .cr s ≤ 8) (border : Bool) :
    issueCheck (.reconC8 border) s = none :=
  issueCheck_eq_none rfl (List.forall_mem_cons.mpr ⟨hcb, List.forall_mem_singleton.mpr hcr⟩)

theorem reconC8_keeps_cursor (border : Bool) : csrKept (.reconC8 border) .arenaCur ≠ 0 := by
  revert border; decide

theorem reconC8_result : ReconC8Result := by
  intro border s t he hcb hcr
  obtain ⟨hframe, -⟩ := commandFrame _ s _ he
  obtain ⟨u, hu, rfl⟩ := steps_of_exec (issueCheck_reconC8 hcb hcr border) (reconC8_keeps_cursor border) he
  obtain ⟨x, v, hx, hv, same, only, hrec⟩ := reconC8_parts hu (sameInputs_accept _ s).symm hcb hcr
  obtain ⟨f, hf, hcntrl⟩ := reconC8_promotes hu
  have stays (p n) : dcrec p n u = dcrec p n v := same.dcrec p n
  refine ⟨x, v, hx, hv, fun p n _ _ => stays p n, fun b => ?_, hrec, hframe, ?_⟩
  · rw [show (complete u).cntrlC = layerBits f s.cntrlC from hcntrl]
    exact promoted_layerBits (fun p hp n hn => (stays p n).symm.trans (hf p hp n hn)) _ b
  · obtain ⟨m, w, rfl⟩ := only
    rfl

end Laws

end Sys2Proof.Machine
end

section
/-! PROOFS. The RECON flag of the coding commands (43_macroblock.md R235, R240, R242, R250), and what a command that ends
abnormally leaves alone (60_exceptions.md R282, R286). -/

namespace Sys2Proof.Machine

namespace Laws

open Sys2Proof.Claims

/-! ### A command whose steps go on as those of another -/

/-- A command `i` that does the steps of `i'` and then those of `j`. -/
structure Continues (i i' j : Instr) (s u : State) : Prop where
  /-- `i` passes its issue checks, and `j` those on the end state of `i'`. -/
  checked : issueCheck i s = none
  checkedNext : issueCheck j u = none
  /-- `j` moves no cursor. -/
  keepsCursor : csrKept j .arenaCur ≠ 0
  steps : ∀ t, stepsOf i' (accept (encode i) s) = .ok t → t.cntrlY = u.cntrlY →
    stepsOf i (accept (encode i) s) = stepsOf j t

/-- Such a command answers what `j` answers on the end state of `i'`, with its own word in CMD. -/
theorem Continues.exec {i i' j : Instr} {s u : State} (h : Continues i i' j s u) (hn : EndsNormally i' s)
    (hu : exec i' s = .next u) : exec i s = withCmd (encode i) (exec j u) := by
  obtain ⟨hc, t, ht, he⟩ := endsNormally_exec hn
  cases hu.symm.trans he
  have err : t.err = s.err := ((stepsOf_works i' 0 _ (wf_of_issueCheck hc)).ok ht).err
  -- `T` is where the steps of `i'` lead with the word of `i` in CMD
  let T := withStatus (encode i) true s.done s.err t
  have first : stepsOf i' (accept (encode i) s) = .ok T := by
    have := stepsOf_blind i' (encode i) true s.done s.err (accept (encode i') s)
    rwa [ht] at this
  have whole : stepsOf i (accept (encode i) s) = stepsOf j T := h.steps T first rfl
  have next : stepsOf j (accept (encode j) (complete t)) =
      mapEnd (withStatus (encode j) true true t.err) (withStatus (encode j) true true t.err) (stepsOf j T) :=
    stepsOf_blind j (encode j) true true t.err T
  have works := stepsOf_works j 0 T (wf_of_issueCheck h.checkedNext)
  simp only [exec_eq, command, h.checked, h.checkedNext, whole, next]
  cases hz : stepsOf j T with
  | ok z =>
    have cmd : z.cmd = encode i := (works.ok hz).cmd
    have errz : z.err = t.err := (works.ok hz).err.trans err.symm
    simp only [mapEnd_ok, finish, withCmd, complete, withStatus, ← cmd, ← errz]
  | error e =>
    cases e with
    | uninit a => rfl
    | raised c z => exact absurd (works.raised hz).1.2 h.keepsCursor

theorem csrKept_pathCommand (p : Plane) (m : Word) (f : Bool) (n : Fin 16) :
    csrKept (pathCommand p m f n) .arenaCur ≠ 0 := by
  have ones : (~~~ 0 : Word) ≠ 0 := by decide
  rw [pathCommand_eq]
  split
  · exact ones
  · split <;> exact ones

/-! ### The RECON flag -/

theorem codeI16_recon {border : Bool} {s t : State} (h : codeI16 false false s = .ok t) :
    codeI16 true border s = reconY16 true border t := by
  simp only [codeI16] at h ⊢
  split at h
  · cases h
  · cases h
    rfl

theorem codeI4_recon {n : Nat} {s t : State} (h : codeI4 n false s = .ok t) :
    codeI4 n true s = recon1 .y t.cntrlY false n t := by
  simp only [codeI4] at h ⊢
  split at h
  · cases h
  · cases h
    rfl

theorem codeL16_recon {elim border : Bool} {s t : State} (h : codeL16 elim false false s = .ok t) :
    codeL16 elim true border s = reconY16 false border t := by
  simp only [codeL16] at h ⊢
  split at h
  · cases h
  · cases h
    rfl

theorem codeC8_recon {elim border : Bool} {s t : State} (h : codeC8 elim false false s = .ok t) :
    codeC8 elim true border s = reconC8 border t := by
  simp only [codeC8] at h ⊢
  split at h
  · cases h
  · cases h
    rfl

theorem reconFlag_runs : ReconFlagRunsTheReconSteps := by
  intro elim border n s u
  refine ⟨fun hq hn hu => ?_, fun hq hn hu => ?_, fun hcb hcr hn hu => ?_, fun hq hn hu => ?_⟩
  all_goals have host := exec_hostKept hu
  · exact Continues.exec (i' := .codeI16 false false)
      { checked := issueCheck_eq_none (Bool.or_true _) (List.forall_mem_singleton.mpr hq)
        checkedNext := issueCheck_reconY16 (host.qpDiv .y ▸ hq) true border
        keepsCursor := reconY16_keeps_cursor true border
        steps := fun t ht _ => codeI16_recon ht } hn hu
  · exact Continues.exec (i' := .codeL16 elim false false)
      { checked := issueCheck_eq_none (Bool.or_true _) (List.forall_mem_singleton.mpr hq)
        checkedNext := issueCheck_reconY16 (host.qpDiv .y ▸ hq) false border
        keepsCursor := reconY16_keeps_cursor false border
        steps := fun t ht _ => codeL16_recon ht } hn hu
  · exact Continues.exec (i' := .codeC8 elim false false)
      { checked := issueCheck_eq_none (Bool.or_true _) (List.forall_mem_cons.mpr ⟨hcb, List.forall_mem_singleton.mpr hcr⟩)
        checkedNext := issueCheck_reconC8 (host.qpDiv .cb ▸ hcb) (host.qpDiv .cr ▸ hcr) border
        keepsCursor := reconC8_keeps_cursor border
        steps := fun t ht _ => codeC8_recon ht } hn hu
  · exact Continues.exec (i' := .codeI4 n false)
      { checked := issueCheck_eq_none rfl (List.forall_mem_singleton.mpr hq)
        checkedNext := issueCheck_pathCommand n.isLt (host.qpDiv .y ▸ hq) u.cntrlY false
        keepsCursor := csrKept_pathCommand .y u.cntrlY false n
        steps := fun t ht hw => by
          rw [stepsOf_pathCommand, ← hw]
          exact codeI4_recon ht } hn hu

end Laws

end Sys2Proof.Machine
end

section
/-! PROOFS. What a command that ends abnormally leaves alone (60_exceptions.md R282, R286), and O52. -/

namespace Sys2Proof.Machine

namespace Laws

open Sys2Proof.Claims

/-! ### What coding does not touch before it ends -/

/-- From `s` to `t` nothing was reconstructed, no cost was reported and MB_START stays. -/
structure Uncommitted (s t : State) : Prop where
  read : ∀ p, ∀ a ∈ recPlaneAddrs p ++ dcrecAddrs p, t.lm.read a = s.lm.read a
  costY : t.costY = s.costY
  costC : t.costC = s.costC
  costAcc : t.costAcc = s.costAcc
  mbStart : t.mbStart = s.mbStart

theorem Uncommitted.trans {s t u : State} (h : Uncommitted s t) (k : Uncommitted t u) : Uncommitted s u where
  read p a ha := (k.read p a ha).trans (h.read p a ha)
  costY := k.costY.trans h.costY
  costC := k.costC.trans h.costC
  costAcc := k.costAcc.trans h.costAcc
  mbStart := k.mbStart.trans h.mbStart

theorem uncommitted_control (s : State) (cur cy cc cb el : Word) :
    Uncommitted s { s with arenaCur := cur, cntrlY := cy, cntrlC := cc, cbp := cb, elim := el } :=
  ⟨fun _ _ _ => rfl, rfl, rfl, rfl, rfl⟩

theorem Uncommitted.refl (s : State) : Uncommitted s s := uncommitted_control s ..

/-- The steps of coding one block, one layer or one record: all they may write, said once. -/
def codingScope : Scope where
  base := 0
  lm a := 0x1000 ≤ a ∧ (a < 0x1380 ∨ 0x13B0 ≤ a)
  keep
    | .costY => 0xFFFFFFFF
    | .costC => 0xFFFFFFFF
    | .costAcc => 0xFFFFFFFF
    | .mbStart => 0xFFFFFFFF
    | _ => 0

theorem not_codingScope {p : Plane} {a : Nat} (ha : a ∈ recPlaneAddrs p ++ dcrecAddrs p) : ¬ codingScope.lm a := by
  rintro ⟨h0, h1⟩
  rcases List.mem_append.mp ha with ha | ha
  · have := mem_recPlane_lt ha
    omega
  · have := mem_addrs.mp ha
    cases p <;> simp only [dcrecAddr, dcOffset, Plane.nb] at this <;> omega

theorem Work.uncommitted {s t : State} (h : Work codingScope s t) : Uncommitted s t where
  read _ a ha := h.frame a (not_codingScope ha)
  costY := h.csr (c := .costY) rfl
  costC := h.csr (c := .costC) rfl
  costAcc := h.csr (c := .costAcc) rfl
  mbStart := h.csr (c := .mbStart) rfl

theorem nnz_codingScope (p : Plane) (n : Nat) : codingScope.lm (nnzAddr p n) := by
  have := nnzAddr_count p n
  exact ⟨by omega, .inr (by omega)⟩

theorem coef_codingScope {p : Plane} {n : Nat} (hn : n < p.nb) : ∀ a ∈ addrs (coefAddr p n 0) 32, codingScope.lm a := by
  intro a ha
  have := mem_addrs.mp ha
  have := coefAddr_ge p n 0
  have := coefAddr_lt hn (show 15 < 16 by decide)
  have := coefAddr_add p n 15
  exact ⟨by omega, .inl (by omega)⟩

theorem code_codingScope (p : Plane) : CodeScope codingScope p where
  coef a ha := by
    obtain ⟨n, hn, ha⟩ := List.mem_flatMap.mp ha
    exact coef_codingScope (planeBlocks_lt hn) a ha
  nnz a ha := by
    have := mem_addrs.mp ha
    have := nnzAddr_count p 0
    exact ⟨by omega, .inr (by omega)⟩
  cur := rfl

theorem dcsave_codingScope (p : Plane) : ∀ a ∈ dcsaveAddrs p, codingScope.lm a := by
  intro a ha
  have := mem_addrs.mp ha
  cases p <;> simp only [dcsaveAddr, dcOffset, Plane.nb] at this <;> exact ⟨by omega, .inl (by omega)⟩

theorem nnzdc_codingScope (p : Plane) : codingScope.lm (nnzdcAddr p) := by
  simp only [nnzdcAddr]
  exact ⟨by omega, .inr (by omega)⟩

theorem dcLayer_codingScope (p : Plane) : ∀ a ∈ dcLayerAddrs p, codingScope.lm a := by
  intro a ha
  rcases List.mem_append.mp ha with ha | ha
  · have := mem_addrs.mp ha
    cases p <;> simp only [dccoefAddr, dcOffset, Plane.nb] at this <;> exact ⟨by omega, .inl (by omega)⟩
  · exact List.mem_singleton.mp ha ▸ nnzdc_codingScope p

theorem cntrlFree_codingScope (p : Plane) : CntrlFree codingScope p := by
  cases p <;> rfl

/-! ### Steps in order -/

/-- Steps that commit nothing, whether they end (in the state `st` of their answer) or raise an error. -/
structure Commitless (st : α → State) (s : State) (r : Except Stop α) : Prop where
  ok : ∀ {a}, r = .ok a → Uncommitted s (st a)
  raised : ∀ {c t}, r = .error (.raised c t) → Uncommitted s t

theorem Works.commitless {s : State} {r : Except Stop State} (h : Works codingScope s r) : Commitless id s r where
  ok e := (h.ok e).uncommitted
  raised e := (h.raised e).2.uncommitted

theorem WorksP.commitless {s : State} {r : Except Stop (α × State)} (h : WorksP codingScope s r) :
    Commitless Prod.snd s r where
  ok e := (h.ok e).uncommitted
  raised e := (h.raised e).2.uncommitted

theorem Commitless.done {st : α → State} {s : State} {a : α} (h : Uncommitted s (st a)) : Commitless st s (.ok a) where
  ok e := by cases e; exact h
  raised e := nomatch e

/-- A read commits nothing. -/
theorem OnlyUninit.commitless {s : State} {r : Except Stop α} (h : OnlyUninit s r) : Commitless (fun _ => s) s r where
  ok _ := Uncommitted.refl s
  raised e := by
    obtain ⟨a, he, -⟩ := h _ e
    cases he

theorem Commitless.after {st : α → State} {s t : State} {r : Except Stop α} (h : Uncommitted s t)
    (k : Commitless st t r) : Commitless st s r where
  ok e := h.trans (k.ok e)
  raised e := h.trans (k.raised e)

/-- A stop of the whole is the stop of a part. -/
theorem Commitless.error {st : α → State} {st' : β → State} {s : State} {r : Except Stop α} {e : Stop}
    (h : Commitless st s r) (he : r = .error e) : Commitless st' s (.error e) where
  ok k := nomatch k
  raised k := by cases k; exact h.raised he

/-! ### The parts of coding -/

theorem ftq4_commitless {p : Plane} {n : Nat} (hn : n < p.nb) (dcx : Bool) (s : State) :
    Commitless id s (ftq4 p n dcx s) := by
  cases dcx with
  | false => exact (ftq4_plain_works hn (coef_codingScope hn) (nnz_codingScope p n) s).commitless
  | true => exact (ftq4_dcx_works (code_codingScope p) (dcsave_codingScope p) hn s).commitless

theorem emitCoef_commitless {p : Plane} {n : Nat} (hn : n < p.nb) (ac : Bool) (s : State) :
    Commitless Prod.snd s (emitCoef p n ac s) := (emitCoef_worksP codingScope ac s hn rfl (nnz_codingScope p n)).commitless

theorem emitDc_commitless (p : Plane) (s : State) : Commitless Prod.snd s (emitDc p s) :=
  (emitDc_worksP codingScope p s rfl (nnzdc_codingScope p)).commitless

theorem emitAcs_commitless {p : Plane} {ns : List Nat} (hn : ∀ n ∈ ns, n < p.nb) (s : State) :
    Commitless Prod.snd s (emitAcs p ns s) :=
  (emitAcs_worksP (code_codingScope p) (cntrlFree_codingScope p) ns s hn).commitless

theorem setLayerBits_works_coding (p : Plane) (s : State) : Works codingScope s (setLayerBits p s) :=
  setLayerBits_works p s (dcBitsScope_free (cntrlFree_codingScope p))

theorem setBits_commitless (n : Nat) (s : State) : Commitless id s (setBits n s) :=
  (setBits_works (free_mask rfl) (free_mask rfl) s).commitless

theorem zeroBlocks_uncommitted {p : Plane} {ns : List Nat} (hn : ∀ n ∈ ns, n < p.nb) (s : State) :
    Uncommitted s (zeroBlocks p ns s) := (work_zeroBlocks (code_codingScope p) ns s hn).uncommitted

/-! ### CODE_I16 -/

theorem i16Dc_commitless (s : State) : Commitless id s (i16Dc s) := by
  have blocks : Works codingScope s (runAll (fun n => ftq4 .y n true) raster s) :=
    works_runAll fun n hn s => ftq4_dcx_works (code_codingScope .y) (dcsave_codingScope .y) (raster_lt hn) s
  simp only [i16Dc]
  split
  · rename_i he; exact blocks.commitless.error he
  · rename_i t ht
    have layer := fhq4_works codingScope t (dcLayer_codingScope .y)
    refine .after (blocks.commitless.ok ht) ?_
    split
    · rename_i he; exact layer.commitless.error he
    · rename_i u hu
      have bits : Commitless id u (setLayerBits .y { u with cntrlY := 0 }) :=
        .after (uncommitted_control u ..) (setLayerBits_works_coding .y _).commitless
      refine .after (layer.commitless.ok hu) ?_
      split
      · rename_i he; exact bits.error he
      · rename_i v hv
        refine .after (bits.ok hv) ?_
        split
        · rename_i he; exact (emitDc_commitless .y v).error he
        · rename_i hw; exact .done ((emitDc_commitless .y v).ok hw)

theorem i16Code_raised {s t : State} {c : ErrorCode} (h : i16Code s = .error (.raised c t)) : Uncommitted s t := by
  have dc := i16Dc_commitless s
  simp only [i16Code] at h
  split at h
  · rename_i he; exact (dc.error he : Commitless id s _).raised h
  · rename_i u hu
    have acs := emitAcs_commitless (p := .y) (fun n hn => blkOrder_lt hn) u
    refine (dc.ok hu).trans ?_
    split at h
    · rename_i he; exact (acs.error he : Commitless id u _).raised h
    · cases h

/-! ### CODE_I4 -/

theorem i4Code_raised {n : Nat} (hn : n < 16) {s t : State} {c : ErrorCode} (h : i4Code n s = .error (.raised c t)) :
    Uncommitted s t := by
  have scope : I4Scope codingScope n :=
    { coef := coef_codingScope (p := .y) hn
      nnz := nnz_codingScope .y n
      cur := rfl
      ac := free_mask rfl
      dc := free_mask rfl
      cbp := free_mask rfl }
  exact ((i4Code_works scope s hn).raised h).2.uncommitted

/-! ### CODE_L16 -/

theorem l16Block_commitless {n : Nat} (hn : n < 16) (s : State) : Commitless Prod.snd s (l16Block n s) := by
  have block := ftq4_commitless (p := .y) hn false s
  simp only [l16Block]
  split
  · rename_i he; exact block.error he
  · rename_i t ht
    have emit := emitCoef_commitless (p := .y) hn false t
    refine .after (block.ok ht) ?_
    split
    · rename_i he; exact emit.error he
    · rename_i r u hu
      refine .after (emit.ok hu) ?_
      split
      · rename_i he; exact (setBits_commitless n u).error he
      · rename_i hv; exact .done ((setBits_commitless n u).ok hv)

theorem l16Blocks_commitless {ns : List Nat} (hn : ∀ n ∈ ns, n < 16) (s : State) :
    Commitless Prod.snd s (l16Blocks ns s) := by
  induction ns generalizing s with
  | nil => exact .done (.refl s)
  | cons n ns ih =>
    have first := l16Block_commitless (hn n (List.mem_cons_self ..)) s
    simp only [l16Blocks]
    split
    · rename_i he; exact first.error he
    · rename_i c t ht
      have rest := ih (fun k hk => hn k (List.mem_cons_of_mem _ hk)) t
      refine .after (first.ok ht) ?_
      split
      · rename_i he; exact rest.error he
      · rename_i cs u hu; exact .done (rest.ok hu : Uncommitted t u)

theorem l16Group_commitless (elim : Bool) (g : Nat) (s : State) : Commitless Prod.snd s (l16Group elim g s) := by
  have blocks := l16Blocks_commitless (fun n hn => groupBlocks_lt (g := g) hn) s
  simp only [l16Group]
  split
  · rename_i he; exact blocks.error he
  · rename_i c t ht
    refine .after (blocks.ok ht) ?_
    split
    · exact .done ((uncommitted_control t ..).trans
        (zeroBlocks_uncommitted (p := .y) (fun n hn => groupBlocks_lt hn) _))
    · split
      · rename_i he
        exact (OnlyUninit.commitless (readAll_onlyUninit fun n => lmSample_onlyUninit _ t)).error he
      · refine .done ?_
        split
        · exact uncommitted_control t ..
        · exact .refl t

theorem l16Groups_commitless (elim : Bool) (gs : List Nat) (s : State) :
    Commitless Prod.snd s (l16Groups elim gs s) := by
  induction gs generalizing s with
  | nil => exact .done (.refl s)
  | cons g gs ih =>
    have first := l16Group_commitless elim g s
    simp only [l16Groups]
    split
    · rename_i he; exact first.error he
    · rename_i c t ht
      refine .after (first.ok ht) ?_
      split
      · rename_i he; exact (ih t).error he
      · rename_i cs u hu; exact .done ((ih t).ok hu : Uncommitted t u)

theorem l16Code_raised {elim : Bool} {s t : State} {c : ErrorCode} (h : l16Code elim s = .error (.raised c t)) :
    Uncommitted s t := by
  simp only [l16Code] at h
  split at h
  · rename_i he
    cases h
    exact (uncommitted_control s ..).trans ((l16Groups_commitless elim [0, 1, 2, 3] _).raised he)
  · cases h

/-! ### CODE_C8 -/

theorem c8DcRecord_commitless (p : Plane) (s : State) : Commitless id s (c8DcRecord p s) := by
  simp only [c8DcRecord]
  split
  · rename_i he; exact (emitDc_commitless p s).error he
  · rename_i ht; exact .done ((emitDc_commitless p s).ok ht)

/-- Steps in order commit nothing if none does. -/
theorem Commitless.runAll {f : α → State → Except Stop State} {l : List α} (h : ∀ a ∈ l, ∀ s, Commitless id s (f a s))
    (s : State) : Commitless id s (runAll f l s) := by
  induction l generalizing s with
  | nil => exact .done (.refl s)
  | cons a l ih =>
    have first := h a (List.mem_cons_self ..) s
    simp only [Machine.runAll]
    split
    · rename_i he; exact first.error he
    · rename_i t ht
      exact .after (first.ok ht) (ih (fun b hb => h b (List.mem_cons_of_mem _ hb)) t)

theorem c8Dc_commitless (s : State) : Commitless id s (c8Dc s) := by
  have blocks : Commitless id s (runAll c8Forward [.cb, .cr] s) :=
    .runAll (fun p hp s => .runAll (fun n hn s => ftq4_commitless (four_lt hn) true s) s) s
  simp only [c8Dc]
  split
  · rename_i he; exact blocks.error he
  · rename_i t ht
    have layers : Commitless id t (runAll fhq2 [.cb, .cr] t) :=
      .runAll (fun p hp s => (fhq2_works codingScope s (chroma_mem hp) (dcLayer_codingScope p)).commitless) t
    refine .after (blocks.ok ht) ?_
    split
    · rename_i he; exact layers.error he
    · rename_i u hu
      have bits : Commitless id u (runAll setLayerBits [.cb, .cr] { u with cntrlC := 0, elim := clrChromaElim u.elim }) :=
        .after (uncommitted_control u ..) (.runAll (fun p _ s => (setLayerBits_works_coding p s).commitless) _)
      refine .after (layers.ok hu) ?_
      split
      · rename_i he; exact bits.error he
      · rename_i v hv
        exact .after (bits.ok hv) (.runAll (fun p _ s => c8DcRecord_commitless p s) v)

theorem c8Ac_commitless (elim : Bool) (p : Plane) (s : State) : Commitless Prod.snd s (c8Ac elim p s) := by
  have acs := emitAcs_commitless (p := p) (ns := [0, 1, 2, 3]) (fun n hn => four_lt hn) s
  simp only [c8Ac]
  split
  · rename_i he; exact acs.error he
  · rename_i any c t ht
    refine .after (acs.ok ht) (.done ?_)
    split
    · exact (uncommitted_control t ..).trans (zeroBlocks_uncommitted (fun n hn => four_lt hn) _)
    · exact .refl t

/-- The counts are read, nothing else. -/
theorem chromaCbp_onlyUninit (s : State) : OnlyUninit s (chromaCbp s) := by
  intro e h
  simp only [chromaCbp] at h
  split at h
  · rename_i he; cases h; exact lmSample_onlyUninit _ s _ he
  · split at h
    · rename_i he; cases h; exact lmSample_onlyUninit _ s _ he
    · split at h
      · rename_i he; cases h; exact readAll_onlyUninit (fun n => lmSample_onlyUninit _ s) _ he
      · split at h
        · rename_i he; cases h; exact readAll_onlyUninit (fun n => lmSample_onlyUninit _ s) _ he
        · cases h

theorem c8Code_raised {elim : Bool} {s t : State} {c : ErrorCode} (h : c8Code elim s = .error (.raised c t)) :
    Uncommitted s t := by
  have dc := c8Dc_commitless s
  simp only [c8Code] at h
  split at h
  · rename_i he; exact (dc.error he : Commitless id s _).raised h
  · rename_i u hu
    have cb := c8Ac_commitless elim .cb u
    refine (dc.ok hu).trans ?_
    split at h
    · rename_i he; exact (cb.error he : Commitless id u _).raised h
    · rename_i costCb v hv
      have cr := c8Ac_commitless elim .cr v
      refine (cb.ok hv).trans ?_
      split at h
      · rename_i he; exact (cr.error he : Commitless id v _).raised h
      · obtain ⟨a, he, -⟩ := chromaCbp_onlyUninit _ _ h
        cases he

/-! ### Every command -/

/-- The reconstruction that the RECON flag adds raises no error, so what a coding command raises its coding part does. -/
theorem recon_not_raised {j : Instr} (hw : j.wf = true) (hk : csrKept j .arenaCur ≠ 0) {s t : State} {c : ErrorCode} :
    stepsOf j s ≠ .error (.raised c t) := fun h => hk ((stepsOf_works j 0 s hw).raised h).1.2

theorem codeI16_raised {recon border : Bool} {s t : State} {c : ErrorCode}
    (h : codeI16 recon border s = .error (.raised c t)) : Uncommitted s t := by
  simp only [codeI16] at h
  split at h
  · rename_i he
    cases h
    exact i16Code_raised he
  · split at h
    · exact absurd h (recon_not_raised (j := .reconY16 true border) rfl (reconY16_keeps_cursor true border))
    · cases h

theorem codeI4_raised {n : Fin 16} {recon : Bool} {s t : State} {c : ErrorCode}
    (h : codeI4 n recon s = .error (.raised c t)) : Uncommitted s t := by
  simp only [codeI4] at h
  split at h
  · rename_i he
    cases h
    exact i4Code_raised n.isLt he
  · rename_i u _
    split at h
    · rw [← stepsOf_pathCommand] at h
      refine absurd h (recon_not_raised ?_ (csrKept_pathCommand .y u.cntrlY false n))
      rw [pathCommand_eq]
      split
      · exact decide_eq_true n.isLt
      · split <;> exact decide_eq_true n.isLt
    · cases h

theorem codeL16_raised {elim recon border : Bool} {s t : State} {c : ErrorCode}
    (h : codeL16 elim recon border s = .error (.raised c t)) : Uncommitted s t := by
  simp only [codeL16] at h
  split at h
  · rename_i he
    cases h
    exact l16Code_raised he
  · split at h
    · exact absurd h (recon_not_raised (j := .reconY16 false border) rfl (reconY16_keeps_cursor false border))
    · cases h

theorem codeC8_raised {elim recon border : Bool} {s t : State} {c : ErrorCode}
    (h : codeC8 elim recon border s = .error (.raised c t)) : Uncommitted s t := by
  simp only [codeC8] at h
  split at h
  · rename_i he
    cases h
    exact c8Code_raised he
  · split at h
    · exact absurd h (recon_not_raised (j := .reconC8 border) rfl (reconC8_keeps_cursor border))
    · cases h

theorem pack4_raised {p : Plane} {n : Nat} (hn : n < p.nb) {ac : Bool} {s t : State} {c : ErrorCode}
    (h : pack4 p n ac s = .error (.raised c t)) : Uncommitted s t := by
  simp only [pack4] at h
  split at h
  · rename_i he
    cases h
    exact (emitCoef_commitless hn ac s).raised he
  · cases h

theorem packdc_raised {p : Plane} {s t : State} {c : ErrorCode} (h : packdc p s = .error (.raised c t)) :
    Uncommitted s t := by
  simp only [packdc] at h
  split at h
  · rename_i he
    cases h
    exact (emitDc_commitless p s).raised he
  · cases h

/-- What a command has done when it raises an error. -/
theorem stepsOf_raised {i : Instr} {s t : State} {c : ErrorCode} (hw : i.wf = true) (hk : csrKept i .arenaCur = 0)
    (h : stepsOf i s = .error (.raised c t)) : Uncommitted s t := by
  cases i with
  | pack4 p n ac => exact pack4_raised (of_decide_eq_true hw) h
  | packdc p => exact packdc_raised h
  | codeI16 recon border => exact codeI16_raised h
  | codeI4 n recon => exact codeI4_raised h
  | codeL16 elim recon border => exact codeL16_raised h
  | codeC8 elim recon border => exact codeC8_raised h
  | reconY16 dc border => exact absurd hk (reconY16_keeps_cursor dc border)
  | reconC8 border => exact absurd hk (reconC8_keeps_cursor border)
  | _ => exact absurd (all_kept.symm.trans hk) (by decide)

/-- Recording an error and completing commits nothing. -/
theorem uncommitted_record (c : ErrorCode) (op : Byte) (s : State) : Uncommitted s (complete (record c op s)) where
  read _ _ _ := by simp
  costY := by simp
  costC := by simp
  costAcc := by simp
  mbStart := by simp

theorem uncommitted_cmd (w : Word) (b : Bool) (s : State) : Uncommitted s { s with cmd := w, busy := b } :=
  ⟨fun _ _ _ => rfl, rfl, rfl, rfl, rfl⟩

theorem abnormalEnd_reconstructs_nothing : AbnormalEndReconstructsNothing := by
  intro i s t he hn
  have changes : Uncommitted s t := by
    cases exec_cases i 0 s with
    | refused code _ hr =>
      cases he.symm.trans hr
      exact (uncommitted_cmd (encode i) s.busy s).trans (uncommitted_record ..)
    | completed u hc hs _ _ => exact absurd ((endsNormally_iff i s).mpr ⟨hc, u, hs⟩) hn
    | overflowed u hc hs hk _ hr =>
      cases he.symm.trans hr
      exact ((uncommitted_cmd (encode i) true s).trans (stepsOf_raised (wf_of_issueCheck hc) hk hs)).trans
        (uncommitted_record ..)
    | stopped a _ _ hr => exact nomatch he.symm.trans hr
  exact ⟨changes.read, changes.costY, changes.costC, changes.costAcc, changes.mbStart⟩

end Laws

open Sys2Proof.Claims

/-- Settles O52: RECON_Y16 and RECON_C8 step by step as the primitive commands, the RECON flag as the steps that follow
the coding ones, and of an abnormal end what the steps before the error leave alone. -/
theorem reconstruction : Obligations.Reconstruction :=
  ⟨Laws.reconY16_result, Laws.reconC8_result, Laws.reconFlag_runs, Laws.abnormalEnd_reconstructs_nothing⟩

end Sys2Proof.Machine
end

section
/-! PROOFS. CODE_I4 whose record does not fit (43_macroblock.md R240, 60_exceptions.md R286). -/

namespace Sys2Proof.Machine

namespace Laws

open Sys2Proof.Claims

/-- What CODE_I4 has done before its record: the levels and their count stored, and SETBITS. -/
def i4Prepared (n : Nat) (dc : Int) (lv : Nat → Int) (s : State) : State :=
  { ftStored .y n false dc lv s with cntrlY := levelBits n (raster.map lv) s.cntrlY }

theorem i4Prepared_fixed (n : Nat) (dc : Int) (lv : Nat → Int) (s : State) :
    ∃ m, i4Prepared n dc lv s = { s with lm := m, cntrlY := levelBits n (raster.map lv) s.cntrlY } := by
  obtain ⟨m, hm⟩ := ftStored_lmChange .y n false dc lv s
  exact ⟨m, by rw [i4Prepared, hm]⟩

theorem i4Prepared_lm (n : Nat) (dc : Int) (lv : Nat → Int) (s : State) :
    (i4Prepared n dc lv s).lm = (ftStored .y n false dc lv s).lm := by rw [i4Prepared]

theorem i4Prepared_holds {n : Nat} {dc : Int} {lv : Nat → Int} {s u : State} (hn : n < 16)
    (ht : Transformed .y n false s dc lv) : BlockHolds .y n lv (i4Prepared n dc lv u) :=
  (ht.holds (p := .y) hn u).same fun a _ => by rw [i4Prepared_lm]

/-- The steps of CODE_I4 when its record does not fit, with or without RECON. -/
theorem codeI4_overflows {n : Nat} {dc : Int} {lv : Nat → Int} {s : State} (hn : n < 16)
    (ht : Transformed .y n false s dc lv) (hfit : s.arenaEnd.toNat < s.arenaCur.toNat + recLen (zigzag.map lv))
    (recon : Bool) : codeI4 n recon s = .error (.raised .arenaOvf (i4Prepared n dc lv s)) := by
  have hcoef := (ht.holds (p := .y) hn s).coef
  have cntrl : (ftStored .y n false dc lv s).cntrlY = s.cntrlY := by
    obtain ⟨m, hm⟩ := ftStored_lmChange .y n false dc lv s
    rw [hm]
  have hset : setBits n (ftStored .y n false dc lv s) = .ok (i4Prepared n dc lv s) := by
    rw [setBits_of_levels hcoef, cntrl, i4Prepared]
  have hscan : coefScan .y n (scanStart false) (i4Prepared n dc lv s) = .ok (scanOf false lv) :=
    readAll_ok fun k hk => (i4Prepared_holds hn ht).coef k (scanOf_positions false k hk).1
  have hemit : emit (scanStart false) (scanOf false lv) (i4Prepared n dc lv s) =
      .error (.raised .arenaOvf (i4Prepared n dc lv s)) := by
    obtain ⟨m, hm⟩ := i4Prepared_fixed n dc lv s
    rw [hm]
    exact emit_overflows (scanOf_length false lv).le hfit
  simp only [codeI4, i4Code, ftq4_of_transformed ht, hset, emitCoef, hscan, hemit]

theorem BlockHolds.withStatus {p : Plane} {n : Nat} {lv : Nat → Int} {s : State} (h : BlockHolds p n lv s) (w : Word)
    (b d : Bool) (e : Option ErrorRecord) : BlockHolds p n lv (withStatus w b d e s) := ⟨h.coef, h.nnz⟩

theorem opOf_codeI4 (n : Fin 16) (recon : Bool) : opOf (encode (.codeI4 n recon)) = 0x22 :=
  Sys2Proof.Laws.ReservedZero.opOf_pack _ _ _ _ _ _ _ (by decide) n.isLt

/-- A command whose steps overflow records the error where they led, and completes. -/
theorem exec_raised {i : Instr} {s u : State} (hc : issueCheck i s = none)
    (hs : stepsOf i (accept (encode i) s) = .error (.raised .arenaOvf u)) :
    exec i s = .next (withStatus (encode i) false true (firstError s.err .arenaOvf (opOf (encode i))) u) := by
  have work := ((stepsOf_works i 0 _ (wf_of_issueCheck hc)).raised hs).2
  have cmd : u.cmd = encode i := work.cmd
  have err : u.err = s.err := work.err
  simp only [exec_eq, command, hc, hs, finish, complete_record_eq cmd, cmd, err, firstError]

end Laws

open Sys2Proof.Claims

/-- Settles O57: the record is the first step that can overflow, so the error is raised where the steps before it led. -/
theorem codeI4Overflow : Obligations.CodeI4Overflow := by
  intro n recon s src pr sc th hsrc hpr hsc hth hrecon lv hfit
  have hc := Laws.issueCheck_codeI4 (n := n) hrecon
  have ht := Laws.transformed_of_inputs (dcx := false) hsrc hpr (fun k hk _ => hsc k hk) fun k hk _ => hth k hk
  rw [Laws.ftq4Level_plain] at ht
  have steps (r : Bool) := Laws.codeI4_overflows n.isLt
    (ht.congr (p := .y) (Laws.hostKept_accept (encode (.codeI4 n recon)) s) n.isLt) hfit r
  obtain ⟨m, hm⟩ := Laws.i4Prepared_fixed n _ lv (accept (encode (.codeI4 n recon)) s)
  have holds := Laws.i4Prepared_holds (u := accept (encode (.codeI4 n recon)) s) n.isLt ht
  rw [hm] at steps holds
  have ended := holds.withStatus (encode (.codeI4 n recon)) false true (firstError s.err .arenaOvf 0x22)
  have frame := ((Laws.stepsOf_works (.codeI4 n false) 0 _ rfl).raised (steps false)).2.frame
  have he := Laws.exec_raised hc (steps recon)
  rw [Laws.opOf_codeI4] at he
  exact ⟨_, he, ended.coef, ended.nnz, frame, rfl⟩

end Sys2Proof.Machine
end

section
/-! PROOFS. How a command ends: refused at issue with no other effect, or completed with at most ARENA_OVF recorded, and
the same whatever error stands already (60_exceptions.md R282 to R288). -/

namespace Sys2Proof.Machine

namespace Laws

open Sys2Proof.Claims

/-! ### The issue checks that refuse (30_encoding.md R116, R117) -/

theorem issueCheck_illegalField {i : Instr} (hw : i.wf = false) (s : State) : issueCheck i s = some .illegalField := by
  simp only [issueCheck, hw, Bool.not_false, if_true]

theorem issueCheck_badQparam {i : Instr} {s : State} (hw : i.wf = true) (hq : ∃ p ∈ qpDivRead i, qpDiv p s > 8) :
    issueCheck i s = some .badQparam := by
  obtain ⟨p, hp, h8⟩ := hq
  have hbad : qparamOk i s = false := List.all_eq_false.mpr ⟨p, hp, by simpa using h8⟩
  simp only [issueCheck, hw, hbad, Bool.not_true, Bool.not_false, Bool.false_eq_true, if_false, if_true]

/-- A command that an issue check refuses records the check's error and completes (60_exceptions.md R282). -/
theorem exec_refused {i : Instr} {s : State} {code : ErrorCode} (hc : issueCheck i s = some code) :
    exec i s = .next { completed i s with err := firstError s.err code (opOf (encode i)) } := by
  simp only [exec_eq, command, hc]
  exact congrArg Host.Outcome.next (complete_record_eq (s := { s with cmd := encode i }) rfl code _)

/-! ### The error a command past its issue checks may record -/

/-- A command that may move the cursor writes records. -/
theorem recordRoom_ne_zero {i : Instr} (hk : csrKept i .arenaCur = 0) : recordRoom i ≠ 0 := by
  cases i with
  | pack4 p n ac => cases ac <;> exact Nat.succ_ne_zero _
  | packdc | codeI16 | codeI4 | codeL16 | codeC8 => simp [recordRoom]
  | reconY16 dc border => cases dc <;> exact absurd hk (by simp [csrKept, csrChanged, promoteYChanged])
  | _ => exact absurd hk (by simp [csrKept, csrChanged, beginChanged, promoteCChanged])

/-- Past its issue checks a command keeps ERR, or records ARENA_OVF in a clear ERR (60_exceptions.md R284, R285). -/
theorem exec_err {i : Instr} {s t : State} (hc : issueCheck i s = none) (h : exec i s = .next t) :
    t.err = s.err ∨ (s.err = none ∧ t.err = some ⟨.arenaOvf, opOf (encode i)⟩ ∧ recordRoom i ≠ 0) := by
  cases exec_cases i 0 s with
  | refused code hr => exact nomatch hc.symm.trans hr
  | completed u _ _ hw he =>
    cases he.symm.trans h
    exact .inl hw.err
  | overflowed u _ hs hk =>
    cases (exec_raised hc hs).symm.trans h
    cases first : s.err with
    | none => exact .inr ⟨rfl, rfl, recordRoom_ne_zero hk⟩
    | some e => exact .inl rfl
  | stopped a _ _ he => exact nomatch he.symm.trans h

/-! ### An error recorded before the command (60_exceptions.md R283, R284) -/

/-- An answer with `e` as the recorded error of its next state. -/
def withFirstError (e : ErrorRecord) : Host.Outcome State Fault Refusal → Host.Outcome State Fault Refusal
  | .next t => .next { t with err := some e }
  | .fault f => .fault f
  | .refused r => .refused r

/-- Steps run with `e` recorded finish as they do without, `e` kept in place of their own error. -/
theorem finish_withFirstError {sc : Scope} {s : State} {r : Except Stop State} (hw : Works sc s r) (d : Bool)
    (e : ErrorRecord) : finish (mapEnd (withStatus s.cmd true d (some e)) (withStatus s.cmd true d (some e)) r) =
      withFirstError e (finish r) := by
  cases r with
  | ok t =>
    rw [← (hw.ok rfl).cmd]
    rfl
  | error x =>
    cases x with
    | raised code t =>
      obtain ⟨-, work⟩ := hw.raised rfl
      simp only [mapEnd_raised, finish, record_eq, ← work.cmd]
      rfl
    | uninit a => rfl

/-- A command run with an error recorded answers what it answers with ERR clear, that error kept. -/
theorem exec_withFirstError (i : Instr) (s : State) (e : ErrorRecord) :
    exec i { s with err := some e } = withFirstError e (exec i { s with err := none }) := by
  simp only [exec_eq, command, issueCheck_err]
  cases hc : issueCheck i s with
  | some code => rfl
  | none =>
    have works := stepsOf_works i 0 (accept (encode i) { s with err := none }) (wf_of_issueCheck hc)
    have steps := stepsOf_err i { s with err := none } (some e)
    exact (congrArg finish steps).trans (finish_withFirstError works s.done e)

end Laws

/-- Settles O7, by the check that refuses. -/
theorem refusedCommandHasNoEffect : Obligations.RefusedCommandHasNoEffect := fun _ s =>
  ⟨fun hw => Laws.exec_refused (Laws.issueCheck_illegalField hw s), fun hw hq =>
    Laws.exec_refused (Laws.issueCheck_badQparam hw hq)⟩

/-- Settles O12, from the ends of a command and from the answer with ERR clear. -/
theorem commandEnds : Obligations.CommandEnds := by
  refine ⟨fun i s t h => ?_, fun i s e => ⟨fun t h => ?_, fun a h => ?_⟩⟩
  · have err (hw) (hq) := Laws.exec_err (Laws.issueCheck_eq_none hw hq) h
    obtain ⟨u, e, rfl, -⟩ := Laws.exec_ends h
    exact ⟨rfl, rfl, rfl, err⟩
  · rw [Laws.exec_withFirstError, h, Laws.withFirstError]
  · rw [Laws.exec_withFirstError, h, Laws.withFirstError]

end Sys2Proof.Machine
end

section
/-! PROOFS. The resets (70_reset_and_hazards.md R310 to R312): what an abandoned command's scrambling and the lost arena
range leave alone, and a soft reset written to CTRL. -/

namespace Sys2Proof.Machine

namespace Laws

/-! ### The arena range of an abandoned command (R311) -/

theorem loseArena_arena (s : State) : (loseArena s).arena =
    if s.busy then s.arena.forget s.arenaCur.toNat s.arenaEnd.toNat else s.arena := by
  simp only [loseArena]; split <;> rfl

theorem loseArena_arena_idle {s : State} (hb : s.busy = false) : (loseArena s).arena = s.arena := by
  rw [loseArena_arena, if_neg (Bool.eq_false_iff.mp hb)]

theorem read_loseArena_out {s : State} {a : Nat} (h : a < s.arenaCur.toNat ∨ s.arenaEnd.toNat ≤ a) :
    (loseArena s).arena.read a = s.arena.read a := by
  rw [loseArena_arena]
  split
  · rw [MemoryLaws.read_forget, if_neg (by omega)]
  · rfl

theorem read_loseArena_in {s : State} {a : Nat} (hb : s.busy = true) (h0 : s.arenaCur.toNat ≤ a)
    (h1 : a < s.arenaEnd.toNat) : (loseArena s).arena.read a = none := by
  rw [loseArena_arena, if_pos hb, MemoryLaws.read_forget, if_pos ⟨h0, h1⟩]

theorem loseArena_pending (s : State) : (loseArena s).pending = s.pending := by
  simp only [loseArena]; split <;> rfl

/-! ### The local memory of an abandoned command (R312) -/

theorem read_scrambleFrom_of_notMem (k : Nat) {l : List Nat} {a : Nat} (h : a ∉ l) (m : Memory) :
    (scrambleFrom k l m).read a = m.read a := by
  induction l generalizing m with
  | nil => rfl
  | cons x l ih =>
    obtain ⟨hx, hl⟩ := List.ne_and_not_mem_of_not_mem_cons h
    calc (scrambleFrom k l (m.write x _)).read a
      _ = (m.write x _).read a := ih hl _
      _ = m.read a := MemoryLaws.read_write_ne m _ hx

theorem read_scrambleLm {s : State} {i : Instr} (hr : running s = some i) {a : Nat} (ha : a ∉ lmWritten i) :
    (scrambleLm s).lm.read a = s.lm.read a := by
  simp only [scrambleLm, hr]
  exact read_scrambleFrom_of_notMem _ ha _

/-- Scrambling changes local memory and the counter of free values alone. -/
theorem scrambleLm_change (s : State) : ∃ m k, scrambleLm s = { s with lm := m, free := k } := by
  simp only [scrambleLm]
  split <;> exact ⟨_, _, rfl⟩

/-! ### The soft reset (R312) -/

/-- A soft reset treats the arena as a hardware reset does. -/
theorem softReset_arena (s : State) : (softReset s).arena = (loseArena s).arena := by
  obtain ⟨m, k, hs⟩ := scrambleLm_change s
  show (loseArena (scrambleLm s)).arena = _
  rw [hs, loseArena_arena, loseArena_arena]

theorem softReset_pending (s : State) : (softReset s).pending = s.pending := by
  obtain ⟨m, k, hs⟩ := scrambleLm_change s
  show (loseArena (scrambleLm s)).pending = _
  rw [hs, loseArena_pending]

theorem read_softReset_lm {s : State} {i : Instr} (hr : running s = some i) {a : Nat} (ha : a ∉ lmWritten i) :
    (softReset s).lm.read a = s.lm.read a := by
  show (loseArena (scrambleLm s)).lm.read a = _
  rw [loseArena_lm, read_scrambleLm hr ha]

/-- A write to CTRL with bit 31 set is a soft reset, whatever the other bits. -/
theorem hostWrite_softReset {v : Word} (h : v.getLsbD 31 = true) (s : State) :
    hostWrite .w32 0x0008 v s = softReset (answer false 0 s) := by
  refine (hostWrite_csr .ctrl v s).trans ?_
  show writeCtrl v (answer false 0 s) = _
  rw [writeCtrl, if_pos h]

end Laws

/-- Settles O19: the registers from `resetValues`, memory from what the abandoned command's reset leaves alone. -/
theorem softResetEffect : Obligations.SoftResetEffect := by
  intro v s h
  obtain ⟨-, -, -, reset⟩ := resetValues
  obtain ⟨values, -, cfg, -, irq, -, lmIdle⟩ := reset (answer false 0 s)
  have resp : (hostWrite .w32 0x0008 v s).resp = ⟨false, 0⟩ := Laws.hostWrite_resp (Laws.legalRegion_csr .ctrl) v s
  have arena := Laws.softReset_arena (answer false 0 s)
  rw [Laws.hostWrite_softReset h s] at resp ⊢
  refine ⟨fun c x hx => (values c x hx).2, cfg.trans (Laws.csrValue_answer ..), irq, fun hb => ⟨lmIdle hb, ?_⟩,
    fun i hb hd a ha => Laws.read_softReset_lm (s := answer false 0 s) (Laws.running_decoded hb hd) ha, fun a ha => ?_,
    Laws.softReset_pending _, resp⟩
  · exact arena.trans (Laws.loseArena_arena_idle hb)
  · rw [arena]
    exact Laws.read_loseArena_out ha

/-- Settles O20: a hardware reset leaves the arena as `loseArena` does. -/
theorem hardResetKeepsTheArena : Obligations.HardResetKeepsTheArena := fun s =>
  ⟨Laws.loseArena_arena_idle, fun _ => Laws.read_loseArena_out, fun hb _ => Laws.read_loseArena_in hb,
    Laws.loseArena_pending s⟩

end Sys2Proof.Machine
end
